-- ==== Sys2Proof/Word.lean ====
section
/-!
DEFINITION. The word types of the DQ24's frames and counters, and nothing that a later repair could need to mend.
-/

namespace Sys2Proof

/-- A byte of a frame (R168). -/
abbrev Byte := BitVec 8

/-- A 16-bit field of a frame, an angle or a cycle stamp. -/
abbrev Half := BitVec 16

/-- A 32-bit field: sequence numbers, batch and box numbers, counts, the cycle number. -/
abbrev Word := BitVec 32

end Sys2Proof
end

