-- ==== Sys2Proof/Config.lean ====
section
/-!
DEFINITION. The free values: what the manual leaves open. Each is an opaque constant, so no proof can see what it is
and every claim holds whatever it is. The counter that makes a free value fresh at each use is `State.choice`
(assumption log 21).
-/

namespace Sys2Proof.Config

/-- Of two effects that fall in one step and "may be taken in either order", whether the one named second is taken
first. Free at every use (R30, R81, R96, R155; assumption log 5 and 7). -/
opaque secondFirst : Nat → Bool

/-- The order of crossings of different stations at one angle, which R44 leaves open: at one angle and in one class
the crossing of lower rank is taken first. The arguments are the use, the slot, the station and whether it is the
on-crossing. Free at every use (R44; assumption log 6). -/
opaque crossingRank : Nat → Fin 4 → Fin 16 → Bool → Nat

/-- The 32-bit counts of the batch counter that are increased and have no stated value past 4,294,967,295. -/
inductive CountField where
  | count | rejects | passedDefects | unexpected | inBox | indexInBox
  deriving DecidableEq, Repr

/-- What a 32-bit count of the batch counter becomes when it is increased at 4,294,967,295: R118 gives the range and
no rule says whether the count wraps or holds (assumption log 8). -/
opaque pastMaximum : CountField → Word

/-- The allocated, held and holder bytes of a lock response that names no lock of the pool: R142 and R171 require the
layout and give these bytes no value (assumption log 9). The arguments are the use and the lock number byte. -/
opaque absentLock : Nat → Byte → Byte × Byte × Byte

end Sys2Proof.Config
end

