-- ==== Sys2Proof/Syntax.lean ====
section
/-!
DEFINITION. The commands of the block: one constructor of `Instr` for each row of spec/opcode_table.json. Operands are
the parameters of the catalogue (section 10.3) as they stand in the frame, before any range test, and for the
happenings on the machine side the line concerned. A command offered on more than one port carries its sender.
-/

namespace Sys2Proof

/-- The three ports (00 "Ports and senders"). -/
inductive Port where
  | line | inspection | drive
  deriving DecidableEq, Repr

/-- The parameters of SET CONSTANTS in catalogue order (section 10.3, L = 8). -/
structure RawConstants where
  e : Half
  direction : Byte
  z0 : Half
  p : Byte
  chordEnable : Byte
  purgeCell : Byte
  deriving DecidableEq, Repr

/-- The parameters of SET CELL in catalogue order (section 10.3, L = 9). -/
structure RawCell where
  cell : Byte
  mode : Byte
  polarity : Byte
  edgeSelect : Byte
  filter : Half
  width : Half
  safeLevel : Byte
  deriving DecidableEq, Repr

/-- The thirteen header fields as WRITE FORMAT carries them (section 10.3, 21 bytes). -/
structure RawHeader where
  regEnable : Byte
  target : Half
  deadband : Half
  gain : Half
  cmax : Half
  amax : Half
  missLimit : Byte
  rejectTolerance : Half
  policy : Byte
  standbyCode : Byte
  primeTime : Half
  batchSize : Half
  perBox : Byte
  deriving DecidableEq, Repr

/-- The seven fields of a present station entry as WRITE FORMAT carries them (section 10.3, 10 bytes). -/
structure RawEntry where
  kind : Byte
  position : Byte
  cell : Byte
  onAngle : Half
  offAngle : Half
  leadUs : Half
  enable : Byte
  deriving DecidableEq, Repr

/-- The field group of a WRITE FORMAT with its values (R138 and section 10.3). -/
inductive FormatGroup where
  /-- Group byte 0xFF, L = 23. -/
  | header (h : RawHeader)
  /-- A station index with present flag 0, L = 3. -/
  | absentEntry (index : Fin 16)
  /-- A station index with present flag 1, L = 13. -/
  | presentEntry (index : Fin 16) (entry : RawEntry)
  /-- A group byte that is neither 0xFF nor 0 to 15, with L = 3: it is tested, and refused, under R138. -/
  | unknownGroup (group third : Byte)
  deriving DecidableEq, Repr

/-- The commands, in the table's order. -/
inductive Instr where
  | nop (port : Port)
  | status (port : Port)
  | statusWithAcknowledge
  | readMotion (port : Port)
  | setWindow (port : Port) (first last : Byte)
  | readNext (port : Port)
  | readSeq (port : Port) (seq : Word)
  | peekCell (port : Port) (cell : Byte)
  | takeCell (cell : Byte)
  | stop (port : Port)
  | lockNew (port : Port)
  | lockReturn (port : Port) (lock : Byte)
  | lockTake (port : Port) (lock : Byte)
  | lockRelease (port : Port) (lock : Byte)
  | lockQuery (port : Port) (lock : Byte)
  | writeFormat (port : Port) (slot : Byte) (group : FormatGroup)
  | readFormat (port : Port) (slot group : Byte)
  | commitFormat (port : Port) (slot : Byte)
  | arm
  | disarm
  | clear
  | softReset
  | setConstants (values : RawConstants)
  | setCell (values : RawCell)
  | changeover (slot : Byte)
  | takeBatch
  | peekBatch
  | closeBatch
  | markReject (seq : Word)
  | primeGum
  | nudge (v : Half)
  | setCym (mode : Byte)
  | takeNotice
  | verdict (seq : Word) (outcome code : Byte)
  | takeTrim
  /-- A frame that ended with fewer than 2 + L whole bytes; `bytes` are the bytes counted. -/
  | shortFrame (port : Port) (bytes : List Byte)
  /-- A complete frame with a code outside the catalogue. -/
  | unknownCommand (port : Port) (code : Byte) (params : List Byte)
  /-- A complete frame with a catalogued code that is not offered on this port. -/
  | notOnPort (port : Port) (code : Byte) (params : List Byte)
  /-- A complete frame whose parameters have not the length the catalogue gives for the command. -/
  | parameterLengthMismatch (port : Port) (code : Byte) (params : List Byte)
  | emptyFrame (port : Port)
  | forwardCount
  | backwardCount
  | discardedSample
  | indexCorrection
  | cymPulseEnd
  | haltTimerExpiry
  | crawlThreshold
  /-- The pin of an input cell goes to the level given. -/
  | pinChange (cell : Fin 16) (high : Bool)
  | filterExpiry (cell : Fin 16)
  /-- The pin of a LEVEL_IN cell goes to the level given. -/
  | levelInputChange (cell : Fin 16) (high : Bool)
  | pulseEnd (cell : Fin 16)
  | standbyExpiry
  | primeComplete
  /-- OPA and OPB go to the pin levels given. -/
  | operatorLineChange (opaHigh opbHigh : Bool)
  | chordTaken
  /-- Power is applied, with RSTN low at that moment or not (R162). -/
  | powerOn (rstnLow : Bool)
  | rstnReset
  | rstnRelease
  | portReset (port : Port)
  | portResetRelease (port : Port)
  deriving DecidableEq, Repr

end Sys2Proof
end

