-- ==== Sys2Proof/Machine/State.lean ====
section
/-!
DEFINITION. The state of the DQ24: every piece of state the manual gives the part, block by block (00 "Block
overview"), the lines applied from outside that the part reads, the queue of waiting commands, and the value of all of
it right after power-on. Values that are computed from these (the machine angle, the motion state, the levels of output
cells, the attention lines) are functions in Machine/Ops.lean and Machine/Flags.lean.
-/

namespace Sys2Proof.Machine

/-! ### Small pieces -/

/-- One value for each port. -/
structure PerPort (α : Type) where
  line : α
  inspection : α
  drive : α
  deriving DecidableEq, Repr

/-! ### Machine constants (section 1.1) -/

/-- Count direction (section 1.1). -/
inductive CountDirection where
  | normal | inverted
  deriving DecidableEq, Repr

/-- The set of machine constants (R1, R2): E, count direction, Z0, P, chord enable, purge cell. -/
structure Constants where
  e : Nat
  direction : CountDirection
  z0 : Option Nat
  p : Nat
  chordEnable : Bool
  purgeCell : Option (Fin 16)
  deriving DecidableEq, Repr

/-! ### Angle unit (sections 1.2, 1.3) -/

/-- The sense of a count (R4). -/
inductive CountSense where
  | forward | backward
  deriving DecidableEq, Repr

/-- Motion states, in the order of R11 and with the values of R171. -/
inductive Motion where
  | halted | reverse | crawl | running
  deriving DecidableEq, Repr

/-- The angle unit's state. -/
structure AngleUnit where
  /-- Count position (R5). -/
  p : Nat
  /-- Reverse debt (R6). -/
  debt : Nat
  /-- Direction of the last count taken, none before the first (R7). -/
  lastCount : Option CountSense
  /-- Cycle number (R9). -/
  cycle : Word
  /-- Cycle period Tc in µs (R10). -/
  tc : Nat
  /-- Current-cycle timer in µs (R10). -/
  cycleTimer : Nat
  /-- Whether the cycle timer has a reference head advance (R10). -/
  hasReference : Bool
  /-- Halt timer in µs, expired at 250,000 (R11). -/
  haltTimer : Nat
  /-- QA in the last sample (R4). -/
  qa : Bool
  /-- QB in the last sample (R4). -/
  qb : Bool
  deriving DecidableEq, Repr

/-! ### Line cells (section 1.4) -/

/-- Cell modes, with the values of section 10.3. -/
inductive CellMode where
  | off | edgeIn | levelIn | windowOut | pulseOut
  deriving DecidableEq, Repr

/-- Polarity (R14). -/
inductive Polarity where
  | activeHigh | activeLow
  deriving DecidableEq, Repr

/-- Edge select (R16). -/
inductive EdgeSelect where
  | rising | falling | both
  deriving DecidableEq, Repr

/-- Safe level of an output cell (R20). -/
inductive SafeLevel where
  | inactive | active
  deriving DecidableEq, Repr

/-- A cell's configuration (section 1.4). -/
structure CellConfig where
  mode : CellMode
  polarity : Polarity
  edgeSelect : EdgeSelect
  /-- Filter time in µs. -/
  filter : Nat
  /-- Pulse width in µs. -/
  width : Nat
  safeLevel : SafeLevel
  deriving DecidableEq, Repr

/-- A capture result Z (R16). -/
structure Capture where
  stamp : Half
  angle : Half
  deriving DecidableEq, Repr

/-- A line cell with the pin it stands at. -/
structure Cell where
  config : CellConfig
  /-- The level of an EDGE_IN cell (R16). The level of a cell in another mode is computed (R17 to R20). -/
  level : Bool
  z : Capture
  event : Bool
  overrun : Bool
  /-- µs since the filter interval started, none while no interval runs (R16). -/
  filterTimer : Option Nat
  /-- µs left of the running pulse, none while no pulse runs (R19). -/
  pulseTimer : Option Nat
  /-- Whether the pin is held high from outside (R14, R15). -/
  pinHigh : Bool
  deriving DecidableEq, Repr

/-! ### Blank records and the ring (chapter 2) -/

/-- Operations, in the bit order of R171. -/
inductive Op where
  | window | patch | gum | fold | inspect | count
  deriving DecidableEq, Repr

/-- Blank faults, in the bit order of R171. -/
inductive BlankFault where
  | noMark | regOut | patchMissing | gumSkipped | gumSet | foldMissing | noticeLost | verdictFail | verdictLate
  | operator | lineFault | countMissing | trackLost
  deriving DecidableEq, Repr

/-- The verdict field, in the value order of R171. -/
inductive Verdict where
  | noneDue | awaiting | pass | fail | skipped | missing
  deriving DecidableEq, Repr

/-- Dispositions, in the value order of R171. -/
inductive Disposition where
  | inLine | toReject | cleared | flagged | rejected | delivered | lost
  deriving DecidableEq, Repr

/-- A set of operations: bit k is member k of `Op`, as a record read sends it (R171). -/
abbrev OpSet := BitVec 6

/-- A set of blank faults: bit k is member k of `BlankFault`, as a record read sends it (R171). -/
abbrev FaultSet := BitVec 13

/-- A blank record (section 2.2). -/
structure Blank where
  seq : Word
  fmt : Fin 4
  ops : OpSet
  faults : FaultSet
  regErr : Option Int
  verdict : Verdict
  failCode : Option Byte
  disposition : Disposition
  batch : Option Word
  deriving DecidableEq, Repr

/-- A port's read window, in positions (R34). -/
structure ReadWindow where
  first : Nat
  last : Nat
  pointer : Nat
  deriving DecidableEq, Repr

/-- The tracking ring (R23, R28, R34). -/
structure Ring where
  entries : Vector (Option Blank) 64
  head : Fin 64
  /-- The sequence counter: the seq the next record receives (R28). -/
  nextSeq : Word
  windows : PerPort ReadWindow
  deriving DecidableEq, Repr

/-! ### Stations (chapter 3) -/

/-- Station kinds, in the value order of section 10.3. -/
inductive Kind where
  | window | patch | gum | inspect | reject | kick | box | feed | mark | patchCheck | foldCheck | count
  deriving DecidableEq, Repr

/-- A station's latch (R41, R46). -/
inductive Latch where
  | empty
  | gap
  | blank (seq : Word)
  deriving DecidableEq, Repr

/-- A station's evaluation state (R41) with its cycle lead (R43). -/
structure Station where
  onMark : Bool
  offMark : Bool
  windowOpen : Bool
  latch : Latch
  fired : Bool
  seen : Bool
  firstEdge : Option Half
  missRun : Nat
  lead : Nat
  deriving DecidableEq, Repr

/-! ### Registration unit (chapter 4) -/

/-- Registration states, in the value order of R171. -/
inductive RegState where
  | off | tracking | coasting | lost
  deriving DecidableEq, Repr

/-- The registration unit (R67). -/
structure Registration where
  state : RegState
  missCount : Nat
  /-- Trim total A, in angle units. -/
  total : Int
  /-- Residue ρ, in 65,536ths of a count. -/
  residue : Int
  /-- Pending trim Q, in counts. -/
  trim : Int
  /-- Contribution count n. -/
  contributions : Nat
  /-- Trim age, in head advances. -/
  age : Nat
  overrun : Bool
  limit : Bool
  lastSlot : Option (Fin 4)
  heldCmax : Nat
  heldAmax : Nat
  deriving DecidableEq, Repr

/-! ### Gum circuit (chapter 5) -/

/-- Gum states, in the value order of R171. -/
inductive GumState where
  | off | ready | standby | priming
  deriving DecidableEq, Repr

/-- The gum circuit (R88). -/
structure Gum where
  state : GumState
  /-- Standby timer in µs (R89). -/
  standbyTimer : Nat
  /-- µs left of the prime, none while no prime runs (R93). -/
  primeTimer : Option Nat
  deriving DecidableEq, Repr

/-! ### Verdict unit (chapter 6) -/

/-- A notice (section 6.1). -/
structure Notice where
  seq : Word
  fmt : Fin 4
  stamp : Half
  deriving DecidableEq, Repr

/-! ### Batch counter (chapter 7) -/

/-- The state of an open batch (R118). -/
inductive BatchState where
  | open | held
  deriving DecidableEq, Repr

/-- The cause of a closure, in the value order of R171. -/
inductive CloseCause where
  | full | oversize | short | changeover
  deriving DecidableEq, Repr

/-- The fields of a batch that its log record keeps (R118, R127). -/
structure BatchFields where
  number : Word
  fmt : Fin 4
  heldSize : Nat
  heldPerBox : Nat
  count : Word
  firstSeq : Option Word
  lastSeq : Option Word
  rejects : Word
  passedDefects : Word
  unexpected : Word
  indexInBox : Word
  boxNumber : Word
  suspect : Bool
  mixed : Bool
  deriving DecidableEq, Repr

/-- An open batch (R118). -/
structure OpenBatch where
  fields : BatchFields
  state : BatchState
  deriving DecidableEq, Repr

/-- A closed batch in the log (R127). -/
structure BatchRecord where
  fields : BatchFields
  cause : CloseCause
  deriving DecidableEq, Repr

/-- The batch counter (R118, R131). -/
structure BatchCounter where
  openBatch : Option OpenBatch
  /-- The batch log, oldest first. -/
  log : List BatchRecord
  nextNumber : Word
  boxNumber : Word
  /-- Batches closed into the current box. -/
  inBox : Word
  missRun : Nat
  kick : Bool
  box : Bool
  deriving DecidableEq, Repr

/-! ### Format store (chapter 8) -/

/-- Slot states, in the value order of R171. -/
inductive SlotState where
  | empty | draft | valid
  deriving DecidableEq, Repr

/-- Missing-verdict policies, in the value order of section 10.3. -/
inductive Policy where
  | reject | pass
  deriving DecidableEq, Repr

/-- A slot's header fields (section 8.1). -/
structure Header where
  regOn : Bool
  target : Nat
  deadband : Nat
  gain : Nat
  cmax : Nat
  amax : Nat
  missLimit : Nat
  rejectTolerance : Nat
  policy : Policy
  standbyCode : Nat
  /-- Prime time in units of 100 ms. -/
  primeTime : Nat
  batchSize : Nat
  perBox : Nat
  deriving DecidableEq, Repr

/-- A station entry (R41). -/
structure Entry where
  kind : Kind
  position : Fin 64
  cell : Fin 16
  onAngle : Half
  offAngle : Half
  leadUs : Nat
  enabled : Bool
  deriving DecidableEq, Repr

/-- A format slot (R136). -/
structure Format where
  state : SlotState
  header : Header
  table : Vector (Option Entry) 16
  deriving DecidableEq, Repr

/-- An edit lock (R142). -/
structure Lock where
  allocated : Bool
  held : Bool
  holder : Option Port
  deriving DecidableEq, Repr

/-- CYM modes, with the values of section 10.3. -/
inductive CymMode where
  | off | cycle | format
  deriving DecidableEq, Repr

/-- The CYM line (R149, R150). -/
structure Cym where
  mode : CymMode
  /-- µs left of the running pulse. -/
  pulse : Option Nat
  /-- The hold for the first record of a newly active format. -/
  hold : Bool
  deriving DecidableEq, Repr

/-! ### Line mode control (chapter 9) -/

/-- Line modes, in the value order of R171. -/
inductive LineMode where
  | offline | armed | faulted
  deriving DecidableEq, Repr

/-- Fault causes, in the order of R171. -/
inductive Cause where
  | jamFold | jamCount | trackLost | indexSlip | stopL | stopI | stopD
  deriving DecidableEq, Repr

/-- Line events, in the bit order of R171. -/
inductive LineEvent where
  | regLost | regLimit | gumStandby | primeDone | primeAborted | logHigh | boxClosed
  deriving DecidableEq, Repr

/-- A set of fault causes: bit k is member k of `Cause` (R171). -/
abbrev CauseSet := BitVec 7

/-- A set of line events: bit k is member k of `LineEvent` (R171). -/
abbrev EventSet := BitVec 7

/-- Reset causes, in the value order of R171. -/
inductive ResetCause where
  | powerOn | resetLine | soft
  deriving DecidableEq, Repr

/-- Chord states (R158). -/
inductive ChordState where
  | ready | spent
  deriving DecidableEq, Repr

/-- Line mode control (R152, R155, R158, R159, R162). -/
structure LineControl where
  mode : LineMode
  firstCause : Option Cause
  causes : CauseSet
  events : EventSet
  resetCause : ResetCause
  /-- µs of the running hold, none while the chord timer is stopped at 0. -/
  chordTimer : Option Nat
  chordState : ChordState
  deriving DecidableEq, Repr

/-! ### Ports (chapter 10) -/

/-- Status codes (section 10.4). -/
inductive Status where
  | ok | empty | replaced | unknownCommand | notOnPort | shortFrame | range | wrongMode | notHalted | noConstants
  | noFormat | logFull | notHolder | locked | inUse | notAllocated | noneFree | formatError | notValid | notTracked
  | tooLate | duplicate | notAwaiting | regOff | noResponse
  deriving DecidableEq, Repr

/-- A pending response (R165): its status and its payload, whose length is M. The mark NO_RESPONSE is the status of
that name with no payload. -/
structure Response where
  status : Status
  payload : List Byte
  deriving DecidableEq, Repr

/-- A port's pending response and whether its PRST line stands low after a port reset (R165, R166). -/
structure PortState where
  response : Response
  prstLow : Bool
  deriving DecidableEq, Repr

/-- A port's framing state (00 "Block overview", R163, R164). -/
inductive Framing where
  /-- Chip select is high: no frame is in progress. -/
  | idle
  /-- Chip select is low. The bits sampled in the frame so far, oldest first, every eight of them a whole byte; and whether
  the clock stands high, between its rising and its falling edge (R168). -/
  | clocking (bits : List Bool) (clockHigh : Bool)
  /-- Chip select is low in a frame that is abandoned or disregarded. -/
  | abandoned
  deriving DecidableEq, Repr

/-! ### The state -/

/-- Everything the part holds, the lines it reads, and the queue of waiting commands. -/
structure State where
  /-- The machine constants, none while they are not written (R1). -/
  constants : Option Constants
  angle : AngleUnit
  cells : Vector Cell 16
  ring : Ring
  /-- The evaluation state of station i of slot k, at k and i. -/
  stations : Vector (Vector Station 16) 4
  registration : Registration
  gum : Gum
  /-- The notice queue, oldest first (R100). -/
  notices : List Notice
  batch : BatchCounter
  slots : Vector Format 4
  /-- The active slot (R146). -/
  active : Option (Fin 4)
  /-- The slot of the pending changeover (R146). -/
  pendingSlot : Option (Fin 4)
  /-- The fresh-format flag (R150). -/
  fresh : Bool
  cym : Cym
  locks : Vector Lock 8
  line : LineControl
  ports : PerPort PortState
  /-- The frames in progress (R163, assumption log 3). -/
  frames : PerPort Framing
  /-- The pin level of OPA (R158). -/
  opaHigh : Bool
  /-- The pin level of OPB (R158). -/
  opbHigh : Bool
  /-- Whether RSTN holds the part in reset (R162). -/
  heldInReset : Bool
  /-- The model's own counter of uses of free values (assumption log 21). -/
  choice : Nat
  /-- The commands that wait, first in first out (assumption log 29). -/
  pending : List Instr
  deriving DecidableEq, Repr

/-- Why the machine would stop. The manual gives the part no condition under which it stops, so there is no reason and
no meaning can fault (assumption log 25). -/
inductive Fault where
  deriving DecidableEq, Repr

/-- Why a command would have no meaning. -/
inductive Refusal where
  /-- Raised by `exec` for a command that the model gives no meaning yet; safe. No arm of `exec` raises it now. -/
  | notModelled (mnemonic : String)
  deriving DecidableEq, Repr

/-! ### The values right after power-on -/

/-- The angle unit after power-on (table of section 1.3 "Angle unit values after each reset"). -/
def AngleUnit.reset : AngleUnit :=
  { p := 0, debt := 0, lastCount := none, cycle := 0, tc := 16777215, cycleTimer := 0, hasReference := false
    haltTimer := 250000, qa := false, qb := false }

/-- A cell after power-on (table of section 1.4 "Cell values after each reset"). The level of the pin is assumption
log 17. -/
def Cell.reset : Cell :=
  { config :=
      { mode := .off, polarity := .activeHigh, edgeSelect := .rising, filter := 0, width := 50
        safeLevel := .inactive }
    level := false, z := { stamp := 0, angle := 0 }, event := false, overrun := false, filterTimer := none
    pulseTimer := none, pinHigh := false }

/-- The read window over `length` positions with its pointer at position 0 (R37). -/
def ReadWindow.whole (length : Nat) : ReadWindow := { first := 0, last := length - 1, pointer := 0 }

/-- The ring after power-on (R39). -/
def Ring.reset : Ring :=
  { entries := Vector.replicate 64 none, head := 0, nextSeq := 1
    windows := { line := .whole 64, inspection := .whole 64, drive := .whole 64 } }

/-- A station's evaluation state with marks clear and window closed (R66). -/
def Station.cleared : Station :=
  { onMark := false, offMark := false, windowOpen := false, latch := .empty, fired := false, seen := false
    firstEdge := none, missRun := 0, lead := 0 }

/-- The registration unit after a reset (R87). -/
def Registration.reset : Registration :=
  { state := .off, missCount := 0, total := 0, residue := 0, trim := 0, contributions := 0, age := 0
    overrun := false, limit := false, lastSlot := none, heldCmax := 0, heldAmax := 0 }

/-- The batch counter after power-on (R134). -/
def BatchCounter.reset : BatchCounter :=
  { openBatch := none, log := [], nextNumber := 1, boxNumber := 1, inBox := 0, missRun := 0, kick := false
    box := false }

/-- A slot after power-on (R136). -/
def Format.reset : Format :=
  { state := .empty
    header :=
      { regOn := false, target := 0, deadband := 0, gain := 0, cmax := 0, amax := 0, missLimit := 1
        rejectTolerance := 1, policy := .reject, standbyCode := 0, primeTime := 1, batchSize := 1, perBox := 1 }
    table := Vector.replicate 16 none }

/-- The lock pool after a reset: L0 to L3 allocated, L4 to L7 not, none held, no holder (R142). -/
def resetLocks : Vector Lock 8 :=
  Vector.ofFn fun i => { allocated := decide (i.val < 4), held := false, holder := none }

/-- A port's pending response after a reset (R165). -/
def Response.mark : Response := { status := .noResponse, payload := [] }

/-- A port after power-on, its PRST line high. -/
def PortState.reset : PortState := { response := .mark, prstLow := false }

/-- The state right after power-on (R162 and the reset tables of the chapters), with RSTN high and every line from
outside, the chip selects of the ports among them, at the level of assumption log 17. The chord is SPENT and, both operator lines being inactive, READY at once
(R158, assumption log 14). -/
def State.reset : State :=
  { constants := none
    angle := .reset
    cells := Vector.replicate 16 .reset
    ring := .reset
    stations := Vector.replicate 4 (Vector.replicate 16 .cleared)
    registration := .reset
    gum := { state := .off, standbyTimer := 0, primeTimer := none }
    notices := []
    batch := .reset
    slots := Vector.replicate 4 .reset
    active := none
    pendingSlot := none
    fresh := false
    cym := { mode := .off, pulse := none, hold := false }
    locks := resetLocks
    line :=
      { mode := .offline, firstCause := none, causes := 0, events := 0, resetCause := .powerOn
        chordTimer := none, chordState := .ready }
    ports := { line := .reset, inspection := .reset, drive := .reset }
    frames := { line := .idle, inspection := .idle, drive := .idle }
    opaHigh := true
    opbHigh := true
    heldInReset := false
    choice := 0
    pending := [] }

end Sys2Proof.Machine
end

