-- ==== Sys2Proof/Machine/Ops.lean ====
section
/-!
DEFINITION. The named operations over the state that the meanings share: tables, sets, per-port values, the values
computed from the angle unit, the tracking ring's lookups and updates (R25), the fault addition rule and the disposition
requests (R30 to R32), station evaluation state, and the two ways a command is taken.
-/

namespace Sys2Proof.Machine

/-- What a command answers. -/
abbrev Result := Host.Outcome State Fault Refusal

/-! ### Tables, sets and per-port values -/

/-- Every element of a table changed by a function of its index. -/
def mapTable {α β : Type} {n : Nat} (f : Fin n → α → β) (t : Vector α n) : Vector β n :=
  Vector.ofFn fun i => f i t[i]

/-- One element of a table replaced. -/
def setAt {α : Type} {n : Nat} (t : Vector α n) (i : Fin n) (x : α) : Vector α n := t.set i.val x i.isLt

/-- Membership of member `i` of a set held as bits. -/
def hasBit {n : Nat} (s : BitVec n) (i : Nat) : Bool := s.getLsbD i

/-- Member `i` entered in a set held as bits. -/
def addBit {n : Nat} (s : BitVec n) (i : Nat) : BitVec n := s ||| BitVec.twoPow n i

/-- The bit of an operation (R171). -/
def Op.bit : Op → Nat
  | .window => 0 | .patch => 1 | .gum => 2 | .fold => 3 | .inspect => 4 | .count => 5

/-- The bit of a blank fault (R171). -/
def BlankFault.bit : BlankFault → Nat
  | .noMark => 0 | .regOut => 1 | .patchMissing => 2 | .gumSkipped => 3 | .gumSet => 4 | .foldMissing => 5
  | .noticeLost => 6 | .verdictFail => 7 | .verdictLate => 8 | .operator => 9 | .lineFault => 10
  | .countMissing => 11 | .trackLost => 12

/-- The bit of a fault cause (R171). -/
def Cause.bit : Cause → Nat
  | .jamFold => 0 | .jamCount => 1 | .trackLost => 2 | .indexSlip => 3 | .stopL => 4 | .stopI => 5 | .stopD => 6

/-- The bit of a line event (R171). -/
def LineEvent.bit : LineEvent → Nat
  | .regLost => 0 | .regLimit => 1 | .gumStandby => 2 | .primeDone => 3 | .primeAborted => 4 | .logHigh => 5
  | .boxClosed => 6

/-- The value of one port. -/
def PerPort.get {α : Type} (x : PerPort α) : Port → α
  | .line => x.line
  | .inspection => x.inspection
  | .drive => x.drive

/-- The value of one port replaced. -/
def PerPort.set {α : Type} (x : PerPort α) (p : Port) (a : α) : PerPort α :=
  match p with
  | .line => { x with line := a }
  | .inspection => { x with inspection := a }
  | .drive => { x with drive := a }

/-- Every port's value changed. -/
def PerPort.map {α β : Type} (f : α → β) (x : PerPort α) : PerPort β :=
  { line := f x.line, inspection := f x.inspection, drive := f x.drive }

/-- The successor in a numbering from 1 to 4,294,967,295 that wraps to 1: sequence numbers (R28), batch numbers (R119)
and box numbers (R128). -/
def successor (n : Word) : Word := if n = BitVec.allOnes 32 then 1 else n + 1

/-- A count of the batch counter increased by 1; past 4,294,967,295 a free value (assumption log 8). -/
def increase (field : Config.CountField) (n : Word) : Word :=
  if n = BitVec.allOnes 32 then Config.pastMaximum field else n + 1

/-! ### Free choices -/

/-- Two effects of one step that may be taken in either order. `matters` says whether the two orders can differ in this
state; where they can, a free value says which of them is taken first, and `a` comes first where they cannot (assumption
log 5). -/
def eitherOrder (matters : Bool) (a b : State → State) (s : State) : State :=
  if matters then
    let s' := { s with choice := s.choice + 1 }
    if Config.secondFirst s.choice then a (b s') else b (a s')
  else b (a s)

/-! ### Values computed from the angle unit -/

/-- Tc and the current-cycle timer saturate here (R10). -/
def cycleTimeMax : Nat := 16777215

/-- The halt timer's expiry, 250 ms (R11). -/
def haltExpiry : Nat := 250000

/-- The CRAWL threshold, 2 s (R11). -/
def crawlLimit : Nat := 2000000

/-- The machine angle θ = floor(p × 65,536 / E) (R8); 0 before the constants are written (R1). -/
def State.theta (s : State) : Nat :=
  match s.constants with
  | some c => s.angle.p * 65536 / c.e
  | none => 0

/-- The motion state, from the first condition of R11 that holds; HALTED before the constants are written (R1). -/
def State.motion (s : State) : Motion :=
  if s.constants.isNone || decide (haltExpiry ≤ s.angle.haltTimer) then .halted
  else if 0 < s.angle.debt then .reverse
  else if crawlLimit < s.angle.tc || crawlLimit < s.angle.cycleTimer then .crawl
  else .running

/-- The lead scale: Tc while RUNNING, 0 otherwise (R12). -/
def State.leadScale (s : State) : Nat := if s.motion = .running then s.angle.tc else 0

/-- The lead angle Λ of a lead time under a lead scale (R12). -/
def leadAngle (leadUs scale : Nat) : Nat := if scale = 0 then 0 else min 16384 (leadUs * 65536 / scale)

/-! ### Stations -/

/-- Whether a kind is an output kind (R41). -/
def Kind.isOutput : Kind → Bool
  | .window => true | .patch => true | .gum => true | .inspect => true | .reject => true | .kick => true
  | .box => true | .feed => false | .mark => false | .patchCheck => false | .foldCheck => false | .count => false

/-- An angle moved earlier by a lead, modulo 65,536 (R43). -/
def earlier (angle : Half) (lead : Nat) : Nat := (angle.toNat + (65536 - lead % 65536)) % 65536

/-- The effective on-angle: the programmed angle less the cycle lead for an output station (R43). -/
def Entry.effectiveOn (e : Entry) (st : Station) : Nat :=
  if e.kind.isOutput then earlier e.onAngle st.lead else e.onAngle.toNat

/-- The effective off-angle (R43). -/
def Entry.effectiveOff (e : Entry) (st : Station) : Nat :=
  if e.kind.isOutput then earlier e.offAngle st.lead else e.offAngle.toNat

/-- The cycle lead of a station under a lead scale; input stations have none (R41, R43). -/
def Entry.leadUnder (e : Entry) (scale : Nat) : Nat := if e.kind.isOutput then leadAngle e.leadUs scale else 0

/-- The station entry i of slot k, if present. -/
def State.entry (s : State) (k : Fin 4) (i : Fin 16) : Option Entry := s.slots[k].table[i]

/-- The evaluation state of station i of slot k. -/
def State.station (s : State) (k : Fin 4) (i : Fin 16) : Station := s.stations[k][i]

/-- One station's evaluation state changed. -/
def State.updStation (s : State) (k : Fin 4) (i : Fin 16) (f : Station → Station) : State :=
  { s with stations := setAt s.stations k (setAt s.stations[k] i (f s.stations[k][i])) }

/-- The stations of every slot changed, slot by slot. -/
def State.mapSlots (s : State) (f : Fin 4 → Vector Station 16 → Vector Station 16) : State :=
  { s with stations := mapTable f s.stations }

/-- Every station's evaluation state changed. -/
def State.mapStations (s : State) (f : Fin 4 → Fin 16 → Station → Station) : State :=
  s.mapSlots fun k t => mapTable (f k) t

/-- The evaluation state of R47's leaving: everything lost but the cycle lead, which only a slot in the set uses. -/
def Station.lose (st : Station) : Station := { Station.cleared with lead := st.lead }

/-- A window closed: the latch emptied and the fired flag cleared (R46). -/
def Station.close (st : Station) : Station := { st with windowOpen := false, latch := .empty, fired := false }

/-- Crossing marks set for effective angles at or below θ and clear above (R48, R66). -/
def Station.markedAt (e : Entry) (theta : Nat) (st : Station) : Station :=
  { st with onMark := decide (e.effectiveOn st ≤ theta), offMark := decide (e.effectiveOff st ≤ theta) }

/-- The present entries of a slot. -/
def Format.entries (f : Format) : List Entry := f.table.toList.filterMap id

/-- The present entries of a kind. -/
def Format.ofKind (f : Format) (kind : Kind) : List Entry := f.entries.filter fun e => e.kind = kind

/-- Whether a format has GUM stations, enabled or not (R88). -/
def Format.hasGum (f : Format) : Bool := !(f.ofKind .gum).isEmpty

/-! ### The tracking ring -/

/-- The entry at a position: entry (head + k) mod 64 (section 2.1). -/
def Ring.at (r : Ring) (k : Fin 64) : Option Blank := r.entries[r.head + k]

/-- The number of tracked positions: P, or 64 before the constants are written (R23). -/
def State.lineLength (s : State) : Nat :=
  match s.constants with
  | some c => c.p
  | none => 64

/-- The present record at a position: one in the tracked line (R23). -/
def State.presentAt (s : State) (k : Fin 64) : Option Blank :=
  if k.val < s.lineLength then s.ring.at k else none

/-- The position of the present record with a sequence number (R25). -/
def State.positionOf (s : State) (seq : Word) : Option (Fin 64) :=
  (List.finRange 64).find? fun k => (s.presentAt k).any fun b => b.seq = seq

/-- The present record with a sequence number (R25). -/
def State.record (s : State) (seq : Word) : Option Blank :=
  (s.positionOf seq).bind s.presentAt

/-- The entry at a position replaced. -/
def State.putAt (s : State) (k : Fin 64) (b : Option Blank) : State :=
  { s with ring := { s.ring with entries := setAt s.ring.entries (s.ring.head + k) b } }

/-- An update: applied to the present record with the sequence number, dropped where there is none (R25). -/
def State.update (s : State) (seq : Word) (f : Blank → Blank) : State :=
  match s.positionOf seq with
  | some k => s.putAt k ((s.presentAt k).map f)
  | none => s

/-- Every present record changed in one step (R33, R91). -/
def State.updateAll (s : State) (f : Blank → Blank) : State :=
  { s with ring := { s.ring with
      entries := mapTable
        (fun j o => if (j - s.ring.head : Fin 64).val < s.lineLength then o.map f else o) s.ring.entries } }

/-- Whether a present record carries a slot in fmt. -/
def State.carried (s : State) (k : Fin 4) : Bool :=
  (List.finRange 64).any fun j => (s.presentAt j).any fun b => b.fmt = k

/-- Whether a station of a slot has an open window. -/
def State.anyOpen (s : State) (k : Fin 4) : Bool :=
  (List.finRange 16).any fun i => (s.station k i).windowOpen

/-- The evaluated set: the active slot, every slot a present record carries, every slot with an open window (R47). -/
def State.evaluated (s : State) (k : Fin 4) : Bool :=
  decide (s.active = some k) || s.carried k || s.anyOpen k

/-- Slots outside the evaluated set lose the evaluation state of their stations (R47). -/
def State.prune (s : State) : State :=
  s.mapSlots fun k t => if s.evaluated k then t else mapTable (fun _ st => st.lose) t

/-- Whether a slot is in use (R137). -/
def State.inUse (s : State) (k : Fin 4) : Bool :=
  decide (s.active = some k) || decide (s.pendingSlot = some k) || s.carried k || s.anyOpen k

/-! ### Dispositions and the fault addition rule -/

/-- REJECTED, DELIVERED and LOST are final (section 2.2). -/
def Disposition.final : Disposition → Bool
  | .rejected => true | .delivered => true | .lost => true
  | .inLine => false | .toReject => false | .cleared => false | .flagged => false

/-- Where a fault addition takes a non-final disposition (R30). -/
def Disposition.faulted : Disposition → Disposition
  | .inLine => .toReject
  | .cleared => .flagged
  | d => d

/-- Whether an operation is in a record's ops set. -/
def Blank.hasOp (b : Blank) (o : Op) : Bool := hasBit b.ops o.bit

/-- Whether a fault is in a record's fault set. -/
def Blank.hasFault (b : Blank) (f : BlankFault) : Bool := hasBit b.faults f.bit

/-- The fault addition rule (R30). -/
def Blank.addFault (f : BlankFault) (b : Blank) : Blank :=
  if b.disposition.final then b
  else { b with faults := addBit b.faults f.bit, disposition := b.disposition.faulted }

/-- An operation addition, dropped for a final record (R26). -/
def Blank.addOp (o : Op) (b : Blank) : Blank :=
  if b.disposition.final then b else { b with ops := addBit b.ops o.bit }

/-- A request to lose a record with a fault (R32). -/
def Blank.lose (f : BlankFault) (b : Blank) : Blank :=
  if b.disposition.final then b
  else { b with
    faults := addBit b.faults f.bit
    disposition := .lost
    verdict := if b.verdict = .awaiting then .missing else b.verdict }

/-- A request to deliver into a batch, applied to an IN_LINE or CLEARED record (R31). -/
def Blank.deliver (number : Word) (b : Blank) : Blank :=
  match b.disposition with
  | .inLine | .cleared =>
    { b with disposition := .delivered, batch := some number, ops := addBit b.ops Op.count.bit }
  | _ => b

/-- A request to flag a TO_REJECT or FLAGGED record seen by the count eye, with COUNT added (R123). -/
def Blank.passDefect (b : Blank) : Blank :=
  match b.disposition with
  | .toReject | .flagged => { b with disposition := .flagged, ops := addBit b.ops Op.count.bit }
  | _ => b

/-! ### Notices, line events -/

/-- The notice for a blank withdrawn from wherever it stands (R103). -/
def State.withdraw (s : State) (seq : Word) : State :=
  { s with notices := s.notices.filter fun n => n.seq ≠ seq }

/-- A line event entered in the set (R159). -/
def State.setEvent (s : State) (e : LineEvent) : State :=
  { s with line := { s.line with events := addBit s.line.events e.bit } }

/-! ### How a command is taken -/

/-- A response with a status and no payload. -/
def Response.bare (status : Status) : Response := { status := status, payload := [] }

/-- A port's pending response replaced (R165). -/
def State.respond (s : State) (p : Port) (r : Response) : State :=
  { s with ports := s.ports.set p { s.ports.get p with response := r } }

/-- Whether a port disregards its frames: while its PRST line stays low (R166) and while the part is held in reset
(R162). -/
def State.disregards (s : State) (p : Port) : Bool := s.heldInReset || (s.ports.get p).prstLow

/-- A frame taken on a port at its end: the command's effect, then its response in place of the pending one (R164,
R165). -/
def takeFrame (p : Port) (f : State → State × Response) (s : State) : Result :=
  .next (if s.disregards p then s else (f s).1.respond p (f s).2)

/-- A happening inside the part or on its encoder, which a part held in reset does not take (R162, assumption
log 16). -/
def takeEvent (f : State → State) (s : State) : Result :=
  .next (if s.heldInReset then s else f s)

end Sys2Proof.Machine
end

