-- ==== Sys2Proof/Machine/Flags.lean ====
section
/-!
DEFINITION. The flags and lines that follow the state: levels of the cells and of their pins (R14, R17 to R20), the
attention lines, STOPRQ and CYM (R84, R104, R149, R150, R160, R167), and the bytes a frame returns (R163, R165).
-/

namespace Sys2Proof.Machine

/-! ### Cells -/

/-- The logical level of a pin level under a polarity (R14). -/
def Polarity.logical (p : Polarity) (high : Bool) : Bool :=
  match p with
  | .activeHigh => high
  | .activeLow => !high

/-- The logical level a cell's pin stands at (R14). -/
def Cell.pinLevel (c : Cell) : Bool := c.config.polarity.logical c.pinHigh

/-- Whether a mode is one of the two output modes. -/
def CellMode.isOutput : CellMode → Bool
  | .windowOut => true | .pulseOut => true
  | .off => false | .edgeIn => false | .levelIn => false

/-- The level a cell's safe level names (R20). -/
def CellConfig.safe (c : CellConfig) : Bool := decide (c.safeLevel = .active)

/-- Whether the scheduler reports an open window to an output cell: some evaluated station bound to it has its window
open and fired, and the reverse debt is 0 (R45, R49). -/
def State.windowReported (s : State) (cell : Fin 16) : Bool :=
  decide (s.angle.debt = 0) &&
  (List.finRange 4).any fun k => s.evaluated k &&
    (List.finRange 16).any fun i =>
      (s.entry k i).any (fun e => e.kind.isOutput && e.cell = cell)
        && (s.station k i).windowOpen && (s.station k i).fired

/-- Whether the prime drives a cell: the circuit is PRIMING, and the cell is the purge cell or the cell of a GUM
station of the active slot, enabled or not (R94). -/
def State.primeDrives (s : State) (cell : Fin 16) : Bool :=
  decide (s.gum.state = .priming) &&
  (s.constants.any (fun c => c.purgeCell = some cell)
    || s.active.any fun k => (s.slots[k].ofKind .gum).any fun e => e.cell = cell)

/-- A cell's level (R16 to R20). DEDUCED, unsafe (assumption log 33): outside ARMED an output cell's level is its safe
level, which it shows (R18, R20), also where R15 and the table of R22 call the level of an output inactive. -/
def State.cellLevel (s : State) (cell : Fin 16) : Bool :=
  let c := s.cells[cell]
  match c.config.mode with
  | .off => false
  | .edgeIn => c.level
  | .levelIn => c.pinLevel
  | .windowOut =>
    if s.line.mode = .armed then s.windowReported cell || s.primeDrives cell else c.config.safe
  | .pulseOut =>
    if s.line.mode = .armed then
      (c.pulseTimer.isSome && decide (s.angle.debt = 0)) || s.primeDrives cell
    else c.config.safe

/-- A cell's Z: a LEVEL_IN cell's reports its level, angle field 1 for active (R17). -/
def State.cellZ (s : State) (cell : Fin 16) : Capture :=
  let c := s.cells[cell]
  match c.config.mode with
  | .levelIn => { stamp := 0, angle := if c.pinLevel then 1 else 0 }
  | _ => c.z

/-- The level the part drives on a cell's pin, none where it does not drive it (R14, R17, R18). -/
def State.pinDrive (s : State) (cell : Fin 16) : Option Bool :=
  let c := s.cells[cell].config
  if c.mode.isOutput then some (c.polarity.logical (s.cellLevel cell)) else none

/-! ### Lines to the masters -/

/-- The log length from which the log asserts STOPRQ (R132). -/
def stopLevel : Nat := 28

/-- ATN_L: the event set is not empty, or the fault latch is set, or the log holds a record (R160). -/
def State.atnLine (s : State) : Bool :=
  !s.heldInReset && (decide (s.line.events ≠ 0) || decide (s.line.causes ≠ 0) || !s.batch.log.isEmpty)

/-- ATN_I: the notice queue holds a notice (R104). -/
def State.atnInspection (s : State) : Bool := !s.heldInReset && !s.notices.isEmpty

/-- ATN_D: n is above 0 or the overrun flag is set (R84). -/
def State.atnDrive (s : State) : Bool :=
  !s.heldInReset && (decide (0 < s.registration.contributions) || s.registration.overrun)

/-- STOPRQ: FAULTED, or 28 records or more in the log (R160). -/
def State.stopRequest (s : State) : Bool :=
  !s.heldInReset && (decide (s.line.mode = .faulted) || decide (stopLevel ≤ s.batch.log.length))

/-- CYM: high while its pulse runs or its hold stands (R149, R150). -/
def State.cymHigh (s : State) : Bool :=
  !s.heldInReset && decide (s.cym.mode ≠ .off) && (s.cym.pulse.isSome || s.cym.hold)

end Sys2Proof.Machine
end

