-- ==== Sys2Proof/Machine/Gum.lean ====
section
/-!
DEFINITION. The gum circuit (chapter 5): changes of the gum state and what they do to open GUM windows and to the blanks
in flight, the standby timeout, the effect of a changeover, and the commands PRIME GUM, STANDBY EXPIRY and PRIME
COMPLETE.
-/

namespace Sys2Proof.Machine

/-! ### Changes of the gum state -/

/-- The GUM stations whose window is open and fired (R92). -/
def State.firedGum (s : State) : List (Fin 4 × Fin 16) :=
  (List.finRange 4).flatMap fun k =>
    ((List.finRange 16).filter fun i =>
      (s.entry k i).any (fun e => e.kind = .gum) && (s.station k i).windowOpen && (s.station k i).fired).map
        fun i => (k, i)

/-- The faults of a record whose gum shot was cut short: GUM_SKIPPED, and GUM_SET as well where the cause is a standby
expiry (R92). -/
def Blank.cutShort (expiry : Bool) (b : Blank) : Blank :=
  let b' := b.addFault .gumSkipped
  if expiry then b'.addFault .gumSet else b'

/-- One fired GUM window cut short: closed without its operation, its latched record faulted (R92). -/
def State.cutWindow (expiry : Bool) (s : State) (at' : Fin 4 × Fin 16) : State :=
  let s' :=
    match (s.station at'.1 at'.2).latch with
    | .blank seq => s.update seq (Blank.cutShort expiry)
    | .gap => s
    | .empty => s
  s'.updStation at'.1 at'.2 Station.close

/-- A change of the gum state. The timers are set to 0 and stopped (R89, R96); a change from READY or PRIMING to
STANDBY or OFF cuts the fired GUM windows short (R92). -/
def State.gumTo (new : GumState) (expiry : Bool) (s : State) : State :=
  let s' := { s with gum := { state := new, standbyTimer := 0, primeTimer := none } }
  if (s.gum.state = .ready || s.gum.state = .priming) && (new = .standby || new = .off) then
    (s.firedGum.foldl (State.cutWindow expiry) s').prune
  else s'

/-- A prime in progress ends to a state with PRIME_ABORTED set; without a prime nothing happens (R96). -/
def State.abortPrime (new : GumState) (s : State) : State :=
  if s.gum.state = .priming then (s.gumTo new false).setEvent .primeAborted else s

/-- The gum circuit at a change of the motion state away from HALTED: the standby timer is set to 0 (R89) and a prime is
aborted (R96). -/
def State.gumLeavesHalt (s : State) : State :=
  { s with gum := { s.gum with standbyTimer := 0 } }.abortPrime .standby

/-! ### The standby timer -/

/-- The standby timeout of a standby code in µs (R90). -/
def standbyTimeout (code : Nat) : Nat := if code = 0 then 1800000000 else code * 5000000

/-- Whether the standby timer runs (R89). -/
def State.standbyRuns (s : State) : Bool := decide (s.gum.state = .ready) && decide (s.motion = .halted)

/-- Whether the running standby timer has reached the timeout of the slot now active (R90). -/
def State.standbyDue (s : State) : Bool :=
  s.standbyRuns && s.active.any fun k => standbyTimeout s.slots[k].header.standbyCode ≤ s.gum.standbyTimer

/-- A gummed blank without FOLD is spoiled (R91). -/
def Blank.spoil (b : Blank) : Blank := if b.hasOp .gum && !b.hasOp .fold then b.addFault .gumSet else b

/-- The expiry of the standby timer (R91, R92). -/
def State.standbyExpires (s : State) : State :=
  ((s.updateAll Blank.spoil).gumTo .standby true).setEvent .gumStandby

/-- The completion of a prime (R95). -/
def State.primeCompletes (s : State) : State := (s.gumTo .ready false).setEvent .primeDone

/-! ### Changeover and reset -/

/-- The gum circuit at a changeover that makes slot `n` active (R97), and the comparison of a running standby count
with the new slot's timeout (R90, assumption log 24). DEDUCED, unsafe (assumption log 34): the records of GUM windows
that this cuts short get GUM_SKIPPED (R92, R97), and those an expiry spoils get GUM_SET (R91), though R151 says that a
changeover taking effect changes no record in the ring. -/
def State.gumChangeover (n : Fin 4) (s : State) : State :=
  let target : GumState := if s.slots[n].hasGum then .standby else .off
  let s' :=
    match s.gum.state with
    | .off => s.gumTo target false
    | .ready => if s.slots[n].hasGum then s else s.gumTo .off false
    | .standby => s.gumTo target false
    | .priming => s.abortPrime target
  if s'.standbyDue then s'.standbyExpires else s'

/-- The gum state after RSTN or a soft reset (R99). -/
def State.gumAfterReset (s : State) : Gum :=
  { state := if s.active.any fun k => s.slots[k].hasGum then .standby else .off
    standbyTimer := 0, primeTimer := none }

/-! ### Commands -/

/-- The prime time of the active slot in µs: units of 100 ms (R93). -/
def State.primeMicros (s : State) : Nat :=
  match s.active with
  | some k => s.slots[k].header.primeTime * 100000
  | none => 0

/-- PRIME GUM (R93): WRONG_MODE outside ARMED, NO_FORMAT in gum state OFF, NOT_HALTED while the machine turns; otherwise
a prime starts or restarts. -/
def State.primeGum (s : State) : State × Response :=
  if s.line.mode ≠ .armed then (s, .bare .wrongMode)
  else if s.gum.state = .off then (s, .bare .noFormat)
  else if s.motion ≠ .halted then (s, .bare .notHalted)
  else
    ({ s with gum := { state := .priming, standbyTimer := 0, primeTimer := some s.primeMicros } }, .bare .ok)

/-- PRIME_GUM (R93). -/
def execPrimeGum (s : State) : Result := takeFrame .line State.primeGum s

/-- STANDBY_EXPIRY (R91): the standby timer runs out, where it runs (assumption log 2). -/
def execStandbyExpiry (s : State) : Result :=
  takeEvent (fun s => if s.standbyRuns then s.standbyExpires else s) s

/-- PRIME_COMPLETE (R95): the prime timer runs out, where a prime runs (assumption log 2). -/
def execPrimeComplete (s : State) : Result :=
  takeEvent (fun s => if s.gum.state = .priming then s.primeCompletes else s) s

end Sys2Proof.Machine
end

