-- ==== Sys2Proof/Machine/FaultLatch.lean ====
section
/-!
DEFINITION. Leaving ARMED (R19, R56, R96) and the fault latch (R155).
-/

namespace Sys2Proof.Machine

/-- Every open and fired output window closed without its operation (R56), and every running pulse ended (R19). -/
def State.closeFired (s : State) : State :=
  let s' := s.mapStations fun k i st =>
    if (s.entry k i).any (fun e => e.kind.isOutput) && st.windowOpen && st.fired then st.close else st
  { s' with cells := mapTable (fun _ c => { c with pulseTimer := none }) s'.cells }

/-- What the blocks do when the line mode leaves ARMED: fired windows close and pulses end, and a prime is aborted. The
two orders differ only for a fired GUM window open during a prime, whose record gets GUM_SKIPPED if the abort comes
first (assumption log 5). -/
def State.leaveArmed (s : State) : State :=
  (eitherOrder (decide (s.gum.state = .priming) && !s.firedGum.isEmpty)
    State.closeFired (State.abortPrime .standby) s).prune

/-- A fault cause raised (R155): entered in the set, the first cause replaced where the set was empty, and an ARMED line
taken to FAULTED, which restarts a running chord timer (R158). -/
def State.raiseCause (c : Cause) (s : State) : State :=
  let s' := { s with line := { s.line with
    firstCause := if s.line.causes = 0 then some c else s.line.firstCause
    causes := addBit s.line.causes c.bit } }
  if s.line.mode = .armed then
    { s' with line := { s'.line with
        mode := .faulted
        chordTimer := s'.line.chordTimer.map fun _ => 0 } }.leaveArmed
  else s'

end Sys2Proof.Machine
end

