-- ==== Sys2Proof/Decode.lean ====
section
/-!
DEFINITION. Frames: the command that the bytes of one frame carry (R163, R164, R168 and the catalogue of section 10.3),
and the bytes of a command's frame. The opcode table gives no bits for any row, so `decodeTableWord` spells no command.
-/

namespace Sys2Proof

/-! ### Little-endian fields (R168) -/

/-- The 16-bit field whose less significant byte is `lo`. -/
def half (lo hi : Byte) : Half := hi ++ lo

/-- The 32-bit field of four bytes, least significant first. -/
def word (b0 b1 b2 b3 : Byte) : Word := b3 ++ b2 ++ b1 ++ b0

/-- Byte `k` of a value, byte 0 the least significant. -/
def byteOf {n : Nat} (x : BitVec n) (k : Nat) : Byte := (x >>> (8 * k)).setWidth 8

/-- The `count` low bytes of a value, least significant first (R168). -/
def littleEndian {n : Nat} (x : BitVec n) (count : Nat) : List Byte :=
  (List.range count).map (byteOf x)

/-! ### The catalogue -/

/-- The ports that offer a code, or none where the code is not in the catalogue (section 10.3). -/
def offeredOn (code : Byte) : Option (List Port) :=
  let c := code.toNat
  if c ≤ 0x0F then some [.line, .inspection, .drive]
  else if 0x20 ≤ c && c ≤ 0x2F then some [.line]
  else if c = 0x40 || c = 0x41 then some [.inspection]
  else if c = 0x60 then some [.drive]
  else none

/-- The header's values in the order of the header table. -/
def headerOfBytes : List Byte → Option RawHeader
  | [en, t0, t1, d0, d1, g0, g1, c0, c1, a0, a1, mm, r0, r1, pol, sc, p0, p1, b0, b1, pb] =>
    some
      { regEnable := en, target := half t0 t1, deadband := half d0 d1, gain := half g0 g1, cmax := half c0 c1
        amax := half a0 a1, missLimit := mm, rejectTolerance := half r0 r1, policy := pol, standbyCode := sc
        primeTime := half p0 p1, batchSize := half b0 b1, perBox := pb }
  | _ => none

/-- A present entry's values in the order of section 10.3. -/
def entryOfBytes : List Byte → Option RawEntry
  | [k, p, c, n0, n1, f0, f1, l0, l1, en] =>
    some
      { kind := k, position := p, cell := c, onAngle := half n0 n1, offAngle := half f0 f1, leadUs := half l0 l1
        enable := en }
  | _ => none

/-- The field group that a WRITE FORMAT's parameters after the slot number name, or none where they name no group of
matching length (R164). -/
def groupOfBytes : List Byte → Option FormatGroup
  | [] => none
  | g :: rest =>
    if g = 0xFF then (headerOfBytes rest).map FormatGroup.header
    else if h : g.toNat < 16 then
      match rest with
      | flag :: values =>
        if flag = 0 then (if values = [] then some (.absentEntry ⟨g.toNat, h⟩) else none)
        else if flag = 1 then (entryOfBytes values).map (FormatGroup.presentEntry ⟨g.toNat, h⟩)
        else none
      | [] => none
    else
      match rest with
      | [third] => some (.unknownGroup g third)
      | _ => none

/-- A command without parameters. -/
def noParams (i : Instr) : List Byte → Option Instr
  | [] => some i
  | _ => none

/-- A command with one byte of parameters. -/
def oneByte (f : Byte → Instr) : List Byte → Option Instr
  | [a] => some (f a)
  | _ => none

/-- A command with two bytes of parameters. -/
def twoBytes (f : Byte → Byte → Instr) : List Byte → Option Instr
  | [a, b] => some (f a b)
  | _ => none

/-- A command with one 32-bit parameter. -/
def oneWord (f : Word → Instr) : List Byte → Option Instr
  | [a, b, c, d] => some (f (word a b c d))
  | _ => none

/-- SET CONSTANTS: E, direction, Z0, P, chord enable, purge cell. -/
def constantsOfBytes : List Byte → Option Instr
  | [e0, e1, d, z0, z1, p, ch, pc] =>
    some (.setConstants
      { e := half e0 e1, direction := d, z0 := half z0 z1, p := p, chordEnable := ch, purgeCell := pc })
  | _ => none

/-- SET CELL: cell, mode, polarity, edge select, filter, width, safe level. -/
def cellOfBytes : List Byte → Option Instr
  | [c, m, po, es, f0, f1, w0, w1, sl] =>
    some (.setCell
      { cell := c, mode := m, polarity := po, edgeSelect := es, filter := half f0 f1, width := half w0 w1
        safeLevel := sl })
  | _ => none

/-- NUDGE: one signed 16-bit parameter. -/
def nudgeOfBytes : List Byte → Option Instr
  | [v0, v1] => some (.nudge (half v0 v1))
  | _ => none

/-- VERDICT: seq, outcome, code. -/
def verdictOfBytes : List Byte → Option Instr
  | [a, b, c, d, o, k] => some (.verdict (word a b c d) o k)
  | _ => none

/-- WRITE FORMAT: slot, group, values. -/
def writeFormatOfBytes (port : Port) : List Byte → Option Instr
  | slot :: rest => (groupOfBytes rest).map (Instr.writeFormat port slot)
  | [] => none

/-- The command a catalogued code and its parameters spell, or none where the parameters have not the length the
catalogue gives (section 10.3). -/
def commandOf (port : Port) (code : Byte) (params : List Byte) : Option Instr :=
  match code.toNat with
  | 0x00 => noParams (.nop port) params
  | 0x01 => noParams (.status port) params
  | 0x02 => noParams (.readMotion port) params
  | 0x03 => twoBytes (.setWindow port) params
  | 0x04 => noParams (.readNext port) params
  | 0x05 => oneWord (.readSeq port) params
  | 0x06 => oneByte (.peekCell port) params
  | 0x07 => noParams (.stop port) params
  | 0x08 => noParams (.lockNew port) params
  | 0x09 => oneByte (.lockReturn port) params
  | 0x0A => oneByte (.lockTake port) params
  | 0x0B => oneByte (.lockRelease port) params
  | 0x0C => oneByte (.lockQuery port) params
  | 0x0D => writeFormatOfBytes port params
  | 0x0E => twoBytes (.readFormat port) params
  | 0x0F => oneByte (.commitFormat port) params
  | 0x20 => noParams .arm params
  | 0x21 => noParams .disarm params
  | 0x22 => noParams .clear params
  | 0x23 => noParams .softReset params
  | 0x24 => constantsOfBytes params
  | 0x25 => cellOfBytes params
  | 0x26 => oneByte .takeCell params
  | 0x27 => oneByte .changeover params
  | 0x28 => noParams .takeBatch params
  | 0x29 => noParams .peekBatch params
  | 0x2A => noParams .closeBatch params
  | 0x2B => oneWord .markReject params
  | 0x2C => noParams .primeGum params
  | 0x2D => nudgeOfBytes params
  | 0x2E => oneByte .setCym params
  | 0x2F => noParams .statusWithAcknowledge params
  | 0x40 => noParams .takeNotice params
  | 0x41 => verdictOfBytes params
  | 0x60 => noParams .takeTrim params
  | _ => none

/-- The tests of R164 on a complete frame, in its order: the catalogue, the port, the parameter length. -/
def classify (port : Port) (code : Byte) (params : List Byte) : Instr :=
  match offeredOn code with
  | none => .unknownCommand port code params
  | some ports =>
    if port ∈ ports then
      (commandOf port code params).getD (.parameterLengthMismatch port code params)
    else .notOnPort port code params

/-- The most bytes a frame carries (R163). -/
def frameLimit : Nat := 64

/-- The command of a frame whose whole bytes are `bytes` (R163, R164). Bytes from the 65th on and bytes beyond 2 + L
are ignored; a frame of no whole byte is disregarded; a frame of fewer than 2 + L bytes is short. -/
def decodeFrame (port : Port) (bytes : List Byte) : Instr :=
  match bytes.take frameLimit with
  | [] => .emptyFrame port
  | [code] => .shortFrame port [code]
  | code :: len :: rest =>
    if rest.length < len.toNat then .shortFrame port (code :: len :: rest)
    else classify port code (rest.take len.toNat)

/-! ### The frame of a command -/

/-- The bytes of a header group. -/
def RawHeader.bytes (h : RawHeader) : List Byte :=
  [h.regEnable] ++ littleEndian h.target 2 ++ littleEndian h.deadband 2 ++ littleEndian h.gain 2
    ++ littleEndian h.cmax 2 ++ littleEndian h.amax 2 ++ [h.missLimit] ++ littleEndian h.rejectTolerance 2
    ++ [h.policy, h.standbyCode] ++ littleEndian h.primeTime 2 ++ littleEndian h.batchSize 2 ++ [h.perBox]

/-- The ten bytes of a present entry. -/
def RawEntry.bytes (e : RawEntry) : List Byte :=
  [e.kind, e.position, e.cell] ++ littleEndian e.onAngle 2 ++ littleEndian e.offAngle 2 ++ littleEndian e.leadUs 2
    ++ [e.enable]

/-- The parameters of WRITE FORMAT after the slot number. -/
def FormatGroup.bytes : FormatGroup → List Byte
  | .header h => 0xFF :: h.bytes
  | .absentEntry i => [BitVec.ofNat 8 i.val, 0]
  | .presentEntry i e => BitVec.ofNat 8 i.val :: 1 :: e.bytes
  | .unknownGroup g third => [g, third]

/-- A frame: code, parameter length, parameters (section 10.1). -/
def frame (code : Byte) (params : List Byte) : List Byte :=
  code :: BitVec.ofNat 8 params.length :: params

/-- The port and the bytes of the frame that carries a command; none for a happening on the machine side, which comes
by no frame. -/
def encodeFrame : Instr → Option (Port × List Byte)
  | .nop p => some (p, frame 0x00 [])
  | .status p => some (p, frame 0x01 [])
  | .readMotion p => some (p, frame 0x02 [])
  | .setWindow p first last => some (p, frame 0x03 [first, last])
  | .readNext p => some (p, frame 0x04 [])
  | .readSeq p seq => some (p, frame 0x05 (littleEndian seq 4))
  | .peekCell p cell => some (p, frame 0x06 [cell])
  | .stop p => some (p, frame 0x07 [])
  | .lockNew p => some (p, frame 0x08 [])
  | .lockReturn p lock => some (p, frame 0x09 [lock])
  | .lockTake p lock => some (p, frame 0x0A [lock])
  | .lockRelease p lock => some (p, frame 0x0B [lock])
  | .lockQuery p lock => some (p, frame 0x0C [lock])
  | .writeFormat p slot group => some (p, frame 0x0D (slot :: group.bytes))
  | .readFormat p slot group => some (p, frame 0x0E [slot, group])
  | .commitFormat p slot => some (p, frame 0x0F [slot])
  | .arm => some (.line, frame 0x20 [])
  | .disarm => some (.line, frame 0x21 [])
  | .clear => some (.line, frame 0x22 [])
  | .softReset => some (.line, frame 0x23 [])
  | .setConstants c =>
    some (.line, frame 0x24
      (littleEndian c.e 2 ++ [c.direction] ++ littleEndian c.z0 2 ++ [c.p, c.chordEnable, c.purgeCell]))
  | .setCell c =>
    some (.line, frame 0x25
      ([c.cell, c.mode, c.polarity, c.edgeSelect] ++ littleEndian c.filter 2 ++ littleEndian c.width 2
        ++ [c.safeLevel]))
  | .takeCell cell => some (.line, frame 0x26 [cell])
  | .changeover slot => some (.line, frame 0x27 [slot])
  | .takeBatch => some (.line, frame 0x28 [])
  | .peekBatch => some (.line, frame 0x29 [])
  | .closeBatch => some (.line, frame 0x2A [])
  | .markReject seq => some (.line, frame 0x2B (littleEndian seq 4))
  | .primeGum => some (.line, frame 0x2C [])
  | .nudge v => some (.line, frame 0x2D (littleEndian v 2))
  | .setCym mode => some (.line, frame 0x2E [mode])
  | .statusWithAcknowledge => some (.line, frame 0x2F [])
  | .takeNotice => some (.inspection, frame 0x40 [])
  | .verdict seq outcome code => some (.inspection, frame 0x41 (littleEndian seq 4 ++ [outcome, code]))
  | .takeTrim => some (.drive, frame 0x60 [])
  | .shortFrame p bytes => some (p, bytes)
  | .unknownCommand p code params => some (p, frame code params)
  | .notOnPort p code params => some (p, frame code params)
  | .parameterLengthMismatch p code params => some (p, frame code params)
  | .emptyFrame p => some (p, [])
  | .forwardCount => none
  | .backwardCount => none
  | .discardedSample => none
  | .indexCorrection => none
  | .cymPulseEnd => none
  | .haltTimerExpiry => none
  | .crawlThreshold => none
  | .pinChange _ _ => none
  | .filterExpiry _ => none
  | .levelInputChange _ _ => none
  | .pulseEnd _ => none
  | .standbyExpiry => none
  | .primeComplete => none
  | .operatorLineChange _ _ => none
  | .chordTaken => none
  | .powerOn _ => none
  | .rstnReset => none
  | .rstnRelease => none
  | .portReset _ => none
  | .portResetRelease _ => none

/-! ### The opcode table's words -/

/-- No row of spec/opcode_table.json has bits (every "fields" list is empty and no row has "fixed"), so no word spells
a command (assumption log 4). -/
def decodeTableWord (_nbits _w : Nat) : Option Instr := none

end Sys2Proof
end

