-- ==== Sys2Proof/Machine/Operands.lean ====
section
/-!
DEFINITION. The operands of the commands: the values that raw parameters spell and the range tests on them (sections
1.1, 1.4, 8.1, 10.3), and the layouts of the response payloads (R171).
-/

namespace Sys2Proof.Machine

/-! ### List values and flags (section 10.3) -/

/-- On and off are 1 and 0. -/
def flagOf (b : Byte) : Option Bool :=
  match b.toNat with
  | 0 => some false
  | 1 => some true
  | _ => none

/-- Count directions: NORMAL 0, INVERTED 1. -/
def directionOf (b : Byte) : Option CountDirection :=
  match b.toNat with
  | 0 => some .normal
  | 1 => some .inverted
  | _ => none

/-- Cell modes: OFF 0 to PULSE_OUT 4. -/
def cellModeOf (b : Byte) : Option CellMode :=
  match b.toNat with
  | 0 => some .off
  | 1 => some .edgeIn
  | 2 => some .levelIn
  | 3 => some .windowOut
  | 4 => some .pulseOut
  | _ => none

/-- Polarities: ACTIVE_HIGH 0, ACTIVE_LOW 1. -/
def polarityOf (b : Byte) : Option Polarity :=
  match b.toNat with
  | 0 => some .activeHigh
  | 1 => some .activeLow
  | _ => none

/-- Edge selects: RISING 0, FALLING 1, BOTH 2. -/
def edgeSelectOf (b : Byte) : Option EdgeSelect :=
  match b.toNat with
  | 0 => some .rising
  | 1 => some .falling
  | 2 => some .both
  | _ => none

/-- Safe levels: INACTIVE 0, ACTIVE 1. -/
def safeLevelOf (b : Byte) : Option SafeLevel :=
  match b.toNat with
  | 0 => some .inactive
  | 1 => some .active
  | _ => none

/-- Station kinds: WINDOW 0 to COUNT 11. -/
def kindOf (b : Byte) : Option Kind :=
  match b.toNat with
  | 0 => some .window
  | 1 => some .patch
  | 2 => some .gum
  | 3 => some .inspect
  | 4 => some .reject
  | 5 => some .kick
  | 6 => some .box
  | 7 => some .feed
  | 8 => some .mark
  | 9 => some .patchCheck
  | 10 => some .foldCheck
  | 11 => some .count
  | _ => none

/-- Missing-verdict policies: REJECT 0, PASS 1. -/
def policyOf (b : Byte) : Option Policy :=
  match b.toNat with
  | 0 => some .reject
  | 1 => some .pass
  | _ => none

/-- CYM modes: OFF 0, CYCLE 1, FORMAT 2. -/
def cymModeOf (b : Byte) : Option CymMode :=
  match b.toNat with
  | 0 => some .off
  | 1 => some .cycle
  | 2 => some .format
  | _ => none

/-- A number below `n` as an index. -/
def indexOf (n : Nat) (b : Byte) : Option (Fin n) := if h : b.toNat < n then some ⟨b.toNat, h⟩ else none

/-- A purge cell: NONE is 0xFF. -/
def purgeOf (b : Byte) : Option (Option (Fin 16)) :=
  if b = 0xFF then some none else (indexOf 16 b).map some

/-- An index position under E: NONE is 0xFFFF; E or greater is out of range (R2). -/
def indexPositionOf (e : Nat) (z : Half) : Option (Option Nat) :=
  if z = 0xFFFF then some none else if z.toNat < e then some (some z.toNat) else none

/-- Whether a number lies in a range that includes both ends. -/
def inRange (low high n : Nat) : Bool := decide (low ≤ n) && decide (n ≤ high)

/-! ### Groups of values and their range tests -/

/-- The machine constants that parameters spell, none where one lies outside its range (R2). -/
def constantsOf (r : RawConstants) : Option Constants := do
  let direction ← directionOf r.direction
  let z0 ← indexPositionOf r.e.toNat r.z0
  let chordEnable ← flagOf r.chordEnable
  let purgeCell ← purgeOf r.purgeCell
  if inRange 2000 40000 r.e.toNat && inRange 4 64 r.p.toNat then
    some { e := r.e.toNat, direction, z0, p := r.p.toNat, chordEnable, purgeCell }
  else none

/-- The cell configuration that parameters spell. Fields that do not apply to the mode are not checked and are stored
as 0, or as the first value of their list (R15 and the table of section 1.4). -/
def cellConfigOf (r : RawCell) : Option CellConfig := do
  let mode ← cellModeOf r.mode
  let polarity ← if mode = .off then some .activeHigh else polarityOf r.polarity
  let edgeSelect ← if mode = .edgeIn then edgeSelectOf r.edgeSelect else some .rising
  let filter ←
    if mode = .edgeIn then (if inRange 0 1000 r.filter.toNat then some r.filter.toNat else none) else some 0
  let width ←
    if mode = .pulseOut then (if inRange 50 50000 r.width.toNat then some r.width.toNat else none) else some 0
  let safeLevel ← if mode = .windowOut || mode = .pulseOut then safeLevelOf r.safeLevel else some .inactive
  some { mode, polarity, edgeSelect, filter, width, safeLevel }

/-- The header that parameters spell, none where a field lies outside its range (section 8.1, R138). -/
def headerOf (r : RawHeader) : Option Header := do
  let regOn ← flagOf r.regEnable
  let policy ← policyOf r.policy
  if inRange 0 4096 r.deadband.toNat && inRange 0 256 r.gain.toNat && inRange 0 8192 r.cmax.toNat
      && inRange 0 32767 r.amax.toNat && inRange 1 255 r.missLimit.toNat
      && inRange 1 32767 r.rejectTolerance.toNat && inRange 1 600 r.primeTime.toNat
      && inRange 1 1000 r.batchSize.toNat && inRange 1 99 r.perBox.toNat then
    some
      { regOn, target := r.target.toNat, deadband := r.deadband.toNat, gain := r.gain.toNat
        cmax := r.cmax.toNat, amax := r.amax.toNat, missLimit := r.missLimit.toNat
        rejectTolerance := r.rejectTolerance.toNat, policy, standbyCode := r.standbyCode.toNat
        primeTime := r.primeTime.toNat, batchSize := r.batchSize.toNat, perBox := r.perBox.toNat }
  else none

/-- The station entry that parameters spell, none where a field lies outside its range (R138). -/
def entryOf (r : RawEntry) : Option Entry := do
  let kind ← kindOf r.kind
  let position ← indexOf 64 r.position
  let cell ← indexOf 16 r.cell
  let enabled ← flagOf r.enable
  if r.onAngle ≠ r.offAngle && inRange 0 20000 r.leadUs.toNat then
    some { kind, position, cell, onAngle := r.onAngle, offAngle := r.offAngle, leadUs := r.leadUs.toNat, enabled }
  else none

/-! ### Values of list fields in payloads (R171) -/

/-- A flag as 1 or 0. -/
def flagByte (b : Bool) : Byte := if b then 1 else 0

/-- Cell mode value. -/
def CellMode.value : CellMode → Byte
  | .off => 0 | .edgeIn => 1 | .levelIn => 2 | .windowOut => 3 | .pulseOut => 4

/-- Polarity value. -/
def Polarity.value : Polarity → Byte
  | .activeHigh => 0 | .activeLow => 1

/-- Edge select value. -/
def EdgeSelect.value : EdgeSelect → Byte
  | .rising => 0 | .falling => 1 | .both => 2

/-- Safe level value. -/
def SafeLevel.value : SafeLevel → Byte
  | .inactive => 0 | .active => 1

/-- Station kind value. -/
def Kind.value : Kind → Byte
  | .window => 0 | .patch => 1 | .gum => 2 | .inspect => 3 | .reject => 4 | .kick => 5 | .box => 6 | .feed => 7
  | .mark => 8 | .patchCheck => 9 | .foldCheck => 10 | .count => 11

/-- Policy value. -/
def Policy.value : Policy → Byte
  | .reject => 0 | .pass => 1

/-- Motion state value. -/
def Motion.value : Motion → Byte
  | .halted => 0 | .reverse => 1 | .crawl => 2 | .running => 3

/-- Verdict value. -/
def Verdict.value : Verdict → Byte
  | .noneDue => 0 | .awaiting => 1 | .pass => 2 | .fail => 3 | .skipped => 4 | .missing => 5

/-- Disposition value. -/
def Disposition.value : Disposition → Byte
  | .inLine => 0 | .toReject => 1 | .cleared => 2 | .flagged => 3 | .rejected => 4 | .delivered => 5 | .lost => 6

/-- Closure cause value. -/
def CloseCause.value : CloseCause → Byte
  | .full => 0 | .oversize => 1 | .short => 2 | .changeover => 3

/-- Line mode value. -/
def LineMode.value : LineMode → Byte
  | .offline => 0 | .armed => 1 | .faulted => 2

/-- Reset cause value. -/
def ResetCause.value : ResetCause → Byte
  | .powerOn => 0 | .resetLine => 1 | .soft => 2

/-- First cause value, NONE 0. -/
def firstCauseValue : Option Cause → Byte
  | none => 0
  | some .jamFold => 1 | some .jamCount => 2 | some .trackLost => 3 | some .indexSlip => 4
  | some .stopL => 5 | some .stopI => 6 | some .stopD => 7

/-- Registration state value. -/
def RegState.value : RegState → Byte
  | .off => 0 | .tracking => 1 | .coasting => 2 | .lost => 3

/-- Gum state value. -/
def GumState.value : GumState → Byte
  | .off => 0 | .ready => 1 | .standby => 2 | .priming => 3

/-- Slot state value. -/
def SlotState.value : SlotState → Byte
  | .empty => 0 | .draft => 1 | .valid => 2

/-- Holder value, NONE 0. -/
def holderValue : Option Port → Byte
  | none => 0
  | some .line => 1 | some .inspection => 2 | some .drive => 3

/-- A slot number, 0xFF for none. -/
def slotByte : Option (Fin 4) → Byte
  | none => 0xFF
  | some k => BitVec.ofNat 8 k.val

/-- The value of a status code (section 10.4). -/
def Status.value : Status → Byte
  | .ok => 0x00 | .empty => 0x01 | .replaced => 0x02 | .unknownCommand => 0x10 | .notOnPort => 0x11
  | .shortFrame => 0x12 | .range => 0x13 | .wrongMode => 0x14 | .notHalted => 0x15 | .noConstants => 0x16
  | .noFormat => 0x17 | .logFull => 0x18 | .notHolder => 0x20 | .locked => 0x21 | .inUse => 0x22
  | .notAllocated => 0x23 | .noneFree => 0x24 | .formatError => 0x25 | .notValid => 0x26 | .notTracked => 0x30
  | .tooLate => 0x31 | .duplicate => 0x32 | .notAwaiting => 0x33 | .regOff => 0x34 | .noResponse => 0x3F

/-! ### Layouts (R171) -/

/-- A blank record at a position: 20 bytes. -/
def Blank.layout (position : Nat) (b : Blank) : List Byte :=
  [1, BitVec.ofNat 8 position] ++ littleEndian b.seq 4 ++ [BitVec.ofNat 8 b.fmt.val, b.ops.setWidth 8]
    ++ littleEndian (b.faults.setWidth 16) 2
    ++ [flagByte b.regErr.isSome ||| (flagByte b.failCode.isSome <<< 1) ||| (flagByte b.batch.isSome <<< 2)]
    ++ littleEndian (BitVec.ofInt 16 (b.regErr.getD 0)) 2
    ++ [b.verdict.value, b.failCode.getD 0, b.disposition.value] ++ littleEndian (b.batch.getD 0) 4

/-- A ring entry at a position: the gap marker, or the record (R35). -/
def entryLayout (position : Nat) : Option Blank → List Byte
  | none => [0, BitVec.ofNat 8 position]
  | some b => b.layout position

/-- A batch record: 42 bytes. -/
def BatchRecord.layout (r : BatchRecord) : List Byte :=
  littleEndian r.fields.number 4 ++ [BitVec.ofNat 8 r.fields.fmt.val, r.cause.value]
    ++ [flagByte r.fields.suspect ||| (flagByte r.fields.mixed <<< 1)] ++ littleEndian r.fields.count 4
    ++ littleEndian (r.fields.firstSeq.getD 0) 4 ++ littleEndian (r.fields.lastSeq.getD 0) 4
    ++ littleEndian r.fields.rejects 4 ++ littleEndian r.fields.passedDefects 4 ++ littleEndian r.fields.unexpected 4
    ++ littleEndian r.fields.indexInBox 4 ++ littleEndian r.fields.boxNumber 4
    ++ littleEndian (BitVec.ofNat 16 r.fields.heldSize) 2 ++ [BitVec.ofNat 8 r.fields.heldPerBox]

/-- A notice: 7 bytes. -/
def Notice.layout (n : Notice) : List Byte :=
  littleEndian n.seq 4 ++ [BitVec.ofNat 8 n.fmt.val] ++ littleEndian n.stamp 2

/-- The trim: 5 bytes. -/
def trimLayout (trim : Int) (contributions age : Nat) (overrun : Bool) : List Byte :=
  littleEndian (BitVec.ofInt 16 trim) 2 ++ [BitVec.ofNat 8 contributions, BitVec.ofNat 8 age, flagByte overrun]

/-- The motion report: 17 bytes (R170). -/
def State.motionLayout (s : State) : List Byte :=
  littleEndian (BitVec.ofNat 16 s.angle.p) 2 ++ littleEndian (BitVec.ofNat 16 s.theta) 2
    ++ littleEndian s.angle.cycle 4 ++ littleEndian (BitVec.ofNat 24 s.angle.tc) 3 ++ [s.motion.value]
    ++ littleEndian (BitVec.ofNat 16 s.angle.debt) 2 ++ littleEndian (BitVec.ofNat 24 s.leadScale) 3

/-- The flags byte of the status report. -/
def State.statusFlags (s : State) : Byte :=
  flagByte s.constants.isSome ||| (flagByte s.batch.openBatch.isSome <<< 1)
    ||| (flagByte (s.batch.openBatch.any fun b => b.state = .held) <<< 2)
    ||| (flagByte s.registration.limit <<< 3)

/-- The status report: 23 bytes (R169). DESIGN CHOICE, unsafe (assumption log 35): without an open batch the open batch
count is sent as 0, as section 10.5 says of the open batch number. -/
def State.statusLayout (s : State) : List Byte :=
  [s.line.mode.value, s.line.resetCause.value, s.statusFlags, firstCauseValue s.line.firstCause,
   s.line.causes.setWidth 8, s.line.events.setWidth 8, slotByte s.active, slotByte s.pendingSlot,
   s.registration.state.value, BitVec.ofNat 8 s.registration.missCount]
    ++ littleEndian (BitVec.ofInt 16 s.registration.total) 2
    ++ [s.gum.state.value, BitVec.ofNat 8 s.notices.length, BitVec.ofNat 8 s.batch.log.length]
    ++ littleEndian (match s.batch.openBatch with | some b => b.fields.number | none => 0) 4
    ++ littleEndian (match s.batch.openBatch with | some b => b.fields.count | none => 0) 4

/-- A lock of the pool: 4 bytes (R142). -/
def Lock.layout (number : Byte) (l : Lock) : List Byte :=
  [number, flagByte l.allocated, flagByte l.held, holderValue l.holder]

/-- A cell's configuration in the order SET CELL carries it. -/
def CellConfig.layout (c : CellConfig) : List Byte :=
  [c.mode.value, c.polarity.value, c.edgeSelect.value] ++ littleEndian (BitVec.ofNat 16 c.filter) 2
    ++ littleEndian (BitVec.ofNat 16 c.width) 2 ++ [c.safeLevel.value]

/-- The header group as WRITE FORMAT carries it: 21 bytes. -/
def Header.layout (h : Header) : List Byte :=
  [flagByte h.regOn] ++ littleEndian (BitVec.ofNat 16 h.target) 2 ++ littleEndian (BitVec.ofNat 16 h.deadband) 2
    ++ littleEndian (BitVec.ofNat 16 h.gain) 2 ++ littleEndian (BitVec.ofNat 16 h.cmax) 2
    ++ littleEndian (BitVec.ofNat 16 h.amax) 2 ++ [BitVec.ofNat 8 h.missLimit]
    ++ littleEndian (BitVec.ofNat 16 h.rejectTolerance) 2 ++ [h.policy.value, BitVec.ofNat 8 h.standbyCode]
    ++ littleEndian (BitVec.ofNat 16 h.primeTime) 2 ++ littleEndian (BitVec.ofNat 16 h.batchSize) 2
    ++ [BitVec.ofNat 8 h.perBox]

/-- A station entry as READ FORMAT returns it: the present flag and, when present, the ten entry bytes. -/
def stationLayout : Option Entry → List Byte
  | none => [0]
  | some e =>
    [1, e.kind.value, BitVec.ofNat 8 e.position.val, BitVec.ofNat 8 e.cell.val] ++ littleEndian e.onAngle 2
      ++ littleEndian e.offAngle 2 ++ littleEndian (BitVec.ofNat 16 e.leadUs) 2 ++ [flagByte e.enabled]

end Sys2Proof.Machine
end

