-- ==== Sys2Proof/Machine/Registration.lean ====
section
/-!
DEFINITION. The registration unit (chapter 4): entering OFF, the MARK evaluation with its restart, miss rule and
correction pipeline, the trim age, and the commands NUDGE and TAKE TRIM.
-/

namespace Sys2Proof.Machine

/-- Entering OFF, or an entry event while OFF: A, ρ, the miss count and the last-computed slot cleared, the limit flag
cleared; Q, n, the trim age, the overrun flag and the held limits kept (R68). -/
def Registration.enterOff (r : Registration) : Registration :=
  { r with state := .off, missCount := 0, total := 0, residue := 0, limit := false, lastSlot := none }

/-- The restart of R70 with the held limits of a slot's header; without a restart the held limits are copied again. -/
def Registration.formatCheck (k : Fin 4) (h : Header) (r : Registration) : Registration :=
  let r' :=
    if r.lastSlot = some k then r
    else { r with state := .tracking, missCount := 0, total := 0, residue := 0, limit := false, lastSlot := some k }
  { r' with heldCmax := h.cmax, heldAmax := h.amax }

/-- Stage 2: θm − T reduced into −32,768 to 32,767 (R73). -/
def registrationError (target angle : Nat) : Int :=
  let d : Int := (angle : Int) - (target : Int)
  if 32767 < d then d - 65536 else if d < -32768 then d + 65536 else d

/-- Stages 4 and 5: the deadband, then e × G / 256 to the nearest integer, halves away from zero (R75). -/
def correctionOf (h : Header) (e : Int) : Int :=
  if e.natAbs ≤ h.deadband then 0
  else e.sign * ((e.natAbs * h.gain + 128) / 256 : Nat)

/-- A number clamped into −limit to +limit. -/
def clampTo (limit : Nat) (x : Int) : Int := max (-(limit : Int)) (min (limit : Int) x)

/-- Stage 7 (R77): the total clamped, the limit flag set on a cut and cleared strictly inside. The result is the unit,
the applied correction c′ and whether the clamp cut. -/
def Registration.totalClamp (c : Int) (r : Registration) : Registration × Int × Bool :=
  let total := clampTo r.heldAmax (r.total + c)
  let applied := total - r.total
  let limit :=
    if applied ≠ c then true
    else if total.natAbs < r.heldAmax then false else r.limit
  ({ r with total := total, limit := limit }, applied, decide (applied ≠ c))

/-- Stage 8 (R78): c′ × E + ρ divided by 65,536 with the quotient truncated toward zero. The result is the unit with the
new residue and the count k. -/
def Registration.convert (e : Nat) (applied : Int) (r : Registration) : Registration × Int :=
  let num := applied * (e : Int) + r.residue
  let k := num.tdiv 65536
  ({ r with residue := num - k * 65536 }, k)

/-- Stage 9 (R79): k folded into Q with saturation, n increased. -/
def Registration.fold (k : Int) (r : Registration) : Registration :=
  let sum := r.trim + k
  { r with
    trim := clampTo 32767 sum
    overrun := r.overrun || decide (32767 < sum.natAbs)
    contributions := min 255 (r.contributions + 1) }

/-- Stages 6 to 9 on a correction, under the machine constant E (R76 to R79); a cut at stage 7 sets REG_LIMIT. -/
def State.applyCorrection (c : Int) (s : State) : State :=
  let e := match s.constants with | some k => k.e | none => 0
  let clamped := s.registration.totalClamp (clampTo s.registration.heldCmax c)
  let converted := clamped.1.convert e clamped.2.1
  let s' := { s with registration := converted.1.fold converted.2 }
  if clamped.2.2 then s'.setEvent .regLimit else s'

/-- The miss rule (R71) under a miss limit. -/
def Registration.miss (missLimit : Nat) (r : Registration) : Registration :=
  let n := min 255 (r.missCount + 1)
  { r with missCount := n, state := if missLimit < n || r.missCount = 255 then .lost else .coasting }

/-- A record handed with its seen latch clear (R71). -/
def State.markMissed (seq : Word) (h : Header) (s : State) : State :=
  let r := s.registration.miss h.missLimit
  let s' := { s with registration := r }.update seq (Blank.addFault .noMark)
  if r.state = .lost && s.registration.state ≠ .lost then s'.setEvent .regLost else s'

/-- A record handed with its seen latch set (R72 to R79): reg_err written, the reject test, the correction. -/
def State.markSeen (seq : Word) (h : Header) (angle : Half) (s : State) : State :=
  let e := registrationError h.target angle.toNat
  let s1 := { s with registration := { s.registration with missCount := 0, state := .tracking } }
  let s2 := s1.update seq fun b => { b with regErr := some e }
  let s3 := if h.rejectTolerance < e.natAbs then s2.update seq (Blank.addFault .regOut) else s2
  s3.applyCorrection (correctionOf h e)

/-- The MARK evaluation of a record of slot `k` (R69): the format check, then the miss rule or the measurement. A set
seen latch comes with a first-edge angle (R72). -/
def State.markEvaluation (seq : Word) (k : Fin 4) (seen : Bool) (firstEdge : Option Half) (s : State) : State :=
  let h := s.slots[k].header
  let s' := { s with registration := s.registration.formatCheck k h }
  if seen then s'.markSeen seq h (firstEdge.getD 0) else s'.markMissed seq h

/-- The trim age at a head advance (R83). -/
def Registration.headAdvance (r : Registration) : Registration :=
  if 0 < r.contributions then { r with age := min 255 (r.age + 1) } else r

/-- SET CONSTANTS on the registration unit: OFF, and the pending trim discarded (R68). -/
def Registration.newConstants (r : Registration) : Registration :=
  { r.enterOff with trim := 0, contributions := 0, age := 0, overrun := false }

/-! ### Commands -/

/-- NUDGE (R80): RANGE outside −8,192 to 8,192, REG_OFF in state OFF, otherwise stages 6 to 9 on v. -/
def State.nudge (v : Half) (s : State) : State × Response :=
  if 8192 < v.toInt.natAbs then (s, .bare .range)
  else if s.registration.state = .off then (s, .bare .regOff)
  else (s.applyCorrection v.toInt, .bare .ok)

/-- NUDGE (R80). -/
def execNudge (v : Half) (s : State) : Result := takeFrame .line (State.nudge v) s

/-- TAKE TRIM (R82): Q, n, the trim age and the overrun flag returned and emptied, or EMPTY with zeros. -/
def State.takeTrim (s : State) : State × Response :=
  let r := s.registration
  if 0 < r.contributions || r.overrun then
    ({ s with registration := { r with trim := 0, contributions := 0, age := 0, overrun := false } },
      { status := .ok, payload := trimLayout r.trim r.contributions r.age r.overrun })
  else (s, { status := .empty, payload := trimLayout 0 0 0 false })

/-- TAKE_TRIM (R82). -/
def execTakeTrim (s : State) : Result := takeFrame .drive State.takeTrim s

end Sys2Proof.Machine
end

