-- ==== Sys2Proof/Machine/Batch.lean ====
section
/-!
DEFINITION. The batch counter (chapter 7): opening and closing batches and boxes, the format boundary, the count
verification, rejects, and the commands TAKE BATCH, PEEK BATCH and CLOSE BATCH.
-/

namespace Sys2Proof.Machine

/-- The batch log's room (R131). -/
def logRoom : Nat := 32

/-- The log length whose append sets LOG_HIGH (R132). -/
def logHigh : Nat := 24

/-- Whether the log is full. -/
def State.logFull (s : State) : Bool := decide (logRoom ≤ s.batch.log.length)

/-- A batch opened for a slot, with held B and held per-box copied from it (R119). -/
def State.openBatchFor (k : Fin 4) (s : State) : State :=
  let h := s.slots[k].header
  let fields : BatchFields :=
    { number := s.batch.nextNumber, fmt := k, heldSize := h.batchSize, heldPerBox := h.perBox, count := 0
      firstSeq := none, lastSeq := none, rejects := 0, passedDefects := 0, unexpected := 0
      indexInBox := increase .indexInBox s.batch.inBox, boxNumber := s.batch.boxNumber, suspect := false
      mixed := false }
  { s with batch := { s.batch with
      openBatch := some { fields := fields, state := .open }
      nextNumber := successor s.batch.nextNumber } }

/-- The open batch's fields changed; nothing without an open batch. -/
def State.updBatch (f : BatchFields → BatchFields) (s : State) : State :=
  { s with batch := { s.batch with
      openBatch := s.batch.openBatch.map fun b => { b with fields := f b.fields } } }

/-- The open batch's state set. -/
def State.setBatchState (st : BatchState) (s : State) : State :=
  { s with batch := { s.batch with openBatch := s.batch.openBatch.map fun b => { b with state := st } } }

/-- A box closure (R128). -/
def State.closeBox (s : State) : State :=
  { s with batch := { s.batch with
      box := true, boxNumber := successor s.batch.boxNumber, inBox := 0 } }.setEvent .boxClosed

/-- A closure of the open batch `b` with a cause (R127): the record appended, the kick latched, the batches-in-box count
increased, the box closed where R127 says so, the next batch opened. `boundary` is the fmt of the record that met a
format boundary. -/
def State.closeOpenBatch (b : OpenBatch) (cause : CloseCause) (boundary : Option (Fin 4)) (s : State) : State :=
  let s1 := { s with batch := { s.batch with
    log := s.batch.log ++ [BatchRecord.mk b.fields cause]
    kick := true
    inBox := increase .inBox s.batch.inBox } }
  let s2 := if s1.batch.log.length = logHigh then s1.setEvent .logHigh else s1
  let bySize := (cause = .full || cause = .oversize) && decide (b.fields.heldPerBox ≤ s2.batch.inBox.toNat)
  let s3 := if cause = .changeover || boundary.isSome || bySize then s2.closeBox else s2
  s3.openBatchFor (boundary.getD b.fields.fmt)

/-- The cause of a closure that is not made by the full-size test: by the count against held B (R126, R130), `below`
where the count is below it. -/
def BatchFields.causeOf (b : BatchFields) (below : CloseCause) : CloseCause :=
  if b.count.toNat < b.heldSize then below
  else if b.count.toNat = b.heldSize then .full else .oversize

/-! ### Deliveries -/

/-- The format boundary (R125), applied where the record's fmt differs from the open batch's. -/
def State.formatBoundary (fmt : Fin 4) (s : State) : State :=
  match s.batch.openBatch with
  | none => s
  | some b =>
    if b.fields.fmt = fmt then s
    else
      match b.state with
      | .open =>
        if b.fields.count = 0 then
          let h := s.slots[fmt].header
          let s1 := if s.batch.inBox ≠ 0 then s.closeBox else s
          s1.updBatch fun f =>
            { f with
              fmt := fmt, heldSize := h.batchSize, heldPerBox := h.perBox
              boxNumber := if s.batch.inBox ≠ 0 then s1.batch.boxNumber else f.boxNumber
              indexInBox := if s.batch.inBox ≠ 0 then 1 else f.indexInBox }
        else if s.logFull then (s.setBatchState .held).updBatch fun f => { f with mixed := true }
        else s.closeOpenBatch b .changeover (some fmt)
      | .held =>
        if s.logFull then s.updBatch fun f => { f with mixed := true }
        else s.closeOpenBatch b (b.fields.causeOf .changeover) (some fmt)

/-- The full-size test on the open batch (R126). -/
def State.fullSizeTest (s : State) : State :=
  match s.batch.openBatch with
  | none => s
  | some b =>
    let n := b.fields.count.toNat
    match b.state with
    | .open =>
      if n = b.fields.heldSize then
        (if s.logFull then s.setBatchState .held else s.closeOpenBatch b .full none)
      else s
    | .held =>
      if s.logFull then s
      else if n < b.fields.heldSize then s.setBatchState .open
      else if n = b.fields.heldSize then s.closeOpenBatch b .full none
      else s.closeOpenBatch b .oversize none

/-- The count of a record just delivered (R121). -/
def BatchFields.delivered (seq : Word) (f : BatchFields) : BatchFields :=
  { f with
    count := increase .count f.count
    firstSeq := if f.count = 0 then some seq else f.firstSeq
    lastSeq := some seq }

/-- A delivery of an IN_LINE or CLEARED record (R121). -/
def State.deliver (seq : Word) (fmt : Fin 4) (s : State) : State :=
  let s1 := s.formatBoundary fmt
  match s1.batch.openBatch with
  | none => s1
  | some b =>
    let s2 := (s1.update seq (Blank.deliver b.fields.number)).updBatch (BatchFields.delivered seq)
    { s2 with batch := { s2.batch with missRun := 0 } }.fullSizeTest

/-- A lost blank (R122): the record LOST with COUNT_MISSING, its notice withdrawn, SUSPECT set, the count miss run
increased, JAM_COUNT at 2. -/
def State.loseBlank (seq : Word) (s : State) : State :=
  let s1 := ((s.update seq (Blank.lose .countMissing)).withdraw seq).updBatch fun f => { f with suspect := true }
  if s1.batch.missRun + 1 < 2 then { s1 with batch := { s1.batch with missRun := s1.batch.missRun + 1 } }
  else { s1 with batch := { s1.batch with missRun := 0 } }.raiseCause .jamCount

/-- A passed defect (R123). -/
def State.passDefect (seq : Word) (s : State) : State :=
  let s1 := (s.update seq Blank.passDefect).updBatch fun f =>
    { f with passedDefects := increase .passedDefects f.passedDefects, suspect := true }
  { s1 with batch := { s1.batch with missRun := 0 } }

/-- An unexpected edge (R123). -/
def State.unexpectedEdge (s : State) : State :=
  s.updBatch fun f => { f with unexpected := increase .unexpected f.unexpected, suspect := true }

/-- The count verification of a hand-over (R120): a record of the station's own slot, or a gap, with the seen latch. A
hand-over in OFFLINE is disregarded. A seen DELIVERED record is in no row of the table and changes nothing (assumption
log 28). -/
def State.countVerification (handed : Option Blank) (seen : Bool) (s : State) : State :=
  if s.line.mode = .offline then s
  else
    match handed with
    | none => if seen then s.unexpectedEdge else s
    | some b =>
      match b.disposition with
      | .inLine | .cleared => if seen then s.deliver b.seq b.fmt else s.loseBlank b.seq
      | .toReject | .flagged => if seen then s.passDefect b.seq else s
      | .rejected | .lost => if seen then s.unexpectedEdge else s
      | .delivered => s

/-- A decision that left a record REJECTED counted (R124). -/
def State.countReject (s : State) : State :=
  s.updBatch fun f => { f with rejects := increase .rejects f.rejects }

/-! ### Commands -/

/-- TAKE BATCH (R131). -/
def State.takeBatch (s : State) : State × Response :=
  match s.batch.log with
  | [] => (s, .bare .empty)
  | r :: rest => ({ s with batch := { s.batch with log := rest } }, { status := .ok, payload := r.layout })

/-- TAKE_BATCH (R131). -/
def execTakeBatch (s : State) : Result := takeFrame .line State.takeBatch s

/-- PEEK BATCH (R131). -/
def State.peekBatch (s : State) : State × Response :=
  match s.batch.log with
  | [] => (s, .bare .empty)
  | r :: _ => (s, { status := .ok, payload := r.layout })

/-- PEEK_BATCH (R131). -/
def execPeekBatch (s : State) : Result := takeFrame .line State.peekBatch s

/-- CLOSE BATCH (R130). -/
def State.closeBatch (s : State) : State × Response :=
  match s.batch.openBatch with
  | none => (s, .bare .empty)
  | some b =>
    if b.fields.count = 0 then (s, .bare .empty)
    else if s.logFull then (s, .bare .logFull)
    else (s.closeOpenBatch b (b.fields.causeOf .short) none, .bare .ok)

/-- CLOSE_BATCH (R130). -/
def execCloseBatch (s : State) : Result := takeFrame .line State.closeBatch s

end Sys2Proof.Machine
end

