-- ==== Sys2Proof/Machine/Verdict.lean ====
section
/-!
DEFINITION. The verdict unit (chapter 6): notices, the reject decision, and the commands TAKE NOTICE, VERDICT and MARK
REJECT.
-/

namespace Sys2Proof.Machine

/-- The room of the notice queue (R100). -/
def noticeRoom : Nat := 16

/-- Whether the record of a queued notice stands at a higher ring position than `position` (R101). -/
def State.standsBefore (s : State) (position : Fin 64) (n : Notice) : Bool :=
  (s.positionOf n.seq).any fun k => position < k

/-- The verdict set SKIPPED (R53, R101), on a record that is not final (R40). -/
def Blank.skipVerdict (b : Blank) : Blank := if b.disposition.final then b else { b with verdict := .skipped }

/-- A notice handed over by a firing INSPECT station for the record at a position (R101): placed in cut order, or with
the queue full NOTICE_LOST added and the verdict SKIPPED. -/
def State.handNotice (b : Blank) (position : Fin 64) (s : State) : State :=
  if s.notices.length < noticeRoom then
    let n : Notice := { seq := b.seq, fmt := b.fmt, stamp := s.angle.cycle.setWidth 16 }
    { s with notices :=
        s.notices.takeWhile (s.standsBefore position) ++ n :: s.notices.dropWhile (s.standsBefore position) }
  else s.update b.seq fun b => (b.addFault .noticeLost).skipVerdict

/-- The verdict step of a decision on a non-final record: AWAITING becomes MISSING, with VERDICT_LATE under policy
REJECT (R108). -/
def Blank.settleVerdict (policy : Policy) (b : Blank) : Blank :=
  if b.disposition.final then b
  else if b.verdict = .awaiting then
    let b' := { b with verdict := .missing }
    match policy with
    | .reject => b'.addFault .verdictLate
    | .pass => b'
  else b

/-- The disposition step of a decision in ARMED (R109). -/
def Blank.decide (b : Blank) : Blank :=
  match b.disposition with
  | .toReject => { b with disposition := .rejected }
  | .inLine => { b with disposition := .cleared }
  | _ => b

/-- The disposition step of a decision in FAULTED: LINE_FAULT added to an empty fault set, then REJECTED (R65). -/
def Blank.decideFaulted (b : Blank) : Blank :=
  if b.disposition.final then b
  else
    let b' := if b.faults = 0 then b.addFault .lineFault else b
    { b' with disposition := .rejected }

/-- The reject decision in ARMED for a present record (R108, R109): the notice withdrawn, the verdict and the disposition
settled, a reject counted. The Boolean answers whether the decision left the record REJECTED by this request. -/
def State.rejectDecision (b : Blank) (s : State) : State × Bool :=
  let decision (b : Blank) : Blank := (b.settleVerdict s.slots[b.fmt].header.policy).decide
  let s' := (s.update b.seq decision).withdraw b.seq
  let rejects := decide ((decision b).disposition = .rejected) && !b.disposition.final
  (if rejects then s'.countReject else s', rejects)

/-- The reject decision in FAULTED for a present record (R65). -/
def State.rejectDecisionFaulted (b : Blank) (s : State) : State :=
  if b.disposition.final then s
  else
    let decision (b : Blank) : Blank := (b.settleVerdict s.slots[b.fmt].header.policy).decideFaulted
    ((s.update b.seq decision).withdraw b.seq).countReject

/-! ### Commands -/

/-- TAKE NOTICE (R102). -/
def State.takeNotice (s : State) : State × Response :=
  match s.notices with
  | [] => (s, .bare .empty)
  | n :: rest => ({ s with notices := rest }, { status := .ok, payload := n.layout })

/-- TAKE_NOTICE (R102). -/
def execTakeNotice (s : State) : Result := takeFrame .inspection State.takeNotice s

/-- An outcome of VERDICT: PASS 1 or FAIL 2 (section 10.3). -/
inductive VerdictOutcome where
  | pass | fail
  deriving DecidableEq, Repr

/-- The outcome an outcome byte spells. -/
def outcomeOf (b : Byte) : Option VerdictOutcome :=
  match b.toNat with
  | 1 => some .pass
  | 2 => some .fail
  | _ => none

/-- An accepted verdict on its record (R107). -/
def Blank.judge (o : VerdictOutcome) (code : Byte) (b : Blank) : Blank :=
  match o with
  | .pass => { b with verdict := .pass }
  | .fail => { b.addFault .verdictFail with verdict := .fail, failCode := some code }

/-- VERDICT (R105 to R107). -/
def State.takeVerdict (seq : Word) (outcome code : Byte) (s : State) : State × Response :=
  match outcomeOf outcome with
  | none => (s, .bare .range)
  | some o =>
    if o = .fail && code = 0 then (s, .bare .range)
    else
      match s.record seq with
      | none => (s, .bare .notTracked)
      | some b =>
        match b.verdict with
        | .awaiting =>
          if b.disposition.final then (s, .bare .tooLate)
          else ((s.update seq (Blank.judge o code)).withdraw seq, .bare .ok)
        | .pass | .fail => (s, .bare .duplicate)
        | .missing => (s, .bare .tooLate)
        | .skipped | .noneDue => (s, .bare .notAwaiting)

/-- VERDICT (R105 to R107). -/
def execVerdict (seq : Word) (outcome code : Byte) (s : State) : Result :=
  takeFrame .inspection (State.takeVerdict seq outcome code) s

/-- MARK REJECT (R113). -/
def State.markReject (seq : Word) (s : State) : State × Response :=
  match s.record seq with
  | none => (s, .bare .notTracked)
  | some b =>
    if b.disposition.final then (s, .bare .tooLate)
    else (s.update seq (Blank.addFault .operator), .bare .ok)

/-- MARK_REJECT (R113). -/
def execMarkReject (seq : Word) (s : State) : Result := takeFrame .line (State.markReject seq) s

end Sys2Proof.Machine
end

