-- ==== Sys2Proof/Machine/Scheduler.lean ====
section
/-!
DEFINITION. The station scheduler (chapter 3) with the head advance it shares with the ring, the registration unit, the
cycle timer and CYM (R9, R24, R83, R149), the creation of records (R29), the changeover taking effect (R147) and the
qualified edges (R57, R59).
-/

namespace Sys2Proof.Machine

/-! ### A slot joining the evaluated set -/

/-- Slot `n` taking its place in the angle as it stands at `theta` (R48): cycle leads from the present lead scale, marks
set at or below the angle, windows closed. -/
def State.join (n : Fin 4) (theta : Nat) (s : State) : State :=
  let scale := s.leadScale
  s.mapSlots fun k t =>
    if k = n then
      mapTable (fun i _ =>
        match s.entry n i with
        | some e => Station.markedAt e theta { Station.cleared with lead := e.leadUnder scale }
        | none => Station.cleared) t
    else t

/-- A changeover taking effect at angle `theta` (R146, R147): slot `n` becomes active, a pending changeover is cleared,
the fresh-format flag is set (R150), the slot joins the evaluated set if it was not in it (R47, R48), and the gum circuit
takes the changeover (R97). DEDUCED, unsafe (assumption log 32): a slot that stops being active while a window of it is
open stays evaluated and in use until that window closes, in OFFLINE as well (R47, R137). -/
def State.makeActive (n : Fin 4) (theta : Nat) (s : State) : State :=
  let s1 := { s with active := some n, pendingSlot := none, fresh := true }
  let s2 := if s.evaluated n then s1 else s1.join n theta
  (s2.gumChangeover n).prune

/-! ### Creating a record -/

/-- A fresh record (R29): clean in ARMED, TO_REJECT with LINE_FAULT otherwise. -/
def Blank.fresh (seq : Word) (fmt : Fin 4) (inspected armed : Bool) : Blank :=
  let b : Blank :=
    { seq, fmt, ops := 0, faults := 0, regErr := none
      verdict := if inspected then .awaiting else .noneDue
      failCode := none, disposition := .inLine, batch := none }
  if armed then b else b.addFault .lineFault

/-- CYM and the fresh-format flag at a record creation (R150). -/
def State.cymCreation (s : State) : State :=
  { s with
    fresh := false
    cym := if s.fresh && s.cym.mode = .format then { s.cym with hold := true } else s.cym }

/-- A record creation at position 0 (R29), with the pending changeover taking effect at it (R147), the registration unit
entering OFF for a format without registration (R68), and CYM told (R150). `active` is the slot whose FEED asks. -/
def State.createRecord (active : Fin 4) (theta : Nat) (s : State) : State :=
  let fmt := s.pendingSlot.getD active
  let s1 := match s.pendingSlot with | some n => s.makeActive n theta | none => s
  let inspected := !(s1.slots[fmt].ofKind .inspect).isEmpty
  let b := Blank.fresh s1.ring.nextSeq fmt inspected (s1.line.mode = .armed)
  let s2 := s1.putAt 0 (some b)
  let s3 := { s2 with ring := { s2.ring with nextSeq := successor s2.ring.nextSeq } }
  let s4 := if s3.slots[fmt].header.regOn then s3 else { s3 with registration := s3.registration.enterOff }
  s4.cymCreation

/-! ### Output stations at the on-crossing -/

/-- A station fires (R50): its fired flag is set, and a PULSE_OUT cell starts its pulse (R19). -/
def State.fire (k : Fin 4) (i : Fin 16) (e : Entry) (s : State) : State :=
  let s' := s.updStation k i fun st => { st with fired := true }
  let c := s'.cells[e.cell]
  if c.config.mode = .pulseOut then
    { s' with cells := setAt s'.cells e.cell { c with pulseTimer := some c.config.width } }
  else s'

/-- An enabled output station's work at its on-crossing. `b` is the present record of its own slot at its position, none
for a gap or a record of another slot (R47, R50 to R55, R64, R65). -/
def State.outputAction (k : Fin 4) (i : Fin 16) (e : Entry) (b : Option Blank) (s : State) : State :=
  match s.line.mode, e.kind, b with
  | .armed, .kick, _ =>
    if s.active = some k && s.batch.kick then { s with batch := { s.batch with kick := false } }.fire k i e else s
  | .armed, .box, _ =>
    if s.active = some k && s.batch.box then { s with batch := { s.batch with box := false } }.fire k i e else s
  | .armed, .window, some b => if b.disposition = .inLine then s.fire k i e else s
  | .armed, .patch, some b => if b.disposition = .inLine then s.fire k i e else s
  | .armed, .gum, some b =>
    if b.disposition = .inLine then
      if s.gum.state = .ready then s.fire k i e else s.update b.seq (Blank.addFault .gumSkipped)
    else s
  | .armed, .inspect, some b =>
    if b.disposition = .inLine then
      let s' := s.fire k i e
      if b.verdict = .awaiting then s'.handNotice b e.position else s'
    else if b.disposition = .toReject && b.verdict = .awaiting then
      s.update b.seq Blank.skipVerdict
    else s
  | .armed, .reject, some b =>
    let decided := s.rejectDecision b
    if decided.2 then decided.1.fire k i e else decided.1
  | .faulted, .reject, some b => s.rejectDecisionFaulted b
  | _, _, _ => s

/-! ### Closing a window -/

/-- The present record of slot `k` that a station has latched (R46, R47; assumption log 11). -/
def State.latched (k : Fin 4) (st : Station) (s : State) : Option Blank :=
  match st.latch with
  | .blank seq => (s.record seq).filter fun b => b.fmt = k
  | .gap => none
  | .empty => none

/-- The operation a kind records at the off-crossing of a fired window (R50). -/
def Kind.operation : Kind → Option Op
  | .window => some .window
  | .patch => some .patch
  | .gum => some .gum
  | .inspect => some .inspect
  | .reject => none | .kick => none | .box => none | .feed => none | .mark => none | .patchCheck => none
  | .foldCheck => none | .count => none

/-- The operation of a fired window sent for the latched record (R50). -/
def State.sendOperation (e : Entry) (st : Station) (s : State) : State :=
  match e.kind.operation, st.latch with
  | some o, .blank seq => if st.fired then s.update seq (Blank.addOp o) else s
  | _, _ => s

/-- The FEED evaluation of slot `k` at angle `theta` (R58). -/
def State.feedEvaluation (k : Fin 4) (st : Station) (theta : Nat) (s : State) : State :=
  if s.active = some k && st.seen && s.line.mode ≠ .offline && (s.ring.at 0).isNone then s.createRecord k theta
  else s

/-- The MARK evaluation of slot `k` (R59): a record of its own slot at position 0 is handed to the registration unit. A
gap is handed by the active slot, and the unit computes nothing (R69). -/
def State.markStation (k : Fin 4) (st : Station) (s : State) : State :=
  match s.presentAt 0 with
  | some b => if b.fmt = k then s.markEvaluation b.seq k st.seen st.firstEdge else s
  | none => s

/-- The PATCH_CHECK evaluation (R60). -/
def State.patchCheck (k : Fin 4) (st : Station) (s : State) : State :=
  match s.latched k st with
  | some b =>
    if (b.disposition = .inLine || b.disposition = .cleared) && b.hasOp .patch && !st.seen then
      s.update b.seq (Blank.addFault .patchMissing)
    else s
  | none => s

/-- A FOLD_CHECK miss (R62): the run increased, JAM_FOLD and the run 0 at 2. -/
def State.foldMiss (k : Fin 4) (i : Fin 16) (st : Station) (s : State) : State :=
  if st.missRun + 1 < 2 then s.updStation k i fun st => { st with missRun := st.missRun + 1 }
  else (s.updStation k i fun st => { st with missRun := 0 }).raiseCause .jamFold

/-- The FOLD_CHECK evaluation (R61). -/
def State.foldCheck (k : Fin 4) (i : Fin 16) (st : Station) (s : State) : State :=
  match s.latched k st with
  | none => s
  | some b =>
    match st.seen, b.disposition with
    | true, .rejected => s.updStation k i fun st => { st with missRun := 0 }
    | true, .delivered => s.updStation k i fun st => { st with missRun := 0 }
    | true, .lost => s.updStation k i fun st => { st with missRun := 0 }
    | true, _ => (s.update b.seq (Blank.addOp .fold)).updStation k i fun st => { st with missRun := 0 }
    | false, .inLine => (s.update b.seq (Blank.addFault .foldMissing)).foldMiss k i st
    | false, .cleared => (s.update b.seq (Blank.addFault .foldMissing)).foldMiss k i st
    | false, .toReject => s.foldMiss k i st
    | false, .flagged => s.foldMiss k i st
    | false, _ => s

/-- The COUNT evaluation (R63): a record of the station's own slot is handed over, and the active slot hands a gap over;
a record of another slot, and a latched record that has left the ring, are not (assumption log 11). -/
def State.countStation (k : Fin 4) (st : Station) (s : State) : State :=
  match st.latch with
  | .blank _ =>
    match s.latched k st with
    | some b => s.countVerification (some b) st.seen
    | none => s
  | .gap => if s.active = some k then s.countVerification none st.seen else s
  | .empty => s

/-- What a station does as its window closes at its off-crossing (R46). A disabled input station is not evaluated
(R42). -/
def State.closingAction (k : Fin 4) (i : Fin 16) (e : Entry) (st : Station) (theta : Nat) (s : State) : State :=
  if e.kind.isOutput then s.sendOperation e st
  else if e.enabled then
    match e.kind with
    | .feed => s.feedEvaluation k st theta
    | .mark => s.markStation k st
    | .patchCheck => s.patchCheck k st
    | .foldCheck => s.foldCheck k i st
    | .count => s.countStation k st
    | _ => s
  else s

/-- An open window closed as at its off-crossing (R46). -/
def State.closeWindow (k : Fin 4) (i : Fin 16) (e : Entry) (theta : Nat) (s : State) : State :=
  (s.closingAction k i e (s.station k i) theta).updStation k i Station.close

/-! ### Crossings -/

/-- The latch of an entry (R46). -/
def latchOf : Option Blank → Latch
  | some b => .blank b.seq
  | none => .gap

/-- A window opened with its latch; an input station clears its seen latch and its first-edge angle (R46, R57, R59). -/
def Station.opened (e : Entry) (b : Option Blank) (st : Station) : Station :=
  { st with
    windowOpen := true
    latch := latchOf b
    fired := false
    seen := if e.kind.isOutput then st.seen else false
    firstEdge := if e.kind.isOutput then st.firstEdge else none }

/-- An on-crossing (R46): a window still open is closed first, without its off-crossing being taken (assumption log 10);
then the entry at the position is latched, the window opens, and an enabled output station acts. -/
def State.onCrossing (k : Fin 4) (i : Fin 16) (e : Entry) (theta : Nat) (s : State) : State :=
  let s1 := s.updStation k i fun st => { st with onMark := true }
  let s2 := if (s1.station k i).windowOpen then s1.closeWindow k i e theta else s1
  let b := s2.presentAt e.position
  let s3 := s2.updStation k i (Station.opened e b)
  if e.kind.isOutput && e.enabled then s3.outputAction k i e (b.filter fun b => b.fmt = k) else s3

/-- An off-crossing (R46). -/
def State.offCrossing (k : Fin 4) (i : Fin 16) (e : Entry) (theta : Nat) (s : State) : State :=
  let s1 := s.updStation k i fun st => { st with offMark := true }
  if (s1.station k i).windowOpen then s1.closeWindow k i e theta else s1

/-- A crossing of a station that a step passes. -/
structure Crossing where
  slot : Fin 4
  index : Fin 16
  isOn : Bool
  angle : Nat
  /-- 0 for a FEED evaluation, 1 for an on-crossing, 2 for another off-crossing (R44). -/
  order : Nat
  deriving DecidableEq, Repr

/-- The crossings of a station between two angles, both included, whose marks are clear (R44). DESIGN CHOICE, unsafe
(assumption log 31): every FEED off-crossing stands where R44 puts the FEED evaluation, also one that brings none (no
window open, or a slot that is not active, R47, R58). -/
def crossingsOf (k : Fin 4) (i : Fin 16) (e : Entry) (st : Station) (low high : Nat) : List Crossing :=
  let on := e.effectiveOn st
  let off := e.effectiveOff st
  (if !st.onMark && inRange low high on then [Crossing.mk k i true on 1] else [])
    ++ (if !st.offMark && inRange low high off then
          [Crossing.mk k i false off (if e.kind = .feed then 0 else 2)]
        else [])

/-- The crossings still to be taken between two angles, over every station of the evaluated set (R47). -/
def State.crossings (s : State) (low high : Nat) : List Crossing :=
  (List.finRange 4).flatMap fun k =>
    if s.evaluated k then
      (List.finRange 16).flatMap fun i =>
        match s.entry k i with
        | some e => crossingsOf k i e (s.station k i) low high
        | none => []
    else []

/-- Whether one crossing is taken before another: by angle, then by the order of R44, then by a free rank (assumption
log 6). DEDUCED, unsafe (assumption log 38): R44 also orders the KICK and BOX on-crossings and the closures at COUNT
off-crossings of one step, and its hand-overs and decisions, though R55, R129 and section 7.2 let either be taken first. -/
def Crossing.before (use : Nat) (a b : Crossing) : Bool :=
  if a.angle ≠ b.angle then decide (a.angle < b.angle)
  else if a.order ≠ b.order then decide (a.order < b.order)
  else decide
    (Config.crossingRank use a.slot a.index a.isOn < Config.crossingRank use b.slot b.index b.isOn)

/-- The crossing to be taken first. -/
def firstCrossing (use : Nat) : List Crossing → Option Crossing
  | [] => none
  | c :: rest => some (rest.foldl (fun best d => if d.before use best then d else best) c)

/-- One crossing taken; a slot may leave the evaluated set at it (R47). -/
def State.takeCrossing (c : Crossing) (s : State) : State :=
  match s.entry c.slot c.index with
  | none => s
  | some e =>
    (if c.isOn then s.onCrossing c.slot c.index e c.angle else s.offCrossing c.slot c.index e c.angle).prune

/-- Crossings taken in order from an angle on, at most `fuel` of them. DEDUCED, unsafe (assumption log 37): of two fault
causes that one step raises at crossings of different angles, the lower angle's is taken first (R44), though R155 lets
either be. A closure and a KICK or BOX on-crossing of one step follow R44 as well (R55, R129; assumption log 38). -/
def State.takeCrossings (use high : Nat) : Nat → Nat → State → State
  | 0, _, s => s
  | fuel + 1, low, s =>
    match firstCrossing use (s.crossings low high) with
    | none => s
    | some c => State.takeCrossings use high fuel c.angle (s.takeCrossing c)

/-- More crossings than a step can hold: each of 4 × 16 stations has two, a taken crossing sets its mark, and a slot
that joins inside the step, at most one, brings 32 more at most (R44, R48). -/
def crossingFuel : Nat := 160

/-- A forward step that passes every angle from `low` to `high`, both included (R8, R44). A step that passes no crossing
changes nothing. -/
def State.passAngles (low high : Nat) (s : State) : State :=
  if (s.crossings low high).isEmpty then s
  else
    let use := s.choice
    State.takeCrossings use high crossingFuel low { s with choice := s.choice + 1 }

/-! ### The head advance -/

/-- The ring at a head advance (R24): the record at position P−1 leaves, its notice withdrawn; the head steps back; the
entry that became position 0 is made a gap. -/
def State.ringAdvance (s : State) : State :=
  let last : Fin 64 := Fin.ofNat 64 (s.lineLength - 1)
  let s1 := match s.ring.at last with | some b => s.withdraw b.seq | none => s
  let s2 := s1.putAt last none
  let s3 := { s2 with ring := { s2.ring with head := s2.ring.head - 1 } }
  s3.putAt 0 none

/-- The cycle timer at a head advance (R9, R10). -/
def AngleUnit.headAdvance (a : AngleUnit) : AngleUnit :=
  { a with
    cycle := a.cycle + 1
    tc := if a.hasReference then a.cycleTimer else a.tc
    hasReference := true
    cycleTimer := 0 }

/-- The length of a CYM pulse in µs (R149). -/
def cymPulse : Nat := 100

/-- CYM at a head advance: in CYCLE and FORMAT a pulse starts or restarts; a hold ends with that pulse (R149, R150). -/
def Cym.headAdvance (c : Cym) : Cym :=
  if c.mode = .off then c else { c with pulse := some cymPulse, hold := false }

/-- The stations at a head advance: marks cleared (R44) and cycle leads taken from the lead scale as it now stands
(R43), for every evaluated slot. -/
def State.stationsAdvance (s : State) : State :=
  let scale := s.leadScale
  s.mapSlots fun k t =>
    if s.evaluated k then
      mapTable (fun i st =>
        { st with
          onMark := false
          offMark := false
          lead := match s.entry k i with
            | some e => e.leadUnder scale
            | none => 0 }) t
    else t

/-- The head advance (R9): handed to the ring, the cycle timer, the stations, the registration unit and CYM. -/
def State.headAdvance (s : State) : State :=
  let s1 := s.ringAdvance
  let s2 := { s1 with
    angle := s1.angle.headAdvance
    registration := s1.registration.headAdvance
    cym := s1.cym.headAdvance }
  s2.prune.stationsAdvance

/-! ### Qualified edges -/

/-- An input station with an open window sees an edge: its seen latch is set, and a MARK station keeps the first angle
(R57, R59). -/
def Station.see (kind : Kind) (angle : Half) (st : Station) : Station :=
  { st with
    seen := true
    firstEdge := if kind = .mark then some (st.firstEdge.getD angle) else st.firstEdge }

/-- A qualifying edge handed to every input station bound to its cell, in every evaluated slot: an open window sets its
seen latch, and a MARK station keeps the first angle (R57, R59). -/
def State.handEdge (cell : Fin 16) (angle : Half) (s : State) : State :=
  s.mapSlots fun k t =>
    if s.evaluated k then
      mapTable (fun i st =>
        match s.entry k i with
        | some e => if !e.kind.isOutput && e.cell = cell && st.windowOpen then st.see e.kind angle else st
        | none => st) t
    else t

end Sys2Proof.Machine
end

