-- ==== Sys2Proof/Machine/Cells.lean ====
section
/-!
DEFINITION. The line cells (section 1.4): changes of a pin, the filter and the qualifying edge, and the commands SET
CELL, PEEK CELL, TAKE CELL, PIN CHANGE, FILTER EXPIRY, LEVEL INPUT CHANGE and PULSE END.
-/

namespace Sys2Proof.Machine

/-- One cell changed. -/
def State.updCell (s : State) (cell : Fin 16) (f : Cell → Cell) : State :=
  { s with cells := setAt s.cells cell (f s.cells[cell]) }

/-- Whether an edge select takes a change to a level (R16). -/
def EdgeSelect.takes (e : EdgeSelect) (active : Bool) : Bool :=
  match e with
  | .rising => active
  | .falling => !active
  | .both => true

/-- The capture at a qualification: the low 16 bits of the cycle number and θ (R16). -/
def State.captureNow (s : State) : Capture :=
  { stamp := s.angle.cycle.setWidth 16, angle := BitVec.ofNat 16 s.theta }

/-- A qualifying edge on a cell's flags: Z captured, the overrun flag set if the event flag was set, the event flag set
(R16). -/
def Cell.capture (z : Capture) (c : Cell) : Cell :=
  { c with z := z, overrun := c.overrun || c.event, event := true }

/-- A change on an EDGE_IN cell qualifies (R16): the level becomes the pin's, the filter interval ends, and a change
that the edge select takes is a qualifying edge, captured and handed to the scheduler. -/
def State.qualify (cell : Fin 16) (s : State) : State :=
  let c := s.cells[cell]
  let s1 := s.updCell cell fun c => { c with level := c.pinLevel, filterTimer := none }
  if c.config.edgeSelect.takes c.pinLevel then
    (s1.updCell cell (Cell.capture s.captureNow)).handEdge cell s.captureNow.angle
  else s1

/-- The level applied to a cell's pin changes. An EDGE_IN cell starts its filter interval, qualifies at once with filter
0, or ends the interval when the pin is back at its level (R16); a part held in reset follows the pin without an edge
(assumption log 16). A cell in another mode only stands at the new pin level, which is a LEVEL_IN cell's level (R17,
assumption log 20). A level the pin already has is no change. -/
def State.pinGoes (cell : Fin 16) (high : Bool) (s : State) : State :=
  if s.cells[cell].pinHigh = high then s
  else
    let s1 := s.updCell cell fun c => { c with pinHigh := high }
    let c := s1.cells[cell]
    if c.config.mode ≠ .edgeIn then s1
    else if s.heldInReset then s1.updCell cell fun c => { c with level := c.pinLevel }
    else if c.pinLevel = c.level then s1.updCell cell fun c => { c with filterTimer := none }
    else if c.config.filter = 0 then s1.qualify cell
    else s1.updCell cell fun c => { c with filterTimer := some 0 }

/-- PIN_CHANGE (R16). -/
def execPinChange (cell : Fin 16) (high : Bool) (s : State) : Result := .next (s.pinGoes cell high)

/-- LEVEL_INPUT_CHANGE (R17). -/
def execLevelInputChange (cell : Fin 16) (high : Bool) (s : State) : Result := .next (s.pinGoes cell high)

/-- FILTER_EXPIRY (R16): the filter time has run, where an interval runs (assumption log 2). -/
def execFilterExpiry (cell : Fin 16) (s : State) : Result :=
  takeEvent (fun s => if s.cells[cell].filterTimer.isSome then s.qualify cell else s) s

/-- PULSE_END (R19): the cell's pulse timer runs out. -/
def execPulseEnd (cell : Fin 16) (s : State) : Result :=
  takeEvent (fun s => s.updCell cell fun c => { c with pulseTimer := none }) s

/-! ### Configuring and reading cells -/

/-- Whether a cell mode serves a station kind (R15). -/
def CellMode.serves (m : CellMode) (kind : Kind) : Bool := if kind.isOutput then m.isOutput else decide (m = .edgeIn)

/-- Whether every VALID slot's station bound to a cell would be served by a mode (R15, R141). -/
def State.cellServed (s : State) (cell : Fin 16) (m : CellMode) : Bool :=
  (List.finRange 4).all fun k =>
    s.slots[k].state ≠ .valid || s.slots[k].entries.all fun e => e.cell ≠ cell || m.serves e.kind

/-- A cell under a new configuration (R15): Z and the flags cleared, a pulse and a filter interval ended, the level taken
afresh from the pin for an edge input and inactive otherwise. -/
def Cell.configure (config : CellConfig) (c : Cell) : Cell :=
  let c' := { c with
    config := config, z := { stamp := 0, angle := 0 }, event := false, overrun := false
    filterTimer := none, pulseTimer := none }
  { c' with level := decide (config.mode = .edgeIn) && c'.pinLevel }

/-- SET CELL (R15). -/
def State.setCell (r : RawCell) (s : State) : State × Response :=
  if s.line.mode ≠ .offline then (s, .bare .wrongMode)
  else
    match indexOf 16 r.cell, cellConfigOf r with
    | some cell, some config =>
      if s.cellServed cell config.mode then (s.updCell cell (Cell.configure config), .bare .ok)
      else (s, .bare .range)
    | _, _ => (s, .bare .range)

/-- SET_CELL (R15). -/
def execSetCell (r : RawCell) (s : State) : Result := takeFrame .line (State.setCell r) s

/-- The report of a cell (R171): 16 bytes. -/
def State.cellLayout (s : State) (cell : Fin 16) : List Byte :=
  let c := s.cells[cell]
  let z := s.cellZ cell
  [BitVec.ofNat 8 cell.val] ++ c.config.layout ++ [flagByte (s.cellLevel cell)] ++ littleEndian z.stamp 2
    ++ littleEndian z.angle 2 ++ [flagByte c.event, flagByte c.overrun]

/-- PEEK CELL (R21). -/
def State.peekCell (cell : Byte) (s : State) : State × Response :=
  match indexOf 16 cell with
  | some i => (s, { status := .ok, payload := s.cellLayout i })
  | none => (s, .bare .range)

/-- PEEK_CELL (R21). -/
def execPeekCell (port : Port) (cell : Byte) (s : State) : Result := takeFrame port (State.peekCell cell) s

/-- TAKE CELL (R21): as PEEK CELL, then the event and overrun flags are cleared. -/
def State.takeCell (cell : Byte) (s : State) : State × Response :=
  match indexOf 16 cell with
  | some i =>
    (s.updCell i fun c => { c with event := false, overrun := false },
      { status := .ok, payload := s.cellLayout i })
  | none => (s, .bare .range)

/-- TAKE_CELL (R21). -/
def execTakeCell (cell : Byte) (s : State) : Result := takeFrame .line (State.takeCell cell) s

end Sys2Proof.Machine
end

