-- ==== Sys2Proof/Machine/Angle.lean ====
section
/-!
DEFINITION. The angle unit (sections 1.1 to 1.3): quadrature, forward and backward counts, index correction, the motion
timers, and the commands SET CONSTANTS and READ MOTION.
-/

namespace Sys2Proof.Machine

/-! ### Quadrature (R4) -/

/-- The two levels after one transition in the sequence in which QA leads QB. -/
def quadratureNext (q : Bool × Bool) : Bool × Bool :=
  match q with
  | (false, false) => (true, false)
  | (true, false) => (true, true)
  | (true, true) => (false, true)
  | (false, true) => (false, false)

/-- The two levels after one transition in the reverse sequence. -/
def quadraturePrevious (q : Bool × Bool) : Bool × Bool :=
  match q with
  | (true, false) => (false, false)
  | (true, true) => (true, false)
  | (false, true) => (true, true)
  | (false, false) => (false, true)

/-- What a sample of QA and QB is after the previous one (R4). -/
inductive Sample where
  | unchanged | forward | backward | discarded
  deriving DecidableEq, Repr

/-- The sense of a sample under a count direction (R4). -/
def decodeSample (d : CountDirection) (previous now : Bool × Bool) : Sample :=
  if now = previous then .unchanged
  else if now = quadratureNext previous then (match d with | .normal => .forward | .inverted => .backward)
  else if now = quadraturePrevious previous then (match d with | .normal => .backward | .inverted => .forward)
  else .discarded

/-- The count direction in force; NORMAL before the constants are written (assumption log 19). -/
def State.direction (s : State) : CountDirection :=
  match s.constants with
  | some c => c.direction
  | none => .normal

/-- The sampled levels after a transition in a sense (R4). -/
def State.transition (sense : CountSense) (s : State) : State :=
  let q := (s.angle.qa, s.angle.qb)
  let q' :=
    match sense, s.direction with
    | .forward, .normal => quadratureNext q
    | .backward, .inverted => quadratureNext q
    | .forward, .inverted => quadraturePrevious q
    | .backward, .normal => quadraturePrevious q
  { s with angle := { s.angle with qa := q'.1, qb := q'.2 } }

/-! ### Counts -/

/-- A count restarts the halt timer and sets the last count direction (R4, R7). -/
def State.counted (sense : CountSense) (s : State) : State :=
  { s with angle := { s.angle with haltTimer := 0, lastCount := some sense } }

/-- A count with its own effect `work` (R4, R11): the halt timer restarts, and a motion state that leaves HALTED is
handed to the gum circuit. The change comes before the count's own effect, but for a fired GUM window open during a
prime, where either order may occur (R52, R96; assumption log 5 and 22). -/
def State.takeCount (sense : CountSense) (work : State → State) (s : State) : State :=
  if s.motion = .halted then
    eitherOrder (decide (s.gum.state = .priming) && !s.firedGum.isEmpty)
      State.gumLeavesHalt work (s.counted sense)
  else work (s.counted sense)

/-- p set to a value. -/
def State.setP (p : Nat) (s : State) : State := { s with angle := { s.angle with p := p } }

/-- The wrap of p (R8): the rest of the old cycle, the head advance, and the angles of the new cycle from 0 to the new
θ. DEDUCED, unsafe (assumption log 40): a MARK contribution of the step is taken in its stage, before or after the head
advance, though R83 lets the two be taken in either order. -/
def State.wrap (p : Nat) (s : State) : State :=
  let s1 := ((s.passAngles (s.theta + 1) 65535).headAdvance).setP p
  s1.passAngles 0 s1.theta

/-- p moved forward within the cycle: the angles above the old θ up to the new are passed (R8, R44). DEDUCED, unsafe
(assumption log 39): this holds also from θ = 0 after power-on, RSTN and SET CONSTANTS, so a station of effective angle 0
is first crossed at the head advance that follows, though R66 says that every station then crosses afresh from angle 0. -/
def State.stepForward (p : Nat) (s : State) : State :=
  let s1 := s.setP p
  s1.passAngles (s.theta + 1) s1.theta

/-- A forward count's own effect (R5). -/
def State.forwardWork (c : Constants) (s : State) : State :=
  if 0 < s.angle.debt then { s with angle := { s.angle with debt := s.angle.debt - 1 } }
  else if s.angle.p + 1 < c.e then s.stepForward (s.angle.p + 1)
  else s.wrap 0

/-- TRACK_LOST on the ring (R33): every present record lost, their notices withdrawn. -/
def State.loseAll (s : State) : State :=
  { s.updateAll (Blank.lose .trackLost) with
    notices := s.notices.filter fun n => !(s.record n.seq).any fun b => !b.disposition.final }

/-- TRACK_LOST (R6): handed to the ring and to line mode control. The orders differ only where leaving ARMED aborts a
prime with a fired GUM window open (assumption log 5). -/
def State.trackLost (s : State) : State :=
  eitherOrder (decide (s.gum.state = .priming) && !s.firedGum.isEmpty)
    State.loseAll (State.raiseCause .trackLost) s

/-- A backward count's own effect (R6). -/
def State.backwardWork (c : Constants) (s : State) : State :=
  if s.angle.debt = 0 && 0 < s.angle.p then s.setP (s.angle.p - 1)
  else if c.e < s.angle.debt + 1 then { s with angle := { s.angle with debt := 0 } }.trackLost
  else { s with angle := { s.angle with debt := s.angle.debt + 1 } }

/-- FORWARD_COUNT (R4, R5): ignored before the constants are written (R1). -/
def execForwardCount (s : State) : Result :=
  takeEvent (fun s =>
    let s' := s.transition .forward
    match s.constants with
    | some c => s'.takeCount .forward (State.forwardWork c)
    | none => s') s

/-- BACKWARD_COUNT (R4, R6): ignored before the constants are written (R1). -/
def execBackwardCount (s : State) : Result :=
  takeEvent (fun s =>
    let s' := s.transition .backward
    match s.constants with
    | some c => s'.takeCount .backward (State.backwardWork c)
    | none => s') s

/-- DISCARDED_SAMPLE (R4): both lines have changed; no count, and the halt timer and the last count direction stay. -/
def execDiscardedSample (s : State) : Result :=
  takeEvent (fun s => { s with angle := { s.angle with qa := !s.angle.qa, qb := !s.angle.qb } }) s

/-! ### Index correction (R7) -/

/-- The distance d from p to Z0: congruent to Z0 − p modulo E, above −E/2 and not above +E/2. -/
def indexDistance (e z0 p : Nat) : Int :=
  let r := ((z0 : Int) - (p : Int)) % (e : Int)
  if 2 * r ≤ (e : Int) then r else r - (e : Int)

/-- The correction by the cases of R7. -/
def State.correctIndex (c : Constants) (z0 : Nat) (s : State) : State :=
  let d := indexDistance c.e z0 s.angle.p
  let moved := (s.angle.p : Int) + d
  if d = 0 then s
  else if 0 < d then (if moved < (c.e : Int) then s.stepForward z0 else s.wrap z0)
  else if 0 ≤ moved then s.setP z0
  else { s with angle := { s.angle with p := 0, debt := (-moved).toNat } }

/-- The tolerance of an index correction, in counts (R7). -/
def slipLimit : Nat := 8

/-- INDEX_CORRECTION (R7): a rising QZ edge. It qualifies with the constants written, Z0 not NONE, no reverse debt and
the last count forward, and is ignored otherwise. A distance beyond 8 raises INDEX_SLIP; whether before or after the
angles the correction crosses is left open (assumption log 7). -/
def execIndexCorrection (s : State) : Result :=
  takeEvent (fun s =>
    match s.constants with
    | none => s
    | some c =>
      match c.z0 with
      | none => s
      | some z0 =>
        if s.angle.debt = 0 && s.angle.lastCount = some .forward then
          let d := indexDistance c.e z0 s.angle.p
          if slipLimit < d.natAbs then
            eitherOrder (decide (0 < d)) (State.raiseCause .indexSlip) (State.correctIndex c z0) s
          else s.correctIndex c z0
        else s) s

/-! ### Motion timers (R11) -/

/-- HALT_TIMER_EXPIRY (R11): 250 ms without a count. -/
def execHaltTimerExpiry (s : State) : Result :=
  takeEvent (fun s => { s with angle := { s.angle with haltTimer := haltExpiry } }) s

/-- CRAWL_THRESHOLD (R11): the current-cycle timer passes 2,000,000 µs. -/
def execCrawlThreshold (s : State) : Result :=
  takeEvent (fun s =>
    { s with angle := { s.angle with cycleTimer := max s.angle.cycleTimer (crawlLimit + 1) } }) s

/-! ### Commands -/

/-- Whether every VALID slot's positions lie below a line length (R2, R141). -/
def State.positionsFit (s : State) (p : Nat) : Bool :=
  (List.finRange 4).all fun k =>
    s.slots[k].state ≠ .valid || s.slots[k].entries.all fun e => decide (e.position.val < p)

/-- All three read windows over the whole line with their pointers at position 0 (R37). -/
def State.resetWindows (s : State) : State :=
  let w := ReadWindow.whole s.lineLength
  { s with ring := { s.ring with windows := { line := w, inspection := w, drive := w } } }

/-- The angle unit restarted on new constants (R3). -/
def AngleUnit.restart (a : AngleUnit) : AngleUnit :=
  { a with
    p := 0, debt := 0, lastCount := none, tc := cycleTimeMax, cycleTimer := 0, hasReference := false }

/-- The effect of an accepted SET CONSTANTS (R2, R3, R37, R66, R68). -/
def State.installConstants (c : Constants) (s : State) : State :=
  ({ s with
    constants := some c
    angle := s.angle.restart
    registration := s.registration.newConstants }.mapStations fun _ _ _ => Station.cleared).resetWindows

/-- SET CONSTANTS (R2). -/
def State.setConstants (r : RawConstants) (s : State) : State × Response :=
  if s.line.mode ≠ .offline then (s, .bare .wrongMode)
  else
    match constantsOf r with
    | none => (s, .bare .range)
    | some c => if s.positionsFit c.p then (s.installConstants c, .bare .ok) else (s, .bare .range)

/-- SET_CONSTANTS (R2). -/
def execSetConstants (r : RawConstants) (s : State) : Result := takeFrame .line (State.setConstants r) s

/-- READ_MOTION (R170). -/
def execReadMotion (port : Port) (s : State) : Result :=
  takeFrame port (fun s => (s, { status := .ok, payload := s.motionLayout })) s

end Sys2Proof.Machine
end

