-- ==== Sys2Proof/Machine/Locks.lean ====
section
/-!
DEFINITION. The lock pool (section 8.3): LOCK NEW, LOCK RETURN, LOCK TAKE, LOCK RELEASE and LOCK QUERY.
-/

namespace Sys2Proof.Machine

/-- A lock replaced. -/
def State.putLock (s : State) (i : Fin 8) (l : Lock) : State := { s with locks := setAt s.locks i l }

/-- The bound lock of a slot: L0 to L3 for slots 0 to 3 (R138). -/
def boundLock (slot : Fin 4) : Fin 8 := ⟨slot.val, by omega⟩

/-- Whether a port holds a lock (R142). -/
def Lock.heldBy (l : Lock) (p : Port) : Bool := l.held && decide (l.holder = some p)

/-- Whether a lock is bound to a slot (section 8.3). -/
def isBound (i : Fin 8) : Bool := decide (i.val < 4)

/-- The response of a lock command on lock `i`: the lock's fields as they stand after the command (R142). -/
def State.lockResponse (s : State) (i : Fin 8) (status : Status) : Response :=
  { status := status, payload := s.locks[i].layout (BitVec.ofNat 8 i.val) }

/-- The response of a lock command that names no lock of the pool. The manual requires the lock layout and gives its
last three bytes no value, so they are free (R142, R171; assumption log 9). -/
def State.noLock (s : State) (number : Byte) (status : Status) : State × Response :=
  let free := Config.absentLock s.choice number
  ({ s with choice := s.choice + 1 }, { status := status, payload := [number, free.1, free.2.1, free.2.2] })

/-- A lock command on a lock number: RANGE above 7 (R142), and otherwise what the command makes of the lock and what it
answers. -/
def State.lockCommand (number : Byte) (f : Fin 8 → Lock → Lock × Status) (s : State) : State × Response :=
  match indexOf 8 number with
  | none => s.noLock number .range
  | some i =>
    let answer := f i s.locks[i]
    let s' := s.putLock i answer.1
    (s', s'.lockResponse i answer.2)

/-! ### LOCK NEW -/

/-- The lowest-numbered free lock that is not allocated (R143). -/
def State.lowestFree (s : State) : Option (Fin 8) :=
  (List.finRange 8).find? fun i => !isBound i && !s.locks[i].allocated

/-- LOCK NEW (R143). -/
def State.lockNew (s : State) : State × Response :=
  match s.lowestFree with
  | none => s.noLock 0xFF .noneFree
  | some i =>
    let s' := s.putLock i { allocated := true, held := false, holder := none }
    (s', s'.lockResponse i .ok)

/-- LOCK_NEW (R143). -/
def execLockNew (port : Port) (s : State) : Result := takeFrame port State.lockNew s

/-! ### Commands on a lock number -/

/-- LOCK RETURN of a lock (R143): RANGE for a bound lock, NOT_ALLOCATED, or the lock released and unallocated. -/
def returnLock (i : Fin 8) (l : Lock) : Lock × Status :=
  if isBound i then (l, .range)
  else if !l.allocated then (l, .notAllocated)
  else ({ allocated := false, held := false, holder := none }, .ok)

/-- LOCK TAKE of a lock by a port (R144). -/
def takeLock (port : Port) (_ : Fin 8) (l : Lock) : Lock × Status :=
  if !l.allocated then (l, .notAllocated)
  else if l.held then (l, .locked)
  else ({ l with held := true, holder := some port }, .ok)

/-- LOCK RELEASE of a lock by a port (R145): the holder field keeps the port. -/
def releaseLock (port : Port) (_ : Fin 8) (l : Lock) : Lock × Status :=
  if !l.allocated then (l, .notAllocated)
  else if l.heldBy port then ({ l with held := false }, .ok)
  else (l, .notHolder)

/-- LOCK QUERY of a lock (R145). -/
def queryLock (_ : Fin 8) (l : Lock) : Lock × Status := (l, .ok)

/-- LOCK_RETURN (R143). -/
def execLockReturn (port : Port) (lock : Byte) (s : State) : Result :=
  takeFrame port (State.lockCommand lock returnLock) s

/-- LOCK_TAKE (R144). -/
def execLockTake (port : Port) (lock : Byte) (s : State) : Result :=
  takeFrame port (State.lockCommand lock (takeLock port)) s

/-- LOCK_RELEASE (R145). -/
def execLockRelease (port : Port) (lock : Byte) (s : State) : Result :=
  takeFrame port (State.lockCommand lock (releaseLock port)) s

/-- LOCK_QUERY (R145). -/
def execLockQuery (port : Port) (lock : Byte) (s : State) : Result :=
  takeFrame port (State.lockCommand lock queryLock) s

/-- Every lock a port holds released, the port kept as last holder (R145). -/
def State.releaseLocksOf (p : Port) (s : State) : State :=
  { s with locks := mapTable (fun _ l => if l.heldBy p then { l with held := false } else l) s.locks }

end Sys2Proof.Machine
end

