-- ==== Sys2Proof/Machine/Formats.lean ====
section
/-!
DEFINITION. The format store (sections 8.1, 8.2, 8.4, 8.5): writing, reading and committing formats, CHANGEOVER, and the
CYM line's commands.
-/

namespace Sys2Proof.Machine

/-! ### Writing and reading -/

/-- A slot replaced. -/
def State.putSlot (s : State) (k : Fin 4) (f : Format) : State := { s with slots := setAt s.slots k f }

/-- Whether a group is the header or a station index 0 to 15 (R138). -/
def groupKnown : FormatGroup → Bool
  | .header _ => true
  | .absentEntry _ => true
  | .presentEntry _ _ => true
  | .unknownGroup _ _ => false

/-- A format with one whole group replaced and its state DRAFT, none where a value lies outside its range (R138). -/
def Format.write (f : Format) : FormatGroup → Option Format
  | .header raw => (headerOf raw).map fun h => { f with state := .draft, header := h }
  | .absentEntry i => some { f with state := .draft, table := setAt f.table i none }
  | .presentEntry i raw => (entryOf raw).map fun e => { f with state := .draft, table := setAt f.table i (some e) }
  | .unknownGroup _ _ => none

/-- WRITE FORMAT (R138), its tests in the order of the rule's table. -/
def State.writeFormat (port : Port) (slot : Byte) (group : FormatGroup) (s : State) : State × Response :=
  match indexOf 4 slot with
  | none => (s, .bare .range)
  | some k =>
    if !groupKnown group then (s, .bare .range)
    else if !s.locks[boundLock k].heldBy port then (s, .bare .notHolder)
    else if s.inUse k then (s, .bare .inUse)
    else
      match s.slots[k].write group with
      | none => (s, .bare .range)
      | some f => (s.putSlot k f, .bare .ok)

/-- WRITE_FORMAT (R138). -/
def execWriteFormat (port : Port) (slot : Byte) (group : FormatGroup) (s : State) : Result :=
  takeFrame port (State.writeFormat port slot group) s

/-- A group of a format as WRITE FORMAT carries it after its slot and group bytes, none for a group byte that is neither
0xFF nor 0 to 15 (R139, R171). -/
def Format.groupLayout (f : Format) (group : Byte) : Option (List Byte) :=
  if group = 0xFF then some f.header.layout
  else (indexOf 16 group).map fun i => stationLayout f.table[i]

/-- READ FORMAT (R139). -/
def State.readFormat (slot group : Byte) (s : State) : State × Response :=
  match indexOf 4 slot with
  | none => (s, .bare .range)
  | some k =>
    match s.slots[k].groupLayout group with
    | none => (s, .bare .range)
    | some values => (s, { status := .ok, payload := s.slots[k].state.value :: values })

/-- READ_FORMAT (R139). -/
def execReadFormat (port : Port) (slot group : Byte) (s : State) : Result :=
  takeFrame port (State.readFormat slot group) s

/-! ### Committing (R140) -/

/-- Every pair of present entries of two kinds has positions in a relation. -/
def Format.ordered (f : Format) (a b : Kind) (rel : Nat → Nat → Bool) : Bool :=
  (f.ofKind a).all fun x => (f.ofKind b).all fun y => rel x.position.val y.position.val

/-- Check 1: exactly one present FEED entry, at position 0. -/
def Format.check1 (f : Format) : Bool :=
  decide ((f.ofKind .feed).length = 1) && (f.ofKind .feed).all fun e => e.position.val = 0

/-- Check 2: a present MARK entry exactly when registration is on; at most one, at position 0. -/
def Format.check2 (f : Format) : Bool :=
  decide ((f.ofKind .mark).length = if f.header.regOn then 1 else 0)
    && (f.ofKind .mark).all fun e => e.position.val = 0

/-- Check 3: the FEED and MARK windows do not wrap, and the FEED off-angle is at or below the MARK off-angle. -/
def Format.check3 (f : Format) : Bool :=
  ((f.ofKind .feed).all fun e => decide (e.onAngle.toNat < e.offAngle.toNat))
    && (f.ofKind .mark).all fun m =>
      decide (m.onAngle.toNat < m.offAngle.toNat)
        && (f.ofKind .feed).all fun e => decide (e.offAngle.toNat ≤ m.offAngle.toNat)

/-- Check 4: at most one each of INSPECT, REJECT, COUNT, KICK and BOX, and at most four of GUM. -/
def Format.check4 (f : Format) : Bool :=
  ([Kind.inspect, .reject, .count, .kick, .box].all fun k => decide ((f.ofKind k).length ≤ 1))
    && decide ((f.ofKind .gum).length ≤ 4)

/-- Check 5: INSPECT before REJECT before COUNT, COUNT not after KICK and not after BOX. -/
def Format.check5 (f : Format) : Bool :=
  f.ordered .inspect .reject (fun a b => decide (a < b)) && f.ordered .reject .count (fun a b => decide (a < b))
    && f.ordered .count .kick (fun a b => decide (a ≤ b)) && f.ordered .count .box (fun a b => decide (a ≤ b))

/-- Check 6: INSPECT comes with REJECT. -/
def Format.check6 (f : Format) : Bool := (f.ofKind .inspect).isEmpty || !(f.ofKind .reject).isEmpty

/-- Check 7: constants written, positions below P, and every cell in a mode that serves its entry's kind. -/
def State.check7 (s : State) (f : Format) : Bool :=
  match s.constants with
  | none => false
  | some c =>
    f.entries.all fun e => decide (e.position.val < c.p) && s.cells[e.cell].config.mode.serves e.kind

/-- Check 8: no two present entries name the same cell. -/
def Format.check8 (f : Format) : Bool := decide (f.entries.map (fun e => e.cell)).Nodup

/-- Check 9: at least one present entry is enabled. -/
def Format.check9 (f : Format) : Bool := f.entries.any fun e => e.enabled

/-- The commit checks in order of their numbers. -/
def State.commitChecks (s : State) (f : Format) : List (Byte × Bool) :=
  [(1, f.check1), (2, f.check2), (3, f.check3), (4, f.check4), (5, f.check5), (6, f.check6), (7, s.check7 f),
    (8, f.check8), (9, f.check9)]

/-- The number of the first check that fails. -/
def State.firstFailure (s : State) (f : Format) : Option Byte :=
  ((s.commitChecks f).find? fun c => !c.2).map fun c => c.1

/-- COMMIT FORMAT (R140). -/
def State.commitFormat (port : Port) (slot : Byte) (s : State) : State × Response :=
  match indexOf 4 slot with
  | none => (s, .bare .range)
  | some k =>
    if !s.locks[boundLock k].heldBy port then (s, .bare .notHolder)
    else
      match s.firstFailure s.slots[k] with
      | some number => (s, { status := .formatError, payload := [number] })
      | none => (s.putSlot k { s.slots[k] with state := .valid }, .bare .ok)

/-- COMMIT_FORMAT (R140). -/
def execCommitFormat (port : Port) (slot : Byte) (s : State) : Result :=
  takeFrame port (State.commitFormat port slot) s

/-! ### Changeover (R146) -/

/-- An accepted CHANGEOVER to slot `n` (R146's table). -/
def State.acceptChangeover (n : Fin 4) (s : State) : State × Response :=
  let status : Status := if s.pendingSlot.isSome then .replaced else .ok
  if s.active = some n then ({ s with pendingSlot := none }, .bare status)
  else
    match s.line.mode with
    | .offline => (s.makeActive n s.theta, .bare status)
    | .armed | .faulted => ({ s with pendingSlot := some n }, .bare status)

/-- CHANGEOVER (R146). -/
def State.changeover (slot : Byte) (s : State) : State × Response :=
  match indexOf 4 slot with
  | none => (s, .bare .range)
  | some n =>
    if s.slots[n].state ≠ .valid then (s, .bare .notValid)
    else if s.locks[boundLock n].held then (s, .bare .locked)
    else s.acceptChangeover n

/-- CHANGEOVER (R146). -/
def execChangeover (slot : Byte) (s : State) : Result := takeFrame .line (State.changeover slot) s

/-! ### CYM (R149) -/

/-- A CYM mode stored (R149): OFF ends a pulse and a hold, CYCLE ends a hold. -/
def Cym.setMode (m : CymMode) (c : Cym) : Cym :=
  match m with
  | .off => { mode := .off, pulse := none, hold := false }
  | .cycle => { c with mode := .cycle, hold := false }
  | .format => { c with mode := .format }

/-- SET CYM (R149). -/
def State.setCym (mode : Byte) (s : State) : State × Response :=
  match cymModeOf mode with
  | none => (s, .bare .range)
  | some m => ({ s with cym := s.cym.setMode m }, .bare .ok)

/-- SET_CYM (R149). -/
def execSetCym (mode : Byte) (s : State) : Result := takeFrame .line (State.setCym mode) s

/-- The end of a CYM pulse (R149). -/
def State.endCymPulse (s : State) : State := { s with cym := { s.cym with pulse := none } }

/-- CYM_PULSE_END (R149): 100 µs after the head advance. -/
def execCymPulseEnd (s : State) : Result := takeEvent State.endCymPulse s

end Sys2Proof.Machine
end

