-- ==== Sys2Proof/Machine/LineMode.lean ====
section
/-!
DEFINITION. Line mode control (chapter 9): STOP, ARM, DISARM, CLEAR, the clear chord and the operator lines.
-/

namespace Sys2Proof.Machine

/-- The line mode set and the fault latch's cause set cleared, the first cause kept (R155). -/
def State.enterMode (m : LineMode) (s : State) : State := { s with line := { s.line with mode := m, causes := 0 } }

/-! ### STOP -/

/-- The cause STOP raises on a port (R156). -/
def stopCause : Port → Cause
  | .line => .stopL
  | .inspection => .stopI
  | .drive => .stopD

/-- STOP (R156). -/
def execStop (port : Port) (s : State) : Result :=
  takeFrame port (fun s => (s.raiseCause (stopCause port), .bare .ok)) s

/-! ### ARM -/

/-- A batch opened at ARM for the active slot if none is open (R119). -/
def State.openBatchAtArm (k : Fin 4) (s : State) : State :=
  match s.batch.openBatch with
  | some _ => s
  | none => s.openBatchFor k

/-- ARM (R153). -/
def State.arm (s : State) : State × Response :=
  if s.line.mode ≠ .offline then (s, .bare .wrongMode)
  else if s.constants.isNone then (s, .bare .noConstants)
  else
    match s.active with
    | none => (s, .bare .noFormat)
    | some k => ((s.enterMode .armed).openBatchAtArm k, .bare .ok)

/-- ARM (R153). -/
def execArm (s : State) : Result := takeFrame .line State.arm s

/-! ### DISARM -/

/-- A station at DISARM: closed, its latches and runs cleared, its crossing marks and cycle lead kept (R66). -/
def Station.disarm (st : Station) : Station :=
  { Station.cleared with onMark := st.onMark, offMark := st.offMark, lead := st.lead }

/-- Every entry of the ring a gap, the head index, the sequence counter and the windows kept (R38). -/
def Ring.discard (r : Ring) : Ring := { r with entries := Vector.replicate 64 none }

/-- The effect of an accepted DISARM (R154): a prime aborted (R96), pulses ended (R19), the ring and the notice queue
emptied (R38, R116), windows closed (R66), registration OFF (R68), the count miss run 0 (R134). -/
def State.disarmed (s : State) : State :=
  let s1 := (s.abortPrime .standby).enterMode .offline
  let s2 := s1.mapStations fun _ _ st => st.disarm
  let s3 := { s2 with
    ring := s2.ring.discard
    notices := []
    registration := s2.registration.enterOff
    batch := { s2.batch with missRun := 0 }
    cells := mapTable (fun _ (c : Cell) => { c with pulseTimer := none }) s2.cells }
  s3.prune

/-- DISARM (R154). -/
def State.disarm (s : State) : State × Response :=
  if s.line.mode = .offline then (s, .bare .wrongMode)
  else if s.motion ≠ .halted then (s, .bare .notHalted)
  else (s.disarmed, .bare .ok)

/-- DISARM (R154). -/
def execDisarm (s : State) : Result := takeFrame .line State.disarm s

/-! ### CLEAR and the chord -/

/-- CLEAR (R157). -/
def State.clear (s : State) : State × Response :=
  match s.line.mode with
  | .faulted => (s.enterMode .armed, .bare .ok)
  | .offline | .armed => (s, .bare .wrongMode)

/-- CLEAR (R157). -/
def execClear (s : State) : Result := takeFrame .line State.clear s

/-- The chord enable of the machine constants, off while they are not written (R158). -/
def State.chordEnabled (s : State) : Bool := s.constants.any fun c => c.chordEnable

/-- The chord at a change of the operator lines (R158). Both lines inactive make it READY; in READY both lines active
start the timer where the enable is on (assumption log 15); any other levels stop it. -/
def State.chordLines (s : State) : State :=
  { s with line :=
      if s.opaHigh && s.opbHigh then { s.line with chordState := .ready, chordTimer := none }
      else if s.line.chordState = .ready && !s.opaHigh && !s.opbHigh && s.chordEnabled then
        { s.line with chordTimer := some 0 }
      else { s.line with chordTimer := none } }

/-- The chord state a reset leaves: SPENT, and READY at once where both lines are inactive (R158, assumption log 14). -/
def chordAfterReset (opaHigh opbHigh : Bool) : ChordState := if opaHigh && opbHigh then .ready else .spent

/-- OPERATOR_LINE_CHANGE (R158). A part held in reset keeps the chord at its reset values (R162, assumption log 16). Lines
that stand at the levels given do not change. -/
def State.operatorLines (opaHigh opbHigh : Bool) (s : State) : State :=
  if s.opaHigh = opaHigh && s.opbHigh = opbHigh then s
  else
    let s1 := { s with opaHigh := opaHigh, opbHigh := opbHigh }
    if s.heldInReset then
      { s1 with line := { s1.line with chordState := chordAfterReset opaHigh opbHigh, chordTimer := none } }
    else s1.chordLines

/-- OPERATOR_LINE_CHANGE (R158). -/
def execOperatorLineChange (opaHigh opbHigh : Bool) (s : State) : Result := .next (s.operatorLines opaHigh opbHigh)

/-- The length of the hold that takes the chord, 2.0 s (R158). -/
def chordHold : Nat := 2000000

/-- The chord taken (R158): as CLEAR in FAULTED, nothing in another mode, spent in every mode. -/
def State.takeChord (s : State) : State :=
  let s1 := if s.line.mode = .faulted then s.enterMode .armed else s
  { s1 with line := { s1.line with chordState := .spent, chordTimer := none } }

/-- CHORD_TAKEN (R158): the chord timer reaches 2.0 s, where it runs (assumption log 2). -/
def execChordTaken (s : State) : Result :=
  takeEvent (fun s => if s.line.chordTimer.isSome then s.takeChord else s) s

end Sys2Proof.Machine
end

