-- ==== Sys2Proof/Machine/Ports.lean ====
section
/-!
DEFINITION. The ports' own commands and the frames that carry no command (sections 10.1 and 10.3): NOP, STATUS and its
acknowledging form, the refusals of R164, the empty frame, and the bytes a frame returns (R163).
-/

namespace Sys2Proof.Machine

/-- NOP (R169). -/
def execNop (port : Port) (s : State) : Result := takeFrame port (fun s => (s, .bare .ok)) s

/-- STATUS (R169). -/
def execStatus (port : Port) (s : State) : Result :=
  takeFrame port (fun s => (s, { status := .ok, payload := s.statusLayout })) s

/-- STATUS with acknowledge (R159): the same report, and the events it shows removed. The report shows every event of the
set. -/
def State.acknowledge (s : State) : State × Response :=
  ({ s with line := { s.line with events := 0 } }, { status := .ok, payload := s.statusLayout })

/-- STATUS_WITH_ACKNOWLEDGE (R159). -/
def execStatusWithAcknowledge (s : State) : Result := takeFrame .line State.acknowledge s

/-! ### Frames the tests of R164 refuse -/

/-- A frame refused with a status: nothing changes but the pending response (R164). -/
def refuseFrame (port : Port) (status : Status) (s : State) : Result := takeFrame port (fun s => (s, .bare status)) s

/-- SHORT_FRAME (R164). -/
def execShortFrame (port : Port) (_bytes : List Byte) (s : State) : Result := refuseFrame port .shortFrame s

/-- UNKNOWN_COMMAND (R164). -/
def execUnknownCommand (port : Port) (_code : Byte) (_params : List Byte) (s : State) : Result :=
  refuseFrame port .unknownCommand s

/-- NOT_ON_PORT (R164). -/
def execNotOnPort (port : Port) (_code : Byte) (_params : List Byte) (s : State) : Result :=
  refuseFrame port .notOnPort s

/-- PARAMETER_LENGTH_MISMATCH (R164): answered RANGE. -/
def execParameterLengthMismatch (port : Port) (_code : Byte) (_params : List Byte) (s : State) : Result :=
  refuseFrame port .range s

/-- EMPTY_FRAME (R163): disregarded, the pending response kept. -/
def execEmptyFrame (_port : Port) (s : State) : Result := .next s

/-! ### The bytes a frame returns -/

/-- The bytes of a pending response: status, M, payload (R163). -/
def Response.bytes (r : Response) : List Byte := r.status.value :: BitVec.ofNat 8 r.payload.length :: r.payload

/-- The bytes the part returns in a frame of `count` byte times (R163): the response, then 0xFF; 0xFF from the 65th byte
on. -/
def Response.returned (r : Response) (count : Nat) : List Byte :=
  (r.bytes.take frameLimit ++ List.replicate count 0xFF).take count

end Sys2Proof.Machine
end

