-- ==== Sys2Proof/Machine/Framing.lean ====
section
/-!
DEFINITION. The framing of the three ports (sections 10.1 and 10.3): the bits of a frame in progress, the whole bytes they
make, the bits the part sends, and the command a frame leaves at the deassertion of chip select (R163, R164, R168). A
master's chip select and clock are no rows of the opcode table: the operations here are what they do, and the command of
a frame joins the queue at its end (assumption log 3).
-/

namespace Sys2Proof.Machine

/-! ### Bits and bytes (R168) -/

/-- The byte that bits make, the first of them the most significant (R168). -/
def byteOfBits (bits : List Bool) : Byte := BitVec.ofNat 8 (bits.foldl (fun n b => 2 * n + b.toNat) 0)

/-- The bits of a byte in the order they are sent, the most significant first (R168). -/
def bitsOf (x : Byte) : List Bool := [7, 6, 5, 4, 3, 2, 1, 0].map x.getLsbD

/-- The whole bytes that bits make. Bits after the last whole byte are a byte cut short, which is not counted (R163). -/
def wholeBytes : List Bool → List Byte
  | b7 :: b6 :: b5 :: b4 :: b3 :: b2 :: b1 :: b0 :: rest =>
    byteOfBits [b7, b6, b5, b4, b3, b2, b1, b0] :: wholeBytes rest
  | _ => []

/-! ### A frame from the assertion of chip select to its deassertion -/

/-- A frame in progress abandoned (R164); without one there is nothing to abandon. -/
def Framing.abandon : Framing → Framing
  | .idle => .idle
  | .clocking _ _ => .abandoned
  | .abandoned => .abandoned

/-- A port's framing state replaced. -/
def State.putFrame (s : State) (p : Port) (f : Framing) : State := { s with frames := s.frames.set p f }

/-- A port's chip select goes low, its clock low as in mode 0 (R168, assumption log 3): a frame begins, which a port that
disregards its frames does not follow (R162, R166). -/
def State.chipSelect (p : Port) (s : State) : State :=
  s.putFrame p (if s.disregards p then .abandoned else .clocking [] false)

/-- A rising edge of a port's clock: the part samples a bit of the master (R163, R168). -/
def Framing.rise (bit : Bool) : Framing → Framing
  | .clocking bits false => .clocking (bits ++ [bit]) true
  | f => f

/-- A falling edge of a port's clock: the part changes its data output to the next bit (R168). -/
def Framing.fall : Framing → Framing
  | .clocking bits true => .clocking bits false
  | f => f

/-- A rising edge of a port's clock in the state. -/
def State.clockRise (p : Port) (bit : Bool) (s : State) : State := s.putFrame p ((s.frames.get p).rise bit)

/-- A falling edge of a port's clock in the state. -/
def State.clockFall (p : Port) (s : State) : State := s.putFrame p (s.frames.get p).fall

/-- Which bit of a frame stands at the data output, counted from 0: the one that travels with the bit sampled next, and
from a rising edge to the falling edge after it the one that travels with the bit just sampled (R168). -/
def outIndex (sampled : Nat) (clockHigh : Bool) : Nat := if clockHigh then sampled - 1 else sampled

/-- The bit at a port's data output: the pending response and then 0xFF, bit by bit (R163, R168). The manual gives none
outside a frame and none in an abandoned one. -/
def State.dataOut (p : Port) (s : State) : Option Bool :=
  match s.frames.get p with
  | .clocking bits clockHigh =>
    let n := outIndex bits.length clockHigh
    (((s.ports.get p).response.returned (n / 8 + 1)).flatMap bitsOf)[n]?
  | .idle => none
  | .abandoned => none

/-- A port's chip select goes high: the command of the frame's whole bytes is taken (R164), which here joins the queue
(assumption log 3). An abandoned frame gives no command. -/
def State.chipDeselect (p : Port) (s : State) : State :=
  match s.frames.get p with
  | .clocking bits _ => { s.putFrame p .idle with pending := s.pending ++ [decodeFrame p (wholeBytes bits)] }
  | .idle => s
  | .abandoned => s.putFrame p .idle

end Sys2Proof.Machine
end

