-- ==== Sys2Proof/Machine/RingReads.lean ====
section
/-!
DEFINITION. The masters' reads of the tracking ring (section 2.6): SET WINDOW, READ NEXT and READ SEQ.
-/

namespace Sys2Proof.Machine

/-- A port's read window replaced. -/
def State.putWindow (s : State) (p : Port) (w : ReadWindow) : State :=
  { s with ring := { s.ring with windows := s.ring.windows.set p w } }

/-- SET WINDOW (R34): accepted when first ≤ last ≤ P−1, or 63 before the constants are written. -/
def State.setWindow (port : Port) (first last : Byte) (s : State) : State × Response :=
  if first.toNat ≤ last.toNat ∧ last.toNat ≤ s.lineLength - 1 then
    (s.putWindow port { first := first.toNat, last := last.toNat, pointer := first.toNat }, .bare .ok)
  else (s, .bare .range)

/-- SET_WINDOW (R34). -/
def execSetWindow (port : Port) (first last : Byte) (s : State) : Result :=
  takeFrame port (State.setWindow port first last) s

/-- The pointer moved by one, from the last position of the window to the first (R35). -/
def ReadWindow.advance (w : ReadWindow) : ReadWindow :=
  { w with pointer := if w.pointer = w.last then w.first else w.pointer + 1 }

/-- READ NEXT (R35): the entry at the sender's pointer, and the pointer moved on. -/
def State.readNext (port : Port) (s : State) : State × Response :=
  let w := s.ring.windows.get port
  (s.putWindow port w.advance,
    { status := .ok, payload := entryLayout w.pointer (s.presentAt (Fin.ofNat 64 w.pointer)) })

/-- READ_NEXT (R35). -/
def execReadNext (port : Port) (s : State) : Result := takeFrame port (State.readNext port) s

/-- READ SEQ (R36). -/
def State.readSeq (seq : Word) (s : State) : State × Response :=
  match s.positionOf seq with
  | some k => (s, { status := .ok, payload := entryLayout k.val (s.presentAt k) })
  | none => (s, .bare .notTracked)

/-- READ_SEQ (R36). -/
def execReadSeq (port : Port) (seq : Word) (s : State) : Result := takeFrame port (State.readSeq seq) s

end Sys2Proof.Machine
end

