-- ==== Sys2Proof/Machine/Resets.lean ====
section
/-!
DEFINITION. The resets (section 9.5 and the reset tables of the chapters): power-on, RSTN, SOFT RESET and the port
resets (R166).
-/

namespace Sys2Proof.Machine

/-! ### Power-on -/

/-- A cell after power-on, at the pin it stands at (R22). -/
def Cell.powerOn (c : Cell) : Cell := { Cell.reset with pinHigh := c.pinHigh }

/-- The state right after power is applied (R162): every block at its power-on values, and no frame in progress kept
(R164). The lines from outside keep their
levels, and the part stays in reset while RSTN is low (assumption log 18). -/
def State.powerOn (rstnLow : Bool) (s : State) : State :=
  { State.reset with
    angle := { AngleUnit.reset with qa := s.angle.qa, qb := s.angle.qb }
    cells := mapTable (fun _ c => c.powerOn) s.cells
    line := { State.reset.line with chordState := chordAfterReset s.opaHigh s.opbHigh }
    ports := s.ports.map fun (p : PortState) => { p with response := .mark }
    frames := s.frames.map Framing.abandon
    opaHigh := s.opaHigh
    opbHigh := s.opbHigh
    heldInReset := rstnLow
    choice := s.choice
    pending := s.pending }

/-- POWER_ON (R162). -/
def execPowerOn (rstnLow : Bool) (s : State) : Result := .next (s.powerOn rstnLow)

/-! ### What RSTN and SOFT RESET share -/

/-- A cell after RSTN or SOFT RESET (R22): configuration kept, Z and flags cleared, intervals and pulses ended, the level
of an edge input taken from its pin. -/
def Cell.afterReset (c : Cell) : Cell := c.configure c.config

/-- What both resets do alike: cells (R22), ring entries and head (R23), registration (R87), gum (R99), notices (R116),
pending changeover (R148), fresh-format flag and CYM (R149, R150), locks (R142), line mode, sets and chord (R162), and
the pending responses (R165), with the frames in progress abandoned (R164). -/
def State.commonReset (cause : ResetCause) (firstCause : Option Cause) (s : State) : State :=
  let s1 := { s with
    cells := mapTable (fun _ (c : Cell) => c.afterReset) s.cells
    ring := { s.ring with entries := Vector.replicate 64 none, head := 0 }
    registration := .reset
    gum := s.gumAfterReset
    notices := []
    pendingSlot := none
    fresh := false
    cym := { mode := .off, pulse := none, hold := false }
    locks := resetLocks
    line :=
      { mode := .offline, firstCause := firstCause, causes := 0, events := 0, resetCause := cause
        chordTimer := none, chordState := chordAfterReset s.opaHigh s.opbHigh }
    ports := s.ports.map fun (p : PortState) => { p with response := .mark }
    frames := s.frames.map Framing.abandon }
  s1.resetWindows

/-! ### RSTN -/

/-- An RSTN reset (R162): what RSTN and SOFT RESET share, the angle unit (R13), the sequence counter (R28), the stations
(R66) and the batch counter (R134) at their power-on values. The part is then held in reset. -/
def State.rstnReset (s : State) : State :=
  let s1 := s.commonReset .resetLine none
  { s1 with
    angle := { AngleUnit.reset with qa := s1.angle.qa, qb := s1.angle.qb }
    ring := { s1.ring with nextSeq := 1 }
    stations := Vector.replicate 4 (Vector.replicate 16 Station.cleared)
    batch := BatchCounter.reset
    heldInReset := true }

/-- RSTN_RESET (R162): RSTN has been low for 10 µs. -/
def execRstnReset (s : State) : Result := .next s.rstnReset

/-- The part runs from the return of RSTN high (R162). -/
def State.rstnRelease (s : State) : State := { s with heldInReset := false }

/-- RSTN_RELEASE (R162). -/
def execRstnRelease (s : State) : Result := .next s.rstnRelease

/-! ### SOFT RESET -/

/-- The stations after a SOFT RESET (R66): the active slot's closed with their marks at and below θ set and their cycle
leads kept, every other slot's without evaluation state (R47). -/
def State.stationsSoft (s : State) : State :=
  s.mapStations fun k i st =>
    if s.active = some k then
      match s.entry k i with
      | some e => Station.markedAt e s.theta st.lose
      | none => st.lose
    else st.lose

/-- The effect of an accepted SOFT RESET (R161): what RSTN and SOFT RESET share with the first cause kept, the stations,
and the count miss run (R134). -/
def State.softReset (s : State) : State :=
  let s1 := (s.commonReset .soft s.line.firstCause).stationsSoft
  { s1 with batch := { s1.batch with missRun := 0 } }

/-- SOFT_RESET (R161): refused in ARMED; accepted, it sends no response of its own (R165). -/
def execSoftReset (s : State) : Result :=
  if s.line.mode = .armed then takeFrame .line (fun s => (s, .bare .wrongMode)) s
  else .next (if s.disregards .line then s else s.softReset)

/-! ### Port resets (R166) -/

/-- A port reset: the frame in progress abandoned (R164), NO_RESPONSE pending, the read window whole, the port's locks released (R145), and on the inspection port
the notice queue emptied (R115). The port then disregards frames while its line stays low. -/
def State.portReset (p : Port) (s : State) : State :=
  let s1 := (s.releaseLocksOf p).putWindow p (.whole s.lineLength)
  let s2 := { s1 with
    ports := s1.ports.set p { response := .mark, prstLow := true }
    frames := s1.frames.set p (s1.frames.get p).abandon }
  if p = .inspection then { s2 with notices := [] } else s2

/-- PORT_RESET (R166): the port's PRST line has been low for 1 µs. -/
def execPortReset (port : Port) (s : State) : Result := .next (s.portReset port)

/-- The port takes frames again once its PRST line is high (R166). -/
def State.portResetRelease (p : Port) (s : State) : State :=
  { s with ports := s.ports.set p { s.ports.get p with prstLow := false } }

/-- PORT_RESET_RELEASE (R166). -/
def execPortResetRelease (port : Port) (s : State) : Result := .next (s.portResetRelease port)

end Sys2Proof.Machine
end

