-- ==== Sys2Proof/Machine/Dispatch.lean ====
section
/-!
DEFINITION. Dispatch: one arm per command, each one call of the command's meaning.
-/

namespace Sys2Proof.Machine

/-- The effect of a command on everything but the queue. -/
def exec (i : Instr) (s : State) : Host.Outcome State Fault Refusal :=
  match i with
  | .nop port => Sys2Proof.Machine.execNop port s
  | .status port => Sys2Proof.Machine.execStatus port s
  | .statusWithAcknowledge => Sys2Proof.Machine.execStatusWithAcknowledge s
  | .readMotion port => Sys2Proof.Machine.execReadMotion port s
  | .setWindow port first last => Sys2Proof.Machine.execSetWindow port first last s
  | .readNext port => Sys2Proof.Machine.execReadNext port s
  | .readSeq port seq => Sys2Proof.Machine.execReadSeq port seq s
  | .peekCell port cell => Sys2Proof.Machine.execPeekCell port cell s
  | .takeCell cell => Sys2Proof.Machine.execTakeCell cell s
  | .stop port => Sys2Proof.Machine.execStop port s
  | .lockNew port => Sys2Proof.Machine.execLockNew port s
  | .lockReturn port lock => Sys2Proof.Machine.execLockReturn port lock s
  | .lockTake port lock => Sys2Proof.Machine.execLockTake port lock s
  | .lockRelease port lock => Sys2Proof.Machine.execLockRelease port lock s
  | .lockQuery port lock => Sys2Proof.Machine.execLockQuery port lock s
  | .writeFormat port slot group => Sys2Proof.Machine.execWriteFormat port slot group s
  | .readFormat port slot group => Sys2Proof.Machine.execReadFormat port slot group s
  | .commitFormat port slot => Sys2Proof.Machine.execCommitFormat port slot s
  | .arm => Sys2Proof.Machine.execArm s
  | .disarm => Sys2Proof.Machine.execDisarm s
  | .clear => Sys2Proof.Machine.execClear s
  | .softReset => Sys2Proof.Machine.execSoftReset s
  | .setConstants values => Sys2Proof.Machine.execSetConstants values s
  | .setCell values => Sys2Proof.Machine.execSetCell values s
  | .changeover slot => Sys2Proof.Machine.execChangeover slot s
  | .takeBatch => Sys2Proof.Machine.execTakeBatch s
  | .peekBatch => Sys2Proof.Machine.execPeekBatch s
  | .closeBatch => Sys2Proof.Machine.execCloseBatch s
  | .markReject seq => Sys2Proof.Machine.execMarkReject seq s
  | .primeGum => Sys2Proof.Machine.execPrimeGum s
  | .nudge v => Sys2Proof.Machine.execNudge v s
  | .setCym mode => Sys2Proof.Machine.execSetCym mode s
  | .takeNotice => Sys2Proof.Machine.execTakeNotice s
  | .verdict seq outcome code => Sys2Proof.Machine.execVerdict seq outcome code s
  | .takeTrim => Sys2Proof.Machine.execTakeTrim s
  | .shortFrame port bytes => Sys2Proof.Machine.execShortFrame port bytes s
  | .unknownCommand port code params => Sys2Proof.Machine.execUnknownCommand port code params s
  | .notOnPort port code params => Sys2Proof.Machine.execNotOnPort port code params s
  | .parameterLengthMismatch port code params => Sys2Proof.Machine.execParameterLengthMismatch port code params s
  | .emptyFrame port => Sys2Proof.Machine.execEmptyFrame port s
  | .forwardCount => Sys2Proof.Machine.execForwardCount s
  | .backwardCount => Sys2Proof.Machine.execBackwardCount s
  | .discardedSample => Sys2Proof.Machine.execDiscardedSample s
  | .indexCorrection => Sys2Proof.Machine.execIndexCorrection s
  | .cymPulseEnd => Sys2Proof.Machine.execCymPulseEnd s
  | .haltTimerExpiry => Sys2Proof.Machine.execHaltTimerExpiry s
  | .crawlThreshold => Sys2Proof.Machine.execCrawlThreshold s
  | .pinChange cell high => Sys2Proof.Machine.execPinChange cell high s
  | .filterExpiry cell => Sys2Proof.Machine.execFilterExpiry cell s
  | .levelInputChange cell high => Sys2Proof.Machine.execLevelInputChange cell high s
  | .pulseEnd cell => Sys2Proof.Machine.execPulseEnd cell s
  | .standbyExpiry => Sys2Proof.Machine.execStandbyExpiry s
  | .primeComplete => Sys2Proof.Machine.execPrimeComplete s
  | .operatorLineChange opaHigh opbHigh => Sys2Proof.Machine.execOperatorLineChange opaHigh opbHigh s
  | .chordTaken => Sys2Proof.Machine.execChordTaken s
  | .powerOn rstnLow => Sys2Proof.Machine.execPowerOn rstnLow s
  | .rstnReset => Sys2Proof.Machine.execRstnReset s
  | .rstnRelease => Sys2Proof.Machine.execRstnRelease s
  | .portReset port => Sys2Proof.Machine.execPortReset port s
  | .portResetRelease port => Sys2Proof.Machine.execPortResetRelease port s

end Sys2Proof.Machine
end

