-- ==== Sys2Proof/Machine/Time.lean ====
section
/-!
DEFINITION. One µs of the time base (00 "Time base"): every running timer moves by one, and the expiries it brings are
taken. The opcode table has no row for it; it is what a step does on an empty queue (assumption log 1).
-/

namespace Sys2Proof.Machine

/-- The halt timer and the current-cycle timer, each saturating (R10, R11). -/
def AngleUnit.tick (a : AngleUnit) : AngleUnit :=
  { a with haltTimer := min haltExpiry (a.haltTimer + 1), cycleTimer := min cycleTimeMax (a.cycleTimer + 1) }

/-- A timer that counts down: its rest, or none at its end. -/
def countDown : Option Nat → Option Nat
  | none => none
  | some n => if n ≤ 1 then none else some (n - 1)

/-- A cell's filter interval and pulse (R16, R19). -/
def Cell.tick (c : Cell) : Cell :=
  { c with filterTimer := c.filterTimer.map (· + 1), pulseTimer := countDown c.pulseTimer }

/-- The gum circuit's timers; the standby timer runs where `runs` says so (R89, R93). -/
def Gum.tick (runs : Bool) (g : Gum) : Gum :=
  { g with
    standbyTimer := if runs then g.standbyTimer + 1 else g.standbyTimer
    primeTimer := countDown g.primeTimer }

/-- Every timer moved by one µs. -/
def State.advanceTimers (s : State) : State :=
  { s with
    angle := s.angle.tick
    cells := mapTable (fun _ c => c.tick) s.cells
    gum := s.gum.tick s.standbyRuns
    cym := { s.cym with pulse := countDown s.cym.pulse }
    line := { s.line with chordTimer := s.line.chordTimer.map (· + 1) } }

/-- Whether a cell's filter interval has lasted its filter time (R16). -/
def Cell.filterDue (c : Cell) : Bool := c.filterTimer.any fun t => decide (c.config.filter ≤ t)

/-- The expiries due in the µs that `s` has come to: filters (R16), the standby timer (R91), a prime that ran out (R95),
the chord (R158). Each touches its own block's state, so their order does not matter. -/
def State.takeExpiries (s : State) : State :=
  let s1 := (List.finRange 16).foldl (fun s i => if s.cells[i].filterDue then s.qualify i else s) s
  let s2 := if s1.standbyDue then s1.standbyExpires else s1
  let s3 := if s2.gum.state = .priming && s2.gum.primeTimer.isNone then s2.primeCompletes else s2
  if s3.line.chordTimer.any fun t => decide (chordHold ≤ t) then s3.takeChord else s3

/-- One µs. A part held in reset stands (R162, assumption log 16). -/
def State.tick (s : State) : State := if s.heldInReset then s else s.advanceTimers.takeExpiries

end Sys2Proof.Machine
end

