-- ==== Sys2Proof/Safety.lean ====
section
/-!
DEFINITION. What the manual says holds of the part at all times, in the terms the statements use: ranges of counters and
buffers, the legal locks, the empty line of OFFLINE, and the slots that are VALID because they are in use.
-/

namespace Sys2Proof.Safety

open Sys2Proof.Machine

/-! ### Terms of the statements -/

/-- A port takes frames: the part is not held in reset (R162) and the port's PRST line is not low (R166). -/
def Takes (s : State) (p : Port) : Prop := s.heldInReset = false ∧ (s.ports.get p).prstLow = false

/-- What a happening on the machine side leaves alone: the constants, the slots and the locks, what the ports hold, the
frames in progress, the read windows, the operator lines, the queue, and every cell's configuration and pin. -/
structure SameSetup (s t : State) : Prop where
  constants : t.constants = s.constants
  slots : t.slots = s.slots
  locks : t.locks = s.locks
  ports : t.ports = s.ports
  frames : t.frames = s.frames
  windows : t.ring.windows = s.ring.windows
  opaHigh : t.opaHigh = s.opaHigh
  opbHigh : t.opbHigh = s.opbHigh
  heldInReset : t.heldInReset = s.heldInReset
  cymMode : t.cym.mode = s.cym.mode
  pending : t.pending = s.pending
  config : ∀ i : Fin 16, t.cells[i].config = s.cells[i].config
  pin : ∀ i : Fin 16, t.cells[i].pinHigh = s.cells[i].pinHigh

/-- The values of the members of a list of the manual, coded from 0 in its order, and no member is left out (sections
10.3 and 10.5). -/
def CodedFrom0 {α : Type} (value : α → Byte) (members : List α) : Prop :=
  members.map value = (List.range members.length).map (BitVec.ofNat 8) ∧ ∀ x, x ∈ members

/-- The bits of the members of a set of the manual, from bit 0 in its order, and no member is left out (section 10.5). -/
def BitsFrom0 {α : Type} (bit : α → Nat) (members : List α) : Prop :=
  members.map bit = List.range members.length ∧ ∀ x, x ∈ members

/-- The entry of a record at a position as section 10.5 lays it out: 20 bytes, every field at its offset, an absent field
0 with its presence bit clear, and bits that name no member 0. -/
def EntryFields (position : Nat) (b : Blank) (l : List Byte) : Prop :=
  l.length = 20 ∧ l[0]? = some 1 ∧ l[1]? = some (BitVec.ofNat 8 position)
  ∧ (l.drop 2).take 4 = littleEndian b.seq 4 ∧ l[6]? = some (BitVec.ofNat 8 b.fmt.val)
  ∧ (∀ x ∈ l[7]?, x.toNat < 64 ∧ ∀ o : Op, x.getLsbD o.bit = b.hasOp o)
  ∧ (∀ x ∈ l[8]?, ∀ f : BlankFault, f.bit < 8 → x.getLsbD f.bit = b.hasFault f)
  ∧ (∀ x ∈ l[9]?, x.toNat < 32 ∧ ∀ f : BlankFault, 8 ≤ f.bit → x.getLsbD (f.bit - 8) = b.hasFault f)
  ∧ (∀ x ∈ l[10]?, x.toNat < 8 ∧ x.getLsbD 0 = b.regErr.isSome ∧ x.getLsbD 1 = b.failCode.isSome
    ∧ x.getLsbD 2 = b.batch.isSome)
  ∧ (l.drop 11).take 2 = littleEndian (BitVec.ofInt 16 (b.regErr.getD 0)) 2
  ∧ l[13]? = some b.verdict.value ∧ l[14]? = some (b.failCode.getD 0) ∧ l[15]? = some b.disposition.value
  ∧ l.drop 16 = littleEndian (b.batch.getD 0) 4

/-- The bits and codes of an entry (section 10.5). -/
def EntryCodes : Prop :=
  BitsFrom0 Op.bit [.window, .patch, .gum, .fold, .inspect, .count]
  ∧ BitsFrom0 BlankFault.bit [.noMark, .regOut, .patchMissing, .gumSkipped, .gumSet, .foldMissing, .noticeLost,
      .verdictFail, .verdictLate, .operator, .lineFault, .countMissing, .trackLost]
  ∧ CodedFrom0 Verdict.value [.noneDue, .awaiting, .pass, .fail, .skipped, .missing]
  ∧ CodedFrom0 Disposition.value [.inLine, .toReject, .cleared, .flagged, .rejected, .delivered, .lost]

/-- The status codes of section 10.4. -/
def statusCodes : List (Status × Byte) :=
  [(.ok, 0x00), (.empty, 0x01), (.replaced, 0x02), (.unknownCommand, 0x10), (.notOnPort, 0x11), (.shortFrame, 0x12),
    (.range, 0x13), (.wrongMode, 0x14), (.notHalted, 0x15), (.noConstants, 0x16), (.noFormat, 0x17), (.logFull, 0x18),
    (.notHolder, 0x20), (.locked, 0x21), (.inUse, 0x22), (.notAllocated, 0x23), (.noneFree, 0x24),
    (.formatError, 0x25), (.notValid, 0x26), (.notTracked, 0x30), (.tooLate, 0x31), (.duplicate, 0x32),
    (.notAwaiting, 0x33), (.regOff, 0x34), (.noResponse, 0x3F)]

/-- The levels of QA and QB after one transition (R4). Where QA leads QB, QA rises while QB is low, QB rises while QA is
high, QA falls while QB is high and QB falls while QA is low; the reverse sequence goes the other way. -/
def levelsAfter (qaLeads qa qb : Bool) : Bool × Bool := if qaLeads then (!qb, qa) else (qb, !qa)

/-- Every slot outside the evaluated set has lost the evaluation state of its stations (R47). -/
def LeftSetsCleared (s : State) : Prop :=
  ∀ k : Fin 4, s.evaluated k = false → ∀ i : Fin 16,
    s.station k i = { Station.cleared with lead := (s.station k i).lead }

/-- No two present records carry the same number (R29). -/
def SeqsDistinct (s : State) : Prop :=
  ∀ (j k : Fin 64) (b b' : Blank), s.presentAt j = some b → s.presentAt k = some b' → b.seq = b'.seq → j = k

/-- A GUM station whose window is open and fired has latched the record of this number (R92). -/
def GumLatched (s : State) (seq : Word) : Prop :=
  ∃ (k : Fin 4) (i : Fin 16) (e : Entry), s.entry k i = some e ∧ e.kind = .gum
    ∧ (s.station k i).windowOpen = true ∧ (s.station k i).fired = true ∧ (s.station k i).latch = .blank seq

/-- The crossings up to an angle taken one after another, each time one of the lowest angle and, at that angle, of the
lowest order, until no crossing from the last one's angle on is left (R44). -/
inductive Passes (high : Nat) : Nat → State → State → Prop where
  | done {low : Nat} {s : State} : s.crossings low high = [] → Passes high low s s
  | next {low : Nat} {s t : State} (x : Crossing) : x ∈ s.crossings low high →
      (∀ y ∈ s.crossings low high, x.angle < y.angle ∨ (x.angle = y.angle ∧ x.order ≤ y.order)) →
      Passes high x.angle (s.takeCrossing x) t → Passes high low s t

/-- The open batch `o` closed with a cause and the next batch opened for slot `fmt` (R119, R127), the box closed with it
where `boxCloses` holds (R128). Only the batch counter and the event set change. -/
structure ClosedAs (s t : State) (o : OpenBatch) (cause : CloseCause) (fmt : Fin 4) (boxCloses : Prop) : Prop where
  rest : t = { s with batch := t.batch, line := { s.line with events := t.line.events } }
  log : t.batch.log = s.batch.log ++ [{ fields := o.fields, cause := cause }]
  kick : t.batch.kick = true
  missRun : t.batch.missRun = s.batch.missRun
  box : boxCloses → t.batch.box = true ∧ t.batch.boxNumber = successor s.batch.boxNumber ∧ t.batch.inBox = 0
  sameBox : ¬ boxCloses → t.batch.box = s.batch.box ∧ t.batch.boxNumber = s.batch.boxNumber
    ∧ t.batch.inBox = increase .inBox s.batch.inBox
  events : ∀ x : LineEvent, hasBit t.line.events x.bit = true ↔ hasBit s.line.events x.bit = true
    ∨ (x = .boxClosed ∧ boxCloses) ∨ (x = .logHigh ∧ s.batch.log.length = 23)
  nextNumber : t.batch.nextNumber = successor s.batch.nextNumber
  next : t.batch.openBatch = some
    { state := .open
      fields :=
        { number := s.batch.nextNumber, fmt := fmt, heldSize := s.slots[fmt].header.batchSize
          heldPerBox := s.slots[fmt].header.perBox, count := 0, firstSeq := none, lastSeq := none, rejects := 0
          passedDefects := 0, unexpected := 0, indexInBox := increase .indexInBox t.batch.inBox
          boxNumber := t.batch.boxNumber, suspect := false, mixed := false } }

/-- The present records' sequence numbers, from position 0 toward the exit (R29). -/
def presentSeqs (s : State) : List Word :=
  (List.finRange 64).filterMap fun k => (s.ring.at k).map fun b => b.seq

/-- The predecessor in the numbering from 1 to 4,294,967,295 (R28). -/
def predecessor (n : Word) : Word := if n = 1 then BitVec.allOnes 32 else n - 1

/-- The last `count` numbers given before a counter stands at `n`, the latest first (R28). -/
def lastGiven (n : Word) : Nat → List Word
  | 0 => []
  | count + 1 => predecessor n :: lastGiven (predecessor n) count

/-- The numbers of a list are each the successor of the one before it, and `next` is the successor of the last
(R131). -/
def Successive (next : Word) : List Word → Prop
  | [] => True
  | [n] => next = successor n
  | m :: n :: rest => n = successor m ∧ Successive next (n :: rest)

/-! ### What holds at all times -/

/-- The machine constants lie in their ranges (R2). -/
def ConstantsInRange (s : State) : Prop :=
  ∀ c ∈ s.constants, 2000 ≤ c.e ∧ c.e ≤ 40000 ∧ 4 ≤ c.p ∧ c.p ≤ 64 ∧ ∀ z ∈ c.z0, z < c.e

/-- p runs from 0 to E−1 and the debt from 0 to E; both are 0 before the constants are written (R1, R5, R6). -/
def AngleInRange (s : State) : Prop :=
  match s.constants with
  | some c => s.angle.p < c.e ∧ s.angle.debt ≤ c.e
  | none => s.angle.p = 0 ∧ s.angle.debt = 0

/-- Tc and the current-cycle timer are 24-bit values and the halt timer stops at its expiry (R10, R11). -/
def TimersInRange (s : State) : Prop :=
  s.angle.tc ≤ cycleTimeMax ∧ s.angle.cycleTimer ≤ cycleTimeMax ∧ s.angle.haltTimer ≤ haltExpiry

/-- A read window lies in the tracked line and its pointer in the window (R34). -/
def WindowLegal (length : Nat) (w : ReadWindow) : Prop :=
  w.first ≤ w.pointer ∧ w.pointer ≤ w.last ∧ w.last < length

/-- The read windows of all three ports are legal (R34, R37). -/
def WindowsLegal (s : State) : Prop := ∀ p : Port, WindowLegal s.lineLength (s.ring.windows.get p)

/-- The buffers hold no more than their room: 32 batch records (R131) and 16 notices (R100). -/
def BuffersInRoom (s : State) : Prop := s.batch.log.length ≤ logRoom ∧ s.notices.length ≤ noticeRoom

/-- The registration unit's values lie in their ranges (R67). -/
def RegistrationInRange (s : State) : Prop :=
  s.registration.missCount ≤ 255 ∧ s.registration.residue.natAbs < 65536 ∧ s.registration.trim.natAbs ≤ 32767
    ∧ s.registration.contributions ≤ 255 ∧ s.registration.age ≤ 255

/-- A lock is legal: a held lock is allocated and has a holder, and a bound lock is allocated at all times (R142). -/
def LockLegal (i : Fin 8) (l : Lock) : Prop :=
  (l.held = true → l.allocated = true ∧ l.holder.isSome = true) ∧ (isBound i = true → l.allocated = true)

/-- Every lock of the pool is legal (R142). -/
def LocksLegal (s : State) : Prop := ∀ i : Fin 8, LockLegal i s.locks[i]

/-- While the mode is OFFLINE the ring holds no records and the notice queue is empty (R152). -/
def OfflineEmpty (s : State) : Prop :=
  s.line.mode = .offline → (∀ k : Fin 64, s.ring.at k = none) ∧ s.notices = []

/-- The entries at positions P to 63 are gaps (R23). -/
def OutsideLineGaps (s : State) : Prop := ∀ k : Fin 64, s.lineLength ≤ k.val → s.ring.at k = none

/-- The counter's next number is none that is not given, and read from position 0 toward the exit the present records
carry the numbers given last, the latest cut first (R28, R29). No two of them are then the same. -/
def SeqsInCutOrder (s : State) : Prop :=
  s.ring.nextSeq ≠ 0 ∧ presentSeqs s = lastGiven s.ring.nextSeq (presentSeqs s).length

/-- A record of no fault: IN_LINE, CLEARED and DELIVERED records have an empty fault set (R30, R31). -/
def Clean (b : Blank) : Prop :=
  b.disposition = .inLine ∨ b.disposition = .cleared ∨ b.disposition = .delivered → b.faults = 0

/-- Every record of the ring that is IN_LINE, CLEARED or DELIVERED has an empty fault set (R30, R31). -/
def RecordsClean (s : State) : Prop := ∀ (k : Fin 64) (b : Blank), s.ring.at k = some b → Clean b

/-- Whether the changes of section 2.4, any number of them, take one disposition to another (R30, R31, R32). -/
def leadsTo : Disposition → Disposition → Bool
  | .inLine, _ => true
  | .toReject, d => d = .toReject || d = .flagged || d = .rejected || d = .lost
  | .cleared, d => d = .cleared || d = .flagged || d = .delivered || d = .rejected || d = .lost
  | .flagged, d => d = .flagged || d = .rejected || d = .lost
  | .rejected, d => d = .rejected
  | .delivered, d => d = .delivered
  | .lost, d => d = .lost

/-- The log's batch numbers and the open batch's are successive, and the next batch number follows them; without an open
batch the log is empty (R119, R131). -/
def BatchNumbersSuccessive (s : State) : Prop :=
  match s.batch.openBatch with
  | none => s.batch.log = []
  | some b => Successive s.batch.nextNumber (s.batch.log.map (fun r => r.fields.number) ++ [b.fields.number])

/-- Every slot in use is VALID (R137). -/
def InUseValid (s : State) : Prop := ∀ k : Fin 4, s.inUse k = true → s.slots[k].state = .valid

/-- A VALID format holds at most one INSPECT entry (check 4 of R140). -/
def SingleInspect (s : State) : Prop :=
  ∀ (k : Fin 4) (i j : Fin 16) (e e' : Entry), s.slots[k].state = .valid → s.entry k i = some e → s.entry k j = some e' →
    e.kind = .inspect → e'.kind = .inspect → i = j

/-- The laws of the notice queue (R100). A record that is DELIVERED without a decision keeps its notice (R103, assumption
log 36). -/
structure NoticesLawful (s : State) : Prop where
  /-- Every notice is for a present record of its format that is AWAITING, not decided and not lost. -/
  present : ∀ n ∈ s.notices, ∃ (p : Fin 64) (b : Blank), s.presentAt p = some b ∧ b.seq = n.seq ∧ b.fmt = n.fmt
    ∧ b.verdict = .awaiting ∧ b.disposition ≠ .rejected ∧ b.disposition ≠ .lost
  /-- In cut order: a notice's record stands nearer the exit than those of the notices after it. No two are then for one
  blank. -/
  cutOrder : s.notices.Pairwise fun m n => ∀ (p q : Fin 64) (b b' : Blank), s.presentAt p = some b → b.seq = m.seq →
    s.presentAt q = some b' → b'.seq = n.seq → q < p
  /-- A blank with a notice has passed its format's INSPECT station, or stands at it with its on-crossing taken. -/
  inspected : ∀ n ∈ s.notices, ∀ (p : Fin 64) (b : Blank), s.presentAt p = some b → b.seq = n.seq →
    ∀ (i : Fin 16) (e : Entry), s.entry b.fmt i = some e → e.kind = .inspect →
      e.position < p ∨ (e.position = p ∧ (s.station b.fmt i).onMark = true)

/-- What the manual promises of the state at all times. -/
structure Sound (s : State) : Prop where
  constants : ConstantsInRange s
  angle : AngleInRange s
  timers : TimersInRange s
  windows : WindowsLegal s
  buffers : BuffersInRoom s
  registration : RegistrationInRange s
  locks : LocksLegal s
  offline : OfflineEmpty s
  outside : OutsideLineGaps s
  seqs : SeqsInCutOrder s
  clean : RecordsClean s
  batches : BatchNumbersSuccessive s
  inUse : InUseValid s
  inspect : SingleInspect s
  notices : NoticesLawful s

end Sys2Proof.Safety
end

