-- ==== Sys2Proof/WellFormed.lean ====
section
/-!
DEFINITION. Which terms of `Instr` the hardware can produce. Parameters are raw frame bytes, so only the rows that stand
for a frame the tests of R163 and R164 refuse, and a WRITE FORMAT with an unknown group byte, carry a condition.
-/

namespace Sys2Proof

/-- The bytes counted of a frame are fewer than 2 + L, and at least one (R163, R164). -/
def shortBytes : List Byte → Bool
  | [] => false
  | [_] => true
  | _ :: len :: rest => decide (rest.length < len.toNat) && decide (rest.length + 2 ≤ frameLimit)

/-- The parameters fit in a frame of at most 64 bytes (R163). -/
def paramsFit (params : List Byte) : Bool := decide (params.length + 2 ≤ frameLimit)

/-- A group byte that is neither the header's 0xFF nor a station index (section 10.3). -/
def FormatGroup.wellFormed : FormatGroup → Bool
  | .unknownGroup g _ => decide (16 ≤ g.toNat) && decide (g ≠ 0xFF)
  | .header _ => true
  | .absentEntry _ => true
  | .presentEntry _ _ => true

/-- The check on a command. -/
def Instr.wellFormed : Instr → Bool
  | .writeFormat _ _ group => group.wellFormed
  | .shortFrame _ bytes => shortBytes bytes
  | .unknownCommand _ code params => paramsFit params && (offeredOn code).isNone
  | .notOnPort p code params => paramsFit params && (offeredOn code).any (fun ports => !ports.contains p)
  | .parameterLengthMismatch p code params =>
    paramsFit params && (offeredOn code).any (fun ports => ports.contains p) && (commandOf p code params).isNone
  | .nop _ => true
  | .status _ => true
  | .statusWithAcknowledge => true
  | .readMotion _ => true
  | .setWindow _ _ _ => true
  | .readNext _ => true
  | .readSeq _ _ => true
  | .peekCell _ _ => true
  | .takeCell _ => true
  | .stop _ => true
  | .lockNew _ => true
  | .lockReturn _ _ => true
  | .lockTake _ _ => true
  | .lockRelease _ _ => true
  | .lockQuery _ _ => true
  | .readFormat _ _ _ => true
  | .commitFormat _ _ => true
  | .arm => true
  | .disarm => true
  | .clear => true
  | .softReset => true
  | .setConstants _ => true
  | .setCell _ => true
  | .changeover _ => true
  | .takeBatch => true
  | .peekBatch => true
  | .closeBatch => true
  | .markReject _ => true
  | .primeGum => true
  | .nudge _ => true
  | .setCym _ => true
  | .takeNotice => true
  | .verdict _ _ _ => true
  | .takeTrim => true
  | .emptyFrame _ => true
  | .forwardCount => true
  | .backwardCount => true
  | .discardedSample => true
  | .indexCorrection => true
  | .cymPulseEnd => true
  | .haltTimerExpiry => true
  | .crawlThreshold => true
  | .pinChange _ _ => true
  | .filterExpiry _ => true
  | .levelInputChange _ _ => true
  | .pulseEnd _ => true
  | .standbyExpiry => true
  | .primeComplete => true
  | .operatorLineChange _ _ => true
  | .chordTaken => true
  | .powerOn _ => true
  | .rstnReset => true
  | .rstnRelease => true
  | .portReset _ => true
  | .portResetRelease _ => true

end Sys2Proof
end

