-- ==== Sys2Proof/Certificates/Slice0/Obligations.lean ====
section
/-!
DEFINITION. The statements for the provers. Each cites the rule of the manual it formalises; where it rests on the
model's own choice it names the log entry.
-/

open Sys2Proof Sys2Proof.Machine Sys2Proof.Safety

/-! ### The queue, time and frames -/

/-- A step runs the command at the front of the queue on the queue's rest; on an empty queue one µs passes (log 1). -/
def Obligations.StepRunsFrontCommand : Prop :=
  (∀ (c : Instr) (rest : List Instr) (s : State),
    step { s with pending := c :: rest } = exec c { s with pending := rest })
  ∧ ∀ s : State, s.pending = [] → step s = .next s.tick

/-- Every command answers a next state and leaves the queue alone: the manual gives no condition under which the part
stops (log 25). -/
def Obligations.CommandsCompleteAndKeepQueue : Prop :=
  ∀ (c : Instr) (s : State), ∃ t, exec c s = .next t ∧ t.pending = s.pending

/-- One µs on an empty queue (00 "Time base", log 1): a part held in reset stands; otherwise every timer that runs moves
by one and the expiries this brings are taken, and the setup stays. The halt timer and the current-cycle timer saturate
(R10, R11). A filter interval that has lasted its filter time qualifies the change (R16). Pulses and the CYM pulse end at
their last µs (R19, R149). The standby timer runs in READY while HALTED, holds otherwise, and expires at the active slot's
timeout (R89 to R91). A prime completes at its last µs (R93, R95). A chord held for 2 s is taken (R158).
That a held part stands is the model's reading (log 16). -/
def Obligations.MicrosecondMovesTimers : Prop :=
  ∀ s : State, s.pending = [] →
    (s.heldInReset = true → step s = .next s) ∧
    (s.heldInReset = false → ∃ t, step s = .next t ∧ SameSetup s t
      ∧ t.angle = { s.angle with
          haltTimer := min 250000 (s.angle.haltTimer + 1), cycleTimer := min 16777215 (s.angle.cycleTimer + 1) }
      ∧ (∀ i : Fin 16, ∀ n, s.cells[i].pulseTimer = some (n + 2) → t.cells[i].pulseTimer = some (n + 1))
      ∧ (∀ i : Fin 16, s.cells[i].pulseTimer = some 1 → t.cells[i].pulseTimer = none)
      ∧ (∀ i : Fin 16, s.cells[i].filterTimer = none →
          t.cells[i] = { s.cells[i] with pulseTimer := t.cells[i].pulseTimer })
      ∧ (∀ i : Fin 16, ∀ n, s.cells[i].filterTimer = some n → n + 1 < s.cells[i].config.filter →
          t.cells[i] = { s.cells[i] with pulseTimer := t.cells[i].pulseTimer, filterTimer := some (n + 1) })
      ∧ (∀ i : Fin 16, ∀ n, s.cells[i].filterTimer = some n → s.cells[i].config.filter ≤ n + 1 →
          let c := s.cells[i]
          let active := c.config.polarity.logical c.pinHigh
          let taken := match c.config.edgeSelect with | .rising => active | .falling => !active | .both => true
          t.cells[i] = { c with
              pulseTimer := t.cells[i].pulseTimer, filterTimer := none, level := active
              z := if taken then { stamp := s.angle.cycle.setWidth 16, angle := BitVec.ofNat 16 s.theta } else c.z
              event := c.event || taken, overrun := c.overrun || (c.event && taken) }
          ∧ (taken = true → ∀ (k : Fin 4) (j : Fin 16) (e : Entry), s.entry k j = some e → e.kind.isOutput = false →
              e.cell = i → s.evaluated k = true → (s.station k j).windowOpen = true → (t.station k j).seen = true))
      ∧ (∀ n, s.cym.pulse = some (n + 2) → t.cym.pulse = some (n + 1))
      ∧ (s.cym.pulse = some 1 → t.cym.pulse = none)
      ∧ (s.gum.state = .ready → s.motion ≠ .halted → s.angle.haltTimer + 1 < 250000 →
          t.gum.state = .ready ∧ t.gum.standbyTimer = s.gum.standbyTimer)
      ∧ (s.gum.state = .ready → s.motion = .halted → ∀ k, s.active = some k →
          let timeout := if s.slots[k].header.standbyCode = 0 then 1800000000
            else s.slots[k].header.standbyCode * 5000000
          (s.gum.standbyTimer + 1 < timeout →
            t.gum.state = .ready ∧ t.gum.standbyTimer = s.gum.standbyTimer + 1)
          ∧ (timeout ≤ s.gum.standbyTimer + 1 →
            t.gum = { state := .standby, standbyTimer := 0, primeTimer := none }
            ∧ hasBit t.line.events LineEvent.gumStandby.bit = true))
      ∧ (∀ n, s.gum.state = .priming → s.gum.primeTimer = some (n + 2) →
          t.gum = { s.gum with primeTimer := some (n + 1) })
      ∧ (s.gum.state = .priming → s.gum.primeTimer = some 1 →
          t.gum = { state := .ready, standbyTimer := 0, primeTimer := none }
          ∧ hasBit t.line.events LineEvent.primeDone.bit = true)
      ∧ (s.line.chordTimer = none → t.line = { s.line with events := t.line.events })
      ∧ (∀ n, s.line.chordTimer = some n → n + 1 < 2000000 →
          t.line = { s.line with events := t.line.events, chordTimer := some (n + 1) })
      ∧ (∀ n, s.line.chordTimer = some n → 2000000 ≤ n + 1 →
          t.line = { s.line with
            events := t.line.events, chordTimer := none, chordState := .spent
            mode := if s.line.mode = .faulted then .armed else s.line.mode
            causes := if s.line.mode = .faulted then 0 else s.line.causes })
      ∧ t.registration = s.registration ∧ t.batch = s.batch ∧ t.notices = s.notices
      ∧ t.active = s.active ∧ t.pendingSlot = s.pendingSlot ∧ t.fresh = s.fresh ∧ t.choice = s.choice)

/-- Every well-formed command that comes by a frame is what its frame's bytes decode to, with every operand (R163, R164,
R168, section 10.3). -/
def Obligations.CommandFramesRoundTrip : Prop :=
  ∀ (i : Instr) (p : Port) (bytes : List Byte),
    i.wellFormed = true → encodeFrame i = some (p, bytes) → decodeFrame p bytes = i

/-- Whatever bytes a master clocks, the frame spells a well-formed command of that port (R163, R164). The bits of a frame
make its bytes with the most significant bit first, and a byte cut short is dropped (R163, R168). From chip select low on,
each rising edge of the clock samples a bit, and at chip select high the command of the whole bytes joins the queue;
meanwhile the part sends the pending response and then 0xFF, bit by bit, and its output changes on the falling edge (R163,
R164, R168). A port that disregards its frames, and one whose frame is abandoned, keeps no bit and gives no command (R164,
R166).
The bytes of a response are its status by the table of section 10.4, the payload length and the payload.
That the command joins the queue is the model's choice, and that the clock is low and the first bit out at chip select its
reading of mode 0 (log 3). -/
def Obligations.EveryFrameSpellsAWellFormedCommand : Prop :=
  (∀ (p : Port) (bytes : List Byte),
    (decodeFrame p bytes).wellFormed = true
    ∧ ∃ canonical, encodeFrame (decodeFrame p bytes) = some (p, canonical))
  ∧ (∀ (bytes : List Byte) (cut : List Bool), cut.length < 8 → wholeBytes (bytes.flatMap bitsOf ++ cut) = bytes)
  ∧ (∀ (x : Byte) (n : Fin 8), (bitsOf x)[n.val]? = some (x.getLsbD (7 - n.val)))
  ∧ (∀ (p : Port) (bits : List Bool) (s : State), Takes s p →
      let t := bits.foldl (fun s bit => (s.clockRise p bit).clockFall p) (s.chipSelect p)
      let taken (bits : List Bool) : State := { s with
        frames := s.frames.set p .idle, pending := s.pending ++ [decodeFrame p (wholeBytes bits)] }
      t = { s with frames := s.frames.set p (.clocking bits false) } ∧ t.chipDeselect p = taken bits
      ∧ (∃ x : Byte, t.dataOut p = some (x.getLsbD (7 - bits.length % 8))
        ∧ x = if bits.length / 8 < 64 then ((s.ports.get p).response.bytes[bits.length / 8]?).getD 0xFF else 0xFF)
      ∧ ∀ bit : Bool, (t.clockRise p bit).dataOut p = t.dataOut p
        ∧ (t.clockRise p bit).chipDeselect p = taken (bits ++ [bit]))
  ∧ (∀ (p : Port) (s : State), ¬ Takes s p → s.chipSelect p = { s with frames := s.frames.set p .abandoned })
  ∧ (∀ (p : Port) (bit : Bool) (s : State), s.frames.get p = .abandoned →
      s.clockRise p bit = s ∧ s.clockFall p = s ∧ s.dataOut p = none
      ∧ s.chipDeselect p = { s with frames := s.frames.set p .idle })
  ∧ (∀ r : Response, ∃ code, (r.status, code) ∈ statusCodes
      ∧ r.bytes = code :: BitVec.ofNat 8 r.payload.length :: r.payload)

/-- A frame on a port whose PRST line is low (R166), or in a part held in reset by RSTN (R162), changes nothing.
The second is the model's reading (log 16). -/
def Obligations.DisregardedFramesChangeNothing : Prop :=
  ∀ (i : Instr) (p : Port) (bytes : List Byte) (s : State), encodeFrame i = some (p, bytes) →
    (s.heldInReset = true ∨ (s.ports.get p).prstLow = true) → exec i s = .next s

/-! ### Ports -/

/-- NOP changes nothing and answers OK without payload; STATUS changes nothing and answers OK with the report; STATUS with
acknowledge answers the same report and empties the line event set (R159, R169). A frame refused by the tests of R164
changes nothing but the pending response, which has no payload; a frame of no whole byte is disregarded (R163). The status
report has 23 bytes, every field at its offset and every code and bit by the lists there; bits that name no member are 0, and without an open batch its number and
count are 0 (section 10.5, R171). That the count is 0 then is the model's choice (log 35). -/
def Obligations.NopStatusAndRefusedFramesAnswer : Prop :=
  (∀ (p : Port) (code : Byte) (bytes : List Byte) (s : State), Takes s p →
    exec (.nop p) s = .next (s.respond p { status := .ok, payload := [] })
    ∧ exec (.status p) s = .next (s.respond p { status := .ok, payload := s.statusLayout })
    ∧ exec (.shortFrame p bytes) s = .next (s.respond p { status := .shortFrame, payload := [] })
    ∧ exec (.unknownCommand p code bytes) s = .next (s.respond p { status := .unknownCommand, payload := [] })
    ∧ exec (.notOnPort p code bytes) s = .next (s.respond p { status := .notOnPort, payload := [] })
    ∧ exec (.parameterLengthMismatch p code bytes) s = .next (s.respond p { status := .range, payload := [] }))
  ∧ (∀ s : State, Takes s .line →
    exec .statusWithAcknowledge s
      = .next (State.respond { s with line := { s.line with events := 0 } } .line
          { status := .ok, payload := s.statusLayout }))
  ∧ (∀ (p : Port) (s : State), exec (.emptyFrame p) s = .next s)
  ∧ ∀ s : State, s.statusLayout.length = 23
    ∧ s.statusLayout[0]? = some s.line.mode.value ∧ s.statusLayout[1]? = some s.line.resetCause.value
    ∧ (∀ b ∈ s.statusLayout[2]?, b.getLsbD 0 = s.constants.isSome ∧ b.getLsbD 1 = s.batch.openBatch.isSome
        ∧ b.getLsbD 2 = (s.batch.openBatch.any fun o => o.state = .held) ∧ b.getLsbD 3 = s.registration.limit
        ∧ b.toNat < 16)
    ∧ s.statusLayout[3]? = some (firstCauseValue s.line.firstCause)
    ∧ (∀ b ∈ s.statusLayout[4]?, b.getLsbD 7 = false
        ∧ ∀ c : Cause, b.getLsbD c.bit = hasBit s.line.causes c.bit)
    ∧ (∀ b ∈ s.statusLayout[5]?, b.getLsbD 7 = false
        ∧ ∀ e : LineEvent, b.getLsbD e.bit = hasBit s.line.events e.bit)
    ∧ s.statusLayout[6]? = some (match s.active with | none => 0xFF | some k => BitVec.ofNat 8 k.val)
    ∧ s.statusLayout[7]? = some (match s.pendingSlot with | none => 0xFF | some k => BitVec.ofNat 8 k.val)
    ∧ s.statusLayout[8]? = some s.registration.state.value
    ∧ s.statusLayout[9]? = some (BitVec.ofNat 8 s.registration.missCount)
    ∧ (s.statusLayout.drop 10).take 2 = littleEndian (BitVec.ofInt 16 s.registration.total) 2
    ∧ s.statusLayout[12]? = some s.gum.state.value
    ∧ s.statusLayout[13]? = some (BitVec.ofNat 8 s.notices.length)
    ∧ s.statusLayout[14]? = some (BitVec.ofNat 8 s.batch.log.length)
    ∧ (s.batch.openBatch = none → s.statusLayout.drop 15 = List.replicate 8 0)
    ∧ (∀ o ∈ s.batch.openBatch,
        s.statusLayout.drop 15 = littleEndian o.fields.number 4 ++ littleEndian o.fields.count 4)
    ∧ CodedFrom0 LineMode.value [.offline, .armed, .faulted]
    ∧ CodedFrom0 ResetCause.value [.powerOn, .resetLine, .soft]
    ∧ CodedFrom0 firstCauseValue [none, some .jamFold, some .jamCount, some .trackLost, some .indexSlip, some .stopL,
        some .stopI, some .stopD]
    ∧ BitsFrom0 Cause.bit [.jamFold, .jamCount, .trackLost, .indexSlip, .stopL, .stopI, .stopD]
    ∧ BitsFrom0 LineEvent.bit [.regLost, .regLimit, .gumStandby, .primeDone, .primeAborted, .logHigh, .boxClosed]
    ∧ CodedFrom0 RegState.value [.off, .tracking, .coasting, .lost]
    ∧ CodedFrom0 GumState.value [.off, .ready, .standby, .priming]

/-! ### Crossings -/

/-- The crossings of a forward step are those of every evaluated station whose mark is clear and whose effective angle,
for an output station the programmed one less its cycle lead, lies among the angles passed (R43, R44, R47). They are taken
in rising order of angle, at one angle FEED, then on-crossings, then other off-crossings, until none is left; a step that
meets none changes nothing (R44). An on-crossing of a closed window sets its mark, latches the entry at its position and opens
the window; one of a window still open closes it first; an off-crossing sets its mark and closes an open window (R46). A slot
that joins the evaluated set has its marks set at or below the angle, its windows closed and its leads from the lead scale
(R48). The set holds the active slot, the slots of present records and those with an open window; a slot that leaves it at a
crossing or a changeover loses its stations' state (R47).
That every FEED off-crossing stands with the FEED evaluation is the model's choice (log 31), and that the early closing
does not take the off-crossing is its reading (log 10). -/
def Obligations.CrossingsAreTakenInOrder : Prop :=
  (∀ (e : Entry) (st : Station),
    (e.kind.isOutput = false → e.effectiveOn st = e.onAngle.toNat ∧ e.effectiveOff st = e.offAngle.toNat)
    ∧ (e.kind.isOutput = true → e.effectiveOn st < 65536 ∧ (e.effectiveOn st + st.lead) % 65536 = e.onAngle.toNat
        ∧ e.effectiveOff st < 65536 ∧ (e.effectiveOff st + st.lead) % 65536 = e.offAngle.toNat))
  ∧ (∀ (low high : Nat) (s : State) (x : Crossing), x ∈ s.crossings low high ↔
    s.evaluated x.slot = true ∧ low ≤ x.angle ∧ x.angle ≤ high ∧ ∃ e, s.entry x.slot x.index = some e
      ∧ (if x.isOn = true then
          (s.station x.slot x.index).onMark = false ∧ x.angle = e.effectiveOn (s.station x.slot x.index) ∧ x.order = 1
         else (s.station x.slot x.index).offMark = false ∧ x.angle = e.effectiveOff (s.station x.slot x.index)
          ∧ x.order = if e.kind = .feed then 0 else 2))
  ∧ (∀ (low high : Nat) (s : State),
    (s.crossings low high = [] → s.passAngles low high = s)
    ∧ (s.crossings low high ≠ [] →
      Passes high low { s with choice := s.choice + 1 } (s.passAngles low high)))
  ∧ (∀ (k : Fin 4) (i : Fin 16) (e : Entry) (theta : Nat) (s : State), s.entry k i = some e →
    let st := s.station k i
    let on := s.onCrossing k i e theta
    let off := s.offCrossing k i e theta
    (st.windowOpen = false →
      on.station k i = { st with
        onMark := true, windowOpen := true, fired := (on.station k i).fired
        latch := match s.presentAt e.position with | some b => .blank b.seq | none => .gap
        seen := if e.kind.isOutput then st.seen else false
        firstEdge := if e.kind.isOutput then st.firstEdge else none }
      ∧ (∀ (k' : Fin 4) (j : Fin 16), k' ≠ k ∨ j ≠ i → on.station k' j = s.station k' j)
      ∧ off = { s with stations := off.stations } ∧ off.station k i = { st with offMark := true }
      ∧ ∀ (k' : Fin 4) (j : Fin 16), k' ≠ k ∨ j ≠ i → off.station k' j = s.station k' j)
    ∧ (st.windowOpen = true →
      let closed := (s.updStation k i fun st => { st with onMark := true }).closeWindow k i e theta
      (closed.station k i).windowOpen = false
      ∧ (on.station k i).onMark = true ∧ (on.station k i).offMark = st.offMark ∧ (on.station k i).windowOpen = true
      ∧ (on.station k i).latch = (match closed.presentAt e.position with | some b => .blank b.seq | none => .gap)
      ∧ (e.kind.isOutput = false ∨ e.enabled = false →
        on = { closed with stations := on.stations } ∧ (on.station k i).fired = false
        ∧ ∀ (k' : Fin 4) (j : Fin 16), k' ≠ k ∨ j ≠ i → on.station k' j = closed.station k' j)
      ∧ (e.kind.isOutput = false → (on.station k i).seen = false ∧ (on.station k i).firstEdge = none)
      ∧ off = (s.updStation k i fun st => { st with offMark := true }).closeWindow k i e theta
      ∧ (off.station k i).offMark = true ∧ (off.station k i).windowOpen = false ∧ (off.station k i).latch = .empty
      ∧ (off.station k i).fired = false))
  ∧ (∀ (n : Fin 4) (theta : Nat) (s : State), s.firedGum = [] → s.evaluated n = false → ∀ i : Fin 16,
    let st := (s.makeActive n theta).station n i
    st = { Station.cleared with onMark := st.onMark, offMark := st.offMark, lead := st.lead }
    ∧ ∀ e, s.entry n i = some e →
      st.onMark = decide (e.effectiveOn st ≤ theta) ∧ st.offMark = decide (e.effectiveOff st ≤ theta)
      ∧ st.lead = if e.kind.isOutput = true ∧ s.motion = .running
          then min 16384 (e.leadUs * 65536 / s.angle.tc) else 0)
  ∧ (∀ (k : Fin 4) (s : State), s.evaluated k = true ↔
      s.active = some k ∨ (∃ (p : Fin 64) (b : Blank), s.presentAt p = some b ∧ b.fmt = k)
        ∨ ∃ i : Fin 16, (s.station k i).windowOpen = true)
  ∧ (∀ (x : Crossing) (e : Entry) (s : State), s.entry x.slot x.index = some e → LeftSetsCleared (s.takeCrossing x))
  ∧ ∀ (n : Fin 4) (theta : Nat) (s : State), LeftSetsCleared (s.makeActive n theta)

/-! ### Ports and motion -/

/-- READ MOTION changes nothing and answers OK with p, θ, the cycle number, Tc, the motion state, the debt and the lead
scale of one step, in 17 bytes (R170, R171); the lead scale is Tc while RUNNING and 0 otherwise (R12), and θ is
floor(p × 65,536 / E) (R8). -/
def Obligations.MotionReport : Prop :=
  ∀ (p : Port) (s : State), Takes s p →
    exec (.readMotion p) s = .next (s.respond p { status := .ok, payload := s.motionLayout })
    ∧ s.motionLayout.length = 17
    ∧ s.motionLayout.take 2 = littleEndian (BitVec.ofNat 16 s.angle.p) 2
    ∧ (s.motionLayout.drop 2).take 2 = littleEndian (BitVec.ofNat 16 s.theta) 2
    ∧ (s.motionLayout.drop 4).take 4 = littleEndian s.angle.cycle 4
    ∧ (s.motionLayout.drop 8).take 3 = littleEndian (BitVec.ofNat 24 s.angle.tc) 3
    ∧ s.motionLayout[11]? = some s.motion.value ∧ CodedFrom0 Motion.value [.halted, .reverse, .crawl, .running]
    ∧ (s.motionLayout.drop 12).take 2 = littleEndian (BitVec.ofNat 16 s.angle.debt) 2
    ∧ s.motionLayout.drop 14
        = littleEndian (BitVec.ofNat 24 (if s.motion = .running then s.angle.tc else 0)) 3
    ∧ (s.constants = none → s.theta = 0 ∧ s.motion = .halted)
    ∧ (∀ c, s.constants = some c → s.theta = s.angle.p * 65536 / c.e)

/-- What a master sends on one port leaves the other ports' pending responses, PRST lines and read windows alone, and
every lock another port holds, but for a SOFT RESET, the windows of SET CONSTANTS and a LOCK RETURN (R34, R143 to R145,
R165). -/
def Obligations.OtherPortsAreUntouched : Prop :=
  ∀ (i : Instr) (p q : Port) (bytes : List Byte) (s t : State), LocksLegal s → encodeFrame i = some (p, bytes) →
    q ≠ p → i ≠ .softReset → exec i s = .next t →
      t.ports.get q = s.ports.get q
      ∧ ((∀ v, i ≠ .setConstants v) → t.ring.windows.get q = s.ring.windows.get q)
      ∧ ((∀ n, i ≠ .lockReturn p n) → ∀ l : Fin 8, s.locks[l].heldBy q = true → t.locks[l] = s.locks[l])

/-! ### Reading the ring -/

/-- SET WINDOW sets the sender's window and pointer when first ≤ last ≤ the limit, and is refused with RANGE otherwise
(R34). READ NEXT answers OK with the entry at the pointer and moves the pointer by one, from the last position to the
first (R35), so the pointer stays within the window; a head advance moves neither (R34). The entry of a record has every field
at its offset, and a gap's is its kind and the position (section 10.5). -/
def Obligations.WindowCommands : Prop :=
  (∀ (p : Port) (first last : Byte) (s : State), Takes s p →
    let limit := match s.constants with | some c => c.p - 1 | none => 63
    (first.toNat ≤ last.toNat → last.toNat ≤ limit →
      exec (.setWindow p first last) s
        = .next (State.respond { s with ring := { s.ring with
            windows := s.ring.windows.set p
              { first := first.toNat, last := last.toNat, pointer := first.toNat } } }
            p { status := .ok, payload := [] }))
    ∧ (last.toNat < first.toNat ∨ limit < last.toNat →
      exec (.setWindow p first last) s = .next (s.respond p { status := .range, payload := [] })))
  ∧ (∀ (p : Port) (k : Fin 64) (w : ReadWindow) (s : State), Takes s p → s.ring.windows.get p = w → w.pointer = k.val →
    let next := if w.pointer = w.last then w.first else w.pointer + 1
    exec (.readNext p) s
      = .next (State.respond { s with ring := { s.ring with
          windows := s.ring.windows.set p { w with pointer := next } } }
          p { status := .ok
              payload := match s.presentAt k with
                | none => [0, BitVec.ofNat 8 k.val]
                | some b => b.layout k.val })
    ∧ (w.first ≤ w.pointer → w.pointer ≤ w.last → w.first ≤ next ∧ next ≤ w.last))
  ∧ (∀ s : State, s.headAdvance.ring.windows = s.ring.windows)
  ∧ (∀ (k : Fin 64) (b : Blank), EntryFields k.val b (b.layout k.val)) ∧ EntryCodes

/-- READ SEQ answers OK with the present record of that number and its position, or NOT_TRACKED, and changes nothing
(R36). The entry of a record has 20 bytes, every field at its offset; an absent field is 0 with its presence bit clear, and
bits that name no member are 0 (section 10.5). -/
def Obligations.ReadSeqAnswers : Prop :=
  ∀ (p : Port) (seq : Word) (s : State), Takes s p →
    (∀ (k : Fin 64) (b : Blank), s.presentAt k = some b → b.seq = seq →
      (∀ (j : Fin 64) (b' : Blank), s.presentAt j = some b' → b'.seq = seq → j = k) →
      exec (.readSeq p seq) s = .next (s.respond p { status := .ok, payload := b.layout k.val }))
    ∧ ((∀ (k : Fin 64) (b : Blank), s.presentAt k = some b → b.seq ≠ seq) →
      exec (.readSeq p seq) s = .next (s.respond p { status := .notTracked, payload := [] }))
    ∧ (∀ (k : Fin 64) (b : Blank), EntryFields k.val b (b.layout k.val)) ∧ EntryCodes

/-! ### Line cells -/

/-- PEEK CELL and TAKE CELL answer OK with the cell's report of 16 bytes; TAKE CELL then clears the event and the overrun
flag; a cell number above 15 is refused with RANGE (R21). The report has the cell number, the configuration in the order of
SET CELL, the level, Z and the two flags at their offsets (section 10.5). -/
def Obligations.PeekAndTakeCell : Prop :=
  ∀ (p : Port) (cell : Byte) (s : State), Takes s p →
    (∀ h : cell.toNat < 16,
      let i : Fin 16 := ⟨cell.toNat, h⟩
      let c := s.cells[i]
      let l := s.cellLayout i
      l.length = 16 ∧ l[0]? = some cell ∧ l[1]? = some c.config.mode.value ∧ l[2]? = some c.config.polarity.value
      ∧ l[3]? = some c.config.edgeSelect.value ∧ (l.drop 4).take 2 = littleEndian (BitVec.ofNat 16 c.config.filter) 2
      ∧ (l.drop 6).take 2 = littleEndian (BitVec.ofNat 16 c.config.width) 2
      ∧ l[8]? = some c.config.safeLevel.value ∧ l[9]? = some (if s.cellLevel i then 1 else 0)
      ∧ (l.drop 10).take 2 = littleEndian (s.cellZ i).stamp 2 ∧ (l.drop 12).take 2 = littleEndian (s.cellZ i).angle 2
      ∧ l[14]? = some (if c.event then 1 else 0) ∧ l[15]? = some (if c.overrun then 1 else 0)
      ∧ CodedFrom0 CellMode.value [.off, .edgeIn, .levelIn, .windowOut, .pulseOut]
      ∧ CodedFrom0 Polarity.value [.activeHigh, .activeLow] ∧ CodedFrom0 EdgeSelect.value [.rising, .falling, .both]
      ∧ CodedFrom0 SafeLevel.value [.inactive, .active]
      ∧ exec (.peekCell p cell) s = .next (s.respond p { status := .ok, payload := s.cellLayout i })
      ∧ (p = .line → exec (.takeCell cell) s
          = .next (State.respond { s with
              cells := setAt s.cells i { s.cells[i] with event := false, overrun := false } }
              .line { status := .ok, payload := s.cellLayout i })))
    ∧ (16 ≤ cell.toNat →
      exec (.peekCell p cell) s = .next (s.respond p { status := .range, payload := [] })
      ∧ (p = .line → exec (.takeCell cell) s = .next (s.respond .line { status := .range, payload := [] })))

/-- SET CELL: WRONG_MODE outside OFFLINE; RANGE for a cell above 15, for a field that applies to the mode outside its
range, and for a cell that a VALID slot binds to a kind the new mode would not serve; otherwise the configuration is
stored with the fields that do not apply at 0, Z and the flags are cleared, pulse and filter interval ended, and the level
taken from the pin for an edge input (R15). The parameters give a configuration exactly where every field that applies to
the mode lies in its range, and the fields are stored as they are coded (section 1.4, section 10.3).
The order of the tests is the model's reading (log 13). -/
def Obligations.SetCellConfigures : Prop :=
  ∀ (r : RawCell) (s : State), Takes s .line →
    let outside := 4 < r.mode.toNat ∨ (r.mode.toNat = 1 ∧ 1000 < r.filter.toNat)
      ∨ (r.mode.toNat ≠ 0 ∧ 1 < r.polarity.toNat) ∨ (r.mode.toNat = 1 ∧ 2 < r.edgeSelect.toNat)
      ∨ (r.mode.toNat = 4 ∧ (r.width.toNat < 50 ∨ 50000 < r.width.toNat))
      ∨ (3 ≤ r.mode.toNat ∧ 1 < r.safeLevel.toNat)
    (s.line.mode ≠ .offline → exec (.setCell r) s = .next (s.respond .line { status := .wrongMode, payload := [] }))
    ∧ (s.line.mode = .offline → 16 ≤ r.cell.toNat ∨ outside →
      exec (.setCell r) s = .next (s.respond .line { status := .range, payload := [] }))
    ∧ (s.line.mode = .offline → ∀ (h : r.cell.toNat < 16) (config : CellConfig), cellConfigOf r = some config →
      let i : Fin 16 := ⟨r.cell.toNat, h⟩
      ((∃ (k : Fin 4) (j : Fin 16) (e : Entry), s.slots[k].state = .valid ∧ s.slots[k].table[j] = some e
          ∧ e.cell = i ∧ config.mode.serves e.kind = false) →
        exec (.setCell r) s = .next (s.respond .line { status := .range, payload := [] }))
      ∧ ((∀ (k : Fin 4) (j : Fin 16) (e : Entry), s.slots[k].state = .valid → s.slots[k].table[j] = some e →
          e.cell = i → config.mode.serves e.kind = true) →
        exec (.setCell r) s
          = .next (State.respond { s with
              cells := setAt s.cells i
                { s.cells[i] with
                  config := config, z := { stamp := 0, angle := 0 }, event := false, overrun := false
                  filterTimer := none, pulseTimer := none
                  level := decide (config.mode = .edgeIn) && config.polarity.logical s.cells[i].pinHigh } }
              .line { status := .ok, payload := [] })))
    ∧ (¬ outside ↔ ∃ config, cellConfigOf r = some config)
    ∧ (∀ config, cellConfigOf r = some config →
        config.mode = (if r.mode = 0 then .off else if r.mode = 1 then .edgeIn else if r.mode = 2 then .levelIn
          else if r.mode = 3 then .windowOut else .pulseOut)
        ∧ config.polarity = (if r.mode ≠ 0 ∧ r.polarity = 1 then .activeLow else .activeHigh)
        ∧ config.edgeSelect = (if r.mode = 1 ∧ r.edgeSelect = 1 then .falling
            else if r.mode = 1 ∧ r.edgeSelect = 2 then .both else .rising)
        ∧ config.filter = (if r.mode = 1 then r.filter.toNat else 0)
        ∧ config.width = (if r.mode = 4 then r.width.toNat else 0)
        ∧ config.safeLevel = (if (r.mode = 3 ∨ r.mode = 4) ∧ r.safeLevel = 1 then .active else .inactive))

/-- A pin change on an edge input starts the filter interval, ends it when the pin is back at the level, and qualifies at
once with filter 0; at the filter's expiry the change qualifies. A qualified change becomes the level. One the edge
select takes also captures cycle stamp and angle, sets the event flag, sets the overrun flag if the event flag was set,
and sets the seen latch, and at a MARK station the absent first-edge angle, of every input station with an open window
bound to the cell in an evaluated slot (R16, R57, R59).
That the expiry command acts when its interval runs, whichever its count, is the model's choice (log 2). -/
def Obligations.EdgesQualify : Prop :=
  ∀ (i : Fin 16) (s : State), s.heldInReset = false → s.cells[i].config.mode = .edgeIn →
    let c := s.cells[i]
    let active (high : Bool) := c.config.polarity.logical high
    let qualified (high : Bool) : Cell :=
      let taken := match c.config.edgeSelect with
        | .rising => active high | .falling => !active high | .both => true
      { c with
        pinHigh := high, level := active high, filterTimer := none
        z := if taken then { stamp := s.angle.cycle.setWidth 16, angle := BitVec.ofNat 16 s.theta } else c.z
        event := if taken then true else c.event
        overrun := if taken then c.overrun || c.event else c.overrun }
    let seen (high : Bool) : Prop := match c.config.edgeSelect with
      | .rising => active high = true | .falling => active high = false | .both => True
    let handed (high : Bool) (t : State) : Prop := ∀ (k : Fin 4) (j : Fin 16),
      (seen high → s.evaluated k = true → (s.station k j).windowOpen = true →
        ∀ e, s.entry k j = some e → e.kind.isOutput = false → e.cell = i →
          t.station k j = { s.station k j with
            seen := true
            firstEdge := if e.kind = .mark then some ((s.station k j).firstEdge.getD (BitVec.ofNat 16 s.theta))
              else (s.station k j).firstEdge })
      ∧ (¬ seen high ∨ s.evaluated k = false ∨ (s.station k j).windowOpen = false
          ∨ (∀ e, s.entry k j = some e → e.kind.isOutput = true ∨ e.cell ≠ i) →
        t.station k j = s.station k j)
    (∀ high : Bool, c.pinHigh ≠ high →
      (active high ≠ c.level → c.config.filter ≠ 0 →
        exec (.pinChange i high) s
          = .next { s with cells := setAt s.cells i { c with pinHigh := high, filterTimer := some 0 } })
      ∧ (active high = c.level →
        exec (.pinChange i high) s
          = .next { s with cells := setAt s.cells i { c with pinHigh := high, filterTimer := none } })
      ∧ (active high ≠ c.level → c.config.filter = 0 →
        ∃ t, exec (.pinChange i high) s = .next t ∧ handed high t
          ∧ t = { s with cells := setAt s.cells i (qualified high), stations := t.stations }))
    ∧ (c.filterTimer.isSome = true →
        ∃ t, exec (.filterExpiry i) s = .next t ∧ handed c.pinHigh t
          ∧ t = { s with cells := setAt s.cells i (qualified c.pinHigh), stations := t.stations })

/-- A level input's level and Z follow the pin at each moment (R17); a pulse ends when its timer runs out (R19). Outside
ARMED every output cell shows its safe level and drives its pin to it, whatever the windows, the pulses and the prime
(R20, R152). In ARMED a WINDOW_OUT cell is active exactly while a fired window of an evaluated output station bound to it
is open with no reverse debt, and a PULSE_OUT cell while its pulse runs with no reverse debt; in PRIMING so are the cells
of the active slot's GUM stations and the purge cell (R18, R19, R45, R49, R94). An output cell's pin follows its level by
the polarity; the other cells drive no pin, and a cell that is OFF is inactive (R14, R17).
That PULSE END acts whichever its timer's count is the model's choice (log 2), and that the level reported outside ARMED
is the safe level is its reading (log 33). -/
def Obligations.LevelInputsPulseEndsAndSafeOutputs : Prop :=
  (∀ (i : Fin 16) (high : Bool) (s : State), s.cells[i].config.mode = .levelIn →
    ∃ t, exec (.levelInputChange i high) s = .next t
      ∧ t = { s with cells := setAt s.cells i { s.cells[i] with pinHigh := high } }
      ∧ t.cellLevel i = s.cells[i].config.polarity.logical high
      ∧ t.cellZ i = { stamp := 0, angle := if s.cells[i].config.polarity.logical high then 1 else 0 })
  ∧ (∀ (i : Fin 16) (s : State), s.heldInReset = false →
    exec (.pulseEnd i) s = .next { s with cells := setAt s.cells i { s.cells[i] with pulseTimer := none } })
  ∧ (∀ (i : Fin 16) (s : State), s.line.mode ≠ .armed →
    (s.cells[i].config.mode = .windowOut ∨ s.cells[i].config.mode = .pulseOut) →
    s.cellLevel i = decide (s.cells[i].config.safeLevel = .active)
    ∧ s.pinDrive i = some (s.cells[i].config.polarity.logical (decide (s.cells[i].config.safeLevel = .active))))
  ∧ (∀ (i : Fin 16) (s : State), s.line.mode = .armed →
    let fired : Prop := ∃ (k : Fin 4) (j : Fin 16) (e : Entry), s.evaluated k = true ∧ s.entry k j = some e
      ∧ e.kind.isOutput = true ∧ e.cell = i ∧ (s.station k j).windowOpen = true ∧ (s.station k j).fired = true
    let primed : Prop := s.gum.state = .priming
      ∧ ((∃ c, s.constants = some c ∧ c.purgeCell = some i)
        ∨ ∃ (k : Fin 4) (j : Fin 16) (e : Entry), s.active = some k ∧ s.entry k j = some e ∧ e.kind = .gum ∧ e.cell = i)
    (s.cells[i].config.mode = .windowOut → (s.cellLevel i = true ↔ (s.angle.debt = 0 ∧ fired) ∨ primed))
    ∧ (s.cells[i].config.mode = .pulseOut →
      (s.cellLevel i = true ↔ (s.angle.debt = 0 ∧ s.cells[i].pulseTimer.isSome = true) ∨ primed)))
  ∧ ∀ (i : Fin 16) (s : State),
    (s.cells[i].config.mode = .windowOut ∨ s.cells[i].config.mode = .pulseOut →
      s.pinDrive i = some (if s.cells[i].config.polarity = .activeHigh then s.cellLevel i else !s.cellLevel i))
    ∧ (s.cells[i].config.mode ≠ .windowOut → s.cells[i].config.mode ≠ .pulseOut → s.pinDrive i = none)
    ∧ (s.cells[i].config.mode = .off → s.cellLevel i = false)

/-! ### The angle unit -/

/-- A forward count pays off debt, or moves p on, or wraps p with a head advance: the cycle number counts, Tc takes the
cycle timer where there is a reference, and the ring's head steps back (R4, R5, R9, R10, R24). Before the constants are
written only the sampled levels change (R1). A count that
pays off debt crosses nothing: but for the angle unit and the gum circuit's answer to a machine that starts to turn,
nothing changes (R45, R89). A count without debt passes the
angles above the old θ up to the new one, and at the wrap those to the end of the cycle, then takes the head advance, then
angle 0 (R8, R44). The sampled levels move by one transition, the one in which QA leads QB under NORMAL and the reverse one
under INVERTED (R4). At a head advance every record moves one position toward the exit, the one at P−1 leaves with its notice,
position 0 is a gap, the trim age counts, and in every slot of the evaluated set the crossing marks clear and the cycle leads
follow the lead scale, while a slot that leaves the set loses its stations' state (R12, R24, R43, R44, R47, R83).
The order of the motion change and the count is the model's reading (log 22), and open where a fired GUM window stands during
a prime (log 5). The order of head advance and contribution (log 40), an angle 0 crossed first at a head advance (log 39) and
NORMAL before the constants (log 19) are the model's. -/
def Obligations.ForwardCountMovesAngle : Prop :=
  (∀ s : State, s.heldInReset = false → ∃ t, exec .forwardCount s = .next t ∧ SameSetup s t ∧
    match s.constants with
    | none => t = { s with angle := { s.angle with qa := !s.angle.qb, qb := s.angle.qa } }
    | some c =>
      let q := levelsAfter (decide (c.direction = .normal)) s.angle.qa s.angle.qb
      let a := { s.angle with qa := q.1, qb := q.2, haltTimer := 0, lastCount := some .forward }
      if 0 < s.angle.debt then t.angle = { a with debt := s.angle.debt - 1 } ∧ t.ring.head = s.ring.head
      else if s.angle.p + 1 < c.e then t.angle = { a with p := s.angle.p + 1 } ∧ t.ring.head = s.ring.head
      else
        t.angle = { a with
          p := 0, cycle := s.angle.cycle + 1
          tc := if s.angle.hasReference then s.angle.cycleTimer else s.angle.tc
          cycleTimer := 0, hasReference := true }
        ∧ t.ring.head = s.ring.head - 1)
  ∧ (∀ (c : Constants) (s : State), s.heldInReset = false → s.constants = some c → 0 < s.angle.debt →
    s.gum.state ≠ .priming → ∃ t, exec .forwardCount s = .next t
      ∧ t = { s with
          angle := t.angle
          gum := { s.gum with standbyTimer := if s.motion = .halted then 0 else s.gum.standbyTimer } })
  ∧ (∀ (c : Constants) (s : State), s.heldInReset = false → s.constants = some c → s.angle.debt = 0 →
      let q := levelsAfter (decide (c.direction = .normal)) s.angle.qa s.angle.qb
      let u : State := { s with
        angle := { s.angle with qa := q.1, qb := q.2, haltTimer := 0, lastCount := some .forward } }
      let moved (u : State) : State :=
        if s.angle.p + 1 < c.e then
          State.passAngles (s.theta + 1) ((s.angle.p + 1) * 65536 / c.e)
            { u with angle := { u.angle with p := s.angle.p + 1 } }
        else
          let h := (u.passAngles (s.theta + 1) 65535).headAdvance
          State.passAngles 0 0 { h with angle := { h.angle with p := 0 } }
      (s.motion ≠ .halted → exec .forwardCount s = .next (moved u))
      ∧ (s.motion = .halted → s.gum.state ≠ .priming →
        exec .forwardCount s = .next (moved { u with gum := { s.gum with standbyTimer := 0 } }))
      ∧ (s.motion = .halted → s.gum.state = .priming → s.firedGum = [] →
        exec .forwardCount s = .next (moved u.gumLeavesHalt))
      ∧ (s.motion = .halted → s.gum.state = .priming → s.firedGum ≠ [] →
        let v : State := { u with choice := s.choice + 1 }
        exec .forwardCount s = .next (moved v.gumLeavesHalt) ∨ exec .forwardCount s = .next (moved v).gumLeavesHalt))
  ∧ ∀ (c : Constants) (s : State), s.constants = some c → 4 ≤ c.p → c.p ≤ 64 →
    let t := s.headAdvance
    t.presentAt 0 = none ∧ (∀ k : Fin 64, k.val + 1 < c.p → t.presentAt (k + 1) = s.presentAt k)
    ∧ (∀ k : Fin 64, k.val + 1 = c.p →
        t.notices = s.notices.filter fun n => (s.presentAt k).all fun b => n.seq ≠ b.seq)
    ∧ t.registration = { s.registration with
        age := if 0 < s.registration.contributions then min 255 (s.registration.age + 1) else s.registration.age }
    ∧ LeftSetsCleared t
    ∧ ∀ (k : Fin 4) (i : Fin 16), (s.active = some k → t.evaluated k = true)
      ∧ (t.evaluated k = true → t.station k i = { s.station k i with
          onMark := false, offMark := false
          lead := match s.entry k i with
            | some e => if e.kind.isOutput = true ∧ t.motion = .running
                then min 16384 (e.leadUs * 65536 / t.angle.tc) else 0
            | none => 0 })

/-- A backward count moves p back, or adds to the debt at p = 0; a debt that would exceed E becomes 0 (R6). It passes no
angle (R45): but for a loss of track, nothing changes but the angle unit and the gum circuit's answer to a machine that
starts to turn, which sets the standby timer to 0 and aborts a prime (R89, R96). The sampled levels move by one transition,
the one in which QB leads QA under NORMAL and the other under INVERTED (R4); NORMAL before the constants is the model's choice
(log 19). -/
def Obligations.BackwardCountMovesAngle : Prop :=
  ∀ s : State, s.heldInReset = false → ∃ t, exec .backwardCount s = .next t ∧ SameSetup s t
    ∧ t.ring.head = s.ring.head ∧
    match s.constants with
    | none => t = { s with angle := { s.angle with qa := s.angle.qb, qb := !s.angle.qa } }
    | some c =>
      let q := levelsAfter (decide (c.direction = .inverted)) s.angle.qa s.angle.qb
      let a := { s.angle with qa := q.1, qb := q.2, haltTimer := 0, lastCount := some .backward }
      (if s.angle.debt = 0 ∧ 0 < s.angle.p then t.angle = { a with p := s.angle.p - 1 }
        else if s.angle.debt + 1 ≤ c.e then t.angle = { a with debt := s.angle.debt + 1 }
        else t.angle = { a with debt := 0 })
      ∧ ((s.angle.debt = 0 ∧ 0 < s.angle.p) ∨ s.angle.debt + 1 ≤ c.e →
        (s.motion ≠ .halted → t = { s with angle := t.angle })
        ∧ (s.motion = .halted → s.gum.state ≠ .priming →
            t = { s with angle := t.angle, gum := { s.gum with standbyTimer := 0 } })
        ∧ (s.motion = .halted → s.gum.state = .priming → s.firedGum = [] →
            t = { s with
              angle := t.angle, stations := t.stations
              gum := { state := .standby, standbyTimer := 0, primeTimer := none }
              line := { s.line with events := addBit s.line.events LineEvent.primeAborted.bit } }
            ∧ ∀ (k : Fin 4) (i : Fin 16), s.evaluated k = true → t.station k i = s.station k i))

/-- The backward count that would take the debt above E raises TRACK_LOST: every present record that is not final is
LOST with TRACK_LOST, an AWAITING verdict MISSING; final records and gaps stay; the cause enters the set and an ARMED line
is FAULTED (R6, R32, R33, R155). -/
def Obligations.LossOfTrackLosesRecords : Prop :=
  ∀ (c : Constants) (s : State), s.heldInReset = false → s.constants = some c → c.e < s.angle.debt + 1 →
    (s.angle.debt ≠ 0 ∨ s.angle.p = 0) →
    ∃ t, exec .backwardCount s = .next t
      ∧ hasBit t.line.causes Cause.trackLost.bit = true
      ∧ t.line.mode = (if s.line.mode = .armed then .faulted else s.line.mode)
      ∧ t.line.firstCause = (if s.line.causes = 0 then some .trackLost else s.line.firstCause)
      ∧ t.ring.nextSeq = s.ring.nextSeq
      ∧ ∀ k : Fin 64,
        (s.presentAt k = none → t.presentAt k = none)
        ∧ ∀ b, s.presentAt k = some b →
          (b.disposition.final = true → t.presentAt k = some b)
          ∧ (b.disposition.final = false → ∃ b', t.presentAt k = some b' ∧ b'.seq = b.seq ∧ b'.fmt = b.fmt
            ∧ b'.disposition = .lost ∧ b'.hasFault .trackLost = true
            ∧ b'.verdict = (if b.verdict = .awaiting then .missing else b.verdict))

/-- Index correction: an edge qualifies with the constants written, Z0 not NONE, no debt and the last count forward, and
is ignored otherwise. For the distance d congruent to Z0 − p modulo E in (−E/2, +E/2], p goes to Z0; across the wrap
forward with a head advance, across it backward to p = 0 with the rest as debt. A correction forward passes the angles
above the old θ up to the new one, by way of the head advance across the wrap; one backward passes none (R8, R44, R45).
Beyond 8 counts INDEX_SLIP is raised, before or after (log 7). The halt timer is not restarted (R7). -/
def Obligations.IndexCorrectionMovesAngle : Prop :=
  (∀ (c : Constants) (z0 : Nat) (d : Int) (s : State), s.heldInReset = false → s.constants = some c →
    c.z0 = some z0 → z0 < c.e → s.angle.p < c.e → s.angle.debt = 0 → s.angle.lastCount = some .forward →
    (c.e : Int) ∣ ((z0 : Int) - s.angle.p) - d → -(c.e : Int) < 2 * d → 2 * d ≤ c.e →
    ∃ t, exec .indexCorrection s = .next t ∧ SameSetup s t
      ∧ (8 < d.natAbs → hasBit t.line.causes Cause.indexSlip.bit = true ∧ t.line.mode ≠ .armed)
      ∧ (0 ≤ d → s.angle.p + d < c.e → t.angle = { s.angle with p := z0 } ∧ t.ring.head = s.ring.head)
      ∧ ((c.e : Int) ≤ s.angle.p + d →
          t.angle = { s.angle with
            p := z0, cycle := s.angle.cycle + 1
            tc := if s.angle.hasReference then s.angle.cycleTimer else s.angle.tc
            cycleTimer := 0, hasReference := true }
          ∧ t.ring.head = s.ring.head - 1)
      ∧ (d < 0 → 0 ≤ s.angle.p + d → t.angle = { s.angle with p := z0 } ∧ t.ring = { s.ring with entries := t.ring.entries })
      ∧ (s.angle.p + d < 0 →
          t.angle = { s.angle with p := 0, debt := c.e - z0 } ∧ t.ring = { s.ring with entries := t.ring.entries })
      ∧ (let moved (u : State) : State :=
          if d = 0 then u
          else if 0 < d then
            if s.angle.p + d < c.e then
              State.passAngles (s.theta + 1) (z0 * 65536 / c.e) { u with angle := { u.angle with p := z0 } }
            else
              let h := (u.passAngles (s.theta + 1) 65535).headAdvance
              State.passAngles 0 (z0 * 65536 / c.e) { h with angle := { h.angle with p := z0 } }
          else if 0 ≤ s.angle.p + d then { u with angle := { u.angle with p := z0 } }
          else { u with angle := { u.angle with p := 0, debt := c.e - z0 } }
        (d.natAbs ≤ 8 → t = moved s)
        ∧ (8 < d.natAbs → ∃ n, let u : State := { s with choice := n }
          t = moved (u.raiseCause .indexSlip) ∨ t = (moved u).raiseCause .indexSlip)))
  ∧ ∀ s : State, (s.constants = none ∨ (∀ c, s.constants = some c → c.z0 = none) ∨ s.angle.debt ≠ 0
      ∨ s.angle.lastCount ≠ some .forward) →
    exec .indexCorrection s = .next s

/-- A sample in which both lines have changed is no count: only the sampled levels move (R4). 250 ms without a count is
HALTED; a current-cycle timer past 2 s is not RUNNING (R11).
That the two commands bring their timers to the expiry whichever their counts is the model's choice (log 2). -/
def Obligations.MotionTimersAndDiscardedSamples : Prop :=
  ∀ s : State, s.heldInReset = false →
    exec .discardedSample s
      = .next { s with angle := { s.angle with qa := !s.angle.qa, qb := !s.angle.qb } }
    ∧ (∃ t, exec .haltTimerExpiry s = .next t ∧ t = { s with angle := { s.angle with haltTimer := 250000 } }
        ∧ t.motion = .halted)
    ∧ (∃ t, exec .crawlThreshold s = .next t
        ∧ t = { s with angle := { s.angle with cycleTimer := t.angle.cycleTimer } }
        ∧ 2000000 < t.angle.cycleTimer ∧ s.angle.cycleTimer ≤ t.angle.cycleTimer
        ∧ t.motion = (if s.motion = .running then .crawl else s.motion))

/-! ### Records, stations and the gate -/

/-- The fault addition rule (R30): a final record is unchanged; otherwise the fault enters the set, IN_LINE becomes
TO_REJECT, CLEARED becomes FLAGGED, and the other two stay. Two additions end the same in either order, and a record that
is IN_LINE or CLEARED keeps an empty fault set. -/
def Obligations.FaultAdditionTable : Prop :=
  ∀ (f : BlankFault) (b : Blank),
    ((b.disposition = .rejected ∨ b.disposition = .delivered ∨ b.disposition = .lost) → b.addFault f = b)
    ∧ (∀ d, b.disposition = d → d = .inLine ∨ d = .toReject ∨ d = .cleared ∨ d = .flagged →
        (b.addFault f).disposition = (if d = .inLine ∨ d = .toReject then .toReject else .flagged)
        ∧ (∀ g, (b.addFault f).hasFault g = (b.hasFault g || decide (g = f)))
        ∧ b.addFault f = { b with faults := (b.addFault f).faults, disposition := (b.addFault f).disposition })
    ∧ (∀ g, (b.addFault f).addFault g = (b.addFault g).addFault f)
    ∧ (Clean b → Clean (b.addFault f))

/-- A FEED evaluation of the active slot that saw the web, in ARMED or FAULTED, with position 0 a gap, creates the record of
R29 there and advances the sequence counter (R28, R58); otherwise it creates none. A changeover that is pending takes effect
at the creation: the record carries the pending slot, which becomes active, and CYM is told (R147, R150). The registration
unit enters OFF where the record's format has registration disabled, with the pending trim kept, and stays as it is where it
has it enabled (R68). -/
def Obligations.FeedCreatesRecord : Prop :=
  (∀ (k : Fin 4) (st : Station) (theta : Nat) (s : State), s.lineLength ≠ 0 → s.pendingSlot = none →
    (s.active = some k → st.seen = true → s.line.mode ≠ .offline → s.ring.at 0 = none →
      let t := s.feedEvaluation k st theta
      t.presentAt 0 = some
        { seq := s.ring.nextSeq, fmt := k, ops := 0, regErr := none, failCode := none, batch := none
          verdict := if s.slots[k].ofKind .inspect = [] then .noneDue else .awaiting
          faults := if s.line.mode = .armed then 0 else BitVec.twoPow 13 10
          disposition := if s.line.mode = .armed then .inLine else .toReject }
      ∧ t.ring.nextSeq = (if s.ring.nextSeq = BitVec.allOnes 32 then 1 else s.ring.nextSeq + 1)
      ∧ (∀ j : Fin 64, j ≠ 0 → t.ring.at j = s.ring.at j) ∧ t.fresh = false
      ∧ t.cym = { s.cym with hold := s.cym.hold || (s.fresh && decide (s.cym.mode = .format)) }
      ∧ t.registration = if s.slots[k].header.regOn = true then s.registration else { s.registration with
          state := .off, missCount := 0, total := 0, residue := 0, limit := false, lastSlot := none })
    ∧ (s.active ≠ some k ∨ st.seen = false ∨ s.line.mode = .offline ∨ s.ring.at 0 ≠ none →
      s.feedEvaluation k st theta = s))
  ∧ ∀ (k n : Fin 4) (st : Station) (theta : Nat) (s : State), s.lineLength ≠ 0 → s.pendingSlot = some n →
    (s.active = some k → st.seen = true → s.line.mode ≠ .offline → s.ring.at 0 = none →
      let t := s.feedEvaluation k st theta
      t.active = some n ∧ t.pendingSlot = none ∧ t.fresh = false
      ∧ t.cym = { s.cym with hold := s.cym.hold || decide (s.cym.mode = .format) }
      ∧ t.ring.nextSeq = (if s.ring.nextSeq = BitVec.allOnes 32 then 1 else s.ring.nextSeq + 1)
      ∧ t.presentAt 0 = some
        { seq := s.ring.nextSeq, fmt := n, ops := 0, regErr := none, failCode := none, batch := none
          verdict := if s.slots[n].ofKind .inspect = [] then .noneDue else .awaiting
          faults := if s.line.mode = .armed then 0 else BitVec.twoPow 13 10
          disposition := if s.line.mode = .armed then .inLine else .toReject }
      ∧ t.registration = if s.slots[n].header.regOn = true then s.registration else { s.registration with
          state := .off, missCount := 0, total := 0, residue := 0, limit := false, lastSlot := none })
    ∧ (s.active ≠ some k ∨ st.seen = false ∨ s.line.mode = .offline ∨ s.ring.at 0 ≠ none →
      s.feedEvaluation k st theta = s)

/-- The gate (R54, R65, R108, R109): at the on-crossing of an enabled REJECT station for a record of its own slot. In
ARMED a missing verdict is settled by the policy, a TO_REJECT record is REJECTED with the gate fired and a reject counted,
an IN_LINE record is CLEARED, a final one is unchanged, and its notice is withdrawn. In FAULTED the verdict is settled
alike, LINE_FAULT is added to an empty fault set, and a record that is not final is REJECTED and counted; a final one and
its counts stay, and the gate does not fire. -/
def Obligations.GateDecidesInArmed : Prop :=
  ∀ (k : Fin 4) (i : Fin 16) (e : Entry) (theta : Nat) (b : Blank) (s : State),
    e.kind = .reject → e.enabled = true → (s.station k i).windowOpen = false →
    s.presentAt e.position = some b → b.fmt = k → s.positionOf b.seq = some e.position →
    let t := s.onCrossing k i e theta
    let late := b.verdict = .awaiting ∧ s.slots[k].header.policy = .reject
    let counted (rejected : Prop) [Decidable rejected] := s.batch.openBatch.map fun o =>
      if rejected then { o with fields := { o.fields with rejects := increase .rejects o.fields.rejects } } else o
    (s.line.mode = .armed →
      (∀ n ∈ t.notices, n.seq ≠ b.seq)
      ∧ (t.station k i).windowOpen = true
      ∧ (b.disposition.final = true → t.presentAt e.position = some b ∧ (t.station k i).fired = false)
      ∧ (b.disposition.final = false → ∃ b', t.presentAt e.position = some b'
          ∧ b'.seq = b.seq ∧ b'.ops = b.ops
          ∧ b'.verdict = (if b.verdict = .awaiting then .missing else b.verdict)
          ∧ (∀ f, b'.hasFault f = (b.hasFault f || (decide late && decide (f = .verdictLate))))
          ∧ b'.disposition =
              (if b.disposition = .toReject ∨ (b.disposition = .inLine ∧ late) then .rejected
               else if b.disposition = .inLine then .cleared
               else if b.disposition = .cleared ∧ ¬ late then .cleared else .flagged)
          ∧ (t.station k i).fired = decide (b'.disposition = .rejected)
          ∧ t.batch.openBatch = counted (b'.disposition = .rejected)))
    ∧ (s.line.mode = .faulted →
      (t.station k i).windowOpen = true ∧ (t.station k i).fired = false ∧ t.cells = s.cells
      ∧ (b.disposition.final = true → t.ring = s.ring ∧ t.notices = s.notices ∧ t.batch = s.batch)
      ∧ (b.disposition.final = false → (∀ n ∈ t.notices, n.seq ≠ b.seq)
          ∧ t.batch.openBatch = counted True
          ∧ ∃ b', t.presentAt e.position = some b'
            ∧ b' = { b with
                disposition := .rejected, faults := b'.faults
                verdict := if b.verdict = .awaiting then .missing else b.verdict }
            ∧ ∀ f, b'.hasFault f = (b.hasFault f || (decide late && decide (f = .verdictLate))
                || (decide (b.faults = 0 ∧ ¬ late) && decide (f = .lineFault)))))

/-! ### The batch counter -/

/-- A seen IN_LINE or CLEARED record of the open batch's format is delivered into it (R121): the record is DELIVERED with
the batch number and COUNT, count and last seq follow, the count miss run is 0, and the full-size test follows, which in
OPEN closes FULL at held B or holds the batch with the log full, and in HELD acts once the log has room (R126, R127). A FULL
or OVERSIZE closure closes the box at held per-box (R127, R128). A record of another format meets the boundary first: count
0 takes its format, and the box closes if it holds batches; otherwise the batch closes with its box, or with the log full is
HELD and MIXED, and the record is delivered into it (R125). -/
def Obligations.DeliveryFillsBatch : Prop :=
  (∀ (b : Blank) (o : OpenBatch) (k : Fin 64) (s : State),
    s.line.mode ≠ .offline → s.batch.openBatch = some o → o.fields.fmt = b.fmt →
    (b.disposition = .inLine ∨ b.disposition = .cleared) → s.presentAt k = some b → s.positionOf b.seq = some k →
    o.fields.count ≠ BitVec.allOnes 32 →
    let t := s.countVerification (some b) true
    let filled : BatchFields := { o.fields with
      count := o.fields.count + 1, lastSeq := some b.seq
      firstSeq := if o.fields.count = 0 then some b.seq else o.fields.firstSeq }
    let u : State := { s with
      batch := { s.batch with openBatch := some { o with fields := filled }, missRun := 0 } }
    t.presentAt k = some { b with
      disposition := .delivered, batch := some o.fields.number, ops := addBit b.ops Op.count.bit }
    ∧ (∀ j : Fin 64, j ≠ k → t.presentAt j = s.presentAt j)
    ∧ t.batch.missRun = 0
    ∧ t = { u.fullSizeTest with ring := { s.ring with entries := t.ring.entries } }
    ∧ (o.state = .open → o.fields.count.toNat + 1 < o.fields.heldSize →
        t.batch.openBatch = some { fields := filled, state := .open } ∧ t.batch.log = s.batch.log
        ∧ t.batch.kick = s.batch.kick ∧ t.line = s.line)
    ∧ (o.state = .open → o.fields.count.toNat + 1 = o.fields.heldSize → s.batch.log.length < 32 →
        t.batch.log = s.batch.log ++ [{ fields := filled, cause := .full }] ∧ t.batch.kick = true
        ∧ (s.batch.log.length = 23 → hasBit t.line.events LineEvent.logHigh.bit = true)
        ∧ ∃ next, t.batch.openBatch = some next ∧ next.state = .open ∧ next.fields.count = 0
          ∧ next.fields.number = s.batch.nextNumber ∧ next.fields.fmt = b.fmt
          ∧ next.fields.heldSize = s.slots[b.fmt].header.batchSize)
    ∧ (o.state = .open → o.fields.count.toNat + 1 = o.fields.heldSize → 32 ≤ s.batch.log.length →
        t.batch.openBatch = some { fields := filled, state := .held } ∧ t.batch.log = s.batch.log))
  ∧ (∀ (o : OpenBatch) (s : State), s.batch.openBatch = some o →
    let n := o.fields.count.toNat
    let room := s.batch.log.length < 32
    let becomes (state : BatchState) : State :=
      { s with batch := { s.batch with openBatch := some { o with state := state } } }
    let boxFull := o.fields.heldPerBox ≤ (increase .inBox s.batch.inBox).toNat
    (o.state = .open → n < o.fields.heldSize → s.fullSizeTest = s)
    ∧ (o.state = .open → n = o.fields.heldSize → ¬ room → s.fullSizeTest = becomes .held)
    ∧ (o.state = .held → ¬ room → s.fullSizeTest = s)
    ∧ (o.state = .held → room → n < o.fields.heldSize → s.fullSizeTest = becomes .open)
    ∧ (room → n = o.fields.heldSize → ClosedAs s s.fullSizeTest o .full o.fields.fmt boxFull)
    ∧ (o.state = .held → room → o.fields.heldSize < n →
        ClosedAs s s.fullSizeTest o .oversize o.fields.fmt boxFull))
  ∧ (∀ (o : OpenBatch) (fmt : Fin 4) (s : State), s.batch.openBatch = some o → o.fields.fmt ≠ fmt →
    let t := s.formatBoundary fmt
    let n := o.fields.count.toNat
    let room := s.batch.log.length < 32
    let taken (number index : Word) : OpenBatch := { o with fields := { o.fields with
      fmt := fmt, heldSize := s.slots[fmt].header.batchSize, heldPerBox := s.slots[fmt].header.perBox
      boxNumber := number, indexInBox := index } }
    (o.state = .open → n = 0 → s.batch.inBox = 0 →
      t = { s with batch := { s.batch with
        openBatch := some (taken o.fields.boxNumber o.fields.indexInBox) } })
    ∧ (o.state = .open → n = 0 → s.batch.inBox ≠ 0 →
      t = { s with
        line := { s.line with events := addBit s.line.events LineEvent.boxClosed.bit }
        batch := { s.batch with
          box := true, boxNumber := successor s.batch.boxNumber, inBox := 0
          openBatch := some (taken (successor s.batch.boxNumber) 1) } })
    ∧ (o.state = .open → n ≠ 0 → room → ClosedAs s t o .changeover fmt True)
    ∧ (o.state = .held → room →
      ClosedAs s t o (if n < o.fields.heldSize then .changeover else if n = o.fields.heldSize then .full else .oversize)
        fmt True)
    ∧ (o.state = .held ∨ n ≠ 0 → ¬ room →
      t = { s with batch := { s.batch with
        openBatch := some { state := .held, fields := { o.fields with mixed := true } } } }))
  ∧ ∀ (b : Blank) (o : OpenBatch) (s : State), s.line.mode ≠ .offline → s.batch.openBatch = some o →
    (b.disposition = .inLine ∨ b.disposition = .cleared) → s.record b.seq = some b →
    s.countVerification (some b) true = (s.formatBoundary b.fmt).countVerification (some b) true
    ∧ ∀ k : Fin 64, o.fields.fmt ≠ b.fmt → o.state = .held ∨ o.fields.count ≠ 0 → 32 ≤ s.batch.log.length →
      s.presentAt k = some b → s.positionOf b.seq = some k → o.fields.count ≠ BitVec.allOnes 32 →
      s.countVerification (some b) true = { s with
        ring := { s.ring with
          entries := setAt s.ring.entries (s.ring.head + k)
            (some { b with
              disposition := .delivered, batch := some o.fields.number, ops := addBit b.ops Op.count.bit }) }
        batch := { s.batch with
          missRun := 0
          openBatch := some
            { state := .held
              fields := { o.fields with
                mixed := true, count := o.fields.count + 1, lastSeq := some b.seq
                firstSeq := if o.fields.count = 0 then some b.seq else o.fields.firstSeq } } } }

/-- An unseen IN_LINE or CLEARED record is LOST with COUNT_MISSING, its notice withdrawn and the open batch SUSPECT with
its count unchanged; the second in a row raises JAM_COUNT and sets the run to 0 (R32, R122). A seen TO_REJECT or FLAGGED
record is a passed defect: FLAGGED with COUNT, counted, the batch SUSPECT and the run 0. A seen gap, REJECTED or LOST record
is unexpected: counted, the batch SUSPECT, nothing else changed (R123). The other cases of R120's table, and every hand-over
in OFFLINE, change nothing.
That a seen DELIVERED record, which is in no row of the table, changes nothing is the model's choice (log 28). -/
def Obligations.LostBlankMakesBatchSuspect : Prop :=
  (∀ (b : Blank) (o : OpenBatch) (k : Fin 64) (s : State),
    s.line.mode ≠ .offline → s.batch.openBatch = some o → s.batch.missRun ≤ 1 →
    (b.disposition = .inLine ∨ b.disposition = .cleared) → s.presentAt k = some b → s.positionOf b.seq = some k →
    let t := s.countVerification (some b) false
    t.presentAt k = some { b with
      disposition := .lost, faults := addBit b.faults BlankFault.countMissing.bit
      verdict := if b.verdict = .awaiting then .missing else b.verdict }
    ∧ (∀ n ∈ t.notices, n.seq ≠ b.seq)
    ∧ t.batch.openBatch = some { o with fields := { o.fields with suspect := true } }
    ∧ (s.batch.missRun = 0 → t.batch.missRun = 1 ∧ t.line = s.line)
    ∧ (s.batch.missRun = 1 → t.batch.missRun = 0 ∧ hasBit t.line.causes Cause.jamCount.bit = true
        ∧ t.line.mode = .faulted))
  ∧ (∀ (b : Blank) (o : OpenBatch) (k : Fin 64) (s : State),
    s.line.mode ≠ .offline → s.batch.openBatch = some o → s.presentAt k = some b → s.positionOf b.seq = some k →
    let unexpected : State := { s with batch := { s.batch with
      openBatch := some { o with fields := { o.fields with
        unexpected := increase .unexpected o.fields.unexpected, suspect := true } } } }
    (b.disposition = .toReject ∨ b.disposition = .flagged →
      s.countVerification (some b) false = s
      ∧ s.countVerification (some b) true = { s with
          ring := { s.ring with
            entries := setAt s.ring.entries (s.ring.head + k)
              (some { b with disposition := .flagged, ops := addBit b.ops Op.count.bit }) }
          batch := { s.batch with
            missRun := 0
            openBatch := some { o with fields := { o.fields with
              passedDefects := increase .passedDefects o.fields.passedDefects, suspect := true } } } })
    ∧ (b.disposition = .rejected ∨ b.disposition = .lost →
      s.countVerification (some b) false = s ∧ s.countVerification (some b) true = unexpected)
    ∧ (b.disposition = .delivered → ∀ seen, s.countVerification (some b) seen = s)
    ∧ s.countVerification none true = unexpected ∧ s.countVerification none false = s)
  ∧ ∀ (handed : Option Blank) (seen : Bool) (s : State), s.line.mode = .offline →
    s.countVerification handed seen = s

/-- TAKE BATCH answers OK with the oldest record of the log and removes it, PEEK BATCH leaves it; both answer EMPTY on an
empty log (R131). The record has 42 bytes, every field at its offset, an absent first or last seq as 0 (section 10.5). -/
def Obligations.TakeAndPeekBatch : Prop :=
  ∀ s : State, Takes s .line →
    (s.batch.log = [] →
      exec .takeBatch s = .next (s.respond .line { status := .empty, payload := [] })
      ∧ exec .peekBatch s = .next (s.respond .line { status := .empty, payload := [] }))
    ∧ ∀ (r : BatchRecord) (rest : List BatchRecord), s.batch.log = r :: rest →
      let l := r.layout
      let f := r.fields
      l.length = 42 ∧ l.take 4 = littleEndian f.number 4 ∧ l[4]? = some (BitVec.ofNat 8 f.fmt.val)
      ∧ l[5]? = some r.cause.value ∧ CodedFrom0 CloseCause.value [.full, .oversize, .short, .changeover]
      ∧ (∀ x ∈ l[6]?, x.toNat < 4 ∧ x.getLsbD 0 = f.suspect ∧ x.getLsbD 1 = f.mixed)
      ∧ (l.drop 7).take 4 = littleEndian f.count 4
      ∧ (l.drop 11).take 4 = littleEndian (f.firstSeq.getD 0) 4 ∧ (l.drop 15).take 4 = littleEndian (f.lastSeq.getD 0) 4
      ∧ (l.drop 19).take 4 = littleEndian f.rejects 4 ∧ (l.drop 23).take 4 = littleEndian f.passedDefects 4
      ∧ (l.drop 27).take 4 = littleEndian f.unexpected 4 ∧ (l.drop 31).take 4 = littleEndian f.indexInBox 4
      ∧ (l.drop 35).take 4 = littleEndian f.boxNumber 4
      ∧ (l.drop 39).take 2 = littleEndian (BitVec.ofNat 16 f.heldSize) 2
      ∧ l[41]? = some (BitVec.ofNat 8 f.heldPerBox)
      ∧ exec .takeBatch s
        = .next (State.respond { s with batch := { s.batch with log := rest } } .line
            { status := .ok, payload := r.layout })
      ∧ exec .peekBatch s = .next (s.respond .line { status := .ok, payload := r.layout })

/-- CLOSE BATCH: EMPTY without an open batch or with count 0, LOG_FULL with 32 records in the log, and otherwise OK with
the batch closed, SHORT below held B, FULL at it, OVERSIZE above it: the record appended, the kick latched, the next batch
opened with the next number and the closed batch's format (R127, R130). A SHORT closure leaves the box. -/
def Obligations.CloseBatchCloses : Prop :=
  ∀ s : State, Takes s .line →
    ((s.batch.openBatch = none ∨ ∃ o, s.batch.openBatch = some o ∧ o.fields.count = 0) →
      exec .closeBatch s = .next (s.respond .line { status := .empty, payload := [] }))
    ∧ ∀ o, s.batch.openBatch = some o → o.fields.count ≠ 0 →
      (32 ≤ s.batch.log.length →
        exec .closeBatch s = .next (s.respond .line { status := .logFull, payload := [] }))
      ∧ (s.batch.log.length < 32 →
        let cause : CloseCause :=
          if o.fields.count.toNat < o.fields.heldSize then .short
          else if o.fields.count.toNat = o.fields.heldSize then .full else .oversize
        ∃ t next, exec .closeBatch s = .next t
          ∧ t = { s with batch := t.batch, line := { s.line with events := t.line.events }, ports := t.ports }
          ∧ (t.ports.get .line).response = { status := .ok, payload := [] }
          ∧ t.ports = s.ports.set .line (t.ports.get .line)
          ∧ t.batch.log = s.batch.log ++ [{ fields := o.fields, cause := cause }]
          ∧ t.batch.kick = true ∧ t.batch.openBatch = some next ∧ next.state = .open
          ∧ next.fields.number = s.batch.nextNumber ∧ next.fields.count = 0 ∧ next.fields.fmt = o.fields.fmt
          ∧ t.batch.nextNumber = successor s.batch.nextNumber
          ∧ (cause = .short → t.batch.boxNumber = s.batch.boxNumber ∧ t.batch.box = s.batch.box
              ∧ t.batch.inBox = increase .inBox s.batch.inBox))

/-! ### Registration -/

/-- NUDGE (R80): RANGE outside −8,192 to 8,192 whatever the state, REG_OFF in state OFF, and otherwise stages 6 to 9 on v
under the held limits (R76 to R79): the clamps, the limit flag and REG_LIMIT, the conversion with the residue, the
saturating fold into Q and the contribution count. Nothing else changes. -/
def Obligations.NudgeRunsThePipeline : Prop :=
  ∀ (v : Half) (s : State), Takes s .line →
    ((v.toInt < -8192 ∨ 8192 < v.toInt) →
      exec (.nudge v) s = .next (s.respond .line { status := .range, payload := [] }))
    ∧ (-8192 ≤ v.toInt → v.toInt ≤ 8192 → s.registration.state = .off →
      exec (.nudge v) s = .next (s.respond .line { status := .regOff, payload := [] }))
    ∧ (-8192 ≤ v.toInt → v.toInt ≤ 8192 → s.registration.state ≠ .off → ∀ c, s.constants = some c →
      let r := s.registration
      let c1 : Int := max (-(r.heldCmax : Int)) (min (r.heldCmax : Int) v.toInt)
      let total : Int := max (-(r.heldAmax : Int)) (min (r.heldAmax : Int) (r.total + c1))
      let cut := total - r.total ≠ c1
      let num : Int := (total - r.total) * c.e + r.residue
      let k : Int := num.tdiv 65536
      exec (.nudge v) s
        = .next (State.respond { s with
            registration := { r with
              total := total
              residue := num - k * 65536
              trim := max (-32767) (min 32767 (r.trim + k))
              overrun := r.overrun || decide (r.trim + k < -32767 ∨ 32767 < r.trim + k)
              contributions := min 255 (r.contributions + 1)
              limit := if cut then true
                else if -(r.heldAmax : Int) < total ∧ total < r.heldAmax then false else r.limit }
            line := { s.line with
              events := if cut then addBit s.line.events LineEvent.regLimit.bit else s.line.events } }
            .line { status := .ok, payload := [] }))

/-- The error is θm − T reduced into −32,768 to 32,767 (R73). Beyond the deadband the correction is e × G / 256 to the
nearest integer, a half rounded away from zero; within it the correction is 0 (R75). -/
def Obligations.ErrorAndCorrectionAreExact : Prop :=
  (∀ target angle : Nat, target < 65536 → angle < 65536 →
    -32768 ≤ registrationError target angle ∧ registrationError target angle ≤ 32767
    ∧ (65536 : Int) ∣ ((angle : Int) - target) - registrationError target angle)
  ∧ ∀ (h : Header) (e : Int),
    (e.natAbs ≤ h.deadband → correctionOf h e = 0)
    ∧ (h.deadband < e.natAbs →
        2 * (256 * correctionOf h e - e * h.gain).natAbs ≤ 256
        ∧ (2 * (256 * correctionOf h e - e * h.gain).natAbs = 256 →
            (e * h.gain).natAbs ≤ (256 * correctionOf h e).natAbs))

/-- A record handed to the registration unit. A record of another slot than the last-computed one restarts the unit first,
and the held limits are the slot's (R70). Without a mark the miss count rises to at most 255, the state is LOST above the
miss limit or at a held 255 and COASTING otherwise, NO_MARK is added, REG_LOST is set on entry into LOST, and A, ρ, Q and n
stay (R71). With a mark the miss count is 0 and the state TRACKING (R72), reg_err is the error (R73), REG_OUT is added beyond
the reject tolerance (R74), and the correction runs through stages 6 to 9 (R76 to R79). No other record changes. -/
def Obligations.MarkEvaluationsMeasureOrMiss : Prop :=
  ∀ (b : Blank) (k : Fin 4) (p : Fin 64) (s : State), s.presentAt p = some b → s.positionOf b.seq = some p →
    let h := s.slots[k].header
    let r : Registration :=
      { (if s.registration.lastSlot = some k then s.registration
         else { s.registration with
           state := .tracking, missCount := 0, total := 0, residue := 0, limit := false, lastSlot := some k }) with
        heldCmax := h.cmax, heldAmax := h.amax }
    (∀ first : Option Half,
      let t := s.markEvaluation b.seq k false first
      let lost := h.missLimit < min 255 (r.missCount + 1) ∨ r.missCount = 255
      t.registration = { r with
        missCount := min 255 (r.missCount + 1), state := if lost then .lost else .coasting }
      ∧ t.presentAt p = some (b.addFault .noMark)
      ∧ (∀ j : Fin 64, j ≠ p → t.presentAt j = s.presentAt j)
      ∧ t.line = { s.line with
          events := if lost ∧ r.state ≠ .lost then addBit s.line.events LineEvent.regLost.bit else s.line.events })
    ∧ ∀ (angle : Half) (c : Constants), s.constants = some c →
      let t := s.markEvaluation b.seq k true (some angle)
      let e := registrationError h.target angle.toNat
      let correction := correctionOf h e
      let c1 : Int := max (-(h.cmax : Int)) (min (h.cmax : Int) correction)
      let total : Int := max (-(h.amax : Int)) (min (h.amax : Int) (r.total + c1))
      let cut := total - r.total ≠ c1
      let num : Int := (total - r.total) * c.e + r.residue
      let n : Int := num.tdiv 65536
      t.registration = { r with
        missCount := 0, state := .tracking, total := total, residue := num - n * 65536
        trim := max (-32767) (min 32767 (r.trim + n))
        overrun := r.overrun || decide (r.trim + n < -32767 ∨ 32767 < r.trim + n)
        contributions := min 255 (r.contributions + 1)
        limit := if cut then true
          else if -(h.amax : Int) < total ∧ total < h.amax then false else r.limit }
      ∧ t.presentAt p = some (if h.rejectTolerance < e.natAbs then ({ b with regErr := some e } : Blank).addFault .regOut
          else { b with regErr := some e })
      ∧ (∀ j : Fin 64, j ≠ p → t.presentAt j = s.presentAt j)
      ∧ t.line = { s.line with
          events := if cut then addBit s.line.events LineEvent.regLimit.bit else s.line.events }

/-- TAKE TRIM (R82): with n above 0 or the overrun flag set, OK with Q, n, the trim age and the overrun flag, which are
then emptied; otherwise EMPTY with zeros and no change. The rest of the registration unit stays. Every step keeps Q at 0
whenever n is 0. -/
def Obligations.TakeTrimEmptiesTrim : Prop :=
  (∀ s : State, Takes s .drive →
    let r := s.registration
    ((0 < r.contributions ∨ r.overrun = true) →
      exec .takeTrim s
        = .next (State.respond { s with
            registration := { r with trim := 0, contributions := 0, age := 0, overrun := false } }
            .drive
            { status := .ok
              payload := littleEndian (BitVec.ofInt 16 r.trim) 2
                ++ [BitVec.ofNat 8 r.contributions, BitVec.ofNat 8 r.age, if r.overrun then 1 else 0] }))
    ∧ (r.contributions = 0 → r.overrun = false →
      exec .takeTrim s = .next (s.respond .drive { status := .empty, payload := [0, 0, 0, 0, 0] })))
  ∧ ∀ s t : State, (s.registration.contributions = 0 → s.registration.trim = 0) → step s = .next t →
    t.registration.contributions = 0 → t.registration.trim = 0

/-! ### The gum circuit -/

/-- PRIME GUM (R93): WRONG_MODE outside ARMED, NO_FORMAT in gum state OFF, NOT_HALTED while the machine turns, and
otherwise OK with the prime time of the active slot loaded. A prime that runs out leaves READY with PRIME_DONE set and the
standby timer at 0 (R95). A count on the halted machine ends a prime: PRIME_ABORTED is set, and the gum state is STANDBY, or
OFF where a changeover of the same step makes it so (R96, R97).
That PRIME COMPLETE acts whichever its timer's count is the model's choice (log 2). -/
def Obligations.PrimeStartsAndCompletes : Prop :=
  (∀ s : State, Takes s .line →
    (s.line.mode ≠ .armed → exec .primeGum s = .next (s.respond .line { status := .wrongMode, payload := [] }))
    ∧ (s.line.mode = .armed → s.gum.state = .off →
      exec .primeGum s = .next (s.respond .line { status := .noFormat, payload := [] }))
    ∧ (s.line.mode = .armed → s.gum.state ≠ .off → s.motion ≠ .halted →
      exec .primeGum s = .next (s.respond .line { status := .notHalted, payload := [] }))
    ∧ (s.line.mode = .armed → s.gum.state ≠ .off → s.motion = .halted → ∀ k, s.active = some k →
      exec .primeGum s
        = .next (State.respond { s with
            gum := { state := .priming, standbyTimer := 0
                     primeTimer := some (s.slots[k].header.primeTime * 100000) } }
            .line { status := .ok, payload := [] })))
  ∧ (∀ s : State, s.heldInReset = false → s.gum.state = .priming →
    exec .primeComplete s
      = .next { s with
          gum := { state := .ready, standbyTimer := 0, primeTimer := none }
          line := { s.line with events := addBit s.line.events LineEvent.primeDone.bit } })
  ∧ ∀ s : State, s.heldInReset = false → s.constants ≠ none → s.motion = .halted → s.gum.state = .priming →
    ∀ i ∈ [Instr.forwardCount, .backwardCount], ∃ t, exec i s = .next t
      ∧ (t.gum.state = .standby ∨ t.gum.state = .off) ∧ t.gum.standbyTimer = 0 ∧ t.gum.primeTimer = none
      ∧ hasBit t.line.events LineEvent.primeAborted.bit = true

/-- A standby expiry (R91, R92): STANDBY with the timer at 0 and GUM_STANDBY set; every present record with GUM and
without FOLD gets GUM_SET by the fault addition rule. Every fired GUM window open is closed without its operation, and the
present record it has latched gets GUM_SKIPPED and GUM_SET. No other record and no other open window changes.
That the command acts whichever the timer's count is the model's choice (log 2). -/
def Obligations.StandbyExpirySpoilsGum : Prop :=
  ∀ s : State, s.heldInReset = false → s.gum.state = .ready → s.motion = .halted → SeqsDistinct s →
    ∃ t, exec .standbyExpiry s = .next t
      ∧ t.gum = { state := .standby, standbyTimer := 0, primeTimer := none }
      ∧ t.line = { s.line with events := addBit s.line.events LineEvent.gumStandby.bit }
      ∧ t.notices = s.notices ∧ t.batch = s.batch ∧ t.registration = s.registration ∧ SameSetup s t
      ∧ t.ring = { s.ring with entries := t.ring.entries }
      ∧ (∀ k : Fin 64, s.presentAt k = none → t.presentAt k = none)
      ∧ (∀ (k : Fin 64) (b : Blank), s.presentAt k = some b →
          let spoiled := if b.hasOp .gum = true ∧ b.hasOp .fold = false then b.addFault .gumSet else b
          (¬ GumLatched s b.seq → t.presentAt k = some spoiled)
          ∧ (GumLatched s b.seq → t.presentAt k = some ((b.addFault .gumSkipped).addFault .gumSet)))
      ∧ ∀ (k : Fin 4) (i : Fin 16) (e : Entry), s.entry k i = some e →
          (e.kind = .gum → (s.station k i).windowOpen = true → (s.station k i).fired = true →
            (t.station k i).windowOpen = false ∧ (t.station k i).latch = .empty ∧ (t.station k i).fired = false)
          ∧ (e.kind ≠ .gum ∨ (s.station k i).fired = false → (s.station k i).windowOpen = true →
            t.station k i = s.station k i)

/-! ### Notices, verdicts, marks -/

/-- TAKE NOTICE answers OK with the oldest notice and removes it, or EMPTY on an empty queue; no record changes (R102). -/
def Obligations.TakeNoticeRemovesOldest : Prop :=
  ∀ s : State, Takes s .inspection →
    (s.notices = [] → exec .takeNotice s = .next (s.respond .inspection { status := .empty, payload := [] }))
    ∧ ∀ (n : Notice) (rest : List Notice), s.notices = n :: rest →
      exec .takeNotice s
        = .next (State.respond { s with notices := rest } .inspection
            { status := .ok
              payload := littleEndian n.seq 4 ++ [BitVec.ofNat 8 n.fmt.val] ++ littleEndian n.stamp 2 })

/-- ATN_I is asserted exactly while the notice queue holds a notice (R104), ATN_D while n is above 0 or the overrun flag is
set (R84), ATN_L while an event, a cause or a batch record stands, and STOPRQ while FAULTED or with 28 records or more
(R160). CYM is high exactly while its mode is not OFF and its pulse runs or its hold stands (R149, R150). All are low while
the part is held in reset (R167). -/
def Obligations.AttentionLinesFollowTheirOwners : Prop :=
  ∀ s : State,
    (s.heldInReset = true → s.atnInspection = false ∧ s.atnDrive = false ∧ s.atnLine = false
      ∧ s.stopRequest = false ∧ s.cymHigh = false)
    ∧ (s.heldInReset = false →
      (s.atnInspection = true ↔ s.notices ≠ [])
      ∧ (s.atnDrive = true ↔ 0 < s.registration.contributions ∨ s.registration.overrun = true)
      ∧ (s.atnLine = true ↔ (∃ e : LineEvent, hasBit s.line.events e.bit = true)
          ∨ (∃ c : Cause, hasBit s.line.causes c.bit = true) ∨ s.batch.log ≠ [])
      ∧ (s.stopRequest = true ↔ s.line.mode = .faulted ∨ 28 ≤ s.batch.log.length)
      ∧ (s.cymHigh = true ↔ s.cym.mode ≠ .off ∧ (s.cym.pulse.isSome = true ∨ s.cym.hold = true)))

/-- VERDICT (R105 to R107): RANGE for an outcome that is neither PASS nor FAIL or a FAIL with code 0; NOT_TRACKED without a
present record of that number; for a record AWAITING and not final OK, the verdict recorded, a FAIL with its code and
VERDICT_FAIL, the notice withdrawn; TOO_LATE, DUPLICATE and NOT_AWAITING by R106's table without effect.
The order of the tests is the model's reading (log 13). -/
def Obligations.VerdictsAreAnsweredByTheTable : Prop :=
  ∀ (seq : Word) (outcome code : Byte) (s : State), Takes s .inspection →
    ((outcome ≠ 1 ∧ outcome ≠ 2) ∨ (outcome = 2 ∧ code = 0) →
      exec (.verdict seq outcome code) s = .next (s.respond .inspection { status := .range, payload := [] }))
    ∧ ((outcome = 1 ∨ (outcome = 2 ∧ code ≠ 0)) →
      ((∀ (k : Fin 64) (b : Blank), s.presentAt k = some b → b.seq ≠ seq) →
        exec (.verdict seq outcome code) s
          = .next (s.respond .inspection { status := .notTracked, payload := [] }))
      ∧ ∀ (k : Fin 64) (b : Blank), s.positionOf seq = some k → s.presentAt k = some b →
        (b.verdict = .awaiting → b.disposition.final = false →
          ∃ b', (outcome = 1 → b' = { b with verdict := .pass })
            ∧ (outcome = 2 → b' = { b with
                verdict := .fail, failCode := some code
                faults := addBit b.faults BlankFault.verdictFail.bit
                disposition := if b.disposition = .inLine ∨ b.disposition = .toReject then .toReject
                  else .flagged })
            ∧ exec (.verdict seq outcome code) s
              = .next (State.respond { s with
                  ring := { s.ring with entries := setAt s.ring.entries (s.ring.head + k) (some b') }
                  notices := s.notices.filter fun n => n.seq ≠ seq }
                  .inspection { status := .ok, payload := [] }))
        ∧ (b.verdict = .missing ∨ (b.verdict = .awaiting ∧ b.disposition.final = true) →
          exec (.verdict seq outcome code) s = .next (s.respond .inspection { status := .tooLate, payload := [] }))
        ∧ (b.verdict = .pass ∨ b.verdict = .fail →
          exec (.verdict seq outcome code) s
            = .next (s.respond .inspection { status := .duplicate, payload := [] }))
        ∧ (b.verdict = .skipped ∨ b.verdict = .noneDue →
          exec (.verdict seq outcome code) s
            = .next (s.respond .inspection { status := .notAwaiting, payload := [] })))

/-- MARK REJECT (R113): NOT_TRACKED without a present record of that number, TOO_LATE for a final one, and otherwise OK
with OPERATOR added under the fault addition rule and nothing else changed. -/
def Obligations.MarkRejectAddsOperator : Prop :=
  ∀ (seq : Word) (s : State), Takes s .line →
    ((∀ (k : Fin 64) (b : Blank), s.presentAt k = some b → b.seq ≠ seq) →
      exec (.markReject seq) s = .next (s.respond .line { status := .notTracked, payload := [] }))
    ∧ ∀ (k : Fin 64) (b : Blank), s.positionOf seq = some k → s.presentAt k = some b →
      (b.disposition.final = true →
        exec (.markReject seq) s = .next (s.respond .line { status := .tooLate, payload := [] }))
      ∧ (b.disposition.final = false →
        exec (.markReject seq) s
          = .next (State.respond { s with
              ring := { s.ring with
                entries := setAt s.ring.entries (s.ring.head + k) (some { b with
                  faults := addBit b.faults BlankFault.operator.bit
                  disposition := if b.disposition = .inLine ∨ b.disposition = .toReject then .toReject
                    else .flagged }) } }
              .line { status := .ok, payload := [] }))

/-! ### The format store -/

/-- WRITE FORMAT tests slot and group, holder, use and values in that order (R138); accepted, it replaces the whole group
and makes the slot DRAFT, and nothing else changes.
The values are taken exactly in their ranges (section 8.1, R41), and stored as they are carried. -/
def Obligations.WriteFormatReplacesGroup : Prop :=
  (∀ (p : Port) (slot : Byte) (g : FormatGroup) (s : State), Takes s p →
    (4 ≤ slot.toNat ∨ (∃ a b, g = .unknownGroup a b) →
      exec (.writeFormat p slot g) s = .next (s.respond p { status := .range, payload := [] }))
    ∧ ∀ h : slot.toNat < 4, (∀ a b, g ≠ .unknownGroup a b) →
      let k : Fin 4 := ⟨slot.toNat, h⟩
      let holds := s.locks[boundLock k].held = true ∧ s.locks[boundLock k].holder = some p
      (¬ holds → exec (.writeFormat p slot g) s = .next (s.respond p { status := .notHolder, payload := [] }))
      ∧ (holds → s.inUse k = true →
        exec (.writeFormat p slot g) s = .next (s.respond p { status := .inUse, payload := [] }))
      ∧ (holds → s.inUse k = false →
        (∀ r, g = .header r → headerOf r = none →
          exec (.writeFormat p slot g) s = .next (s.respond p { status := .range, payload := [] }))
        ∧ (∀ i r, g = .presentEntry i r → entryOf r = none →
          exec (.writeFormat p slot g) s = .next (s.respond p { status := .range, payload := [] }))
        ∧ (∀ r header, g = .header r → headerOf r = some header →
          exec (.writeFormat p slot g) s
            = .next (State.respond { s with
                slots := setAt s.slots k { s.slots[k] with state := .draft, header := header } }
                p { status := .ok, payload := [] }))
        ∧ (∀ i r entry, g = .presentEntry i r → entryOf r = some entry →
          exec (.writeFormat p slot g) s
            = .next (State.respond { s with
                slots := setAt s.slots k
                  { s.slots[k] with state := .draft, table := setAt s.slots[k].table i (some entry) } }
                p { status := .ok, payload := [] }))
        ∧ (∀ i, g = .absentEntry i →
          exec (.writeFormat p slot g) s
            = .next (State.respond { s with
                slots := setAt s.slots k
                  { s.slots[k] with state := .draft, table := setAt s.slots[k].table i none } }
                p { status := .ok, payload := [] }))))
  ∧ (∀ r : RawHeader, (headerOf r).isSome = true ↔
    r.regEnable.toNat ≤ 1 ∧ r.deadband.toNat ≤ 4096 ∧ r.gain.toNat ≤ 256 ∧ r.cmax.toNat ≤ 8192
      ∧ r.amax.toNat ≤ 32767 ∧ 1 ≤ r.missLimit.toNat ∧ 1 ≤ r.rejectTolerance.toNat
      ∧ r.rejectTolerance.toNat ≤ 32767 ∧ r.policy.toNat ≤ 1 ∧ 1 ≤ r.primeTime.toNat ∧ r.primeTime.toNat ≤ 600
      ∧ 1 ≤ r.batchSize.toNat ∧ r.batchSize.toNat ≤ 1000 ∧ 1 ≤ r.perBox.toNat ∧ r.perBox.toNat ≤ 99)
  ∧ (∀ r : RawEntry, (entryOf r).isSome = true ↔
    r.kind.toNat ≤ 11 ∧ r.position.toNat ≤ 63 ∧ r.cell.toNat ≤ 15 ∧ r.onAngle ≠ r.offAngle
      ∧ r.leadUs.toNat ≤ 20000 ∧ r.enable.toNat ≤ 1)
  ∧ (∀ (r : RawHeader) (h : Header), headerOf r = some h →
    h = { regOn := decide (r.regEnable = 1), target := r.target.toNat, deadband := r.deadband.toNat
          gain := r.gain.toNat, cmax := r.cmax.toNat, amax := r.amax.toNat, missLimit := r.missLimit.toNat
          rejectTolerance := r.rejectTolerance.toNat, policy := if r.policy = 0 then .reject else .pass
          standbyCode := r.standbyCode.toNat, primeTime := r.primeTime.toNat, batchSize := r.batchSize.toNat
          perBox := r.perBox.toNat })
  ∧ ∀ (r : RawEntry) (e : Entry), entryOf r = some e →
    e.kind.value = r.kind ∧ e.position.val = r.position.toNat ∧ e.cell.val = r.cell.toNat ∧ e.onAngle = r.onAngle
      ∧ e.offAngle = r.offAngle ∧ e.leadUs = r.leadUs.toNat ∧ e.enabled = decide (r.enable = 1)

/-- READ FORMAT answers OK with the slot's state and the group, in 22 bytes for the header, 2 for an absent entry and 12
for a present one, or RANGE for a slot above 3 or a group that is neither the header nor an index; nothing changes
(R139, R171). Every field of the group stands at its place in the order of section 10.3, with the codes given there. -/
def Obligations.ReadFormatReportsGroup : Prop :=
  (CodedFrom0 SlotState.value [.empty, .draft, .valid] ∧ CodedFrom0 Policy.value [.reject, .pass]
    ∧ CodedFrom0 Kind.value [.window, .patch, .gum, .inspect, .reject, .kick, .box, .feed, .mark, .patchCheck, .foldCheck,
        .count])
  ∧ ∀ (p : Port) (slot group : Byte) (s : State), Takes s p →
    (4 ≤ slot.toNat ∨ (16 ≤ group.toNat ∧ group ≠ 0xFF) →
      exec (.readFormat p slot group) s = .next (s.respond p { status := .range, payload := [] }))
    ∧ ∀ h : slot.toNat < 4,
      let f := s.slots[(⟨slot.toNat, h⟩ : Fin 4)]
      let d := f.header
      let l := f.header.layout
      (group = 0xFF → (l.length = 21 ∧ l[0]? = some (if d.regOn then 1 else 0)
          ∧ (l.drop 1).take 2 = littleEndian (BitVec.ofNat 16 d.target) 2
          ∧ (l.drop 3).take 2 = littleEndian (BitVec.ofNat 16 d.deadband) 2
          ∧ (l.drop 5).take 2 = littleEndian (BitVec.ofNat 16 d.gain) 2
          ∧ (l.drop 7).take 2 = littleEndian (BitVec.ofNat 16 d.cmax) 2
          ∧ (l.drop 9).take 2 = littleEndian (BitVec.ofNat 16 d.amax) 2
          ∧ l[11]? = some (BitVec.ofNat 8 d.missLimit)
          ∧ (l.drop 12).take 2 = littleEndian (BitVec.ofNat 16 d.rejectTolerance) 2
          ∧ l[14]? = some d.policy.value ∧ l[15]? = some (BitVec.ofNat 8 d.standbyCode)
          ∧ (l.drop 16).take 2 = littleEndian (BitVec.ofNat 16 d.primeTime) 2
          ∧ (l.drop 18).take 2 = littleEndian (BitVec.ofNat 16 d.batchSize) 2
          ∧ l[20]? = some (BitVec.ofNat 8 d.perBox))
        ∧ exec (.readFormat p slot group) s
          = .next (s.respond p { status := .ok, payload := f.state.value :: f.header.layout }))
      ∧ ∀ hg : group.toNat < 16,
        let entry := f.table[(⟨group.toNat, hg⟩ : Fin 16)]
        (entry = none → stationLayout entry = [0])
        ∧ (∀ e, entry = some e → let l := stationLayout entry
          l.length = 11 ∧ l[0]? = some 1 ∧ l[1]? = some e.kind.value ∧ l[2]? = some (BitVec.ofNat 8 e.position.val)
          ∧ l[3]? = some (BitVec.ofNat 8 e.cell.val) ∧ (l.drop 4).take 2 = littleEndian e.onAngle 2
          ∧ (l.drop 6).take 2 = littleEndian e.offAngle 2
          ∧ (l.drop 8).take 2 = littleEndian (BitVec.ofNat 16 e.leadUs) 2
          ∧ l[10]? = some (if e.enabled then 1 else 0))
        ∧ exec (.readFormat p slot group) s
          = .next (s.respond p { status := .ok, payload := f.state.value :: stationLayout entry })

/-- COMMIT FORMAT (R140): RANGE, NOT_HOLDER, FORMAT_ERROR with the number of the first check that fails and the slot as it
stands, or OK with the slot VALID and its contents as they stand. Each of the nine checks holds exactly where the row of
R140's table with its number does. -/
def Obligations.CommitFormatChecks : Prop :=
  (∀ (p : Port) (slot : Byte) (s : State), Takes s p →
    (4 ≤ slot.toNat → exec (.commitFormat p slot) s = .next (s.respond p { status := .range, payload := [] }))
    ∧ ∀ h : slot.toNat < 4,
      let k : Fin 4 := ⟨slot.toNat, h⟩
      let f := s.slots[k]
      let holds := s.locks[boundLock k].held = true ∧ s.locks[boundLock k].holder = some p
      let checks := [f.check1, f.check2, f.check3, f.check4, f.check5, f.check6, s.check7 f, f.check8, f.check9]
      (¬ holds → exec (.commitFormat p slot) s = .next (s.respond p { status := .notHolder, payload := [] }))
      ∧ (holds → ∀ n : Fin 9, checks[n.val]? = some false → (∀ m < n.val, checks[m]? = some true) →
        exec (.commitFormat p slot) s
          = .next (s.respond p { status := .formatError, payload := [BitVec.ofNat 8 (n.val + 1)] }))
      ∧ (holds → (∀ m < 9, checks[m]? = some true) →
        exec (.commitFormat p slot) s
          = .next (State.respond { s with slots := setAt s.slots k { f with state := .valid } }
              p { status := .ok, payload := [] })))
  ∧ ∀ (f : Format) (s : State),
    let has (i : Fin 16) (e : Entry) : Prop := f.table[i] = some e
    let single (kind : Kind) : Prop := ∀ (i j : Fin 16) (a b : Entry), has i a → has j b → a.kind = kind →
      b.kind = kind → i = j
    (f.check1 = true ↔ single .feed ∧ ∃ i e, has i e ∧ e.kind = .feed ∧ e.position = 0)
    ∧ (f.check2 = true ↔ single .mark ∧ (f.header.regOn = true ↔ ∃ i e, has i e ∧ e.kind = .mark)
        ∧ ∀ i e, has i e → e.kind = .mark → e.position = 0)
    ∧ (f.check3 = true ↔ (∀ i e, has i e → e.kind = .feed ∨ e.kind = .mark → e.onAngle.toNat < e.offAngle.toNat)
        ∧ ∀ i j a b, has i a → has j b → a.kind = .feed → b.kind = .mark → a.offAngle.toNat ≤ b.offAngle.toNat)
    ∧ (f.check4 = true ↔ single .inspect ∧ single .reject ∧ single .count ∧ single .kick ∧ single .box
        ∧ (f.ofKind .gum).length ≤ 4)
    ∧ (f.check5 = true ↔ ∀ i j a b, has i a → has j b →
        (a.kind = .inspect → b.kind = .reject → a.position < b.position)
        ∧ (a.kind = .reject → b.kind = .count → a.position < b.position)
        ∧ (a.kind = .count → b.kind = .kick → a.position ≤ b.position)
        ∧ (a.kind = .count → b.kind = .box → a.position ≤ b.position))
    ∧ (f.check6 = true ↔ ((∃ i e, has i e ∧ e.kind = .inspect) → ∃ i e, has i e ∧ e.kind = .reject))
    ∧ (s.check7 f = true ↔ ∃ c, s.constants = some c ∧ ∀ i e, has i e →
        e.position.val < c.p
        ∧ (if e.kind.isOutput then s.cells[e.cell].config.mode = .windowOut ∨ s.cells[e.cell].config.mode = .pulseOut
           else s.cells[e.cell].config.mode = .edgeIn))
    ∧ (f.check8 = true ↔ ∀ i j a b, has i a → has j b → a.cell = b.cell → i = j)
    ∧ (f.check9 = true ↔ ∃ i e, has i e ∧ e.enabled = true)

/-! ### Stations -/

/-- What stations do at their crossings. A firing sets the fired flag and starts a PULSE_OUT cell's pulse; outside ARMED
only REJECT acts, and a disabled station never (R19, R42, R50, R64). WINDOW and PATCH fire on an IN_LINE record (R51). GUM fires
on it in gum state READY and adds GUM_SKIPPED otherwise (R52). INSPECT fires on it and hands a notice for an AWAITING one,
placed in cut order, or with 16 queued adds NOTICE_LOST and makes it SKIPPED; an AWAITING TO_REJECT record becomes SKIPPED
(R53, R101). KICK and BOX of the active slot fire on their requests and consume them (R55). At the off-crossing a fired window
sends its operation (R50); PATCH_CHECK adds PATCH_MISSING to a good patched record not seen (R60); FOLD_CHECK follows the table
of R61, and its second miss in a row raises JAM_FOLD (R62). FEED of the active slot creates a record where it saw the web
(R58); MARK hands a record of its own slot at position 0 to the registration unit (R59, R69); COUNT hands its latched record
of its own slot, or for the active slot a gap, to the batch counter (R63). A latched gap brings nothing at an output station,
PATCH_CHECK and FOLD_CHECK, and leaves the miss run (R60, R61). A latched record that has left the ring brings nothing, which
is the model's reading (log 11). -/
def Obligations.StationsActOnTheirRecords : Prop :=
  (∀ (k : Fin 4) (i : Fin 16) (e : Entry) (theta : Nat) (s : State), s.entry k i = some e →
    (s.station k i).windowOpen = false → e.kind.isOutput = true →
    let t := s.onCrossing k i e theta
    (t.cells = if (t.station k i).fired = true ∧ s.cells[e.cell].config.mode = .pulseOut then
        setAt s.cells e.cell { s.cells[e.cell] with pulseTimer := some s.cells[e.cell].config.width }
      else s.cells)
    ∧ (e.enabled = false ∨ s.line.mode = .offline ∨ (s.line.mode = .faulted ∧ e.kind ≠ .reject)
        ∨ (e.kind ≠ .kick ∧ e.kind ≠ .box ∧ ∀ b, s.presentAt e.position = some b → b.fmt ≠ k) →
      t = { s with stations := t.stations } ∧ (t.station k i).fired = false)
    ∧ (e.kind = .kick → e.enabled = true → s.line.mode = .armed →
      t = { s with
        stations := t.stations, cells := t.cells
        batch := { s.batch with kick := s.batch.kick && decide (s.active ≠ some k) } }
      ∧ (t.station k i).fired = (s.batch.kick && decide (s.active = some k)))
    ∧ (e.kind = .box → e.enabled = true → s.line.mode = .armed →
      t = { s with
        stations := t.stations, cells := t.cells
        batch := { s.batch with box := s.batch.box && decide (s.active ≠ some k) } }
      ∧ (t.station k i).fired = (s.batch.box && decide (s.active = some k))))
  ∧ (∀ (k : Fin 4) (i : Fin 16) (e : Entry) (theta : Nat) (b : Blank) (s : State), s.entry k i = some e →
    (s.station k i).windowOpen = false → e.enabled = true → s.line.mode = .armed →
    s.presentAt e.position = some b → b.fmt = k → s.positionOf b.seq = some e.position →
    let t := s.onCrossing k i e theta
    let worked : State := { s with stations := t.stations, cells := t.cells }
    let put (b' : Blank) : State := { worked with ring := { s.ring with
      entries := setAt s.ring.entries (s.ring.head + e.position) (some b') } }
    (e.kind = .window ∨ e.kind = .patch →
      t = worked ∧ (t.station k i).fired = decide (b.disposition = .inLine))
    ∧ (e.kind = .gum →
      (t.station k i).fired = decide (b.disposition = .inLine ∧ s.gum.state = .ready)
      ∧ t = if b.disposition = .inLine ∧ s.gum.state ≠ .ready then put (b.addFault .gumSkipped) else worked)
    ∧ (e.kind = .inspect →
      (t.station k i).fired = decide (b.disposition = .inLine)
      ∧ (b.verdict ≠ .awaiting ∨ (b.disposition ≠ .inLine ∧ b.disposition ≠ .toReject) → t = worked)
      ∧ (b.verdict = .awaiting → b.disposition = .toReject → t = put { b with verdict := .skipped })
      ∧ (b.verdict = .awaiting → b.disposition = .inLine → 16 ≤ s.notices.length →
        t = put { b.addFault .noticeLost with verdict := .skipped })
      ∧ (b.verdict = .awaiting → b.disposition = .inLine → s.notices.length < 16 →
        ∃ before after : List Notice, s.notices = before ++ after
          ∧ t = { worked with notices := before
              ++ { seq := b.seq, fmt := b.fmt, stamp := s.angle.cycle.setWidth 16 } :: after }
          ∧ (∀ x ∈ before, ∃ p, s.positionOf x.seq = some p ∧ e.position < p)
          ∧ ((∀ x ∈ s.notices, (s.positionOf x.seq).isSome = true) →
            s.notices.Pairwise (fun x y => ∀ p q, s.positionOf x.seq = some p → s.positionOf y.seq = some q → q < p) →
            ∀ x ∈ after, ∃ p, s.positionOf x.seq = some p ∧ p ≤ e.position))))
  ∧ (∀ (k : Fin 4) (i : Fin 16) (e : Entry) (theta : Nat) (b : Blank) (p : Fin 64) (s : State), s.entry k i = some e →
    (s.station k i).windowOpen = true → (s.station k i).latch = .blank b.seq →
    s.presentAt p = some b → s.positionOf b.seq = some p →
    let st := s.station k i
    let t := s.offCrossing k i e theta
    let worked : State := { s with stations := t.stations }
    let put (b' : Blank) : State := { worked with ring := { s.ring with
      entries := setAt s.ring.entries (s.ring.head + p) (some b') } }
    (e.kind.isOutput = true →
      (∀ o, (e.kind, o) ∈ [(Kind.window, Op.window), (.patch, .patch), (.gum, .gum), (.inspect, .inspect)] →
        t = if st.fired = true ∧ b.disposition.final = false then put { b with ops := addBit b.ops o.bit } else worked)
      ∧ (e.kind = .reject ∨ e.kind = .kick ∨ e.kind = .box → t = worked))
    ∧ (e.kind.isOutput = false → e.enabled = false → t = worked)
    ∧ (e.kind = .patchCheck ∨ e.kind = .foldCheck → b.fmt ≠ k →
      t = worked ∧ (t.station k i).missRun = st.missRun)
    ∧ (e.kind = .patchCheck → e.enabled = true → b.fmt = k →
      t = if (b.disposition = .inLine ∨ b.disposition = .cleared) ∧ b.hasOp .patch = true ∧ st.seen = false
        then put (b.addFault .patchMissing) else worked)
    ∧ (e.kind = .foldCheck → e.enabled = true → b.fmt = k → st.missRun ≤ 1 →
      (st.seen = true → (t.station k i).missRun = 0
        ∧ t = if b.disposition.final = true then worked else put { b with ops := addBit b.ops Op.fold.bit })
      ∧ (st.seen = false → b.disposition.final = true → t = worked ∧ (t.station k i).missRun = st.missRun)
      ∧ (st.seen = false → b.disposition.final = false → st.missRun = 0 → (t.station k i).missRun = 1
        ∧ t = if b.disposition = .inLine ∨ b.disposition = .cleared then put (b.addFault .foldMissing) else worked)
      ∧ (st.seen = false → b.disposition.final = false → st.missRun = 1 → (t.station k i).missRun = 0
        ∧ hasBit t.line.causes Cause.jamFold.bit = true
        ∧ t.line.mode = (if s.line.mode = .armed then .faulted else s.line.mode)
        ∧ (s.gum.state ≠ .priming → t.presentAt p
          = some (if b.disposition = .inLine ∨ b.disposition = .cleared then b.addFault .foldMissing else b)))))
  ∧ ∀ (k : Fin 4) (i : Fin 16) (e : Entry) (theta : Nat) (s : State), s.entry k i = some e →
    (s.station k i).windowOpen = true →
    let st := s.station k i
    let t := s.offCrossing k i e theta
    let taken : State := s.updStation k i fun st => { st with offMark := true }
    let closed (u : State) : State := u.updStation k i Station.close
    let worked : State := { s with stations := t.stations }
    (e.kind.isOutput = false → e.enabled = false → t = worked)
    ∧ (e.kind.isOutput = true ∨ e.kind = .patchCheck ∨ e.kind = .foldCheck →
      st.latch = .gap ∨ (∃ seq, st.latch = .blank seq ∧ s.record seq = none) → t = closed taken)
    ∧ (e.kind = .feed → e.enabled = true → t = closed (taken.feedEvaluation k st theta)
      ∧ (s.active = some k → st.seen = true → s.line.mode ≠ .offline → s.ring.at 0 = none →
        t = closed (taken.createRecord k theta))
      ∧ (s.active ≠ some k ∨ st.seen = false ∨ s.line.mode = .offline ∨ s.ring.at 0 ≠ none → t = worked))
    ∧ (e.kind = .mark → e.enabled = true →
      (∀ b, s.presentAt 0 = some b → b.fmt = k →
        t = closed (taken.markEvaluation b.seq k st.seen st.firstEdge))
      ∧ ((∀ b, s.presentAt 0 = some b → b.fmt ≠ k) → t = worked))
    ∧ (e.kind = .count → e.enabled = true →
      (∀ seq b, st.latch = .blank seq → s.record seq = some b → b.fmt = k →
        t = closed (taken.countVerification (some b) st.seen))
      ∧ (∀ seq, st.latch = .blank seq → (∀ b, s.record seq = some b → b.fmt ≠ k) → t = worked)
      ∧ (st.latch = .gap → s.active = some k → t = closed (taken.countVerification none st.seen))
      ∧ (st.latch = .gap → s.active ≠ some k → t = worked))

/-! ### Changeover, gum and CYM -/

/-- CHANGEOVER (R146): RANGE, NOT_VALID and LOCKED in that order, without effect; naming the active slot it cancels a
pending changeover; in ARMED and FAULTED another slot becomes pending; in OFFLINE it becomes active at once, with the
fresh-format flag set (R150). The answer is REPLACED where a changeover was pending and OK otherwise. -/
def Obligations.ChangeoverActsByTheTable : Prop :=
  ∀ (slot : Byte) (s : State), Takes s .line →
    (4 ≤ slot.toNat → exec (.changeover slot) s = .next (s.respond .line { status := .range, payload := [] }))
    ∧ ∀ h : slot.toNat < 4,
      let n : Fin 4 := ⟨slot.toNat, h⟩
      let ok : Response := { status := if s.pendingSlot = none then .ok else .replaced, payload := [] }
      (s.slots[n].state ≠ .valid →
        exec (.changeover slot) s = .next (s.respond .line { status := .notValid, payload := [] }))
      ∧ (s.slots[n].state = .valid → s.locks[boundLock n].held = true →
        exec (.changeover slot) s = .next (s.respond .line { status := .locked, payload := [] }))
      ∧ (s.slots[n].state = .valid → s.locks[boundLock n].held = false →
        (s.active = some n →
          exec (.changeover slot) s = .next (State.respond { s with pendingSlot := none } .line ok))
        ∧ (s.active ≠ some n → s.line.mode ≠ .offline →
          exec (.changeover slot) s = .next (State.respond { s with pendingSlot := some n } .line ok))
        ∧ (s.active ≠ some n → s.line.mode = .offline →
          ∃ t, exec (.changeover slot) s = .next t ∧ t.active = some n ∧ t.pendingSlot = none ∧ t.fresh = true
            ∧ t.ports = s.ports.set .line { s.ports.line with response := ok }
            ∧ t.slots = s.slots ∧ t.locks = s.locks ∧ t.cells = s.cells ∧ t.angle = s.angle
            ∧ t.registration = s.registration ∧ t.notices = s.notices ∧ t.batch = s.batch ∧ t.cym = s.cym
            ∧ t.ring.head = s.ring.head ∧ t.ring.nextSeq = s.ring.nextSeq ∧ t.line.mode = s.line.mode))

/-- The gum circuit at a changeover that makes slot n active (R90, R97): OFF where n has no GUM station; STANDBY from OFF,
STANDBY and PRIMING, with PRIME_ABORTED from PRIMING alone; READY stays READY, but for a running standby count that has
reached the timeout of n, which expires with GUM_STANDBY set and the gummed blanks spoiled. An accepted CHANGEOVER in OFFLINE
makes its slot active so, at the present angle (R146), and so does the creation that a changeover waits for (R147). A fired
GUM window that a change to OFF or the end of a prime finds open is cut short: its record gets GUM_SKIPPED (R92).
That the count is compared in every line mode is the model's reading (log 24), and so is that records get GUM_SKIPPED and
GUM_SET at a changeover, though R151 says that one taking effect changes no record in the ring (log 34). -/
def Obligations.GumFollowsChangeover : Prop :=
  (∀ (n : Fin 4) (theta : Nat) (s : State), s.firedGum = [] →
    let t := s.makeActive n theta
    let timeout := if s.slots[n].header.standbyCode = 0 then 1800000000 else s.slots[n].header.standbyCode * 5000000
    let due := s.gum.state = .ready ∧ s.slots[n].hasGum = true ∧ s.motion = .halted ∧ timeout ≤ s.gum.standbyTimer
    t.active = some n ∧ t.pendingSlot = none
    ∧ t.gum = (if s.slots[n].hasGum = false then { state := .off, standbyTimer := 0, primeTimer := none }
        else if s.gum.state = .ready ∧ ¬ due then s.gum
        else { state := .standby, standbyTimer := 0, primeTimer := none })
    ∧ t.line = { s.line with
        events := if s.gum.state = .priming then addBit s.line.events LineEvent.primeAborted.bit
          else if due then addBit s.line.events LineEvent.gumStandby.bit else s.line.events }
    ∧ (¬ due → t.ring = s.ring)
    ∧ (due → ∀ k : Fin 64, t.presentAt k = (s.presentAt k).map fun b =>
        if b.hasOp .gum = true ∧ b.hasOp .fold = false then b.addFault .gumSet else b))
  ∧ (∀ (n : Fin 4) (theta : Nat) (s : State), SeqsDistinct s →
    s.gum.state = .priming ∨ (s.gum.state = .ready ∧ s.slots[n].hasGum = false) →
    ∀ (k : Fin 64) (b : Blank), s.presentAt k = some b →
      (GumLatched s b.seq → (s.makeActive n theta).presentAt k = some (b.addFault .gumSkipped))
      ∧ (¬ GumLatched s b.seq → (s.makeActive n theta).presentAt k = some b))
  ∧ (∀ (slot : Byte) (h : slot.toNat < 4) (s : State), Takes s .line → s.line.mode = .offline →
    let n : Fin 4 := ⟨slot.toNat, h⟩
    s.slots[n].state = .valid → s.locks[boundLock n].held = false → s.active ≠ some n →
    exec (.changeover slot) s
      = .next (State.respond (s.makeActive n s.theta) .line
          { status := if s.pendingSlot = none then .ok else .replaced, payload := [] }))
  ∧ ∀ (k n : Fin 4) (theta : Nat) (s : State), s.pendingSlot = some n →
    (s.createRecord k theta).gum = (s.makeActive n theta).gum
      ∧ (s.createRecord k theta).line = (s.makeActive n theta).line

/-- SET CYM stores a mode, OFF ending a pulse and a hold and CYCLE a hold, or is refused with RANGE (R149); the pulse's end
leaves mode and hold (R149, R150). A head advance in CYCLE or FORMAT starts the 100 µs anew and ends a hold with it.
That CYM PULSE END acts whichever its timer's count is the model's choice (log 2). -/
def Obligations.CymModesAndPulses : Prop :=
  (∀ (mode : Byte) (s : State), Takes s .line →
    (2 < mode.toNat → exec (.setCym mode) s = .next (s.respond .line { status := .range, payload := [] }))
    ∧ (mode.toNat ≤ 2 → exec (.setCym mode) s
        = .next (State.respond { s with
            cym := if mode = 0 then { mode := .off, pulse := none, hold := false }
              else if mode = 1 then { s.cym with mode := .cycle, hold := false }
              else { s.cym with mode := .format } }
            .line { status := .ok, payload := [] })))
  ∧ (∀ s : State, s.heldInReset = false →
    exec .cymPulseEnd s = .next { s with cym := { s.cym with pulse := none } })
  ∧ ∀ s : State, s.headAdvance.cym
      = (if s.cym.mode = .off then s.cym else { s.cym with pulse := some 100, hold := false })

/-! ### Locks -/

/-- LOCK NEW allocates the lowest-numbered free lock that is not allocated, unheld and without a holder, and answers OK with
it; with all four allocated it answers NONE_FREE with lock number 0xFF and no lock changes (R143, R171). LOCK TAKE, LOCK RELEASE, LOCK RETURN and LOCK QUERY on a lock of the pool answer by R143 to R145 with the lock's fields
as they stand after the command; a number above 7 is refused with RANGE and changes no lock (R142).
The three bytes of a lock that does not exist are open (log 9). -/
def Obligations.LockPoolCommandsAnswer : Prop :=
  (∀ (p : Port) (s : State), Takes s p →
    (∀ l : Fin 8, 4 ≤ l.val → s.locks[l].allocated = false →
      (∀ m : Fin 8, 4 ≤ m.val → m < l → s.locks[m].allocated = true) →
      exec (.lockNew p) s
        = .next (State.respond { s with
            locks := setAt s.locks l { allocated := true, held := false, holder := none } }
            p { status := .ok, payload := [BitVec.ofNat 8 l.val, 1, 0, 0] }))
    ∧ ((∀ l : Fin 8, 4 ≤ l.val → s.locks[l].allocated = true) →
      ∃ t a b c, exec (.lockNew p) s = .next t
        ∧ t = State.respond { s with choice := t.choice } p
            { status := .noneFree, payload := [0xFF, a, b, c] }))
  ∧
  ∀ (p : Port) (number : Byte) (s : State), Takes s p →
    (∀ h : number.toNat < 8,
      let i : Fin 8 := ⟨number.toNat, h⟩
      let l := s.locks[i]
      let as (status : Status) (l : Lock) : Response :=
        { status := status
          payload := [number, if l.allocated then 1 else 0, if l.held then 1 else 0,
            match l.holder with | none => 0 | some .line => 1 | some .inspection => 2 | some .drive => 3] }
      let becomes (status : Status) (l' : Lock) : Result :=
        .next (State.respond { s with locks := setAt s.locks i l' } p (as status l'))
      exec (.lockQuery p number) s = .next (s.respond p (as .ok l))
      ∧ exec (.lockTake p number) s =
          (if l.allocated = false then .next (s.respond p (as .notAllocated l))
           else if l.held = true then .next (s.respond p (as .locked l))
           else becomes .ok { l with held := true, holder := some p })
      ∧ exec (.lockRelease p number) s =
          (if l.allocated = false then .next (s.respond p (as .notAllocated l))
           else if l.held = true ∧ l.holder = some p then becomes .ok { l with held := false }
           else .next (s.respond p (as .notHolder l)))
      ∧ exec (.lockReturn p number) s =
          (if i.val < 4 then .next (s.respond p (as .range l))
           else if l.allocated = false then .next (s.respond p (as .notAllocated l))
           else becomes .ok { allocated := false, held := false, holder := none }))
    ∧ (8 ≤ number.toNat → ∀ c ∈ [Instr.lockQuery p number, .lockTake p number, .lockRelease p number,
        .lockReturn p number], ∃ t a b d, exec c s = .next t
          ∧ t = State.respond { s with choice := t.choice } p { status := .range, payload := [number, a, b, d] })

/-! ### Line modes -/

/-- STOP answers OK in every mode and raises the cause of its port: it enters the set, becomes the first cause of an empty
set, and takes an ARMED line to FAULTED; in the other modes nothing else changes (R155, R156). Leaving ARMED ends every
pulse and closes every open and fired output window, its latch emptied and its fired flag cleared, and keeps the windows that
are not fired (R19, R56); a prime is aborted to STANDBY with PRIME_ABORTED set (R96); a running chord timer restarts (R158).
Nothing else changes, but that the abort gives GUM_SKIPPED to the records of fired GUM windows where it comes before their
closing (R92); which comes first is open (log 5). -/
def Obligations.StopRaisesThePortsCause : Prop :=
  ∀ (p : Port) (s : State), Takes s p →
    let cause : Cause := match p with | .line => .stopL | .inspection => .stopI | .drive => .stopD
    let latch : LineControl := { s.line with
      causes := addBit s.line.causes cause.bit
      firstCause := if s.line.causes = 0 then some cause else s.line.firstCause }
    (s.line.mode ≠ .armed →
      exec (.stop p) s = .next (State.respond { s with line := latch } p { status := .ok, payload := [] }))
    ∧ (s.line.mode = .armed →
      let closes (k : Fin 4) (i : Fin 16) : Prop := (∃ e, s.entry k i = some e ∧ e.kind.isOutput = true)
        ∧ (s.station k i).windowOpen = true ∧ (s.station k i).fired = true
      ∃ t, exec (.stop p) s = .next t
        ∧ t = { s with
            line := { latch with
              mode := .faulted, chordTimer := s.line.chordTimer.map fun _ => 0
              events := if s.gum.state = .priming then addBit s.line.events LineEvent.primeAborted.bit
                else s.line.events }
            gum := if s.gum.state = .priming then { state := .standby, standbyTimer := 0, primeTimer := none } else s.gum
            ports := s.ports.set p { s.ports.get p with response := { status := .ok, payload := [] } }
            cells := t.cells, stations := t.stations, ring := { s.ring with entries := t.ring.entries }
            choice := t.choice }
        ∧ (∀ i : Fin 16, t.cells[i] = { s.cells[i] with pulseTimer := none })
        ∧ (∀ (k : Fin 4) (i : Fin 16),
          (closes k i → (t.station k i).windowOpen = false ∧ (t.station k i).latch = .empty
            ∧ (t.station k i).fired = false)
          ∧ ((s.station k i).windowOpen = true → ¬ closes k i →
            t.evaluated k = true ∧ t.station k i = s.station k i)
          ∧ (t.evaluated k = true →
            (closes k i →
              t.station k i = { s.station k i with windowOpen := false, latch := .empty, fired := false })
            ∧ (¬ closes k i → t.station k i = s.station k i)))
        ∧ (s.gum.state ≠ .priming ∨ s.firedGum = [] → t.ring = s.ring ∧ t.choice = s.choice)
        ∧ ((∀ k : Fin 64, t.presentAt k = s.presentAt k)
          ∨ (SeqsDistinct s → ∀ k : Fin 64, (s.presentAt k = none → t.presentAt k = none)
            ∧ ∀ b, s.presentAt k = some b →
              (GumLatched s b.seq → t.presentAt k = some (b.addFault .gumSkipped))
              ∧ (¬ GumLatched s b.seq → t.presentAt k = some b))))

/-- ARM tests the mode, the constants and the active slot in that order (R153); accepted, the line is ARMED, the cause set
is empty, and a batch for the active slot opens if none is open (R119). CLEAR takes FAULTED to ARMED with the cause set
empty and the first cause kept, and is refused with WRONG_MODE otherwise (R157). -/
def Obligations.ArmAndClear : Prop :=
  ∀ s : State, Takes s .line →
    (s.line.mode ≠ .offline → exec .arm s = .next (s.respond .line { status := .wrongMode, payload := [] }))
    ∧ (s.line.mode = .offline → s.constants = none →
      exec .arm s = .next (s.respond .line { status := .noConstants, payload := [] }))
    ∧ (s.line.mode = .offline → s.constants ≠ none → s.active = none →
      exec .arm s = .next (s.respond .line { status := .noFormat, payload := [] }))
    ∧ (s.line.mode = .offline → s.constants ≠ none → ∀ k, s.active = some k →
      ∃ t, exec .arm s = .next t
        ∧ t = State.respond { s with
            line := { s.line with mode := .armed, causes := 0 }, batch := t.batch }
            .line { status := .ok, payload := [] }
        ∧ (s.batch.openBatch ≠ none → t.batch = s.batch)
        ∧ (s.batch.openBatch = none →
          t.batch = { s.batch with
            nextNumber := t.batch.nextNumber
            openBatch := some
              { state := .open
                fields := { number := s.batch.nextNumber, fmt := k, heldSize := s.slots[k].header.batchSize
                            heldPerBox := s.slots[k].header.perBox, count := 0, firstSeq := none, lastSeq := none
                            rejects := 0, passedDefects := 0, unexpected := 0
                            indexInBox := increase .indexInBox s.batch.inBox, boxNumber := s.batch.boxNumber
                            suspect := false, mixed := false } } }
          ∧ t.batch.nextNumber =
              (if s.batch.nextNumber = BitVec.allOnes 32 then 1 else s.batch.nextNumber + 1)))
    ∧ (s.line.mode = .faulted →
      exec .clear s
        = .next (State.respond { s with line := { s.line with mode := .armed, causes := 0 } } .line
            { status := .ok, payload := [] }))
    ∧ (s.line.mode ≠ .faulted → exec .clear s = .next (s.respond .line { status := .wrongMode, payload := [] }))

/-- DISARM: WRONG_MODE in OFFLINE, NOT_HALTED while the machine turns; accepted, the line is OFFLINE with the cause set
empty and the first cause and the events kept, ring and notice queue are empty, every window is closed with its marks kept,
registration is OFF with the pending trim kept, a prime is aborted with PRIME_ABORTED, the count miss run is 0, and log,
open batch, requests, active and pending slot, and locks are kept (R38, R66, R68, R96, R116, R134, R154). -/
def Obligations.DisarmEmptiesTheLine : Prop :=
  ∀ s : State, Takes s .line →
    (s.line.mode = .offline → exec .disarm s = .next (s.respond .line { status := .wrongMode, payload := [] }))
    ∧ (s.line.mode ≠ .offline → s.motion ≠ .halted →
      exec .disarm s = .next (s.respond .line { status := .notHalted, payload := [] }))
    ∧ (s.line.mode ≠ .offline → s.motion = .halted → ∃ t, exec .disarm s = .next t
      ∧ t.ports = s.ports.set .line { s.ports.line with response := { status := .ok, payload := [] } }
      ∧ t.line = { s.line with
          mode := .offline, causes := 0
          events := if s.gum.state = .priming then addBit s.line.events LineEvent.primeAborted.bit
            else s.line.events }
      ∧ t.ring = { s.ring with entries := Vector.replicate 64 none } ∧ t.notices = []
      ∧ (∀ (k : Fin 4) (i : Fin 16), (t.station k i).windowOpen = false ∧ (t.station k i).latch = .empty
          ∧ (t.station k i).fired = false ∧ (t.station k i).seen = false ∧ (t.station k i).firstEdge = none
          ∧ (t.station k i).missRun = 0)
      ∧ (∀ (k : Fin 4) (i : Fin 16), s.active = some k → (t.station k i).onMark = (s.station k i).onMark
          ∧ (t.station k i).offMark = (s.station k i).offMark ∧ (t.station k i).lead = (s.station k i).lead)
      ∧ t.registration = { s.registration with
          state := .off, missCount := 0, total := 0, residue := 0, limit := false, lastSlot := none }
      ∧ (s.gum.state ≠ .priming → t.gum = s.gum)
      ∧ (s.gum.state = .priming → t.gum = { state := .standby, standbyTimer := 0, primeTimer := none })
      ∧ t.batch = { s.batch with missRun := 0 }
      ∧ (∀ i : Fin 16, t.cells[i] = { s.cells[i] with pulseTimer := none })
      ∧ t.constants = s.constants ∧ t.angle = s.angle ∧ t.slots = s.slots ∧ t.active = s.active
      ∧ t.pendingSlot = s.pendingSlot ∧ t.fresh = s.fresh ∧ t.cym = s.cym ∧ t.locks = s.locks)

/-- The clear chord (R158). With the enable on: both lines going active start the timer in READY; either going inactive stops
it; both inactive make it READY; a SPENT chord does not start. Taken, it is SPENT with the timer stopped, FAULTED becomes
ARMED with the cause set empty and the first cause kept, and another mode stays. With the enable off or the constants not
written no change of the lines starts the timer, and without a running timer no chord is taken.
That CHORD TAKEN acts whichever the timer's count is the model's choice (log 2), and READY at once and the enable read as the
hold begins are its readings (log 14, log 15). -/
def Obligations.ClearChordWorks : Prop :=
  (∀ s : State, s.heldInReset = false → (∀ c, s.constants = some c → c.chordEnable = false) → ∀ a b : Bool,
    (s.opaHigh ≠ a ∨ s.opbHigh ≠ b) →
      exec (.operatorLineChange a b) s
        = .next { s with
            opaHigh := a, opbHigh := b
            line := { s.line with
              chordTimer := none, chordState := if a = true ∧ b = true then .ready else s.line.chordState } })
  ∧ (∀ s : State, exec (.operatorLineChange s.opaHigh s.opbHigh) s = .next s
      ∧ (s.line.chordTimer = none → exec .chordTaken s = .next s))
  ∧ ∀ (c : Constants) (s : State), s.heldInReset = false → s.constants = some c → c.chordEnable = true →
    (s.opaHigh = true ∨ s.opbHigh = true → s.line.chordState = .ready →
      exec (.operatorLineChange false false) s
        = .next { s with opaHigh := false, opbHigh := false, line := { s.line with chordTimer := some 0 } })
    ∧ (s.opaHigh = true ∨ s.opbHigh = true → s.line.chordState = .spent →
      exec (.operatorLineChange false false) s
        = .next { s with opaHigh := false, opbHigh := false, line := { s.line with chordTimer := none } })
    ∧ (s.opaHigh = false ∨ s.opbHigh = false →
      exec (.operatorLineChange true true) s
        = .next { s with
            opaHigh := true, opbHigh := true, line := { s.line with chordTimer := none, chordState := .ready } })
    ∧ (∀ a b : Bool, a ≠ b → (s.opaHigh ≠ a ∨ s.opbHigh ≠ b) →
      exec (.operatorLineChange a b) s
        = .next { s with opaHigh := a, opbHigh := b, line := { s.line with chordTimer := none } })
    ∧ (s.line.chordTimer ≠ none →
      exec .chordTaken s
        = .next { s with line := { s.line with
            chordTimer := none, chordState := .spent
            mode := if s.line.mode = .faulted then .armed else s.line.mode
            causes := if s.line.mode = .faulted then 0 else s.line.causes } })

/-! ### Resets and constants -/

/-- SOFT RESET is refused with WRONG_MODE in ARMED (R161); taken in OFFLINE and FAULTED it leaves the values of the reset
tables' SOFT RESET columns, every port's pending response is NO_RESPONSE and its frame in progress abandoned (R13, R22, R39, R66, R87, R99, R116, R134,
R142, R148 to R150, R162, R164, R165).
That a chord SPENT at the reset is READY again at once with both lines inactive is the model's reading (log 14). -/
def Obligations.SoftResetKeepsAndClears : Prop :=
  ∀ s : State, Takes s .line →
    (s.line.mode = .armed → exec .softReset s = .next (s.respond .line { status := .wrongMode, payload := [] }))
    ∧ (s.line.mode ≠ .armed → ∃ t, exec .softReset s = .next t
      ∧ t.constants = s.constants ∧ t.angle = s.angle ∧ t.slots = s.slots ∧ t.active = s.active
      ∧ t.batch = { s.batch with missRun := 0 }
      ∧ t.ring.nextSeq = s.ring.nextSeq ∧ t.ring.head = 0 ∧ t.ring.entries = Vector.replicate 64 none
      ∧ (∀ p, t.ring.windows.get p = { first := 0, last := s.lineLength - 1, pointer := 0 })
      ∧ t.registration = Registration.reset ∧ t.notices = [] ∧ t.pendingSlot = none ∧ t.fresh = false
      ∧ t.cym = { mode := .off, pulse := none, hold := false } ∧ t.locks = resetLocks
      ∧ t.gum = { state := if ∃ k, s.active = some k ∧ s.slots[k].hasGum = true then .standby else .off
                  standbyTimer := 0, primeTimer := none }
      ∧ t.line = { mode := .offline, firstCause := s.line.firstCause, causes := 0, events := 0
                   resetCause := .soft, chordTimer := none, chordState := t.line.chordState }
      ∧ (s.opaHigh = false ∨ s.opbHigh = false → t.line.chordState = .spent)
      ∧ (∀ p, t.ports.get p = { s.ports.get p with response := { status := .noResponse, payload := [] } })
      ∧ (∀ p, t.frames.get p = if s.frames.get p = .idle then .idle else .abandoned)
      ∧ (∀ i : Fin 16, t.cells[i].config = s.cells[i].config ∧ t.cells[i].z = { stamp := 0, angle := 0 }
          ∧ t.cells[i].event = false ∧ t.cells[i].overrun = false ∧ t.cells[i].filterTimer = none
          ∧ t.cells[i].pulseTimer = none ∧ t.cells[i].pinHigh = s.cells[i].pinHigh
          ∧ (s.cells[i].config.mode = .edgeIn →
              t.cells[i].level = s.cells[i].config.polarity.logical s.cells[i].pinHigh))
      ∧ (∀ (k : Fin 4) (i : Fin 16), (t.station k i).windowOpen = false ∧ (t.station k i).latch = .empty
          ∧ (t.station k i).fired = false ∧ (t.station k i).seen = false ∧ (t.station k i).firstEdge = none
          ∧ (t.station k i).missRun = 0
          ∧ ∀ e, s.active = some k → s.entry k i = some e →
            (t.station k i).onMark = decide (e.effectiveOn (s.station k i) ≤ s.theta)
            ∧ (t.station k i).offMark = decide (e.effectiveOff (s.station k i) ≤ s.theta)
            ∧ (t.station k i).lead = (s.station k i).lead))

/-- Power-on sets everything but the lines from outside to the state after power-on (R162, log 18); an RSTN reset sets
every block to its RSTN column, keeps the constants, the cell configurations, the slots, the active slot and the lines from
outside, takes the level of an edge input from its pin, and holds the part; the release lets it run (R1, R13, R22, R28, R39,
R66, R87, R134, R162). Both abandon the frames in progress and leave NO_RESPONSE pending (R164, R165). Each of the three
takes effect in every state.
That a chord SPENT at the reset is READY again at once with both lines inactive is the model's reading (log 14). -/
def Obligations.PowerOnAndRstnReset : Prop :=
  (∀ (low : Bool) (s : State), ∃ t, exec (.powerOn low) s = .next t
    ∧ t = { State.reset with
        angle := { AngleUnit.reset with qa := s.angle.qa, qb := s.angle.qb }
        cells := t.cells, ports := t.ports, frames := t.frames
        line := { State.reset.line with chordState := t.line.chordState }
        opaHigh := s.opaHigh, opbHigh := s.opbHigh, heldInReset := low, choice := s.choice, pending := s.pending }
    ∧ (∀ i : Fin 16, t.cells[i] = { Cell.reset with pinHigh := s.cells[i].pinHigh })
    ∧ (∀ p, t.ports.get p
        = { s.ports.get p with response := { status := .noResponse, payload := [] } })
    ∧ (∀ p, t.frames.get p = if s.frames.get p = .idle then .idle else .abandoned)
    ∧ (s.opaHigh = false ∨ s.opbHigh = false → t.line.chordState = .spent))
  ∧ (∀ s : State, ∃ t, exec .rstnReset s = .next t
    ∧ t = { s with
        angle := { AngleUnit.reset with qa := s.angle.qa, qb := s.angle.qb }
        cells := t.cells
        ring := { entries := Vector.replicate 64 none, head := 0, nextSeq := 1, windows := t.ring.windows }
        stations := Vector.replicate 4 (Vector.replicate 16 Station.cleared)
        registration := Registration.reset
        gum := { state := if ∃ k, s.active = some k ∧ s.slots[k].hasGum = true then .standby else .off
                 standbyTimer := 0, primeTimer := none }
        notices := [], batch := BatchCounter.reset, pendingSlot := none, fresh := false
        cym := { mode := .off, pulse := none, hold := false }, locks := resetLocks
        line := { mode := .offline, firstCause := none, causes := 0, events := 0, resetCause := .resetLine
                  chordTimer := none, chordState := t.line.chordState }
        ports := t.ports, frames := t.frames, heldInReset := true }
    ∧ (∀ p, t.ring.windows.get p = { first := 0, last := s.lineLength - 1, pointer := 0 })
    ∧ (s.opaHigh = false ∨ s.opbHigh = false → t.line.chordState = .spent)
    ∧ (∀ p, t.ports.get p
        = { s.ports.get p with response := { status := .noResponse, payload := [] } })
    ∧ (∀ p, t.frames.get p = if s.frames.get p = .idle then .idle else .abandoned)
    ∧ (∀ i : Fin 16, t.cells[i] = { s.cells[i] with
        z := { stamp := 0, angle := 0 }, event := false, overrun := false, filterTimer := none, pulseTimer := none
        level := decide (s.cells[i].config.mode = .edgeIn)
          && s.cells[i].config.polarity.logical s.cells[i].pinHigh }))
  ∧ ∀ s : State, exec .rstnRelease s = .next { s with heldInReset := false }

/-- A port reset abandons the port's frame in progress, makes its pending response NO_RESPONSE, its read window the whole
line with the pointer at 0, and every lock it holds released with the port as last holder; on the inspection port it empties
the notice queue. The other ports, the records, the pending trim and the fault latch stay. While the line is low the port's
frames are disregarded, and its release ends that (R37, R115, R145, R164, R166). -/
def Obligations.PortResetTouchesItsPort : Prop :=
  (∀ (p : Port) (s : State), ∃ t, exec (.portReset p) s = .next t
    ∧ t = { s with
        ports := s.ports.set p { response := { status := .noResponse, payload := [] }, prstLow := true }
        frames := s.frames.set p (if s.frames.get p = .idle then .idle else .abandoned)
        ring := { s.ring with
          windows := s.ring.windows.set p { first := 0, last := s.lineLength - 1, pointer := 0 } }
        locks := t.locks
        notices := if p = .inspection then [] else s.notices }
    ∧ ∀ l : Fin 8, t.locks[l] =
        (if s.locks[l].held = true ∧ s.locks[l].holder = some p then { s.locks[l] with held := false }
         else s.locks[l]))
  ∧ ∀ (p : Port) (s : State), exec (.portResetRelease p) s
      = .next { s with ports := s.ports.set p { s.ports.get p with prstLow := false } }

/-- SET CONSTANTS: WRONG_MODE outside OFFLINE; RANGE for a value outside its range, Z0 of E or greater, or a VALID slot's
entry at P or greater; otherwise the set is replaced, the angle unit restarts with cycle number and halt timer kept, the
stations are clear, the windows whole, and registration is OFF with the pending trim discarded (R2, R3, R37, R66, R68).
The order of the tests is the model's reading (log 13). -/
def Obligations.SetConstantsRestarts : Prop :=
  ∀ (r : RawConstants) (s : State), Takes s .line →
    (s.line.mode ≠ .offline →
      exec (.setConstants r) s = .next (s.respond .line { status := .wrongMode, payload := [] }))
    ∧ (s.line.mode = .offline →
      let outside := r.e.toNat < 2000 ∨ 40000 < r.e.toNat ∨ 1 < r.direction.toNat
        ∨ (r.z0.toNat ≠ 0xFFFF ∧ r.e.toNat ≤ r.z0.toNat) ∨ r.p.toNat < 4 ∨ 64 < r.p.toNat
        ∨ 1 < r.chordEnable.toNat ∨ (15 < r.purgeCell.toNat ∧ r.purgeCell.toNat ≠ 0xFF)
      let beyond := ∃ (k : Fin 4) (i : Fin 16) (e : Entry), s.slots[k].state = .valid
        ∧ s.slots[k].table[i] = some e ∧ r.p.toNat ≤ e.position.val
      (outside ∨ beyond →
        exec (.setConstants r) s = .next (s.respond .line { status := .range, payload := [] }))
      ∧ (¬ outside → ¬ beyond → ∃ t c, exec (.setConstants r) s = .next t ∧ t.constants = some c
        ∧ c.e = r.e.toNat ∧ c.p = r.p.toNat ∧ c.chordEnable = decide (r.chordEnable = 1)
        ∧ (c.direction = .inverted ↔ r.direction = 1)
        ∧ c.z0 = (if r.z0 = 0xFFFF then none else some r.z0.toNat)
        ∧ (∀ i, c.purgeCell = some i ↔ r.purgeCell.toNat = i.val)
        ∧ t = { s with
            constants := some c
            angle := { s.angle with
              p := 0, debt := 0, lastCount := none, tc := 16777215, cycleTimer := 0, hasReference := false }
            stations := t.stations, ring := t.ring, registration := t.registration, ports := t.ports }
        ∧ t.ports = s.ports.set .line { s.ports.line with response := { status := .ok, payload := [] } }
        ∧ (∀ (k : Fin 4) (i : Fin 16), t.station k i = Station.cleared)
        ∧ t.ring = { s.ring with windows := t.ring.windows }
        ∧ (∀ p, t.ring.windows.get p = { first := 0, last := r.p.toNat - 1, pointer := 0 })
        ∧ t.registration = { s.registration with
            state := .off, missCount := 0, total := 0, residue := 0, limit := false, lastSlot := none
            trim := 0, contributions := 0, age := 0, overrun := false }))

/-! ### What holds at all times -/

/-- The state after power-on is sound: every promise of Safety.lean holds of it. -/
def Obligations.ResetStateIsSound : Prop := Sound State.reset

/-- Every step keeps the stores in their ranges (R67, R100, R131, R142): the log and the notice queue in their room, the
registration unit's values, the legal locks, and the successive batch numbers. A step that changes the trim total leaves it
within the Amax it was changed under (R77). -/
def Obligations.StepKeepsStoresInRange : Prop :=
  ∀ s t : State, step s = .next t →
    (BuffersInRoom s → BuffersInRoom t) ∧ (RegistrationInRange s → RegistrationInRange t)
    ∧ (t.registration.total = s.registration.total ∨ t.registration.total.natAbs ≤ t.registration.heldAmax)
    ∧ (LocksLegal s → LocksLegal t) ∧ (BatchNumbersSuccessive s → BatchNumbersSuccessive t)

/-- Every step keeps the constants, p and the debt, the timers and the read windows in their ranges (R1, R2, R5, R6, R10,
R11, R34). -/
def Obligations.StepKeepsCountersInRange : Prop :=
  ∀ s t : State, ConstantsInRange s → AngleInRange s → TimersInRange s → WindowsLegal s → step s = .next t →
    ConstantsInRange t ∧ AngleInRange t ∧ TimersInRange t ∧ WindowsLegal t

/-- Every step keeps the laws of the ring: OFFLINE has no records and no notices (R152), positions from P on are gaps
(R23), the present records carry the numbers given last in cut order, no two the same (R29), and a record that is IN_LINE,
CLEARED or DELIVERED has no fault (R30, R31), so that no faulted blank is delivered. The notice queue stays lawful (R100):
each notice is for a present record of its format that is AWAITING, neither REJECTED nor LOST, no two are for one blank, and
they stand in cut order; for this a VALID format keeps its single INSPECT station (R140). That a record DELIVERED without a
decision keeps its notice is the model's reading (log 36). -/
def Obligations.StepKeepsRingLaws : Prop :=
  ∀ s t : State, ConstantsInRange s → OfflineEmpty s → OutsideLineGaps s → SeqsInCutOrder s → step s = .next t →
    OfflineEmpty t ∧ OutsideLineGaps t ∧ SeqsInCutOrder t ∧ (RecordsClean s → RecordsClean t)
    ∧ (SingleInspect s → SingleInspect t)
    ∧ (InUseValid s → SingleInspect s → NoticesLawful s → NoticesLawful t)

/-- Every step keeps every slot in use VALID (R137), given that positions from P on are gaps (R23), which every step keeps
as well. -/
def Obligations.StepKeepsUsedSlotsValid : Prop :=
  ∀ s t : State, ConstantsInRange s → OutsideLineGaps s → InUseValid s → step s = .next t → InUseValid t

/-- What READ NEXT and READ SEQ assure of a record for as long as it is in the ring (R40): through every step it keeps
its format, its faults and operations only grow, its disposition moves only along the changes of section 2.4, and once it is
REJECTED, DELIVERED or LOST nothing of it changes but reg_err (R27). -/
def Obligations.RecordsKeepTheirFate : Prop :=
  ∀ (s t : State) (j k : Fin 64) (b b' : Blank),
    ConstantsInRange s → OfflineEmpty s → OutsideLineGaps s → SeqsInCutOrder s →
    s.presentAt j = some b → step s = .next t → t.presentAt k = some b' → b'.seq = b.seq →
    b'.fmt = b.fmt ∧ (∀ f, b.hasFault f = true → b'.hasFault f = true)
    ∧ (∀ o, b.hasOp o = true → b'.hasOp o = true) ∧ leadsTo b.disposition b'.disposition = true
    ∧ (b.disposition.final = true → b' = { b with regErr := b'.regErr })
end

