-- ==== Sys2Proof/Laws/State.lean ====
section
/-!
SUPPORT. One lemma for each field and each update of the state, so that no proof unfolds an update. Only the field an
update is named for changes; where its new value is long it is left to the update's own definition.
-/

namespace Sys2Proof.Laws

open Sys2Proof.Machine

variable (s : State)

/-! ### respond -/

@[simp] theorem respond_constants (p : Port) (r : Response) : (s.respond p r).constants = s.constants := rfl
@[simp] theorem respond_angle (p : Port) (r : Response) : (s.respond p r).angle = s.angle := rfl
@[simp] theorem respond_cells (p : Port) (r : Response) : (s.respond p r).cells = s.cells := rfl
@[simp] theorem respond_ring (p : Port) (r : Response) : (s.respond p r).ring = s.ring := rfl
@[simp] theorem respond_stations (p : Port) (r : Response) : (s.respond p r).stations = s.stations := rfl
@[simp] theorem respond_registration (p : Port) (r : Response) : (s.respond p r).registration = s.registration := rfl
@[simp] theorem respond_gum (p : Port) (r : Response) : (s.respond p r).gum = s.gum := rfl
@[simp] theorem respond_notices (p : Port) (r : Response) : (s.respond p r).notices = s.notices := rfl
@[simp] theorem respond_batch (p : Port) (r : Response) : (s.respond p r).batch = s.batch := rfl
@[simp] theorem respond_slots (p : Port) (r : Response) : (s.respond p r).slots = s.slots := rfl
@[simp] theorem respond_active (p : Port) (r : Response) : (s.respond p r).active = s.active := rfl
@[simp] theorem respond_pendingSlot (p : Port) (r : Response) : (s.respond p r).pendingSlot = s.pendingSlot := rfl
@[simp] theorem respond_fresh (p : Port) (r : Response) : (s.respond p r).fresh = s.fresh := rfl
@[simp] theorem respond_cym (p : Port) (r : Response) : (s.respond p r).cym = s.cym := rfl
@[simp] theorem respond_locks (p : Port) (r : Response) : (s.respond p r).locks = s.locks := rfl
@[simp] theorem respond_line (p : Port) (r : Response) : (s.respond p r).line = s.line := rfl
@[simp] theorem respond_ports (p : Port) (r : Response) : (s.respond p r).ports = s.ports.set p { s.ports.get p with response := r } := rfl
@[simp] theorem respond_frames (p : Port) (r : Response) : (s.respond p r).frames = s.frames := rfl
@[simp] theorem respond_opaHigh (p : Port) (r : Response) : (s.respond p r).opaHigh = s.opaHigh := rfl
@[simp] theorem respond_opbHigh (p : Port) (r : Response) : (s.respond p r).opbHigh = s.opbHigh := rfl
@[simp] theorem respond_heldInReset (p : Port) (r : Response) : (s.respond p r).heldInReset = s.heldInReset := rfl
@[simp] theorem respond_choice (p : Port) (r : Response) : (s.respond p r).choice = s.choice := rfl
@[simp] theorem respond_pending (p : Port) (r : Response) : (s.respond p r).pending = s.pending := rfl

/-! ### updStation -/

@[simp] theorem updStation_constants (k : Fin 4) (i : Fin 16) (f : Station → Station) : (s.updStation k i f).constants = s.constants := rfl
@[simp] theorem updStation_angle (k : Fin 4) (i : Fin 16) (f : Station → Station) : (s.updStation k i f).angle = s.angle := rfl
@[simp] theorem updStation_cells (k : Fin 4) (i : Fin 16) (f : Station → Station) : (s.updStation k i f).cells = s.cells := rfl
@[simp] theorem updStation_ring (k : Fin 4) (i : Fin 16) (f : Station → Station) : (s.updStation k i f).ring = s.ring := rfl
@[simp] theorem updStation_stations (k : Fin 4) (i : Fin 16) (f : Station → Station) : (s.updStation k i f).stations = setAt s.stations k (setAt s.stations[k] i (f s.stations[k][i])) := rfl
@[simp] theorem updStation_registration (k : Fin 4) (i : Fin 16) (f : Station → Station) : (s.updStation k i f).registration = s.registration := rfl
@[simp] theorem updStation_gum (k : Fin 4) (i : Fin 16) (f : Station → Station) : (s.updStation k i f).gum = s.gum := rfl
@[simp] theorem updStation_notices (k : Fin 4) (i : Fin 16) (f : Station → Station) : (s.updStation k i f).notices = s.notices := rfl
@[simp] theorem updStation_batch (k : Fin 4) (i : Fin 16) (f : Station → Station) : (s.updStation k i f).batch = s.batch := rfl
@[simp] theorem updStation_slots (k : Fin 4) (i : Fin 16) (f : Station → Station) : (s.updStation k i f).slots = s.slots := rfl
@[simp] theorem updStation_active (k : Fin 4) (i : Fin 16) (f : Station → Station) : (s.updStation k i f).active = s.active := rfl
@[simp] theorem updStation_pendingSlot (k : Fin 4) (i : Fin 16) (f : Station → Station) : (s.updStation k i f).pendingSlot = s.pendingSlot := rfl
@[simp] theorem updStation_fresh (k : Fin 4) (i : Fin 16) (f : Station → Station) : (s.updStation k i f).fresh = s.fresh := rfl
@[simp] theorem updStation_cym (k : Fin 4) (i : Fin 16) (f : Station → Station) : (s.updStation k i f).cym = s.cym := rfl
@[simp] theorem updStation_locks (k : Fin 4) (i : Fin 16) (f : Station → Station) : (s.updStation k i f).locks = s.locks := rfl
@[simp] theorem updStation_line (k : Fin 4) (i : Fin 16) (f : Station → Station) : (s.updStation k i f).line = s.line := rfl
@[simp] theorem updStation_ports (k : Fin 4) (i : Fin 16) (f : Station → Station) : (s.updStation k i f).ports = s.ports := rfl
@[simp] theorem updStation_frames (k : Fin 4) (i : Fin 16) (f : Station → Station) : (s.updStation k i f).frames = s.frames := rfl
@[simp] theorem updStation_opaHigh (k : Fin 4) (i : Fin 16) (f : Station → Station) : (s.updStation k i f).opaHigh = s.opaHigh := rfl
@[simp] theorem updStation_opbHigh (k : Fin 4) (i : Fin 16) (f : Station → Station) : (s.updStation k i f).opbHigh = s.opbHigh := rfl
@[simp] theorem updStation_heldInReset (k : Fin 4) (i : Fin 16) (f : Station → Station) : (s.updStation k i f).heldInReset = s.heldInReset := rfl
@[simp] theorem updStation_choice (k : Fin 4) (i : Fin 16) (f : Station → Station) : (s.updStation k i f).choice = s.choice := rfl
@[simp] theorem updStation_pending (k : Fin 4) (i : Fin 16) (f : Station → Station) : (s.updStation k i f).pending = s.pending := rfl

/-! ### mapSlots -/

@[simp] theorem mapSlots_constants (f : Fin 4 → Vector Station 16 → Vector Station 16) : (s.mapSlots f).constants = s.constants := rfl
@[simp] theorem mapSlots_angle (f : Fin 4 → Vector Station 16 → Vector Station 16) : (s.mapSlots f).angle = s.angle := rfl
@[simp] theorem mapSlots_cells (f : Fin 4 → Vector Station 16 → Vector Station 16) : (s.mapSlots f).cells = s.cells := rfl
@[simp] theorem mapSlots_ring (f : Fin 4 → Vector Station 16 → Vector Station 16) : (s.mapSlots f).ring = s.ring := rfl
@[simp] theorem mapSlots_stations (f : Fin 4 → Vector Station 16 → Vector Station 16) : (s.mapSlots f).stations = mapTable f s.stations := rfl
@[simp] theorem mapSlots_registration (f : Fin 4 → Vector Station 16 → Vector Station 16) : (s.mapSlots f).registration = s.registration := rfl
@[simp] theorem mapSlots_gum (f : Fin 4 → Vector Station 16 → Vector Station 16) : (s.mapSlots f).gum = s.gum := rfl
@[simp] theorem mapSlots_notices (f : Fin 4 → Vector Station 16 → Vector Station 16) : (s.mapSlots f).notices = s.notices := rfl
@[simp] theorem mapSlots_batch (f : Fin 4 → Vector Station 16 → Vector Station 16) : (s.mapSlots f).batch = s.batch := rfl
@[simp] theorem mapSlots_slots (f : Fin 4 → Vector Station 16 → Vector Station 16) : (s.mapSlots f).slots = s.slots := rfl
@[simp] theorem mapSlots_active (f : Fin 4 → Vector Station 16 → Vector Station 16) : (s.mapSlots f).active = s.active := rfl
@[simp] theorem mapSlots_pendingSlot (f : Fin 4 → Vector Station 16 → Vector Station 16) : (s.mapSlots f).pendingSlot = s.pendingSlot := rfl
@[simp] theorem mapSlots_fresh (f : Fin 4 → Vector Station 16 → Vector Station 16) : (s.mapSlots f).fresh = s.fresh := rfl
@[simp] theorem mapSlots_cym (f : Fin 4 → Vector Station 16 → Vector Station 16) : (s.mapSlots f).cym = s.cym := rfl
@[simp] theorem mapSlots_locks (f : Fin 4 → Vector Station 16 → Vector Station 16) : (s.mapSlots f).locks = s.locks := rfl
@[simp] theorem mapSlots_line (f : Fin 4 → Vector Station 16 → Vector Station 16) : (s.mapSlots f).line = s.line := rfl
@[simp] theorem mapSlots_ports (f : Fin 4 → Vector Station 16 → Vector Station 16) : (s.mapSlots f).ports = s.ports := rfl
@[simp] theorem mapSlots_frames (f : Fin 4 → Vector Station 16 → Vector Station 16) : (s.mapSlots f).frames = s.frames := rfl
@[simp] theorem mapSlots_opaHigh (f : Fin 4 → Vector Station 16 → Vector Station 16) : (s.mapSlots f).opaHigh = s.opaHigh := rfl
@[simp] theorem mapSlots_opbHigh (f : Fin 4 → Vector Station 16 → Vector Station 16) : (s.mapSlots f).opbHigh = s.opbHigh := rfl
@[simp] theorem mapSlots_heldInReset (f : Fin 4 → Vector Station 16 → Vector Station 16) : (s.mapSlots f).heldInReset = s.heldInReset := rfl
@[simp] theorem mapSlots_choice (f : Fin 4 → Vector Station 16 → Vector Station 16) : (s.mapSlots f).choice = s.choice := rfl
@[simp] theorem mapSlots_pending (f : Fin 4 → Vector Station 16 → Vector Station 16) : (s.mapSlots f).pending = s.pending := rfl

/-! ### mapStations -/

@[simp] theorem mapStations_constants (f : Fin 4 → Fin 16 → Station → Station) : (s.mapStations f).constants = s.constants := rfl
@[simp] theorem mapStations_angle (f : Fin 4 → Fin 16 → Station → Station) : (s.mapStations f).angle = s.angle := rfl
@[simp] theorem mapStations_cells (f : Fin 4 → Fin 16 → Station → Station) : (s.mapStations f).cells = s.cells := rfl
@[simp] theorem mapStations_ring (f : Fin 4 → Fin 16 → Station → Station) : (s.mapStations f).ring = s.ring := rfl
@[simp] theorem mapStations_stations (f : Fin 4 → Fin 16 → Station → Station) : (s.mapStations f).stations = mapTable (fun k t => mapTable (f k) t) s.stations := rfl
@[simp] theorem mapStations_registration (f : Fin 4 → Fin 16 → Station → Station) : (s.mapStations f).registration = s.registration := rfl
@[simp] theorem mapStations_gum (f : Fin 4 → Fin 16 → Station → Station) : (s.mapStations f).gum = s.gum := rfl
@[simp] theorem mapStations_notices (f : Fin 4 → Fin 16 → Station → Station) : (s.mapStations f).notices = s.notices := rfl
@[simp] theorem mapStations_batch (f : Fin 4 → Fin 16 → Station → Station) : (s.mapStations f).batch = s.batch := rfl
@[simp] theorem mapStations_slots (f : Fin 4 → Fin 16 → Station → Station) : (s.mapStations f).slots = s.slots := rfl
@[simp] theorem mapStations_active (f : Fin 4 → Fin 16 → Station → Station) : (s.mapStations f).active = s.active := rfl
@[simp] theorem mapStations_pendingSlot (f : Fin 4 → Fin 16 → Station → Station) : (s.mapStations f).pendingSlot = s.pendingSlot := rfl
@[simp] theorem mapStations_fresh (f : Fin 4 → Fin 16 → Station → Station) : (s.mapStations f).fresh = s.fresh := rfl
@[simp] theorem mapStations_cym (f : Fin 4 → Fin 16 → Station → Station) : (s.mapStations f).cym = s.cym := rfl
@[simp] theorem mapStations_locks (f : Fin 4 → Fin 16 → Station → Station) : (s.mapStations f).locks = s.locks := rfl
@[simp] theorem mapStations_line (f : Fin 4 → Fin 16 → Station → Station) : (s.mapStations f).line = s.line := rfl
@[simp] theorem mapStations_ports (f : Fin 4 → Fin 16 → Station → Station) : (s.mapStations f).ports = s.ports := rfl
@[simp] theorem mapStations_frames (f : Fin 4 → Fin 16 → Station → Station) : (s.mapStations f).frames = s.frames := rfl
@[simp] theorem mapStations_opaHigh (f : Fin 4 → Fin 16 → Station → Station) : (s.mapStations f).opaHigh = s.opaHigh := rfl
@[simp] theorem mapStations_opbHigh (f : Fin 4 → Fin 16 → Station → Station) : (s.mapStations f).opbHigh = s.opbHigh := rfl
@[simp] theorem mapStations_heldInReset (f : Fin 4 → Fin 16 → Station → Station) : (s.mapStations f).heldInReset = s.heldInReset := rfl
@[simp] theorem mapStations_choice (f : Fin 4 → Fin 16 → Station → Station) : (s.mapStations f).choice = s.choice := rfl
@[simp] theorem mapStations_pending (f : Fin 4 → Fin 16 → Station → Station) : (s.mapStations f).pending = s.pending := rfl

/-! ### prune -/

@[simp] theorem prune_constants : (s.prune).constants = s.constants := rfl
@[simp] theorem prune_angle : (s.prune).angle = s.angle := rfl
@[simp] theorem prune_cells : (s.prune).cells = s.cells := rfl
@[simp] theorem prune_ring : (s.prune).ring = s.ring := rfl
@[simp] theorem prune_registration : (s.prune).registration = s.registration := rfl
@[simp] theorem prune_gum : (s.prune).gum = s.gum := rfl
@[simp] theorem prune_notices : (s.prune).notices = s.notices := rfl
@[simp] theorem prune_batch : (s.prune).batch = s.batch := rfl
@[simp] theorem prune_slots : (s.prune).slots = s.slots := rfl
@[simp] theorem prune_active : (s.prune).active = s.active := rfl
@[simp] theorem prune_pendingSlot : (s.prune).pendingSlot = s.pendingSlot := rfl
@[simp] theorem prune_fresh : (s.prune).fresh = s.fresh := rfl
@[simp] theorem prune_cym : (s.prune).cym = s.cym := rfl
@[simp] theorem prune_locks : (s.prune).locks = s.locks := rfl
@[simp] theorem prune_line : (s.prune).line = s.line := rfl
@[simp] theorem prune_ports : (s.prune).ports = s.ports := rfl
@[simp] theorem prune_frames : (s.prune).frames = s.frames := rfl
@[simp] theorem prune_opaHigh : (s.prune).opaHigh = s.opaHigh := rfl
@[simp] theorem prune_opbHigh : (s.prune).opbHigh = s.opbHigh := rfl
@[simp] theorem prune_heldInReset : (s.prune).heldInReset = s.heldInReset := rfl
@[simp] theorem prune_choice : (s.prune).choice = s.choice := rfl
@[simp] theorem prune_pending : (s.prune).pending = s.pending := rfl

/-! ### putAt -/

@[simp] theorem putAt_constants (k : Fin 64) (b : Option Blank) : (s.putAt k b).constants = s.constants := rfl
@[simp] theorem putAt_angle (k : Fin 64) (b : Option Blank) : (s.putAt k b).angle = s.angle := rfl
@[simp] theorem putAt_cells (k : Fin 64) (b : Option Blank) : (s.putAt k b).cells = s.cells := rfl
@[simp] theorem putAt_ring (k : Fin 64) (b : Option Blank) : (s.putAt k b).ring = { s.ring with entries := setAt s.ring.entries (s.ring.head + k) b } := rfl
@[simp] theorem putAt_stations (k : Fin 64) (b : Option Blank) : (s.putAt k b).stations = s.stations := rfl
@[simp] theorem putAt_registration (k : Fin 64) (b : Option Blank) : (s.putAt k b).registration = s.registration := rfl
@[simp] theorem putAt_gum (k : Fin 64) (b : Option Blank) : (s.putAt k b).gum = s.gum := rfl
@[simp] theorem putAt_notices (k : Fin 64) (b : Option Blank) : (s.putAt k b).notices = s.notices := rfl
@[simp] theorem putAt_batch (k : Fin 64) (b : Option Blank) : (s.putAt k b).batch = s.batch := rfl
@[simp] theorem putAt_slots (k : Fin 64) (b : Option Blank) : (s.putAt k b).slots = s.slots := rfl
@[simp] theorem putAt_active (k : Fin 64) (b : Option Blank) : (s.putAt k b).active = s.active := rfl
@[simp] theorem putAt_pendingSlot (k : Fin 64) (b : Option Blank) : (s.putAt k b).pendingSlot = s.pendingSlot := rfl
@[simp] theorem putAt_fresh (k : Fin 64) (b : Option Blank) : (s.putAt k b).fresh = s.fresh := rfl
@[simp] theorem putAt_cym (k : Fin 64) (b : Option Blank) : (s.putAt k b).cym = s.cym := rfl
@[simp] theorem putAt_locks (k : Fin 64) (b : Option Blank) : (s.putAt k b).locks = s.locks := rfl
@[simp] theorem putAt_line (k : Fin 64) (b : Option Blank) : (s.putAt k b).line = s.line := rfl
@[simp] theorem putAt_ports (k : Fin 64) (b : Option Blank) : (s.putAt k b).ports = s.ports := rfl
@[simp] theorem putAt_frames (k : Fin 64) (b : Option Blank) : (s.putAt k b).frames = s.frames := rfl
@[simp] theorem putAt_opaHigh (k : Fin 64) (b : Option Blank) : (s.putAt k b).opaHigh = s.opaHigh := rfl
@[simp] theorem putAt_opbHigh (k : Fin 64) (b : Option Blank) : (s.putAt k b).opbHigh = s.opbHigh := rfl
@[simp] theorem putAt_heldInReset (k : Fin 64) (b : Option Blank) : (s.putAt k b).heldInReset = s.heldInReset := rfl
@[simp] theorem putAt_choice (k : Fin 64) (b : Option Blank) : (s.putAt k b).choice = s.choice := rfl
@[simp] theorem putAt_pending (k : Fin 64) (b : Option Blank) : (s.putAt k b).pending = s.pending := rfl

/-! ### updateAll -/

@[simp] theorem updateAll_constants (f : Blank → Blank) : (s.updateAll f).constants = s.constants := by simp only [State.updateAll]
@[simp] theorem updateAll_angle (f : Blank → Blank) : (s.updateAll f).angle = s.angle := by simp only [State.updateAll]
@[simp] theorem updateAll_cells (f : Blank → Blank) : (s.updateAll f).cells = s.cells := by simp only [State.updateAll]
@[simp] theorem updateAll_stations (f : Blank → Blank) : (s.updateAll f).stations = s.stations := by simp only [State.updateAll]
@[simp] theorem updateAll_registration (f : Blank → Blank) : (s.updateAll f).registration = s.registration := by simp only [State.updateAll]
@[simp] theorem updateAll_gum (f : Blank → Blank) : (s.updateAll f).gum = s.gum := by simp only [State.updateAll]
@[simp] theorem updateAll_notices (f : Blank → Blank) : (s.updateAll f).notices = s.notices := by simp only [State.updateAll]
@[simp] theorem updateAll_batch (f : Blank → Blank) : (s.updateAll f).batch = s.batch := by simp only [State.updateAll]
@[simp] theorem updateAll_slots (f : Blank → Blank) : (s.updateAll f).slots = s.slots := by simp only [State.updateAll]
@[simp] theorem updateAll_active (f : Blank → Blank) : (s.updateAll f).active = s.active := by simp only [State.updateAll]
@[simp] theorem updateAll_pendingSlot (f : Blank → Blank) : (s.updateAll f).pendingSlot = s.pendingSlot := by simp only [State.updateAll]
@[simp] theorem updateAll_fresh (f : Blank → Blank) : (s.updateAll f).fresh = s.fresh := by simp only [State.updateAll]
@[simp] theorem updateAll_cym (f : Blank → Blank) : (s.updateAll f).cym = s.cym := by simp only [State.updateAll]
@[simp] theorem updateAll_locks (f : Blank → Blank) : (s.updateAll f).locks = s.locks := by simp only [State.updateAll]
@[simp] theorem updateAll_line (f : Blank → Blank) : (s.updateAll f).line = s.line := by simp only [State.updateAll]
@[simp] theorem updateAll_ports (f : Blank → Blank) : (s.updateAll f).ports = s.ports := by simp only [State.updateAll]
@[simp] theorem updateAll_frames (f : Blank → Blank) : (s.updateAll f).frames = s.frames := by simp only [State.updateAll]
@[simp] theorem updateAll_opaHigh (f : Blank → Blank) : (s.updateAll f).opaHigh = s.opaHigh := by simp only [State.updateAll]
@[simp] theorem updateAll_opbHigh (f : Blank → Blank) : (s.updateAll f).opbHigh = s.opbHigh := by simp only [State.updateAll]
@[simp] theorem updateAll_heldInReset (f : Blank → Blank) : (s.updateAll f).heldInReset = s.heldInReset := by simp only [State.updateAll]
@[simp] theorem updateAll_choice (f : Blank → Blank) : (s.updateAll f).choice = s.choice := by simp only [State.updateAll]
@[simp] theorem updateAll_pending (f : Blank → Blank) : (s.updateAll f).pending = s.pending := by simp only [State.updateAll]

/-! ### withdraw -/

@[simp] theorem withdraw_constants (n : Word) : (s.withdraw n).constants = s.constants := rfl
@[simp] theorem withdraw_angle (n : Word) : (s.withdraw n).angle = s.angle := rfl
@[simp] theorem withdraw_cells (n : Word) : (s.withdraw n).cells = s.cells := rfl
@[simp] theorem withdraw_ring (n : Word) : (s.withdraw n).ring = s.ring := rfl
@[simp] theorem withdraw_stations (n : Word) : (s.withdraw n).stations = s.stations := rfl
@[simp] theorem withdraw_registration (n : Word) : (s.withdraw n).registration = s.registration := rfl
@[simp] theorem withdraw_gum (n : Word) : (s.withdraw n).gum = s.gum := rfl
@[simp] theorem withdraw_notices (n : Word) : (s.withdraw n).notices = s.notices.filter fun x => x.seq ≠ n := rfl
@[simp] theorem withdraw_batch (n : Word) : (s.withdraw n).batch = s.batch := rfl
@[simp] theorem withdraw_slots (n : Word) : (s.withdraw n).slots = s.slots := rfl
@[simp] theorem withdraw_active (n : Word) : (s.withdraw n).active = s.active := rfl
@[simp] theorem withdraw_pendingSlot (n : Word) : (s.withdraw n).pendingSlot = s.pendingSlot := rfl
@[simp] theorem withdraw_fresh (n : Word) : (s.withdraw n).fresh = s.fresh := rfl
@[simp] theorem withdraw_cym (n : Word) : (s.withdraw n).cym = s.cym := rfl
@[simp] theorem withdraw_locks (n : Word) : (s.withdraw n).locks = s.locks := rfl
@[simp] theorem withdraw_line (n : Word) : (s.withdraw n).line = s.line := rfl
@[simp] theorem withdraw_ports (n : Word) : (s.withdraw n).ports = s.ports := rfl
@[simp] theorem withdraw_frames (n : Word) : (s.withdraw n).frames = s.frames := rfl
@[simp] theorem withdraw_opaHigh (n : Word) : (s.withdraw n).opaHigh = s.opaHigh := rfl
@[simp] theorem withdraw_opbHigh (n : Word) : (s.withdraw n).opbHigh = s.opbHigh := rfl
@[simp] theorem withdraw_heldInReset (n : Word) : (s.withdraw n).heldInReset = s.heldInReset := rfl
@[simp] theorem withdraw_choice (n : Word) : (s.withdraw n).choice = s.choice := rfl
@[simp] theorem withdraw_pending (n : Word) : (s.withdraw n).pending = s.pending := rfl

/-! ### setEvent -/

@[simp] theorem setEvent_constants (e : LineEvent) : (s.setEvent e).constants = s.constants := rfl
@[simp] theorem setEvent_angle (e : LineEvent) : (s.setEvent e).angle = s.angle := rfl
@[simp] theorem setEvent_cells (e : LineEvent) : (s.setEvent e).cells = s.cells := rfl
@[simp] theorem setEvent_ring (e : LineEvent) : (s.setEvent e).ring = s.ring := rfl
@[simp] theorem setEvent_stations (e : LineEvent) : (s.setEvent e).stations = s.stations := rfl
@[simp] theorem setEvent_registration (e : LineEvent) : (s.setEvent e).registration = s.registration := rfl
@[simp] theorem setEvent_gum (e : LineEvent) : (s.setEvent e).gum = s.gum := rfl
@[simp] theorem setEvent_notices (e : LineEvent) : (s.setEvent e).notices = s.notices := rfl
@[simp] theorem setEvent_batch (e : LineEvent) : (s.setEvent e).batch = s.batch := rfl
@[simp] theorem setEvent_slots (e : LineEvent) : (s.setEvent e).slots = s.slots := rfl
@[simp] theorem setEvent_active (e : LineEvent) : (s.setEvent e).active = s.active := rfl
@[simp] theorem setEvent_pendingSlot (e : LineEvent) : (s.setEvent e).pendingSlot = s.pendingSlot := rfl
@[simp] theorem setEvent_fresh (e : LineEvent) : (s.setEvent e).fresh = s.fresh := rfl
@[simp] theorem setEvent_cym (e : LineEvent) : (s.setEvent e).cym = s.cym := rfl
@[simp] theorem setEvent_locks (e : LineEvent) : (s.setEvent e).locks = s.locks := rfl
@[simp] theorem setEvent_line (e : LineEvent) : (s.setEvent e).line = { s.line with events := addBit s.line.events e.bit } := rfl
@[simp] theorem setEvent_ports (e : LineEvent) : (s.setEvent e).ports = s.ports := rfl
@[simp] theorem setEvent_frames (e : LineEvent) : (s.setEvent e).frames = s.frames := rfl
@[simp] theorem setEvent_opaHigh (e : LineEvent) : (s.setEvent e).opaHigh = s.opaHigh := rfl
@[simp] theorem setEvent_opbHigh (e : LineEvent) : (s.setEvent e).opbHigh = s.opbHigh := rfl
@[simp] theorem setEvent_heldInReset (e : LineEvent) : (s.setEvent e).heldInReset = s.heldInReset := rfl
@[simp] theorem setEvent_choice (e : LineEvent) : (s.setEvent e).choice = s.choice := rfl
@[simp] theorem setEvent_pending (e : LineEvent) : (s.setEvent e).pending = s.pending := rfl

/-! ### updCell -/

@[simp] theorem updCell_constants (i : Fin 16) (f : Cell → Cell) : (s.updCell i f).constants = s.constants := rfl
@[simp] theorem updCell_angle (i : Fin 16) (f : Cell → Cell) : (s.updCell i f).angle = s.angle := rfl
@[simp] theorem updCell_cells (i : Fin 16) (f : Cell → Cell) : (s.updCell i f).cells = setAt s.cells i (f s.cells[i]) := rfl
@[simp] theorem updCell_ring (i : Fin 16) (f : Cell → Cell) : (s.updCell i f).ring = s.ring := rfl
@[simp] theorem updCell_stations (i : Fin 16) (f : Cell → Cell) : (s.updCell i f).stations = s.stations := rfl
@[simp] theorem updCell_registration (i : Fin 16) (f : Cell → Cell) : (s.updCell i f).registration = s.registration := rfl
@[simp] theorem updCell_gum (i : Fin 16) (f : Cell → Cell) : (s.updCell i f).gum = s.gum := rfl
@[simp] theorem updCell_notices (i : Fin 16) (f : Cell → Cell) : (s.updCell i f).notices = s.notices := rfl
@[simp] theorem updCell_batch (i : Fin 16) (f : Cell → Cell) : (s.updCell i f).batch = s.batch := rfl
@[simp] theorem updCell_slots (i : Fin 16) (f : Cell → Cell) : (s.updCell i f).slots = s.slots := rfl
@[simp] theorem updCell_active (i : Fin 16) (f : Cell → Cell) : (s.updCell i f).active = s.active := rfl
@[simp] theorem updCell_pendingSlot (i : Fin 16) (f : Cell → Cell) : (s.updCell i f).pendingSlot = s.pendingSlot := rfl
@[simp] theorem updCell_fresh (i : Fin 16) (f : Cell → Cell) : (s.updCell i f).fresh = s.fresh := rfl
@[simp] theorem updCell_cym (i : Fin 16) (f : Cell → Cell) : (s.updCell i f).cym = s.cym := rfl
@[simp] theorem updCell_locks (i : Fin 16) (f : Cell → Cell) : (s.updCell i f).locks = s.locks := rfl
@[simp] theorem updCell_line (i : Fin 16) (f : Cell → Cell) : (s.updCell i f).line = s.line := rfl
@[simp] theorem updCell_ports (i : Fin 16) (f : Cell → Cell) : (s.updCell i f).ports = s.ports := rfl
@[simp] theorem updCell_frames (i : Fin 16) (f : Cell → Cell) : (s.updCell i f).frames = s.frames := rfl
@[simp] theorem updCell_opaHigh (i : Fin 16) (f : Cell → Cell) : (s.updCell i f).opaHigh = s.opaHigh := rfl
@[simp] theorem updCell_opbHigh (i : Fin 16) (f : Cell → Cell) : (s.updCell i f).opbHigh = s.opbHigh := rfl
@[simp] theorem updCell_heldInReset (i : Fin 16) (f : Cell → Cell) : (s.updCell i f).heldInReset = s.heldInReset := rfl
@[simp] theorem updCell_choice (i : Fin 16) (f : Cell → Cell) : (s.updCell i f).choice = s.choice := rfl
@[simp] theorem updCell_pending (i : Fin 16) (f : Cell → Cell) : (s.updCell i f).pending = s.pending := rfl

/-! ### putWindow -/

@[simp] theorem putWindow_constants (p : Port) (w : ReadWindow) : (s.putWindow p w).constants = s.constants := rfl
@[simp] theorem putWindow_angle (p : Port) (w : ReadWindow) : (s.putWindow p w).angle = s.angle := rfl
@[simp] theorem putWindow_cells (p : Port) (w : ReadWindow) : (s.putWindow p w).cells = s.cells := rfl
@[simp] theorem putWindow_ring (p : Port) (w : ReadWindow) : (s.putWindow p w).ring = { s.ring with windows := s.ring.windows.set p w } := rfl
@[simp] theorem putWindow_stations (p : Port) (w : ReadWindow) : (s.putWindow p w).stations = s.stations := rfl
@[simp] theorem putWindow_registration (p : Port) (w : ReadWindow) : (s.putWindow p w).registration = s.registration := rfl
@[simp] theorem putWindow_gum (p : Port) (w : ReadWindow) : (s.putWindow p w).gum = s.gum := rfl
@[simp] theorem putWindow_notices (p : Port) (w : ReadWindow) : (s.putWindow p w).notices = s.notices := rfl
@[simp] theorem putWindow_batch (p : Port) (w : ReadWindow) : (s.putWindow p w).batch = s.batch := rfl
@[simp] theorem putWindow_slots (p : Port) (w : ReadWindow) : (s.putWindow p w).slots = s.slots := rfl
@[simp] theorem putWindow_active (p : Port) (w : ReadWindow) : (s.putWindow p w).active = s.active := rfl
@[simp] theorem putWindow_pendingSlot (p : Port) (w : ReadWindow) : (s.putWindow p w).pendingSlot = s.pendingSlot := rfl
@[simp] theorem putWindow_fresh (p : Port) (w : ReadWindow) : (s.putWindow p w).fresh = s.fresh := rfl
@[simp] theorem putWindow_cym (p : Port) (w : ReadWindow) : (s.putWindow p w).cym = s.cym := rfl
@[simp] theorem putWindow_locks (p : Port) (w : ReadWindow) : (s.putWindow p w).locks = s.locks := rfl
@[simp] theorem putWindow_line (p : Port) (w : ReadWindow) : (s.putWindow p w).line = s.line := rfl
@[simp] theorem putWindow_ports (p : Port) (w : ReadWindow) : (s.putWindow p w).ports = s.ports := rfl
@[simp] theorem putWindow_frames (p : Port) (w : ReadWindow) : (s.putWindow p w).frames = s.frames := rfl
@[simp] theorem putWindow_opaHigh (p : Port) (w : ReadWindow) : (s.putWindow p w).opaHigh = s.opaHigh := rfl
@[simp] theorem putWindow_opbHigh (p : Port) (w : ReadWindow) : (s.putWindow p w).opbHigh = s.opbHigh := rfl
@[simp] theorem putWindow_heldInReset (p : Port) (w : ReadWindow) : (s.putWindow p w).heldInReset = s.heldInReset := rfl
@[simp] theorem putWindow_choice (p : Port) (w : ReadWindow) : (s.putWindow p w).choice = s.choice := rfl
@[simp] theorem putWindow_pending (p : Port) (w : ReadWindow) : (s.putWindow p w).pending = s.pending := rfl

/-! ### putLock -/

@[simp] theorem putLock_constants (i : Fin 8) (l : Lock) : (s.putLock i l).constants = s.constants := rfl
@[simp] theorem putLock_angle (i : Fin 8) (l : Lock) : (s.putLock i l).angle = s.angle := rfl
@[simp] theorem putLock_cells (i : Fin 8) (l : Lock) : (s.putLock i l).cells = s.cells := rfl
@[simp] theorem putLock_ring (i : Fin 8) (l : Lock) : (s.putLock i l).ring = s.ring := rfl
@[simp] theorem putLock_stations (i : Fin 8) (l : Lock) : (s.putLock i l).stations = s.stations := rfl
@[simp] theorem putLock_registration (i : Fin 8) (l : Lock) : (s.putLock i l).registration = s.registration := rfl
@[simp] theorem putLock_gum (i : Fin 8) (l : Lock) : (s.putLock i l).gum = s.gum := rfl
@[simp] theorem putLock_notices (i : Fin 8) (l : Lock) : (s.putLock i l).notices = s.notices := rfl
@[simp] theorem putLock_batch (i : Fin 8) (l : Lock) : (s.putLock i l).batch = s.batch := rfl
@[simp] theorem putLock_slots (i : Fin 8) (l : Lock) : (s.putLock i l).slots = s.slots := rfl
@[simp] theorem putLock_active (i : Fin 8) (l : Lock) : (s.putLock i l).active = s.active := rfl
@[simp] theorem putLock_pendingSlot (i : Fin 8) (l : Lock) : (s.putLock i l).pendingSlot = s.pendingSlot := rfl
@[simp] theorem putLock_fresh (i : Fin 8) (l : Lock) : (s.putLock i l).fresh = s.fresh := rfl
@[simp] theorem putLock_cym (i : Fin 8) (l : Lock) : (s.putLock i l).cym = s.cym := rfl
@[simp] theorem putLock_locks (i : Fin 8) (l : Lock) : (s.putLock i l).locks = setAt s.locks i l := rfl
@[simp] theorem putLock_line (i : Fin 8) (l : Lock) : (s.putLock i l).line = s.line := rfl
@[simp] theorem putLock_ports (i : Fin 8) (l : Lock) : (s.putLock i l).ports = s.ports := rfl
@[simp] theorem putLock_frames (i : Fin 8) (l : Lock) : (s.putLock i l).frames = s.frames := rfl
@[simp] theorem putLock_opaHigh (i : Fin 8) (l : Lock) : (s.putLock i l).opaHigh = s.opaHigh := rfl
@[simp] theorem putLock_opbHigh (i : Fin 8) (l : Lock) : (s.putLock i l).opbHigh = s.opbHigh := rfl
@[simp] theorem putLock_heldInReset (i : Fin 8) (l : Lock) : (s.putLock i l).heldInReset = s.heldInReset := rfl
@[simp] theorem putLock_choice (i : Fin 8) (l : Lock) : (s.putLock i l).choice = s.choice := rfl
@[simp] theorem putLock_pending (i : Fin 8) (l : Lock) : (s.putLock i l).pending = s.pending := rfl

/-! ### putSlot -/

@[simp] theorem putSlot_constants (k : Fin 4) (f : Format) : (s.putSlot k f).constants = s.constants := rfl
@[simp] theorem putSlot_angle (k : Fin 4) (f : Format) : (s.putSlot k f).angle = s.angle := rfl
@[simp] theorem putSlot_cells (k : Fin 4) (f : Format) : (s.putSlot k f).cells = s.cells := rfl
@[simp] theorem putSlot_ring (k : Fin 4) (f : Format) : (s.putSlot k f).ring = s.ring := rfl
@[simp] theorem putSlot_stations (k : Fin 4) (f : Format) : (s.putSlot k f).stations = s.stations := rfl
@[simp] theorem putSlot_registration (k : Fin 4) (f : Format) : (s.putSlot k f).registration = s.registration := rfl
@[simp] theorem putSlot_gum (k : Fin 4) (f : Format) : (s.putSlot k f).gum = s.gum := rfl
@[simp] theorem putSlot_notices (k : Fin 4) (f : Format) : (s.putSlot k f).notices = s.notices := rfl
@[simp] theorem putSlot_batch (k : Fin 4) (f : Format) : (s.putSlot k f).batch = s.batch := rfl
@[simp] theorem putSlot_slots (k : Fin 4) (f : Format) : (s.putSlot k f).slots = setAt s.slots k f := rfl
@[simp] theorem putSlot_active (k : Fin 4) (f : Format) : (s.putSlot k f).active = s.active := rfl
@[simp] theorem putSlot_pendingSlot (k : Fin 4) (f : Format) : (s.putSlot k f).pendingSlot = s.pendingSlot := rfl
@[simp] theorem putSlot_fresh (k : Fin 4) (f : Format) : (s.putSlot k f).fresh = s.fresh := rfl
@[simp] theorem putSlot_cym (k : Fin 4) (f : Format) : (s.putSlot k f).cym = s.cym := rfl
@[simp] theorem putSlot_locks (k : Fin 4) (f : Format) : (s.putSlot k f).locks = s.locks := rfl
@[simp] theorem putSlot_line (k : Fin 4) (f : Format) : (s.putSlot k f).line = s.line := rfl
@[simp] theorem putSlot_ports (k : Fin 4) (f : Format) : (s.putSlot k f).ports = s.ports := rfl
@[simp] theorem putSlot_frames (k : Fin 4) (f : Format) : (s.putSlot k f).frames = s.frames := rfl
@[simp] theorem putSlot_opaHigh (k : Fin 4) (f : Format) : (s.putSlot k f).opaHigh = s.opaHigh := rfl
@[simp] theorem putSlot_opbHigh (k : Fin 4) (f : Format) : (s.putSlot k f).opbHigh = s.opbHigh := rfl
@[simp] theorem putSlot_heldInReset (k : Fin 4) (f : Format) : (s.putSlot k f).heldInReset = s.heldInReset := rfl
@[simp] theorem putSlot_choice (k : Fin 4) (f : Format) : (s.putSlot k f).choice = s.choice := rfl
@[simp] theorem putSlot_pending (k : Fin 4) (f : Format) : (s.putSlot k f).pending = s.pending := rfl

/-! ### setP -/

@[simp] theorem setP_constants (p : Nat) : (s.setP p).constants = s.constants := rfl
@[simp] theorem setP_angle (p : Nat) : (s.setP p).angle = { s.angle with p := p } := rfl
@[simp] theorem setP_cells (p : Nat) : (s.setP p).cells = s.cells := rfl
@[simp] theorem setP_ring (p : Nat) : (s.setP p).ring = s.ring := rfl
@[simp] theorem setP_stations (p : Nat) : (s.setP p).stations = s.stations := rfl
@[simp] theorem setP_registration (p : Nat) : (s.setP p).registration = s.registration := rfl
@[simp] theorem setP_gum (p : Nat) : (s.setP p).gum = s.gum := rfl
@[simp] theorem setP_notices (p : Nat) : (s.setP p).notices = s.notices := rfl
@[simp] theorem setP_batch (p : Nat) : (s.setP p).batch = s.batch := rfl
@[simp] theorem setP_slots (p : Nat) : (s.setP p).slots = s.slots := rfl
@[simp] theorem setP_active (p : Nat) : (s.setP p).active = s.active := rfl
@[simp] theorem setP_pendingSlot (p : Nat) : (s.setP p).pendingSlot = s.pendingSlot := rfl
@[simp] theorem setP_fresh (p : Nat) : (s.setP p).fresh = s.fresh := rfl
@[simp] theorem setP_cym (p : Nat) : (s.setP p).cym = s.cym := rfl
@[simp] theorem setP_locks (p : Nat) : (s.setP p).locks = s.locks := rfl
@[simp] theorem setP_line (p : Nat) : (s.setP p).line = s.line := rfl
@[simp] theorem setP_ports (p : Nat) : (s.setP p).ports = s.ports := rfl
@[simp] theorem setP_frames (p : Nat) : (s.setP p).frames = s.frames := rfl
@[simp] theorem setP_opaHigh (p : Nat) : (s.setP p).opaHigh = s.opaHigh := rfl
@[simp] theorem setP_opbHigh (p : Nat) : (s.setP p).opbHigh = s.opbHigh := rfl
@[simp] theorem setP_heldInReset (p : Nat) : (s.setP p).heldInReset = s.heldInReset := rfl
@[simp] theorem setP_choice (p : Nat) : (s.setP p).choice = s.choice := rfl
@[simp] theorem setP_pending (p : Nat) : (s.setP p).pending = s.pending := rfl

/-! ### counted -/

@[simp] theorem counted_constants (c : CountSense) : (s.counted c).constants = s.constants := rfl
@[simp] theorem counted_angle (c : CountSense) : (s.counted c).angle = { s.angle with haltTimer := 0, lastCount := some c } := rfl
@[simp] theorem counted_cells (c : CountSense) : (s.counted c).cells = s.cells := rfl
@[simp] theorem counted_ring (c : CountSense) : (s.counted c).ring = s.ring := rfl
@[simp] theorem counted_stations (c : CountSense) : (s.counted c).stations = s.stations := rfl
@[simp] theorem counted_registration (c : CountSense) : (s.counted c).registration = s.registration := rfl
@[simp] theorem counted_gum (c : CountSense) : (s.counted c).gum = s.gum := rfl
@[simp] theorem counted_notices (c : CountSense) : (s.counted c).notices = s.notices := rfl
@[simp] theorem counted_batch (c : CountSense) : (s.counted c).batch = s.batch := rfl
@[simp] theorem counted_slots (c : CountSense) : (s.counted c).slots = s.slots := rfl
@[simp] theorem counted_active (c : CountSense) : (s.counted c).active = s.active := rfl
@[simp] theorem counted_pendingSlot (c : CountSense) : (s.counted c).pendingSlot = s.pendingSlot := rfl
@[simp] theorem counted_fresh (c : CountSense) : (s.counted c).fresh = s.fresh := rfl
@[simp] theorem counted_cym (c : CountSense) : (s.counted c).cym = s.cym := rfl
@[simp] theorem counted_locks (c : CountSense) : (s.counted c).locks = s.locks := rfl
@[simp] theorem counted_line (c : CountSense) : (s.counted c).line = s.line := rfl
@[simp] theorem counted_ports (c : CountSense) : (s.counted c).ports = s.ports := rfl
@[simp] theorem counted_frames (c : CountSense) : (s.counted c).frames = s.frames := rfl
@[simp] theorem counted_opaHigh (c : CountSense) : (s.counted c).opaHigh = s.opaHigh := rfl
@[simp] theorem counted_opbHigh (c : CountSense) : (s.counted c).opbHigh = s.opbHigh := rfl
@[simp] theorem counted_heldInReset (c : CountSense) : (s.counted c).heldInReset = s.heldInReset := rfl
@[simp] theorem counted_choice (c : CountSense) : (s.counted c).choice = s.choice := rfl
@[simp] theorem counted_pending (c : CountSense) : (s.counted c).pending = s.pending := rfl

/-! ### transition -/

@[simp] theorem transition_constants (c : CountSense) : (s.transition c).constants = s.constants := rfl
@[simp] theorem transition_cells (c : CountSense) : (s.transition c).cells = s.cells := rfl
@[simp] theorem transition_ring (c : CountSense) : (s.transition c).ring = s.ring := rfl
@[simp] theorem transition_stations (c : CountSense) : (s.transition c).stations = s.stations := rfl
@[simp] theorem transition_registration (c : CountSense) : (s.transition c).registration = s.registration := rfl
@[simp] theorem transition_gum (c : CountSense) : (s.transition c).gum = s.gum := rfl
@[simp] theorem transition_notices (c : CountSense) : (s.transition c).notices = s.notices := rfl
@[simp] theorem transition_batch (c : CountSense) : (s.transition c).batch = s.batch := rfl
@[simp] theorem transition_slots (c : CountSense) : (s.transition c).slots = s.slots := rfl
@[simp] theorem transition_active (c : CountSense) : (s.transition c).active = s.active := rfl
@[simp] theorem transition_pendingSlot (c : CountSense) : (s.transition c).pendingSlot = s.pendingSlot := rfl
@[simp] theorem transition_fresh (c : CountSense) : (s.transition c).fresh = s.fresh := rfl
@[simp] theorem transition_cym (c : CountSense) : (s.transition c).cym = s.cym := rfl
@[simp] theorem transition_locks (c : CountSense) : (s.transition c).locks = s.locks := rfl
@[simp] theorem transition_line (c : CountSense) : (s.transition c).line = s.line := rfl
@[simp] theorem transition_ports (c : CountSense) : (s.transition c).ports = s.ports := rfl
@[simp] theorem transition_frames (c : CountSense) : (s.transition c).frames = s.frames := rfl
@[simp] theorem transition_opaHigh (c : CountSense) : (s.transition c).opaHigh = s.opaHigh := rfl
@[simp] theorem transition_opbHigh (c : CountSense) : (s.transition c).opbHigh = s.opbHigh := rfl
@[simp] theorem transition_heldInReset (c : CountSense) : (s.transition c).heldInReset = s.heldInReset := rfl
@[simp] theorem transition_choice (c : CountSense) : (s.transition c).choice = s.choice := rfl
@[simp] theorem transition_pending (c : CountSense) : (s.transition c).pending = s.pending := rfl

/-! ### enterMode -/

@[simp] theorem enterMode_constants (m : LineMode) : (s.enterMode m).constants = s.constants := rfl
@[simp] theorem enterMode_angle (m : LineMode) : (s.enterMode m).angle = s.angle := rfl
@[simp] theorem enterMode_cells (m : LineMode) : (s.enterMode m).cells = s.cells := rfl
@[simp] theorem enterMode_ring (m : LineMode) : (s.enterMode m).ring = s.ring := rfl
@[simp] theorem enterMode_stations (m : LineMode) : (s.enterMode m).stations = s.stations := rfl
@[simp] theorem enterMode_registration (m : LineMode) : (s.enterMode m).registration = s.registration := rfl
@[simp] theorem enterMode_gum (m : LineMode) : (s.enterMode m).gum = s.gum := rfl
@[simp] theorem enterMode_notices (m : LineMode) : (s.enterMode m).notices = s.notices := rfl
@[simp] theorem enterMode_batch (m : LineMode) : (s.enterMode m).batch = s.batch := rfl
@[simp] theorem enterMode_slots (m : LineMode) : (s.enterMode m).slots = s.slots := rfl
@[simp] theorem enterMode_active (m : LineMode) : (s.enterMode m).active = s.active := rfl
@[simp] theorem enterMode_pendingSlot (m : LineMode) : (s.enterMode m).pendingSlot = s.pendingSlot := rfl
@[simp] theorem enterMode_fresh (m : LineMode) : (s.enterMode m).fresh = s.fresh := rfl
@[simp] theorem enterMode_cym (m : LineMode) : (s.enterMode m).cym = s.cym := rfl
@[simp] theorem enterMode_locks (m : LineMode) : (s.enterMode m).locks = s.locks := rfl
@[simp] theorem enterMode_line (m : LineMode) : (s.enterMode m).line = { s.line with mode := m, causes := 0 } := rfl
@[simp] theorem enterMode_ports (m : LineMode) : (s.enterMode m).ports = s.ports := rfl
@[simp] theorem enterMode_frames (m : LineMode) : (s.enterMode m).frames = s.frames := rfl
@[simp] theorem enterMode_opaHigh (m : LineMode) : (s.enterMode m).opaHigh = s.opaHigh := rfl
@[simp] theorem enterMode_opbHigh (m : LineMode) : (s.enterMode m).opbHigh = s.opbHigh := rfl
@[simp] theorem enterMode_heldInReset (m : LineMode) : (s.enterMode m).heldInReset = s.heldInReset := rfl
@[simp] theorem enterMode_choice (m : LineMode) : (s.enterMode m).choice = s.choice := rfl
@[simp] theorem enterMode_pending (m : LineMode) : (s.enterMode m).pending = s.pending := rfl

/-! ### updBatch -/

@[simp] theorem updBatch_constants (f : BatchFields → BatchFields) : (s.updBatch f).constants = s.constants := rfl
@[simp] theorem updBatch_angle (f : BatchFields → BatchFields) : (s.updBatch f).angle = s.angle := rfl
@[simp] theorem updBatch_cells (f : BatchFields → BatchFields) : (s.updBatch f).cells = s.cells := rfl
@[simp] theorem updBatch_ring (f : BatchFields → BatchFields) : (s.updBatch f).ring = s.ring := rfl
@[simp] theorem updBatch_stations (f : BatchFields → BatchFields) : (s.updBatch f).stations = s.stations := rfl
@[simp] theorem updBatch_registration (f : BatchFields → BatchFields) : (s.updBatch f).registration = s.registration := rfl
@[simp] theorem updBatch_gum (f : BatchFields → BatchFields) : (s.updBatch f).gum = s.gum := rfl
@[simp] theorem updBatch_notices (f : BatchFields → BatchFields) : (s.updBatch f).notices = s.notices := rfl
@[simp] theorem updBatch_slots (f : BatchFields → BatchFields) : (s.updBatch f).slots = s.slots := rfl
@[simp] theorem updBatch_active (f : BatchFields → BatchFields) : (s.updBatch f).active = s.active := rfl
@[simp] theorem updBatch_pendingSlot (f : BatchFields → BatchFields) : (s.updBatch f).pendingSlot = s.pendingSlot := rfl
@[simp] theorem updBatch_fresh (f : BatchFields → BatchFields) : (s.updBatch f).fresh = s.fresh := rfl
@[simp] theorem updBatch_cym (f : BatchFields → BatchFields) : (s.updBatch f).cym = s.cym := rfl
@[simp] theorem updBatch_locks (f : BatchFields → BatchFields) : (s.updBatch f).locks = s.locks := rfl
@[simp] theorem updBatch_line (f : BatchFields → BatchFields) : (s.updBatch f).line = s.line := rfl
@[simp] theorem updBatch_ports (f : BatchFields → BatchFields) : (s.updBatch f).ports = s.ports := rfl
@[simp] theorem updBatch_frames (f : BatchFields → BatchFields) : (s.updBatch f).frames = s.frames := rfl
@[simp] theorem updBatch_opaHigh (f : BatchFields → BatchFields) : (s.updBatch f).opaHigh = s.opaHigh := rfl
@[simp] theorem updBatch_opbHigh (f : BatchFields → BatchFields) : (s.updBatch f).opbHigh = s.opbHigh := rfl
@[simp] theorem updBatch_heldInReset (f : BatchFields → BatchFields) : (s.updBatch f).heldInReset = s.heldInReset := rfl
@[simp] theorem updBatch_choice (f : BatchFields → BatchFields) : (s.updBatch f).choice = s.choice := rfl
@[simp] theorem updBatch_pending (f : BatchFields → BatchFields) : (s.updBatch f).pending = s.pending := rfl

/-! ### setBatchState -/

@[simp] theorem setBatchState_constants (b : BatchState) : (s.setBatchState b).constants = s.constants := rfl
@[simp] theorem setBatchState_angle (b : BatchState) : (s.setBatchState b).angle = s.angle := rfl
@[simp] theorem setBatchState_cells (b : BatchState) : (s.setBatchState b).cells = s.cells := rfl
@[simp] theorem setBatchState_ring (b : BatchState) : (s.setBatchState b).ring = s.ring := rfl
@[simp] theorem setBatchState_stations (b : BatchState) : (s.setBatchState b).stations = s.stations := rfl
@[simp] theorem setBatchState_registration (b : BatchState) : (s.setBatchState b).registration = s.registration := rfl
@[simp] theorem setBatchState_gum (b : BatchState) : (s.setBatchState b).gum = s.gum := rfl
@[simp] theorem setBatchState_notices (b : BatchState) : (s.setBatchState b).notices = s.notices := rfl
@[simp] theorem setBatchState_slots (b : BatchState) : (s.setBatchState b).slots = s.slots := rfl
@[simp] theorem setBatchState_active (b : BatchState) : (s.setBatchState b).active = s.active := rfl
@[simp] theorem setBatchState_pendingSlot (b : BatchState) : (s.setBatchState b).pendingSlot = s.pendingSlot := rfl
@[simp] theorem setBatchState_fresh (b : BatchState) : (s.setBatchState b).fresh = s.fresh := rfl
@[simp] theorem setBatchState_cym (b : BatchState) : (s.setBatchState b).cym = s.cym := rfl
@[simp] theorem setBatchState_locks (b : BatchState) : (s.setBatchState b).locks = s.locks := rfl
@[simp] theorem setBatchState_line (b : BatchState) : (s.setBatchState b).line = s.line := rfl
@[simp] theorem setBatchState_ports (b : BatchState) : (s.setBatchState b).ports = s.ports := rfl
@[simp] theorem setBatchState_frames (b : BatchState) : (s.setBatchState b).frames = s.frames := rfl
@[simp] theorem setBatchState_opaHigh (b : BatchState) : (s.setBatchState b).opaHigh = s.opaHigh := rfl
@[simp] theorem setBatchState_opbHigh (b : BatchState) : (s.setBatchState b).opbHigh = s.opbHigh := rfl
@[simp] theorem setBatchState_heldInReset (b : BatchState) : (s.setBatchState b).heldInReset = s.heldInReset := rfl
@[simp] theorem setBatchState_choice (b : BatchState) : (s.setBatchState b).choice = s.choice := rfl
@[simp] theorem setBatchState_pending (b : BatchState) : (s.setBatchState b).pending = s.pending := rfl

/-! ### openBatchFor -/

@[simp] theorem openBatchFor_constants (k : Fin 4) : (s.openBatchFor k).constants = s.constants := rfl
@[simp] theorem openBatchFor_angle (k : Fin 4) : (s.openBatchFor k).angle = s.angle := rfl
@[simp] theorem openBatchFor_cells (k : Fin 4) : (s.openBatchFor k).cells = s.cells := rfl
@[simp] theorem openBatchFor_ring (k : Fin 4) : (s.openBatchFor k).ring = s.ring := rfl
@[simp] theorem openBatchFor_stations (k : Fin 4) : (s.openBatchFor k).stations = s.stations := rfl
@[simp] theorem openBatchFor_registration (k : Fin 4) : (s.openBatchFor k).registration = s.registration := rfl
@[simp] theorem openBatchFor_gum (k : Fin 4) : (s.openBatchFor k).gum = s.gum := rfl
@[simp] theorem openBatchFor_notices (k : Fin 4) : (s.openBatchFor k).notices = s.notices := rfl
@[simp] theorem openBatchFor_slots (k : Fin 4) : (s.openBatchFor k).slots = s.slots := rfl
@[simp] theorem openBatchFor_active (k : Fin 4) : (s.openBatchFor k).active = s.active := rfl
@[simp] theorem openBatchFor_pendingSlot (k : Fin 4) : (s.openBatchFor k).pendingSlot = s.pendingSlot := rfl
@[simp] theorem openBatchFor_fresh (k : Fin 4) : (s.openBatchFor k).fresh = s.fresh := rfl
@[simp] theorem openBatchFor_cym (k : Fin 4) : (s.openBatchFor k).cym = s.cym := rfl
@[simp] theorem openBatchFor_locks (k : Fin 4) : (s.openBatchFor k).locks = s.locks := rfl
@[simp] theorem openBatchFor_line (k : Fin 4) : (s.openBatchFor k).line = s.line := rfl
@[simp] theorem openBatchFor_ports (k : Fin 4) : (s.openBatchFor k).ports = s.ports := rfl
@[simp] theorem openBatchFor_frames (k : Fin 4) : (s.openBatchFor k).frames = s.frames := rfl
@[simp] theorem openBatchFor_opaHigh (k : Fin 4) : (s.openBatchFor k).opaHigh = s.opaHigh := rfl
@[simp] theorem openBatchFor_opbHigh (k : Fin 4) : (s.openBatchFor k).opbHigh = s.opbHigh := rfl
@[simp] theorem openBatchFor_heldInReset (k : Fin 4) : (s.openBatchFor k).heldInReset = s.heldInReset := rfl
@[simp] theorem openBatchFor_choice (k : Fin 4) : (s.openBatchFor k).choice = s.choice := rfl
@[simp] theorem openBatchFor_pending (k : Fin 4) : (s.openBatchFor k).pending = s.pending := rfl

/-! ### releaseLocksOf -/

@[simp] theorem releaseLocksOf_constants (p : Port) : (s.releaseLocksOf p).constants = s.constants := rfl
@[simp] theorem releaseLocksOf_angle (p : Port) : (s.releaseLocksOf p).angle = s.angle := rfl
@[simp] theorem releaseLocksOf_cells (p : Port) : (s.releaseLocksOf p).cells = s.cells := rfl
@[simp] theorem releaseLocksOf_ring (p : Port) : (s.releaseLocksOf p).ring = s.ring := rfl
@[simp] theorem releaseLocksOf_stations (p : Port) : (s.releaseLocksOf p).stations = s.stations := rfl
@[simp] theorem releaseLocksOf_registration (p : Port) : (s.releaseLocksOf p).registration = s.registration := rfl
@[simp] theorem releaseLocksOf_gum (p : Port) : (s.releaseLocksOf p).gum = s.gum := rfl
@[simp] theorem releaseLocksOf_notices (p : Port) : (s.releaseLocksOf p).notices = s.notices := rfl
@[simp] theorem releaseLocksOf_batch (p : Port) : (s.releaseLocksOf p).batch = s.batch := rfl
@[simp] theorem releaseLocksOf_slots (p : Port) : (s.releaseLocksOf p).slots = s.slots := rfl
@[simp] theorem releaseLocksOf_active (p : Port) : (s.releaseLocksOf p).active = s.active := rfl
@[simp] theorem releaseLocksOf_pendingSlot (p : Port) : (s.releaseLocksOf p).pendingSlot = s.pendingSlot := rfl
@[simp] theorem releaseLocksOf_fresh (p : Port) : (s.releaseLocksOf p).fresh = s.fresh := rfl
@[simp] theorem releaseLocksOf_cym (p : Port) : (s.releaseLocksOf p).cym = s.cym := rfl
@[simp] theorem releaseLocksOf_line (p : Port) : (s.releaseLocksOf p).line = s.line := rfl
@[simp] theorem releaseLocksOf_ports (p : Port) : (s.releaseLocksOf p).ports = s.ports := rfl
@[simp] theorem releaseLocksOf_frames (p : Port) : (s.releaseLocksOf p).frames = s.frames := rfl
@[simp] theorem releaseLocksOf_opaHigh (p : Port) : (s.releaseLocksOf p).opaHigh = s.opaHigh := rfl
@[simp] theorem releaseLocksOf_opbHigh (p : Port) : (s.releaseLocksOf p).opbHigh = s.opbHigh := rfl
@[simp] theorem releaseLocksOf_heldInReset (p : Port) : (s.releaseLocksOf p).heldInReset = s.heldInReset := rfl
@[simp] theorem releaseLocksOf_choice (p : Port) : (s.releaseLocksOf p).choice = s.choice := rfl
@[simp] theorem releaseLocksOf_pending (p : Port) : (s.releaseLocksOf p).pending = s.pending := rfl

/-! ### join -/

@[simp] theorem join_constants (k : Fin 4) (a : Nat) : (s.join k a).constants = s.constants := rfl
@[simp] theorem join_angle (k : Fin 4) (a : Nat) : (s.join k a).angle = s.angle := rfl
@[simp] theorem join_cells (k : Fin 4) (a : Nat) : (s.join k a).cells = s.cells := rfl
@[simp] theorem join_ring (k : Fin 4) (a : Nat) : (s.join k a).ring = s.ring := rfl
@[simp] theorem join_registration (k : Fin 4) (a : Nat) : (s.join k a).registration = s.registration := rfl
@[simp] theorem join_gum (k : Fin 4) (a : Nat) : (s.join k a).gum = s.gum := rfl
@[simp] theorem join_notices (k : Fin 4) (a : Nat) : (s.join k a).notices = s.notices := rfl
@[simp] theorem join_batch (k : Fin 4) (a : Nat) : (s.join k a).batch = s.batch := rfl
@[simp] theorem join_slots (k : Fin 4) (a : Nat) : (s.join k a).slots = s.slots := rfl
@[simp] theorem join_active (k : Fin 4) (a : Nat) : (s.join k a).active = s.active := rfl
@[simp] theorem join_pendingSlot (k : Fin 4) (a : Nat) : (s.join k a).pendingSlot = s.pendingSlot := rfl
@[simp] theorem join_fresh (k : Fin 4) (a : Nat) : (s.join k a).fresh = s.fresh := rfl
@[simp] theorem join_cym (k : Fin 4) (a : Nat) : (s.join k a).cym = s.cym := rfl
@[simp] theorem join_locks (k : Fin 4) (a : Nat) : (s.join k a).locks = s.locks := rfl
@[simp] theorem join_line (k : Fin 4) (a : Nat) : (s.join k a).line = s.line := rfl
@[simp] theorem join_ports (k : Fin 4) (a : Nat) : (s.join k a).ports = s.ports := rfl
@[simp] theorem join_frames (k : Fin 4) (a : Nat) : (s.join k a).frames = s.frames := rfl
@[simp] theorem join_opaHigh (k : Fin 4) (a : Nat) : (s.join k a).opaHigh = s.opaHigh := rfl
@[simp] theorem join_opbHigh (k : Fin 4) (a : Nat) : (s.join k a).opbHigh = s.opbHigh := rfl
@[simp] theorem join_heldInReset (k : Fin 4) (a : Nat) : (s.join k a).heldInReset = s.heldInReset := rfl
@[simp] theorem join_choice (k : Fin 4) (a : Nat) : (s.join k a).choice = s.choice := rfl
@[simp] theorem join_pending (k : Fin 4) (a : Nat) : (s.join k a).pending = s.pending := rfl

/-! ### handEdge -/

@[simp] theorem handEdge_constants (i : Fin 16) (a : Half) : (s.handEdge i a).constants = s.constants := rfl
@[simp] theorem handEdge_angle (i : Fin 16) (a : Half) : (s.handEdge i a).angle = s.angle := rfl
@[simp] theorem handEdge_cells (i : Fin 16) (a : Half) : (s.handEdge i a).cells = s.cells := rfl
@[simp] theorem handEdge_ring (i : Fin 16) (a : Half) : (s.handEdge i a).ring = s.ring := rfl
@[simp] theorem handEdge_registration (i : Fin 16) (a : Half) : (s.handEdge i a).registration = s.registration := rfl
@[simp] theorem handEdge_gum (i : Fin 16) (a : Half) : (s.handEdge i a).gum = s.gum := rfl
@[simp] theorem handEdge_notices (i : Fin 16) (a : Half) : (s.handEdge i a).notices = s.notices := rfl
@[simp] theorem handEdge_batch (i : Fin 16) (a : Half) : (s.handEdge i a).batch = s.batch := rfl
@[simp] theorem handEdge_slots (i : Fin 16) (a : Half) : (s.handEdge i a).slots = s.slots := rfl
@[simp] theorem handEdge_active (i : Fin 16) (a : Half) : (s.handEdge i a).active = s.active := rfl
@[simp] theorem handEdge_pendingSlot (i : Fin 16) (a : Half) : (s.handEdge i a).pendingSlot = s.pendingSlot := rfl
@[simp] theorem handEdge_fresh (i : Fin 16) (a : Half) : (s.handEdge i a).fresh = s.fresh := rfl
@[simp] theorem handEdge_cym (i : Fin 16) (a : Half) : (s.handEdge i a).cym = s.cym := rfl
@[simp] theorem handEdge_locks (i : Fin 16) (a : Half) : (s.handEdge i a).locks = s.locks := rfl
@[simp] theorem handEdge_line (i : Fin 16) (a : Half) : (s.handEdge i a).line = s.line := rfl
@[simp] theorem handEdge_ports (i : Fin 16) (a : Half) : (s.handEdge i a).ports = s.ports := rfl
@[simp] theorem handEdge_frames (i : Fin 16) (a : Half) : (s.handEdge i a).frames = s.frames := rfl
@[simp] theorem handEdge_opaHigh (i : Fin 16) (a : Half) : (s.handEdge i a).opaHigh = s.opaHigh := rfl
@[simp] theorem handEdge_opbHigh (i : Fin 16) (a : Half) : (s.handEdge i a).opbHigh = s.opbHigh := rfl
@[simp] theorem handEdge_heldInReset (i : Fin 16) (a : Half) : (s.handEdge i a).heldInReset = s.heldInReset := rfl
@[simp] theorem handEdge_choice (i : Fin 16) (a : Half) : (s.handEdge i a).choice = s.choice := rfl
@[simp] theorem handEdge_pending (i : Fin 16) (a : Half) : (s.handEdge i a).pending = s.pending := rfl

/-! ### stationsAdvance -/

@[simp] theorem stationsAdvance_constants : (s.stationsAdvance).constants = s.constants := rfl
@[simp] theorem stationsAdvance_angle : (s.stationsAdvance).angle = s.angle := rfl
@[simp] theorem stationsAdvance_cells : (s.stationsAdvance).cells = s.cells := rfl
@[simp] theorem stationsAdvance_ring : (s.stationsAdvance).ring = s.ring := rfl
@[simp] theorem stationsAdvance_registration : (s.stationsAdvance).registration = s.registration := rfl
@[simp] theorem stationsAdvance_gum : (s.stationsAdvance).gum = s.gum := rfl
@[simp] theorem stationsAdvance_notices : (s.stationsAdvance).notices = s.notices := rfl
@[simp] theorem stationsAdvance_batch : (s.stationsAdvance).batch = s.batch := rfl
@[simp] theorem stationsAdvance_slots : (s.stationsAdvance).slots = s.slots := rfl
@[simp] theorem stationsAdvance_active : (s.stationsAdvance).active = s.active := rfl
@[simp] theorem stationsAdvance_pendingSlot : (s.stationsAdvance).pendingSlot = s.pendingSlot := rfl
@[simp] theorem stationsAdvance_fresh : (s.stationsAdvance).fresh = s.fresh := rfl
@[simp] theorem stationsAdvance_cym : (s.stationsAdvance).cym = s.cym := rfl
@[simp] theorem stationsAdvance_locks : (s.stationsAdvance).locks = s.locks := rfl
@[simp] theorem stationsAdvance_line : (s.stationsAdvance).line = s.line := rfl
@[simp] theorem stationsAdvance_ports : (s.stationsAdvance).ports = s.ports := rfl
@[simp] theorem stationsAdvance_frames : (s.stationsAdvance).frames = s.frames := rfl
@[simp] theorem stationsAdvance_opaHigh : (s.stationsAdvance).opaHigh = s.opaHigh := rfl
@[simp] theorem stationsAdvance_opbHigh : (s.stationsAdvance).opbHigh = s.opbHigh := rfl
@[simp] theorem stationsAdvance_heldInReset : (s.stationsAdvance).heldInReset = s.heldInReset := rfl
@[simp] theorem stationsAdvance_choice : (s.stationsAdvance).choice = s.choice := rfl
@[simp] theorem stationsAdvance_pending : (s.stationsAdvance).pending = s.pending := rfl

/-! ### cymCreation -/

@[simp] theorem cymCreation_constants : (s.cymCreation).constants = s.constants := rfl
@[simp] theorem cymCreation_angle : (s.cymCreation).angle = s.angle := rfl
@[simp] theorem cymCreation_cells : (s.cymCreation).cells = s.cells := rfl
@[simp] theorem cymCreation_ring : (s.cymCreation).ring = s.ring := rfl
@[simp] theorem cymCreation_stations : (s.cymCreation).stations = s.stations := rfl
@[simp] theorem cymCreation_registration : (s.cymCreation).registration = s.registration := rfl
@[simp] theorem cymCreation_gum : (s.cymCreation).gum = s.gum := rfl
@[simp] theorem cymCreation_notices : (s.cymCreation).notices = s.notices := rfl
@[simp] theorem cymCreation_batch : (s.cymCreation).batch = s.batch := rfl
@[simp] theorem cymCreation_slots : (s.cymCreation).slots = s.slots := rfl
@[simp] theorem cymCreation_active : (s.cymCreation).active = s.active := rfl
@[simp] theorem cymCreation_pendingSlot : (s.cymCreation).pendingSlot = s.pendingSlot := rfl
@[simp] theorem cymCreation_fresh : (s.cymCreation).fresh = false := rfl
@[simp] theorem cymCreation_locks : (s.cymCreation).locks = s.locks := rfl
@[simp] theorem cymCreation_line : (s.cymCreation).line = s.line := rfl
@[simp] theorem cymCreation_ports : (s.cymCreation).ports = s.ports := rfl
@[simp] theorem cymCreation_frames : (s.cymCreation).frames = s.frames := rfl
@[simp] theorem cymCreation_opaHigh : (s.cymCreation).opaHigh = s.opaHigh := rfl
@[simp] theorem cymCreation_opbHigh : (s.cymCreation).opbHigh = s.opbHigh := rfl
@[simp] theorem cymCreation_heldInReset : (s.cymCreation).heldInReset = s.heldInReset := rfl
@[simp] theorem cymCreation_choice : (s.cymCreation).choice = s.choice := rfl
@[simp] theorem cymCreation_pending : (s.cymCreation).pending = s.pending := rfl

/-! ### stationsSoft -/

@[simp] theorem stationsSoft_constants : (s.stationsSoft).constants = s.constants := rfl
@[simp] theorem stationsSoft_angle : (s.stationsSoft).angle = s.angle := rfl
@[simp] theorem stationsSoft_cells : (s.stationsSoft).cells = s.cells := rfl
@[simp] theorem stationsSoft_ring : (s.stationsSoft).ring = s.ring := rfl
@[simp] theorem stationsSoft_registration : (s.stationsSoft).registration = s.registration := rfl
@[simp] theorem stationsSoft_gum : (s.stationsSoft).gum = s.gum := rfl
@[simp] theorem stationsSoft_notices : (s.stationsSoft).notices = s.notices := rfl
@[simp] theorem stationsSoft_batch : (s.stationsSoft).batch = s.batch := rfl
@[simp] theorem stationsSoft_slots : (s.stationsSoft).slots = s.slots := rfl
@[simp] theorem stationsSoft_active : (s.stationsSoft).active = s.active := rfl
@[simp] theorem stationsSoft_pendingSlot : (s.stationsSoft).pendingSlot = s.pendingSlot := rfl
@[simp] theorem stationsSoft_fresh : (s.stationsSoft).fresh = s.fresh := rfl
@[simp] theorem stationsSoft_cym : (s.stationsSoft).cym = s.cym := rfl
@[simp] theorem stationsSoft_locks : (s.stationsSoft).locks = s.locks := rfl
@[simp] theorem stationsSoft_line : (s.stationsSoft).line = s.line := rfl
@[simp] theorem stationsSoft_ports : (s.stationsSoft).ports = s.ports := rfl
@[simp] theorem stationsSoft_frames : (s.stationsSoft).frames = s.frames := rfl
@[simp] theorem stationsSoft_opaHigh : (s.stationsSoft).opaHigh = s.opaHigh := rfl
@[simp] theorem stationsSoft_opbHigh : (s.stationsSoft).opbHigh = s.opbHigh := rfl
@[simp] theorem stationsSoft_heldInReset : (s.stationsSoft).heldInReset = s.heldInReset := rfl
@[simp] theorem stationsSoft_choice : (s.stationsSoft).choice = s.choice := rfl
@[simp] theorem stationsSoft_pending : (s.stationsSoft).pending = s.pending := rfl

/-! ### putFrame -/

@[simp] theorem putFrame_constants (p : Port) (f : Framing) : (s.putFrame p f).constants = s.constants := rfl
@[simp] theorem putFrame_angle (p : Port) (f : Framing) : (s.putFrame p f).angle = s.angle := rfl
@[simp] theorem putFrame_cells (p : Port) (f : Framing) : (s.putFrame p f).cells = s.cells := rfl
@[simp] theorem putFrame_ring (p : Port) (f : Framing) : (s.putFrame p f).ring = s.ring := rfl
@[simp] theorem putFrame_stations (p : Port) (f : Framing) : (s.putFrame p f).stations = s.stations := rfl
@[simp] theorem putFrame_registration (p : Port) (f : Framing) : (s.putFrame p f).registration = s.registration := rfl
@[simp] theorem putFrame_gum (p : Port) (f : Framing) : (s.putFrame p f).gum = s.gum := rfl
@[simp] theorem putFrame_notices (p : Port) (f : Framing) : (s.putFrame p f).notices = s.notices := rfl
@[simp] theorem putFrame_batch (p : Port) (f : Framing) : (s.putFrame p f).batch = s.batch := rfl
@[simp] theorem putFrame_slots (p : Port) (f : Framing) : (s.putFrame p f).slots = s.slots := rfl
@[simp] theorem putFrame_active (p : Port) (f : Framing) : (s.putFrame p f).active = s.active := rfl
@[simp] theorem putFrame_pendingSlot (p : Port) (f : Framing) : (s.putFrame p f).pendingSlot = s.pendingSlot := rfl
@[simp] theorem putFrame_fresh (p : Port) (f : Framing) : (s.putFrame p f).fresh = s.fresh := rfl
@[simp] theorem putFrame_cym (p : Port) (f : Framing) : (s.putFrame p f).cym = s.cym := rfl
@[simp] theorem putFrame_locks (p : Port) (f : Framing) : (s.putFrame p f).locks = s.locks := rfl
@[simp] theorem putFrame_line (p : Port) (f : Framing) : (s.putFrame p f).line = s.line := rfl
@[simp] theorem putFrame_ports (p : Port) (f : Framing) : (s.putFrame p f).ports = s.ports := rfl
@[simp] theorem putFrame_frames (p : Port) (f : Framing) : (s.putFrame p f).frames = s.frames.set p f := rfl
@[simp] theorem putFrame_opaHigh (p : Port) (f : Framing) : (s.putFrame p f).opaHigh = s.opaHigh := rfl
@[simp] theorem putFrame_opbHigh (p : Port) (f : Framing) : (s.putFrame p f).opbHigh = s.opbHigh := rfl
@[simp] theorem putFrame_heldInReset (p : Port) (f : Framing) : (s.putFrame p f).heldInReset = s.heldInReset := rfl
@[simp] theorem putFrame_choice (p : Port) (f : Framing) : (s.putFrame p f).choice = s.choice := rfl
@[simp] theorem putFrame_pending (p : Port) (f : Framing) : (s.putFrame p f).pending = s.pending := rfl

/-! ### endCymPulse -/

@[simp] theorem endCymPulse_constants : (s.endCymPulse).constants = s.constants := rfl
@[simp] theorem endCymPulse_angle : (s.endCymPulse).angle = s.angle := rfl
@[simp] theorem endCymPulse_cells : (s.endCymPulse).cells = s.cells := rfl
@[simp] theorem endCymPulse_ring : (s.endCymPulse).ring = s.ring := rfl
@[simp] theorem endCymPulse_stations : (s.endCymPulse).stations = s.stations := rfl
@[simp] theorem endCymPulse_registration : (s.endCymPulse).registration = s.registration := rfl
@[simp] theorem endCymPulse_gum : (s.endCymPulse).gum = s.gum := rfl
@[simp] theorem endCymPulse_notices : (s.endCymPulse).notices = s.notices := rfl
@[simp] theorem endCymPulse_batch : (s.endCymPulse).batch = s.batch := rfl
@[simp] theorem endCymPulse_slots : (s.endCymPulse).slots = s.slots := rfl
@[simp] theorem endCymPulse_active : (s.endCymPulse).active = s.active := rfl
@[simp] theorem endCymPulse_pendingSlot : (s.endCymPulse).pendingSlot = s.pendingSlot := rfl
@[simp] theorem endCymPulse_fresh : (s.endCymPulse).fresh = s.fresh := rfl
@[simp] theorem endCymPulse_cym : (s.endCymPulse).cym = { s.cym with pulse := none } := rfl
@[simp] theorem endCymPulse_locks : (s.endCymPulse).locks = s.locks := rfl
@[simp] theorem endCymPulse_line : (s.endCymPulse).line = s.line := rfl
@[simp] theorem endCymPulse_ports : (s.endCymPulse).ports = s.ports := rfl
@[simp] theorem endCymPulse_frames : (s.endCymPulse).frames = s.frames := rfl
@[simp] theorem endCymPulse_opaHigh : (s.endCymPulse).opaHigh = s.opaHigh := rfl
@[simp] theorem endCymPulse_opbHigh : (s.endCymPulse).opbHigh = s.opbHigh := rfl
@[simp] theorem endCymPulse_heldInReset : (s.endCymPulse).heldInReset = s.heldInReset := rfl
@[simp] theorem endCymPulse_choice : (s.endCymPulse).choice = s.choice := rfl
@[simp] theorem endCymPulse_pending : (s.endCymPulse).pending = s.pending := rfl

end Sys2Proof.Laws
end

