-- ==== Sys2Proof/Laws/Commands.lean ====
section
/-!
SUPPORT. What the two ways of taking a command can do: a frame is taken where its port takes frames (R162, R166), a
happening on the machine side where the part is not held in reset (R162).
-/

namespace Sys2Proof.Laws

open Sys2Proof.Machine Sys2Proof.Safety

theorem takes_iff {s : State} {p : Port} : Takes s p ↔ s.disregards p = false := by
  simp [Takes, State.disregards]

theorem takeFrame_of_takes {s : State} {p : Port} (h : Takes s p) (f : State → State × Response) :
    takeFrame p f s = .next ((f s).1.respond p (f s).2) := by
  simp [takeFrame, takes_iff.mp h]

theorem takeFrame_of_disregards {s : State} {p : Port} (h : s.disregards p = true) (f : State → State × Response) :
    takeFrame p f s = .next s := by
  simp [takeFrame, h]

/-- A frame's next state is the state itself or the command's with its response pending. -/
theorem takeFrame_next {s t : State} {p : Port} {f : State → State × Response} (h : takeFrame p f s = .next t) :
    (s.disregards p = true ∧ t = s) ∨ (s.disregards p = false ∧ t = (f s).1.respond p (f s).2) := by
  simp only [takeFrame, Host.Outcome.next.injEq] at h
  split at h <;> simp_all

theorem takeEvent_running {s : State} (h : s.heldInReset = false) (f : State → State) :
    takeEvent f s = .next (f s) := by
  simp [takeEvent, h]

theorem takeEvent_held {s : State} (h : s.heldInReset = true) (f : State → State) : takeEvent f s = .next s := by
  simp [takeEvent, h]

/-- A happening's next state is the state itself or the happening's. -/
theorem takeEvent_next {s t : State} {f : State → State} (h : takeEvent f s = .next t) :
    (s.heldInReset = true ∧ t = s) ∨ (s.heldInReset = false ∧ t = f s) := by
  simp only [takeEvent, Host.Outcome.next.injEq] at h
  split at h <;> simp_all

end Sys2Proof.Laws
end

