-- ==== Sys2Proof/Laws/Tables.lean ====
section
/-!
SUPPORT. The laws of the small pieces: tables read after a change, sets held as bits, per-port values.
-/

namespace Sys2Proof.Laws

open Sys2Proof.Machine

variable {α β : Type} {n : Nat}

/-! ### Tables -/

@[simp] theorem getElem_mapTable (f : Fin n → α → β) (t : Vector α n) (i : Nat) (h : i < n) :
    (mapTable f t)[i] = f ⟨i, h⟩ t[i] := by simp [mapTable]

theorem fin_getElem_mapTable (f : Fin n → α → β) (t : Vector α n) (i : Fin n) :
    (mapTable f t)[i] = f i t[i] := by simp

@[simp] theorem getElem_setAt (t : Vector α n) (i : Fin n) (x : α) (j : Nat) (h : j < n) :
    (setAt t i x)[j] = if i.val = j then x else t[j] := by
  simp [setAt, Vector.getElem_set]

theorem fin_getElem_setAt (t : Vector α n) (i j : Fin n) (x : α) :
    (setAt t i x)[j] = if i = j then x else t[j] := by
  simp [Fin.ext_iff]

theorem fin_getElem_setAt_self (t : Vector α n) (i : Fin n) (x : α) : (setAt t i x)[i] = x := by simp

theorem fin_getElem_setAt_of_ne (t : Vector α n) {i j : Fin n} (x : α) (h : i ≠ j) : (setAt t i x)[j] = t[j] := by
  rw [fin_getElem_setAt, if_neg h]

theorem table_ext {t u : Vector α n} (h : ∀ i : Fin n, t[i] = u[i]) : t = u :=
  Vector.ext fun i hi => h ⟨i, hi⟩

@[simp] theorem setAt_getElem_self (t : Vector α n) (i : Fin n) : setAt t i t[i.val] = t :=
  table_ext fun j => by
    rw [fin_getElem_setAt]
    split
    · subst i; rfl
    · rfl

@[simp] theorem setAt_setAt (t : Vector α n) (i : Fin n) (x y : α) : setAt (setAt t i x) i y = setAt t i y :=
  table_ext fun j => by simp only [fin_getElem_setAt]; split <;> rfl

@[simp] theorem mapTable_id (t : Vector α n) : mapTable (fun _ x => x) t = t :=
  table_ext fun i => by rw [fin_getElem_mapTable]

/-! ### Sets held as bits -/

theorem hasBit_addBit (s : BitVec n) (i j : Nat) (h : j < n) :
    hasBit (addBit s i) j = (hasBit s j || decide (i = j)) := by
  simp [hasBit, addBit, BitVec.getLsbD_twoPow]
  by_cases h' : i = j
  · subst h'; simp [h]
  · simp [h']

theorem op_bit_lt (o : Op) : o.bit < 6 := by cases o <;> decide
theorem blankFault_bit_lt (f : BlankFault) : f.bit < 13 := by cases f <;> decide
theorem cause_bit_lt (c : Cause) : c.bit < 7 := by cases c <;> decide
theorem lineEvent_bit_lt (e : LineEvent) : e.bit < 7 := by cases e <;> decide

theorem op_bit_inj {a b : Op} : a.bit = b.bit ↔ a = b := by cases a <;> cases b <;> decide
theorem blankFault_bit_inj {a b : BlankFault} : a.bit = b.bit ↔ a = b := by cases a <;> cases b <;> decide
theorem cause_bit_inj {a b : Cause} : a.bit = b.bit ↔ a = b := by cases a <;> cases b <;> decide
theorem lineEvent_bit_inj {a b : LineEvent} : a.bit = b.bit ↔ a = b := by cases a <;> cases b <;> decide

@[simp] theorem addFault_set_mem (s : FaultSet) (f g : BlankFault) :
    hasBit (addBit s f.bit) g.bit = (hasBit s g.bit || decide (g = f)) := by
  rw [hasBit_addBit _ _ _ (blankFault_bit_lt g)]
  simp [blankFault_bit_inj, eq_comm]

@[simp] theorem addOp_set_mem (s : OpSet) (f g : Op) :
    hasBit (addBit s f.bit) g.bit = (hasBit s g.bit || decide (g = f)) := by
  rw [hasBit_addBit _ _ _ (op_bit_lt g)]
  simp [op_bit_inj, eq_comm]

@[simp] theorem addCause_set_mem (s : CauseSet) (f g : Cause) :
    hasBit (addBit s f.bit) g.bit = (hasBit s g.bit || decide (g = f)) := by
  rw [hasBit_addBit _ _ _ (cause_bit_lt g)]
  simp [cause_bit_inj, eq_comm]

@[simp] theorem addEvent_set_mem (s : EventSet) (f g : LineEvent) :
    hasBit (addBit s f.bit) g.bit = (hasBit s g.bit || decide (g = f)) := by
  rw [hasBit_addBit _ _ _ (lineEvent_bit_lt g)]
  simp [lineEvent_bit_inj, eq_comm]

/-! ### Per-port values -/

@[simp] theorem perPort_get_set_self (x : PerPort α) (p : Port) (a : α) : (x.set p a).get p = a := by
  cases p <;> rfl

theorem perPort_get_set (x : PerPort α) (p q : Port) (a : α) :
    (x.set p a).get q = if q = p then a else x.get q := by
  cases p <;> cases q <;> rfl

theorem perPort_get_set_of_ne (x : PerPort α) {p q : Port} (a : α) (h : q ≠ p) : (x.set p a).get q = x.get q := by
  rw [perPort_get_set, if_neg h]

@[simp] theorem perPort_set_set (x : PerPort α) (p : Port) (a b : α) : (x.set p a).set p b = x.set p b := by
  cases p <;> rfl

@[simp] theorem perPort_set_get_self (x : PerPort α) (p : Port) : x.set p (x.get p) = x := by cases p <;> rfl

@[simp] theorem perPort_get_map (f : α → β) (x : PerPort α) (p : Port) : (x.map f).get p = f (x.get p) := by
  cases p <;> rfl

theorem perPort_ext {x y : PerPort α} (h : ∀ p, x.get p = y.get p) : x = y := by
  have h1 := h .line; have h2 := h .inspection; have h3 := h .drive
  cases x; cases y; simp_all [PerPort.get]

end Sys2Proof.Laws
end

