-- ==== Sys2Proof/Laws/Ring.lean ====
section
/-!
SUPPORT. The laws of the tracking ring: what a lookup by sequence number answers (R25), and what each update leaves at
every position.
-/

namespace Sys2Proof.Laws

open Sys2Proof.Machine

variable (s : State)

/-! ### Lookups (R25) -/

theorem presentAt_some {s : State} {k : Fin 64} {b : Blank} :
    s.presentAt k = some b ↔ k.val < s.lineLength ∧ s.ring.at k = some b := by
  unfold State.presentAt; split <;> simp_all

theorem positionOf_some {s : State} {seq : Word} {k : Fin 64} (h : s.positionOf seq = some k) :
    ∃ b, s.presentAt k = some b ∧ b.seq = seq := by
  have := List.find?_some h
  simpa [Option.any_eq_true] using this

theorem positionOf_none {s : State} {seq : Word} :
    s.positionOf seq = none ↔ ∀ k b, s.presentAt k = some b → b.seq ≠ seq := by
  simp [State.positionOf, Option.any_eq_false]

/-- A number that one present record alone carries is found at that record's position. -/
theorem positionOf_eq_some {s : State} {seq : Word} {k : Fin 64} {b : Blank} (h : s.presentAt k = some b)
    (hb : b.seq = seq) (u : ∀ j b', s.presentAt j = some b' → b'.seq = seq → j = k) :
    s.positionOf seq = some k := by
  cases hp : s.positionOf seq with
  | none => exact absurd hb (positionOf_none.mp hp k b h)
  | some j =>
    obtain ⟨b', h1, h2⟩ := positionOf_some hp
    rw [u j b' h1 h2]

theorem record_of_positionOf {s : State} {seq : Word} {k : Fin 64} (h : s.positionOf seq = some k) :
    s.record seq = s.presentAt k := by simp [State.record, h]

theorem record_none {s : State} {seq : Word} :
    s.record seq = none ↔ ∀ k b, s.presentAt k = some b → b.seq ≠ seq := by
  rw [← positionOf_none]
  cases h : s.positionOf seq with
  | none => simp [State.record, h]
  | some k =>
    obtain ⟨b, hb, -⟩ := positionOf_some h
    simp [State.record, h, hb]

theorem record_seq {s : State} {seq : Word} {b : Blank} (h : s.record seq = some b) : b.seq = seq := by
  cases hp : s.positionOf seq with
  | none => simp [State.record, hp] at h
  | some k =>
    obtain ⟨b', hb, hs⟩ := positionOf_some hp
    rw [record_of_positionOf hp, hb] at h
    exact (Option.some.inj h) ▸ hs

/-! ### One entry replaced -/

@[simp] theorem lineLength_putAt (k : Fin 64) (b : Option Blank) : (s.putAt k b).lineLength = s.lineLength := rfl

@[simp] theorem at_putAt (k j : Fin 64) (b : Option Blank) :
    (s.putAt k b).ring.at j = if k = j then b else s.ring.at j := by
  simp only [Ring.at, State.putAt, fin_getElem_setAt, add_right_inj]

@[simp] theorem presentAt_putAt (k j : Fin 64) (b : Option Blank) :
    (s.putAt k b).presentAt j = if k = j then (if k.val < s.lineLength then b else none) else s.presentAt j := by
  simp only [State.presentAt, lineLength_putAt, at_putAt]
  by_cases h : k = j
  · subst h; simp
  · simp [h]

@[simp] theorem putAt_putAt (k : Fin 64) (a b : Option Blank) : (s.putAt k a).putAt k b = s.putAt k b := by
  simp [State.putAt]

@[simp] theorem putAt_nextSeq (k : Fin 64) (b : Option Blank) : (s.putAt k b).ring.nextSeq = s.ring.nextSeq := rfl
@[simp] theorem putAt_head (k : Fin 64) (b : Option Blank) : (s.putAt k b).ring.head = s.ring.head := rfl
@[simp] theorem putAt_windows (k : Fin 64) (b : Option Blank) : (s.putAt k b).ring.windows = s.ring.windows := rfl

/-! ### Updates (R25) -/

/-- Every field but the ring is out of an update's reach, and of the ring only the entries change. -/
theorem update_eq (seq : Word) (f : Blank → Blank) :
    ∃ entries, s.update seq f = { s with ring := { s.ring with entries := entries } } := by
  unfold State.update; split
  · exact ⟨_, rfl⟩
  · exact ⟨s.ring.entries, rfl⟩

theorem update_of_none {s : State} {seq : Word} (h : s.positionOf seq = none) (f : Blank → Blank) :
    s.update seq f = s := by simp [State.update, h]

theorem update_of_some {s : State} {seq : Word} {k : Fin 64} {b : Blank} (h : s.positionOf seq = some k)
    (hb : s.presentAt k = some b) (f : Blank → Blank) : s.update seq f = s.putAt k (some (f b)) := by
  simp [State.update, h, hb]

@[simp] theorem presentAt_update (seq : Word) (f : Blank → Blank) (j : Fin 64) :
    (s.update seq f).presentAt j =
      if s.positionOf seq = some j then (s.presentAt j).map f else s.presentAt j := by
  cases h : s.positionOf seq with
  | none => simp [update_of_none h]
  | some k =>
    obtain ⟨b, hb, -⟩ := positionOf_some h
    rw [update_of_some h hb, presentAt_putAt]
    by_cases hk : k = j
    · subst hk; simp [hb, (presentAt_some.mp hb).1]
    · simp [hk]

/-- A record's number decides where it is, so an update that keeps every number moves no lookup. -/
theorem positionOf_congr {s t : State} (h : ∀ k, (t.presentAt k).map (·.seq) = (s.presentAt k).map (·.seq))
    (seq : Word) : t.positionOf seq = s.positionOf seq := by
  unfold State.positionOf
  congr 1; funext k
  have := h k
  cases hs : s.presentAt k <;> cases ht : t.presentAt k <;> simp_all

theorem positionOf_update (seq : Word) (f : Blank → Blank) (hf : ∀ b, (f b).seq = b.seq) (n : Word) :
    (s.update seq f).positionOf n = s.positionOf n := by
  refine positionOf_congr (fun k => ?_) n
  rw [presentAt_update]; split <;> simp [Function.comp_def, hf]

/-! ### Every present record changed -/

@[simp] theorem updateAll_head (f : Blank → Blank) : (s.updateAll f).ring.head = s.ring.head := by
  simp only [State.updateAll]
@[simp] theorem updateAll_nextSeq (f : Blank → Blank) : (s.updateAll f).ring.nextSeq = s.ring.nextSeq := by
  simp only [State.updateAll]
@[simp] theorem updateAll_windows (f : Blank → Blank) : (s.updateAll f).ring.windows = s.ring.windows := by
  simp only [State.updateAll]

theorem updateAll_eq (f : Blank → Blank) :
    ∃ entries, s.updateAll f = { s with ring := { s.ring with entries := entries } } :=
  ⟨(s.updateAll f).ring.entries, by simp only [State.updateAll]⟩

@[simp] theorem lineLength_updateAll (f : Blank → Blank) : (s.updateAll f).lineLength = s.lineLength := by
  simp only [State.lineLength, updateAll_constants]

theorem at_updateAll (f : Blank → Blank) (k : Fin 64) :
    (s.updateAll f).ring.at k = if k.val < s.lineLength then (s.ring.at k).map f else s.ring.at k := by
  simp only [Ring.at, State.updateAll, fin_getElem_mapTable, add_sub_cancel_left]

@[simp] theorem presentAt_updateAll (f : Blank → Blank) (k : Fin 64) :
    (s.updateAll f).presentAt k = (s.presentAt k).map f := by
  simp only [State.presentAt, lineLength_updateAll, at_updateAll]
  split <;> simp

/-! ### What the requests keep of a record -/

@[simp] theorem addFault_seq (f : BlankFault) (b : Blank) : (b.addFault f).seq = b.seq := by
  unfold Blank.addFault; split <;> rfl
@[simp] theorem addFault_fmt (f : BlankFault) (b : Blank) : (b.addFault f).fmt = b.fmt := by
  unfold Blank.addFault; split <;> rfl
@[simp] theorem addFault_ops (f : BlankFault) (b : Blank) : (b.addFault f).ops = b.ops := by
  unfold Blank.addFault; split <;> rfl
@[simp] theorem addFault_verdict (f : BlankFault) (b : Blank) : (b.addFault f).verdict = b.verdict := by
  unfold Blank.addFault; split <;> rfl
@[simp] theorem addFault_batch (f : BlankFault) (b : Blank) : (b.addFault f).batch = b.batch := by
  unfold Blank.addFault; split <;> rfl
@[simp] theorem addFault_regErr (f : BlankFault) (b : Blank) : (b.addFault f).regErr = b.regErr := by
  unfold Blank.addFault; split <;> rfl
@[simp] theorem addFault_failCode (f : BlankFault) (b : Blank) : (b.addFault f).failCode = b.failCode := by
  unfold Blank.addFault; split <;> rfl

/-- A final record takes no fault (R30). -/
theorem addFault_final {b : Blank} (h : b.disposition.final = true) (f : BlankFault) : b.addFault f = b := by
  simp [Blank.addFault, h]

@[simp] theorem addOp_seq (o : Op) (b : Blank) : (b.addOp o).seq = b.seq := by unfold Blank.addOp; split <;> rfl
@[simp] theorem addOp_disposition (o : Op) (b : Blank) : (b.addOp o).disposition = b.disposition := by
  unfold Blank.addOp; split <;> rfl
@[simp] theorem addOp_faults (o : Op) (b : Blank) : (b.addOp o).faults = b.faults := by
  unfold Blank.addOp; split <;> rfl
@[simp] theorem lose_seq (f : BlankFault) (b : Blank) : (b.lose f).seq = b.seq := by unfold Blank.lose; split <;> rfl
@[simp] theorem deliver_seq (n : Word) (b : Blank) : (b.deliver n).seq = b.seq := by
  unfold Blank.deliver; split <;> rfl
@[simp] theorem passDefect_seq (b : Blank) : b.passDefect.seq = b.seq := by unfold Blank.passDefect; split <;> rfl

end Sys2Proof.Laws
end

