-- ==== Sys2Proof/Laws/Frames.lean ====
section
/-!
SUPPORT. The frame of the work inside a step: what every operation below a head advance leaves alone, each stated once,
so that a statement about a crossing, a count or an expiry cites it instead of unfolding the operation.
-/

namespace Sys2Proof.Laws

open Sys2Proof.Machine Sys2Proof.Safety

/-! ### What a happening leaves alone -/

theorem sameSetup_refl (s : State) : SameSetup s s :=
  ⟨rfl, rfl, rfl, rfl, rfl, rfl, rfl, rfl, rfl, rfl, rfl, fun _ => rfl, fun _ => rfl⟩

theorem sameSetup_trans {s t u : State} (h : SameSetup s t) (g : SameSetup t u) : SameSetup s u :=
  ⟨g.constants.trans h.constants, g.slots.trans h.slots, g.locks.trans h.locks, g.ports.trans h.ports, g.frames.trans h.frames,
    g.windows.trans h.windows, g.opaHigh.trans h.opaHigh, g.opbHigh.trans h.opbHigh,
    g.heldInReset.trans h.heldInReset, g.cymMode.trans h.cymMode, g.pending.trans h.pending,
    fun i => (g.config i).trans (h.config i), fun i => (g.pin i).trans (h.pin i)⟩

/-- What the work inside a step leaves alone: the setup, the angle unit and the ring's head. -/
structure Works (s t : State) : Prop extends SameSetup s t where
  angle : t.angle = s.angle
  head : t.ring.head = s.ring.head

theorem works_refl (s : State) : Works s s := ⟨sameSetup_refl s, rfl, rfl⟩

theorem Works.trans {s t u : State} (h : Works s t) (g : Works t u) : Works s u :=
  ⟨sameSetup_trans h.toSameSetup g.toSameSetup, g.angle.trans h.angle, g.head.trans h.head⟩

theorem works_of_eq {s t : State} (h : t = s) : Works s t := h ▸ works_refl s

theorem works_ite {c : Prop} [Decidable c] {s t u : State} (h : Works s t) (g : Works s u) :
    Works s (if c then t else u) := by split <;> assumption

/-- Only stations, registration, gum, notices, batch, changeover, line mode control and the free-value counter differ. -/
theorem works_of_parts {s : State} (stations : Vector (Vector Station 16) 4) (registration : Registration) (gum : Gum)
    (notices : List Notice) (batch : BatchCounter) (active pendingSlot : Option (Fin 4)) (fresh : Bool)
    (line : LineControl) (choice : Nat) :
    Works s { s with
      stations := stations, registration := registration, gum := gum, notices := notices, batch := batch
      active := active, pendingSlot := pendingSlot, fresh := fresh, line := line, choice := choice } :=
  ⟨⟨rfl, rfl, rfl, rfl, rfl, rfl, rfl, rfl, rfl, rfl, rfl, fun _ => rfl, fun _ => rfl⟩, rfl, rfl⟩

theorem Works.lineLength {s t : State} (h : Works s t) : t.lineLength = s.lineLength := by
  simp [State.lineLength, h.constants]

theorem Works.theta {s t : State} (h : Works s t) : t.theta = s.theta := by
  simp [State.theta, h.constants, h.angle]

theorem Works.motion {s t : State} (h : Works s t) : t.motion = s.motion := by
  simp [State.motion, h.constants, h.angle]

theorem Works.leadScale {s t : State} (h : Works s t) : t.leadScale = s.leadScale := by
  simp [State.leadScale, h.motion, h.angle]

theorem Works.entry {s t : State} (h : Works s t) (k : Fin 4) (i : Fin 16) : t.entry k i = s.entry k i := by
  simp [State.entry, h.slots]

/-! ### Updates -/

theorem works_mapSlots (s : State) (f : Fin 4 → Vector Station 16 → Vector Station 16) : Works s (s.mapSlots f) :=
  works_of_parts ..
theorem works_mapStations (s : State) (f : Fin 4 → Fin 16 → Station → Station) : Works s (s.mapStations f) :=
  works_of_parts ..
theorem works_prune (s : State) : Works s s.prune := works_of_parts ..
theorem works_updStation (s : State) (k : Fin 4) (i : Fin 16) (f : Station → Station) :
    Works s (s.updStation k i f) := works_of_parts ..
theorem works_setEvent (s : State) (e : LineEvent) : Works s (s.setEvent e) := works_of_parts ..
theorem works_withdraw (s : State) (seq : Word) : Works s (s.withdraw seq) := works_of_parts ..
theorem works_updBatch (s : State) (f : BatchFields → BatchFields) : Works s (s.updBatch f) := works_of_parts ..
theorem works_setBatchState (s : State) (b : BatchState) : Works s (s.setBatchState b) := works_of_parts ..
theorem works_notices (s : State) (l : List Notice) : Works s { s with notices := l } := works_of_parts ..
theorem works_openBatchFor (s : State) (k : Fin 4) : Works s (s.openBatchFor k) := works_of_parts ..
theorem works_countReject (s : State) : Works s s.countReject := works_of_parts ..

theorem works_entries (s : State) (entries : Vector (Option Blank) 64) :
    Works s { s with ring := { s.ring with entries := entries } } :=
  ⟨⟨rfl, rfl, rfl, rfl, rfl, rfl, rfl, rfl, rfl, rfl, rfl, fun _ => rfl, fun _ => rfl⟩, rfl, rfl⟩

theorem works_putAt (s : State) (k : Fin 64) (b : Option Blank) : Works s (s.putAt k b) := works_entries ..
theorem works_update (s : State) (seq : Word) (f : Blank → Blank) : Works s (s.update seq f) := by
  obtain ⟨e, h⟩ := update_eq s seq f
  rw [h]; exact works_entries s e
theorem works_updateAll (s : State) (f : Blank → Blank) : Works s (s.updateAll f) := by
  obtain ⟨e, h⟩ := updateAll_eq s f
  rw [h]; exact works_entries s e

/-- Cells may change in everything but configuration and pin. -/
theorem works_cells (s : State) (cells : Vector Cell 16)
    (h : ∀ i : Fin 16, cells[i].config = s.cells[i].config ∧ cells[i].pinHigh = s.cells[i].pinHigh) :
    Works s { s with cells := cells } :=
  ⟨⟨rfl, rfl, rfl, rfl, rfl, rfl, rfl, rfl, rfl, rfl, rfl, fun i => (h i).1, fun i => (h i).2⟩, rfl, rfl⟩

theorem works_choice (s : State) (n : Nat) : Works s { s with choice := n } := works_of_parts ..

theorem works_eitherOrder {a b : State → State} {matters : Bool} (ha : ∀ s, Works s (a s)) (hb : ∀ s, Works s (b s))
    (s : State) : Works s (eitherOrder matters a b s) := by
  have hc := works_choice s (s.choice + 1)
  unfold eitherOrder
  split
  · dsimp only
    split
    · exact hc.trans ((hb _).trans (ha _))
    · exact hc.trans ((ha _).trans (hb _))
  · exact (ha _).trans (hb _)

/-! ### The gum circuit -/

theorem works_cutWindow (expiry : Bool) (s : State) (x : Fin 4 × Fin 16) : Works s (State.cutWindow expiry s x) := by
  unfold State.cutWindow
  refine Works.trans ?_ (works_updStation ..)
  split
  · exact works_update ..
  · exact works_refl s
  · exact works_refl s

theorem works_foldl {α : Type} {f : State → α → State} (h : ∀ s x, Works s (f s x)) (l : List α) (s : State) :
    Works s (l.foldl f s) := by
  induction l generalizing s with
  | nil => exact works_refl s
  | cons x l ih => exact (h s x).trans (ih _)

theorem works_gumTo (new : GumState) (expiry : Bool) (s : State) : Works s (s.gumTo new expiry) := by
  have h : Works s { s with gum := { state := new, standbyTimer := 0, primeTimer := none } } := works_of_parts ..
  unfold State.gumTo
  dsimp only
  split
  · exact (h.trans (works_foldl (works_cutWindow expiry) _ _)).trans (works_prune _)
  · exact h

theorem works_abortPrime (new : GumState) (s : State) : Works s (s.abortPrime new) :=
  works_ite ((works_gumTo ..).trans (works_setEvent ..)) (works_refl s)

theorem works_gumLeavesHalt (s : State) : Works s s.gumLeavesHalt :=
  Works.trans (t := { s with gum := { s.gum with standbyTimer := 0 } }) (works_of_parts ..) (works_abortPrime ..)

theorem works_standbyExpires (s : State) : Works s s.standbyExpires :=
  ((works_updateAll ..).trans (works_gumTo ..)).trans (works_setEvent ..)

theorem works_primeCompletes (s : State) : Works s s.primeCompletes := (works_gumTo ..).trans (works_setEvent ..)

theorem works_gumChangeover (n : Fin 4) (s : State) : Works s (s.gumChangeover n) := by
  unfold State.gumChangeover
  dsimp only
  have h : ∀ t : State, Works s t → Works s (if t.standbyDue then t.standbyExpires else t) :=
    fun t ht => works_ite (ht.trans (works_standbyExpires t)) ht
  apply h
  split
  · exact works_gumTo ..
  · exact works_ite (works_refl s) (works_gumTo ..)
  · exact works_gumTo ..
  · exact works_abortPrime ..

/-! ### The fault latch -/

theorem works_closeFired (s : State) : Works s s.closeFired :=
  (works_mapStations s _).trans (works_cells _ _ fun i => by simp)

theorem works_leaveArmed (s : State) : Works s s.leaveArmed :=
  (works_eitherOrder works_closeFired (works_abortPrime .standby) s).trans (works_prune _)

theorem works_raiseCause (c : Cause) (s : State) : Works s (s.raiseCause c) := by
  unfold State.raiseCause
  dsimp only
  split
  · exact Works.trans (works_of_parts ..) (works_leaveArmed _)
  · exact works_of_parts ..

/-! ### Registration -/

theorem works_applyCorrection (c : Int) (s : State) : Works s (s.applyCorrection c) := by
  unfold State.applyCorrection
  dsimp only
  split
  · exact Works.trans (works_of_parts ..) (works_setEvent ..)
  · exact works_of_parts ..

theorem works_markMissed (seq : Word) (h : Header) (s : State) : Works s (s.markMissed seq h) := by
  unfold State.markMissed
  dsimp only
  have w : Works s ({ s with registration := s.registration.miss h.missLimit }.update seq (Blank.addFault .noMark)) :=
    Works.trans (works_of_parts ..) (works_update ..)
  exact works_ite (w.trans (works_setEvent ..)) w

theorem works_markSeen (seq : Word) (h : Header) (a : Half) (s : State) : Works s (s.markSeen seq h a) := by
  unfold State.markSeen
  dsimp only
  refine Works.trans ?_ (works_applyCorrection ..)
  have w : Works s { s with registration := { s.registration with missCount := 0, state := .tracking } } :=
    works_of_parts ..
  have w2 := fun f => w.trans (works_update _ seq f)
  split
  · exact (w2 _).trans (works_update ..)
  · exact w2 _

theorem works_markEvaluation (seq : Word) (k : Fin 4) (seen : Bool) (first : Option Half) (s : State) :
    Works s (s.markEvaluation seq k seen first) := by
  unfold State.markEvaluation
  dsimp only
  split
  · exact Works.trans (works_of_parts ..) (works_markSeen ..)
  · exact Works.trans (works_of_parts ..) (works_markMissed ..)

/-! ### The batch counter -/

theorem works_batch (s : State) (batch : BatchCounter) : Works s { s with batch := batch } := works_of_parts ..

theorem works_closeBox (s : State) : Works s s.closeBox := Works.trans (works_of_parts ..) (works_setEvent ..)

theorem works_closeOpenBatch (b : OpenBatch) (cause : CloseCause) (boundary : Option (Fin 4)) (s : State) :
    Works s (s.closeOpenBatch b cause boundary) := by
  unfold State.closeOpenBatch
  dsimp only
  refine Works.trans ?_ (works_openBatchFor ..)
  have w : Works s { s with batch := { s.batch with
      log := s.batch.log ++ [BatchRecord.mk b.fields cause], kick := true
      inBox := increase .inBox s.batch.inBox } } := works_of_parts ..
  have w2 := works_ite (c := (s.batch.log ++ [BatchRecord.mk b.fields cause]).length = logHigh)
    (w.trans (works_setEvent _ .logHigh)) w
  exact works_ite (w2.trans (works_closeBox _)) w2

theorem works_formatBoundary (fmt : Fin 4) (s : State) : Works s (s.formatBoundary fmt) := by
  unfold State.formatBoundary
  split
  · exact works_refl s
  · split
    · exact works_refl s
    · split
      · split
        · dsimp only
          exact (works_ite (works_closeBox s) (works_refl s)).trans (works_updBatch ..)
        · split
          · exact (works_setBatchState ..).trans (works_updBatch ..)
          · exact works_closeOpenBatch ..
      · split
        · exact works_updBatch ..
        · exact works_closeOpenBatch ..

theorem works_fullSizeTest (s : State) : Works s s.fullSizeTest := by
  unfold State.fullSizeTest
  repeat' (first
    | exact works_refl s
    | exact works_setBatchState ..
    | exact works_closeOpenBatch ..
    | (dsimp only; split)
    | split)

theorem works_deliver (seq : Word) (fmt : Fin 4) (s : State) : Works s (s.deliver seq fmt) := by
  unfold State.deliver
  dsimp only
  have w := works_formatBoundary fmt s
  split
  · exact w
  · exact (((w.trans (works_update ..)).trans (works_updBatch ..)).trans (works_batch ..)).trans (works_fullSizeTest _)

theorem works_loseBlank (seq : Word) (s : State) : Works s (s.loseBlank seq) := by
  unfold State.loseBlank
  dsimp only
  have w : Works s (((s.update seq (Blank.lose .countMissing)).withdraw seq).updBatch
      fun f => { f with suspect := true }) :=
    ((works_update ..).trans (works_withdraw ..)).trans (works_updBatch ..)
  split
  · exact w.trans (works_of_parts ..)
  · exact w.trans (Works.trans (works_of_parts ..) (works_raiseCause ..))

theorem works_passDefect (seq : Word) (s : State) : Works s (s.passDefect seq) :=
  ((works_update ..).trans (works_updBatch ..)).trans (works_of_parts ..)

theorem works_countVerification (handed : Option Blank) (seen : Bool) (s : State) :
    Works s (s.countVerification handed seen) := by
  unfold State.countVerification State.unexpectedEdge
  repeat' (first
    | exact works_refl s
    | exact works_updBatch ..
    | exact works_deliver ..
    | exact works_loseBlank ..
    | exact works_passDefect ..
    | split)

/-! ### The verdict unit -/

theorem works_handNotice (b : Blank) (k : Fin 64) (s : State) : Works s (s.handNotice b k) :=
  works_ite (works_of_parts ..) (works_update ..)

theorem works_rejectDecision (b : Blank) (s : State) : Works s (s.rejectDecision b).1 := by
  have w : Works s ((s.update b.seq fun b =>
      (b.settleVerdict s.slots[b.fmt].header.policy).decide).withdraw b.seq) :=
    (works_update ..).trans (works_withdraw ..)
  exact works_ite (w.trans (works_countReject _)) w

theorem works_rejectDecisionFaulted (b : Blank) (s : State) : Works s (s.rejectDecisionFaulted b) :=
  works_ite (works_refl s) (((works_update ..).trans (works_withdraw ..)).trans (works_countReject _))

/-! ### The scheduler -/

theorem works_join (n : Fin 4) (theta : Nat) (s : State) : Works s (s.join n theta) := works_of_parts ..

theorem works_makeActive (n : Fin 4) (theta : Nat) (s : State) : Works s (s.makeActive n theta) := by
  have w : Works s { s with active := some n, pendingSlot := none, fresh := true } := works_of_parts ..
  exact ((works_ite w (w.trans (works_join ..))).trans (works_gumChangeover ..)).trans (works_prune _)

/-- CYM's mode stays, whatever CYM does. -/
theorem works_cym {s : State} (cym : Cym) (fresh : Bool) (h : cym.mode = s.cym.mode) :
    Works s { s with cym := cym, fresh := fresh } :=
  ⟨⟨rfl, rfl, rfl, rfl, rfl, rfl, rfl, rfl, rfl, h, rfl, fun _ => rfl, fun _ => rfl⟩, rfl, rfl⟩

theorem works_cymCreation (s : State) : Works s s.cymCreation :=
  works_cym _ _ (by split <;> rfl)

theorem works_nextSeq (s : State) (n : Word) : Works s { s with ring := { s.ring with nextSeq := n } } :=
  ⟨⟨rfl, rfl, rfl, rfl, rfl, rfl, rfl, rfl, rfl, rfl, rfl, fun _ => rfl, fun _ => rfl⟩, rfl, rfl⟩

theorem works_registration (s : State) (r : Registration) : Works s { s with registration := r } := works_of_parts ..

theorem works_createRecord (k : Fin 4) (theta : Nat) (s : State) : Works s (s.createRecord k theta) := by
  unfold State.createRecord
  extract_lets fmt s1 inspected b s2 r s3 s4
  have w1 : Works s s1 := by
    unfold s1
    split
    · exact works_makeActive ..
    · exact works_refl s
  have w2 : Works s s2 := w1.trans (works_putAt ..)
  have w3 : Works s s3 := w2.trans (works_nextSeq ..)
  have w4 : Works s s4 := works_ite w3 (w3.trans (works_registration ..))
  exact w4.trans (works_cymCreation s4)

theorem works_fire (k : Fin 4) (i : Fin 16) (e : Entry) (s : State) : Works s (s.fire k i e) := by
  unfold State.fire
  dsimp only
  split
  · refine (works_updStation s k i _).trans (works_cells _ _ fun j => ?_)
    rw [fin_getElem_setAt]
    split
    · subst j; exact ⟨rfl, rfl⟩
    · exact ⟨rfl, rfl⟩
  · exact works_updStation ..

theorem works_outputAction (k : Fin 4) (i : Fin 16) (e : Entry) (b : Option Blank) (s : State) :
    Works s (s.outputAction k i e b) := by
  have fire := works_fire k i e
  have batch : ∀ c : BatchCounter, Works s ({ s with batch := c }.fire k i e) :=
    fun c => (works_batch s c).trans (fire _)
  unfold State.outputAction
  generalize s.line.mode = m, e.kind = kind
  cases m <;> cases kind <;> cases b <;> dsimp only
  all_goals first
    | exact works_refl s
    | exact works_ite (batch _) (works_refl s)
    | exact works_ite (fire s) (works_refl s)
    | exact works_ite (works_ite (fire s) (works_update ..)) (works_refl s)
    | exact works_ite (works_ite ((fire s).trans (works_handNotice ..)) (fire s))
        (works_ite (works_update ..) (works_refl s))
    | exact works_ite ((works_rejectDecision _ s).trans (fire _)) (works_rejectDecision _ s)
    | exact works_rejectDecisionFaulted ..

theorem works_sendOperation (e : Entry) (st : Station) (s : State) : Works s (s.sendOperation e st) := by
  unfold State.sendOperation
  repeat' (first | exact works_refl s | exact works_update .. | split)

theorem works_feedEvaluation (k : Fin 4) (st : Station) (theta : Nat) (s : State) :
    Works s (s.feedEvaluation k st theta) := works_ite (works_createRecord ..) (works_refl s)

theorem works_markStation (k : Fin 4) (st : Station) (s : State) : Works s (s.markStation k st) := by
  unfold State.markStation
  repeat' (first | exact works_refl s | exact works_markEvaluation .. | split)

theorem works_patchCheck (k : Fin 4) (st : Station) (s : State) : Works s (s.patchCheck k st) := by
  unfold State.patchCheck
  repeat' (first | exact works_refl s | exact works_update .. | split)

theorem works_foldMiss (k : Fin 4) (i : Fin 16) (st : Station) (s : State) : Works s (s.foldMiss k i st) :=
  works_ite (works_updStation ..) ((works_updStation ..).trans (works_raiseCause ..))

theorem works_foldCheck (k : Fin 4) (i : Fin 16) (st : Station) (s : State) : Works s (s.foldCheck k i st) := by
  unfold State.foldCheck
  repeat' (first
    | exact works_refl s
    | exact works_updStation ..
    | exact (works_update ..).trans (works_updStation ..)
    | exact (works_update ..).trans (works_foldMiss ..)
    | exact works_foldMiss ..
    | split)

theorem works_countStation (k : Fin 4) (st : Station) (s : State) : Works s (s.countStation k st) := by
  unfold State.countStation
  repeat' (first | exact works_refl s | exact works_countVerification .. | split)

theorem works_closingAction (k : Fin 4) (i : Fin 16) (e : Entry) (st : Station) (theta : Nat) (s : State) :
    Works s (s.closingAction k i e st theta) := by
  unfold State.closingAction
  repeat' (first
    | exact works_refl s
    | exact works_sendOperation ..
    | exact works_feedEvaluation ..
    | exact works_markStation ..
    | exact works_patchCheck ..
    | exact works_foldCheck ..
    | exact works_countStation ..
    | split)

theorem works_closeWindow (k : Fin 4) (i : Fin 16) (e : Entry) (theta : Nat) (s : State) :
    Works s (s.closeWindow k i e theta) := (works_closingAction ..).trans (works_updStation ..)

theorem works_onCrossing (k : Fin 4) (i : Fin 16) (e : Entry) (theta : Nat) (s : State) :
    Works s (s.onCrossing k i e theta) := by
  have w := works_updStation s k i fun st => { st with onMark := true }
  unfold State.onCrossing
  dsimp only
  have w2 := works_ite (c := ((s.updStation k i fun st => { st with onMark := true }).station k i).windowOpen = true)
    (w.trans (works_closeWindow k i e theta _)) w
  have w3 := fun b => w2.trans (works_updStation _ k i (Station.opened e b))
  exact works_ite ((w3 _).trans (works_outputAction ..)) (w3 _)

theorem works_offCrossing (k : Fin 4) (i : Fin 16) (e : Entry) (theta : Nat) (s : State) :
    Works s (s.offCrossing k i e theta) := by
  have w := works_updStation s k i fun st => { st with offMark := true }
  exact works_ite (w.trans (works_closeWindow ..)) w

theorem works_takeCrossing (c : Crossing) (s : State) : Works s (s.takeCrossing c) := by
  unfold State.takeCrossing
  split
  · exact works_refl s
  · exact (works_ite (works_onCrossing ..) (works_offCrossing ..)).trans (works_prune _)

theorem works_takeCrossings (use high fuel low : Nat) (s : State) :
    Works s (State.takeCrossings use high fuel low s) := by
  induction fuel generalizing low s with
  | zero => exact works_refl s
  | succ fuel ih =>
    unfold State.takeCrossings
    split
    · exact works_refl s
    · exact (works_takeCrossing ..).trans (ih ..)

theorem works_passAngles (low high : Nat) (s : State) : Works s (s.passAngles low high) :=
  works_ite (works_refl s) ((works_choice s (s.choice + 1)).trans (works_takeCrossings ..))

theorem works_handEdge (cell : Fin 16) (angle : Half) (s : State) : Works s (s.handEdge cell angle) := works_of_parts ..

/-! ### The head advance -/

theorem ringAdvance_constants (s : State) : s.ringAdvance.constants = s.constants := by
  unfold State.ringAdvance; dsimp only; split <;> rfl

/-- A head advance (R9, R24): the setup stays, the ring's head steps back, and the cycle timer takes the advance. -/
theorem headAdvance_spec (s : State) :
    SameSetup s s.headAdvance ∧ s.headAdvance.ring.head = s.ring.head - 1
      ∧ s.headAdvance.angle = s.angle.headAdvance := by
  have w : ∀ t : State, Works t t.prune.stationsAdvance :=
    fun t => (works_prune t).trans (by unfold State.stationsAdvance; exact works_mapSlots ..)
  have r : SameSetup s s.ringAdvance ∧ s.ringAdvance.ring.head = s.ring.head - 1 ∧ s.ringAdvance.angle = s.angle := by
    unfold State.ringAdvance
    dsimp only
    split
    · exact ⟨⟨rfl, rfl, rfl, rfl, rfl, rfl, rfl, rfl, rfl, rfl, rfl, fun _ => rfl, fun _ => rfl⟩, rfl, rfl⟩
    · exact ⟨⟨rfl, rfl, rfl, rfl, rfl, rfl, rfl, rfl, rfl, rfl, rfl, fun _ => rfl, fun _ => rfl⟩, rfl, rfl⟩
  have c : s.ringAdvance.cym.headAdvance.mode = s.ringAdvance.cym.mode := by
    unfold Cym.headAdvance; split <;> rfl
  have m : SameSetup s.ringAdvance { s.ringAdvance with
      angle := s.ringAdvance.angle.headAdvance, registration := s.ringAdvance.registration.headAdvance
      cym := s.ringAdvance.cym.headAdvance } :=
    ⟨rfl, rfl, rfl, rfl, rfl, rfl, rfl, rfl, rfl, c, rfl, fun _ => rfl, fun _ => rfl⟩
  refine ⟨sameSetup_trans (sameSetup_trans r.1 m) (w _).toSameSetup, (w _).head.trans r.2.1, (w _).angle.trans ?_⟩
  show s.ringAdvance.angle.headAdvance = _
  rw [r.2.2]

/-- The wrap of p (R8, R9): the setup stays, the head advances, and p takes its new value. -/
theorem wrap_spec (p : Nat) (s : State) :
    SameSetup s (s.wrap p) ∧ (s.wrap p).ring.head = s.ring.head - 1
      ∧ (s.wrap p).angle = { s.angle.headAdvance with p := p } := by
  have w1 := works_passAngles (s.theta + 1) 65535 s
  obtain ⟨h1, h2, h3⟩ := headAdvance_spec (s.passAngles (s.theta + 1) 65535)
  have w2 := fun t : State => works_passAngles 0 t.theta t
  have hp : SameSetup (s.passAngles (s.theta + 1) 65535).headAdvance
      ((s.passAngles (s.theta + 1) 65535).headAdvance.setP p) :=
    ⟨rfl, rfl, rfl, rfl, rfl, rfl, rfl, rfl, rfl, rfl, rfl, fun _ => rfl, fun _ => rfl⟩
  refine ⟨?_, ?_, ?_⟩
  · exact sameSetup_trans (sameSetup_trans (sameSetup_trans w1.toSameSetup h1) hp) (w2 _).toSameSetup
  · exact (w2 _).head.trans (h2.trans (by rw [w1.head]))
  · refine (w2 _).angle.trans ?_
    show { (s.passAngles (s.theta + 1) 65535).headAdvance.angle with p := p } = _
    rw [h3, w1.angle]

/-- A step forward within the cycle (R8): the setup and the head stay, and p takes its new value. -/
theorem stepForward_spec (p : Nat) (s : State) :
    SameSetup s (s.stepForward p) ∧ (s.stepForward p).ring.head = s.ring.head
      ∧ (s.stepForward p).angle = { s.angle with p := p } := by
  have hp : SameSetup s (s.setP p) :=
    ⟨rfl, rfl, rfl, rfl, rfl, rfl, rfl, rfl, rfl, rfl, rfl, fun _ => rfl, fun _ => rfl⟩
  have w := works_passAngles (s.theta + 1) (s.setP p).theta (s.setP p)
  exact ⟨sameSetup_trans hp w.toSameSetup, w.head, w.angle⟩

/-! ### Counts -/

/-- The angle unit alone may differ. -/
theorem sameSetup_angle (s : State) (a : AngleUnit) : SameSetup s { s with angle := a } :=
  ⟨rfl, rfl, rfl, rfl, rfl, rfl, rfl, rfl, rfl, rfl, rfl, fun _ => rfl, fun _ => rfl⟩

/-- A count (R4, R11): around its own effect only the gum circuit's answer to a machine that starts to turn. -/
theorem takeCount_spec (sense : CountSense) (work : State → State) (s : State) :
    ∃ u, Works (s.counted sense) u ∧ Works (work u) (s.takeCount sense work) := by
  have g := works_gumLeavesHalt
  unfold State.takeCount eitherOrder
  dsimp only
  split
  · split
    · split
      · exact ⟨_, works_choice _ _, g _⟩
      · exact ⟨_, (works_choice _ _).trans (g _), works_refl _⟩
    · exact ⟨_, g _, works_refl _⟩
  · exact ⟨_, works_refl _, works_refl _⟩

theorem works_loseAll (s : State) : Works s s.loseAll := (works_updateAll s _).trans (works_notices _ _)

theorem works_trackLost (s : State) : Works s s.trackLost :=
  works_eitherOrder works_loseAll (works_raiseCause _) s

/-- A forward count's own effect (R5): debt paid off, p moved on, or the wrap with its head advance. -/
theorem forwardWork_spec (c : Constants) (s : State) : SameSetup s (s.forwardWork c) ∧
    if 0 < s.angle.debt then
      (s.forwardWork c).angle = { s.angle with debt := s.angle.debt - 1 }
        ∧ (s.forwardWork c).ring.head = s.ring.head
    else if s.angle.p + 1 < c.e then
      (s.forwardWork c).angle = { s.angle with p := s.angle.p + 1 } ∧ (s.forwardWork c).ring.head = s.ring.head
    else
      (s.forwardWork c).angle = { s.angle.headAdvance with p := 0 }
        ∧ (s.forwardWork c).ring.head = s.ring.head - 1 := by
  unfold State.forwardWork
  split
  · exact ⟨sameSetup_angle _ _, rfl, rfl⟩
  · split
    · obtain ⟨a, b, c⟩ := stepForward_spec (s.angle.p + 1) s
      exact ⟨a, c, b⟩
    · obtain ⟨a, b, c⟩ := wrap_spec 0 s
      exact ⟨a, c, b⟩

/-- A backward count's own effect (R6): p moved back, the debt increased, or the track lost. -/
theorem backwardWork_spec (c : Constants) (s : State) : SameSetup s (s.backwardWork c)
    ∧ (s.backwardWork c).ring.head = s.ring.head
    ∧ (s.backwardWork c).angle =
      if s.angle.debt = 0 ∧ 0 < s.angle.p then { s.angle with p := s.angle.p - 1 }
      else if s.angle.debt + 1 ≤ c.e then { s.angle with debt := s.angle.debt + 1 }
      else { s.angle with debt := 0 } := by
  unfold State.backwardWork
  by_cases h1 : s.angle.debt = 0 ∧ 0 < s.angle.p
  · rw [if_pos (by simpa using h1), if_pos h1]; exact ⟨sameSetup_angle _ _, rfl, rfl⟩
  · have h1' : (decide (s.angle.debt = 0) && decide (0 < s.angle.p)) = false := by simpa using h1
    simp only [h1', h1]
    by_cases h2 : c.e < s.angle.debt + 1
    · simp only [h2, show ¬ (s.angle.debt + 1 ≤ c.e) by omega, if_true, if_false]
      have w := works_trackLost { s with angle := { s.angle with debt := 0 } }
      exact ⟨sameSetup_trans (sameSetup_angle _ _) w.toSameSetup, w.head, w.angle⟩
    · simp only [h2, show s.angle.debt + 1 ≤ c.e by omega, if_true, if_false]
      exact ⟨sameSetup_angle _ _, rfl, rfl⟩

end Sys2Proof.Laws
end

