-- ==== Sys2Proof/Laws/Gum.lean ====
section
/-!
SUPPORT. What a change of the gum state, the end of a prime, leaving ARMED, a raised cause and a changeover can do, each
as the whole next state with only the parts it may touch left open: the stations and the entries of the ring.
-/

namespace Sys2Proof.Laws

open Sys2Proof.Machine

/-- A state with other stations and other entries in the ring. -/
abbrev withRecords (s : State) (stations : Vector (Vector Station 16) 4) (entries : Vector (Option Blank) 64) : State :=
  { s with stations := stations, ring := { s.ring with entries := entries } }

/-! ### Changes of the gum state (R92, R96) -/

theorem cutWindow_spec (expiry : Bool) (s : State) (x : Fin 4 × Fin 16) :
    ∃ stations entries, State.cutWindow expiry s x = withRecords s stations entries := by
  unfold State.cutWindow
  split
  · obtain ⟨e, h⟩ := update_eq s _ (Blank.cutShort expiry)
    exact ⟨_, e, by rw [h]; rfl⟩
  · exact ⟨_, s.ring.entries, rfl⟩
  · exact ⟨_, s.ring.entries, rfl⟩

theorem foldl_cutWindow_spec (expiry : Bool) (l : List (Fin 4 × Fin 16)) (s : State) :
    ∃ stations entries, l.foldl (State.cutWindow expiry) s = withRecords s stations entries := by
  induction l generalizing s with
  | nil => exact ⟨_, s.ring.entries, rfl⟩
  | cons x l ih =>
    obtain ⟨_, _, h⟩ := cutWindow_spec expiry s x
    obtain ⟨a, b, g⟩ := ih (State.cutWindow expiry s x)
    exact ⟨a, b, by rw [List.foldl_cons, g, h]⟩

/-- A change of the gum state: the new state with its timers stopped, and what R92 does to stations and records. -/
theorem gumTo_spec (new : GumState) (expiry : Bool) (s : State) :
    ∃ stations entries, s.gumTo new expiry
      = withRecords { s with gum := { state := new, standbyTimer := 0, primeTimer := none } } stations entries := by
  unfold State.gumTo
  dsimp only
  split
  · obtain ⟨a, b, h⟩ := foldl_cutWindow_spec expiry s.firedGum
      { s with gum := { state := new, standbyTimer := 0, primeTimer := none } }
    rw [h]
    exact ⟨_, b, rfl⟩
  · exact ⟨_, s.ring.entries, rfl⟩

/-- Without a fired GUM window open, no window is cut short. -/
theorem gumTo_of_no_window (new : GumState) (expiry : Bool) {s : State} (h : s.firedGum = []) :
    ∃ stations, s.gumTo new expiry
      = { s with gum := { state := new, standbyTimer := 0, primeTimer := none }, stations := stations } := by
  unfold State.gumTo
  dsimp only
  rw [h]
  split
  · exact ⟨_, rfl⟩
  · exact ⟨_, rfl⟩

theorem abortPrime_of_priming {s : State} (new : GumState) (h : s.gum.state = .priming) :
    ∃ stations entries, s.abortPrime new
      = withRecords { s with
          gum := { state := new, standbyTimer := 0, primeTimer := none }
          line := { s.line with events := addBit s.line.events LineEvent.primeAborted.bit } } stations entries := by
  obtain ⟨a, b, g⟩ := gumTo_spec new false s
  exact ⟨a, b, by rw [State.abortPrime, if_pos h, g]; rfl⟩

theorem abortPrime_of_not_priming {s : State} (new : GumState) (h : s.gum.state ≠ .priming) :
    s.abortPrime new = s := by rw [State.abortPrime, if_neg h]

/-! ### Leaving ARMED (R19, R56, R96) -/

/-- Every pulse ended (R19). -/
def pulsesEnded (cells : Vector Cell 16) : Vector Cell 16 := mapTable (fun _ c => { c with pulseTimer := none }) cells

/-- The gum circuit and the events as leaving ARMED leaves them (R96). -/
def State.primeDropped (s : State) : Gum × EventSet :=
  if s.gum.state = .priming then
    ({ state := .standby, standbyTimer := 0, primeTimer := none }, addBit s.line.events LineEvent.primeAborted.bit)
  else (s.gum, s.line.events)

theorem abortPrime_spec (s : State) :
    ∃ stations entries, s.abortPrime .standby
      = withRecords { s with
          gum := (State.primeDropped s).1, line := { s.line with events := (State.primeDropped s).2 } }
          stations entries := by
  by_cases h : s.gum.state = .priming
  · obtain ⟨a, b, g⟩ := abortPrime_of_priming .standby h
    exact ⟨a, b, by rw [g, State.primeDropped, if_pos h]⟩
  · exact ⟨s.stations, s.ring.entries, by rw [abortPrime_of_not_priming _ h, State.primeDropped, if_neg h]⟩

theorem closeFired_spec (s : State) :
    ∃ stations, s.closeFired = { s with stations := stations, cells := pulsesEnded s.cells } := ⟨_, rfl⟩

theorem leaveArmed_spec (s : State) :
    ∃ stations entries choice, s.leaveArmed
      = { withRecords { s with
            gum := (State.primeDropped s).1, line := { s.line with events := (State.primeDropped s).2 } }
            stations entries with cells := pulsesEnded s.cells, choice := choice } := by
  have ab : ∀ n : Nat, ∃ stations entries,
      State.abortPrime .standby (State.closeFired { s with choice := n })
        = { withRecords { s with
              gum := (State.primeDropped s).1, line := { s.line with events := (State.primeDropped s).2 } }
              stations entries with cells := pulsesEnded s.cells, choice := n } := by
    intro n
    obtain ⟨a, b, h⟩ := abortPrime_spec (State.closeFired { s with choice := n })
    exact ⟨a, b, h⟩
  have ba : ∀ n : Nat, ∃ stations entries,
      State.closeFired (State.abortPrime .standby { s with choice := n })
        = { withRecords { s with
              gum := (State.primeDropped s).1, line := { s.line with events := (State.primeDropped s).2 } }
              stations entries with cells := pulsesEnded s.cells, choice := n } := by
    intro n
    obtain ⟨a, b, h⟩ := abortPrime_spec { s with choice := n }
    rw [h]
    exact ⟨_, b, rfl⟩
  unfold State.leaveArmed eitherOrder
  split
  · dsimp only
    split
    · obtain ⟨a, b, h⟩ := ba (s.choice + 1)
      rw [h]; exact ⟨_, b, _, rfl⟩
    · obtain ⟨a, b, h⟩ := ab (s.choice + 1)
      rw [h]; exact ⟨_, b, _, rfl⟩
  · obtain ⟨a, b, h⟩ := ab s.choice
    rw [h]; exact ⟨_, b, _, rfl⟩

/-- The fault latch with a cause entered (R155). -/
def withCause (c : Cause) (l : LineControl) : LineControl :=
  { l with firstCause := if l.causes = 0 then some c else l.firstCause, causes := addBit l.causes c.bit }

theorem raiseCause_of_not_armed (c : Cause) {s : State} (h : s.line.mode ≠ .armed) :
    s.raiseCause c = { s with line := withCause c s.line } := by
  rw [State.raiseCause, if_neg h]; rfl

/-- A cause raised in ARMED (R155, R158, R19, R96): FAULTED, the chord timer restarted, pulses ended, a prime
aborted. -/
theorem raiseCause_of_armed (c : Cause) {s : State} (h : s.line.mode = .armed) :
    ∃ stations entries choice, s.raiseCause c
      = { withRecords { s with
            gum := (State.primeDropped s).1
            line := { withCause c s.line with
              mode := .faulted, chordTimer := s.line.chordTimer.map fun _ => 0
              events := (State.primeDropped s).2 } }
            stations entries with cells := pulsesEnded s.cells, choice := choice } := by
  rw [State.raiseCause, if_pos h]
  obtain ⟨a, b, n, g⟩ := leaveArmed_spec
    { s with line := { withCause c s.line with
        mode := .faulted, chordTimer := s.line.chordTimer.map fun _ => 0 } }
  exact ⟨a, b, n, g⟩

/-! ### The changeover (R97) -/

theorem standbyExpires_spec (s : State) :
    ∃ stations entries, s.standbyExpires
      = withRecords { s with
          gum := { state := .standby, standbyTimer := 0, primeTimer := none }
          line := { s.line with events := addBit s.line.events LineEvent.gumStandby.bit } } stations entries := by
  obtain ⟨e, h⟩ := updateAll_eq s Blank.spoil
  obtain ⟨a, b, g⟩ := gumTo_spec .standby true (s.updateAll Blank.spoil)
  refine ⟨a, b, ?_⟩
  rw [State.standbyExpires, g, h]
  rfl

theorem gumChangeover_spec (n : Fin 4) (s : State) :
    ∃ stations entries gum events, s.gumChangeover n
      = withRecords { s with gum := gum, line := { s.line with events := events } } stations entries := by
  have due : ∀ t : State, (∃ stations entries gum events,
      t = withRecords { s with gum := gum, line := { s.line with events := events } } stations entries) →
      ∃ stations entries gum events, (if t.standbyDue then t.standbyExpires else t)
        = withRecords { s with gum := gum, line := { s.line with events := events } } stations entries := by
    rintro t ⟨a, b, g, e, h⟩
    split
    · obtain ⟨a', b', h'⟩ := standbyExpires_spec t
      subst h
      exact ⟨a', b', { state := .standby, standbyTimer := 0, primeTimer := none },
        addBit e LineEvent.gumStandby.bit, h'⟩
    · exact ⟨a, b, g, e, h⟩
  have gum : ∀ new, ∃ stations entries gum events, s.gumTo new false
      = withRecords { s with gum := gum, line := { s.line with events := events } } stations entries := by
    intro new
    obtain ⟨a, b, h⟩ := gumTo_spec new false s
    exact ⟨a, b, _, s.line.events, h⟩
  have same : ∃ stations entries gum events,
      s = withRecords { s with gum := gum, line := { s.line with events := events } } stations entries :=
    ⟨s.stations, s.ring.entries, s.gum, s.line.events, rfl⟩
  unfold State.gumChangeover
  dsimp only
  apply due
  split
  · exact gum _
  · split
    · exact same
    · exact gum _
  · exact gum _
  · rename_i h
    obtain ⟨a, b, g⟩ := abortPrime_of_priming (if s.slots[n].hasGum = true then .standby else .off) h
    exact ⟨a, b, _, _, g⟩

theorem makeActive_spec (n : Fin 4) (theta : Nat) (s : State) :
    ∃ stations entries gum events, s.makeActive n theta
      = withRecords { s with
          active := some n, pendingSlot := none, fresh := true
          gum := gum, line := { s.line with events := events } } stations entries := by
  have h : ∀ t : State, (∃ stations, t = { s with
      active := some n, pendingSlot := none, fresh := true, stations := stations }) →
      ∃ stations entries gum events, (t.gumChangeover n).prune
        = withRecords { s with
            active := some n, pendingSlot := none, fresh := true
            gum := gum, line := { s.line with events := events } } stations entries := by
    rintro t ⟨st, ht⟩
    obtain ⟨a, b, g, e, h⟩ := gumChangeover_spec n t
    rw [h, ht]
    exact ⟨_, b, g, e, rfl⟩
  apply h
  split
  · exact ⟨_, rfl⟩
  · exact ⟨_, rfl⟩

end Sys2Proof.Laws
end

