-- ==== Sys2Proof/Laws/Records.lean ====
section
/-!
SUPPORT. What the work inside a step does to the records of the ring (R26 to R33, R40): each record keeps its number and
format and only gains faults and operations, a final record keeps its fate, one record at most is created, at position
0, and no slot comes into use. Each operation says so once.
-/

namespace Sys2Proof.Laws

open Sys2Proof.Machine Sys2Proof.Safety

/-! ### One record -/

theorem leadsTo_refl (d : Disposition) : leadsTo d d = true := by cases d <;> decide

theorem leadsTo_trans {a b c : Disposition} (h : leadsTo a b = true) (g : leadsTo b c = true) : leadsTo a c = true := by
  revert h g; cases a <;> cases b <;> cases c <;> decide

/-- What may become of a record (R40). -/
structure Evolves (b b' : Blank) : Prop where
  seq : b'.seq = b.seq
  fmt : b'.fmt = b.fmt
  faults : ∀ i, hasBit b.faults i = true → hasBit b'.faults i = true
  ops : ∀ i, hasBit b.ops i = true → hasBit b'.ops i = true
  moves : leadsTo b.disposition b'.disposition = true
  clean : Clean b → Clean b'
  final : b.disposition.final = true → b' = { b with regErr := b'.regErr }

theorem evolves_refl (b : Blank) : Evolves b b :=
  ⟨rfl, rfl, fun _ h => h, fun _ h => h, leadsTo_refl _, id, fun _ => rfl⟩

theorem Evolves.trans {a b c : Blank} (h : Evolves a b) (g : Evolves b c) : Evolves a c :=
  ⟨g.seq.trans h.seq, g.fmt.trans h.fmt, fun i p => g.faults i (h.faults i p), fun i p => g.ops i (h.ops i p),
    leadsTo_trans h.moves g.moves, fun p => g.clean (h.clean p),
    fun p => by
      have h' := h.final p
      have g' := g.final (by rw [h']; exact p)
      rw [g', h']⟩

theorem hasBit_addBit_of {n : Nat} {s : BitVec n} {i j : Nat} (h : hasBit s j = true) : hasBit (addBit s i) j = true := by
  simp only [hasBit] at h
  simp [hasBit, addBit, h]

/-- A change of a record that is not final, in which the disposition moves as section 2.4 says and the sets only grow. -/
theorem evolves_of_open {b b' : Blank} (o : b.disposition.final = false) (seq : b'.seq = b.seq) (fmt : b'.fmt = b.fmt)
    (moves : leadsTo b.disposition b'.disposition = true) (clean : Clean b → Clean b')
    (faults : ∀ i, hasBit b.faults i = true → hasBit b'.faults i = true)
    (ops : ∀ i, hasBit b.ops i = true → hasBit b'.ops i = true) : Evolves b b' :=
  ⟨seq, fmt, faults, ops, moves, clean, fun h => by rw [o] at h; cases h⟩

theorem not_clean_disposition {b : Blank} (h : b.disposition = .toReject ∨ b.disposition = .flagged
    ∨ b.disposition = .rejected ∨ b.disposition = .lost) : Clean b := by
  intro g
  rcases h with h | h | h | h <;> rw [h] at g <;> simp at g

theorem evolves_addFault (f : BlankFault) (b : Blank) : Evolves b (b.addFault f) := by
  unfold Blank.addFault
  split
  · exact evolves_refl b
  · have o : b.disposition.final = false := by simpa using ‹¬ b.disposition.final = true›
    refine evolves_of_open o rfl rfl ?_ (fun _ => not_clean_disposition ?_) (fun _ => hasBit_addBit_of) fun _ h => h
    all_goals cases h : b.disposition <;> simp_all [Disposition.final, Disposition.faulted, leadsTo]

theorem evolves_addOp (o : Op) (b : Blank) : Evolves b (b.addOp o) := by
  unfold Blank.addOp
  split
  · exact evolves_refl b
  · exact evolves_of_open (by simpa using ‹¬ b.disposition.final = true›) rfl rfl (leadsTo_refl _) id (fun _ h => h)
      fun _ => hasBit_addBit_of

theorem evolves_lose (f : BlankFault) (b : Blank) : Evolves b (b.lose f) := by
  unfold Blank.lose
  split
  · exact evolves_refl b
  · have o : b.disposition.final = false := by simpa using ‹¬ b.disposition.final = true›
    refine evolves_of_open o rfl rfl ?_ (fun _ => not_clean_disposition (by simp)) (fun _ => hasBit_addBit_of)
      fun _ h => h
    cases h : b.disposition <;> simp_all [Disposition.final, leadsTo]

theorem evolves_deliver (n : Word) (b : Blank) : Evolves b (b.deliver n) := by
  unfold Blank.deliver
  cases h : b.disposition
  all_goals first
    | exact evolves_refl b
    | exact evolves_of_open (by rw [h]; rfl) rfl rfl (by rw [h]; rfl) (fun c _ => c (by simp [h])) (fun _ h => h)
        fun _ => hasBit_addBit_of

theorem evolves_passDefect (b : Blank) : Evolves b b.passDefect := by
  unfold Blank.passDefect
  cases h : b.disposition
  all_goals first
    | exact evolves_refl b
    | exact evolves_of_open (by rw [h]; rfl) rfl rfl (by rw [h]; rfl) (fun _ => not_clean_disposition (by simp))
        (fun _ h => h) fun _ => hasBit_addBit_of

/-- A verdict changes nothing that R40 speaks of but the verdict. -/
theorem evolves_verdict {b : Blank} (o : b.disposition.final = false) (v : Verdict) :
    Evolves b { b with verdict := v } :=
  evolves_of_open o rfl rfl (leadsTo_refl _) id (fun _ h => h) fun _ h => h

theorem evolves_skipVerdict (b : Blank) : Evolves b b.skipVerdict := by
  unfold Blank.skipVerdict
  split
  · exact evolves_refl b
  · exact evolves_verdict (by simpa using ‹¬ b.disposition.final = true›) _

theorem evolves_regErr (e : Option Int) (b : Blank) : Evolves b { b with regErr := e } :=
  ⟨rfl, rfl, fun _ h => h, fun _ h => h, leadsTo_refl _, id, fun _ => rfl⟩

theorem evolves_cutShort (expiry : Bool) (b : Blank) : Evolves b (b.cutShort expiry) := by
  unfold Blank.cutShort
  dsimp only
  split
  · exact (evolves_addFault ..).trans (evolves_addFault ..)
  · exact evolves_addFault ..

theorem evolves_spoil (b : Blank) : Evolves b b.spoil := by
  unfold Blank.spoil
  split
  · exact evolves_addFault ..
  · exact evolves_refl b

theorem evolves_settleVerdict (p : Policy) (b : Blank) : Evolves b (b.settleVerdict p) := by
  unfold Blank.settleVerdict
  split
  · exact evolves_refl b
  · have o : b.disposition.final = false := by simpa using ‹¬ b.disposition.final = true›
    split
    · have m := evolves_verdict o .missing
      cases p
      · exact m.trans (evolves_addFault ..)
      · exact m
    · exact evolves_refl b

theorem evolves_decide (b : Blank) : Evolves b b.decide := by
  unfold Blank.decide
  cases h : b.disposition
  case toReject =>
    exact evolves_of_open (by rw [h]; rfl) rfl rfl (by rw [h]; rfl) (fun _ => not_clean_disposition (by simp))
      (fun _ h => h) fun _ h => h
  case inLine =>
    exact evolves_of_open (by rw [h]; rfl) rfl rfl (by rw [h]; rfl) (fun c _ => c (by simp [h])) (fun _ h => h)
      fun _ h => h
  all_goals exact evolves_refl b

theorem addFault_open (f : BlankFault) {b : Blank} (o : b.disposition.final = false) :
    (b.addFault f).disposition.final = false := by
  cases h : b.disposition <;> simp_all [Blank.addFault, Disposition.final, Disposition.faulted]

theorem evolves_rejected {b : Blank} (o : b.disposition.final = false) :
    Evolves b { b with disposition := .rejected } := by
  refine evolves_of_open o rfl rfl ?_ (fun _ => not_clean_disposition (by simp)) (fun _ h => h) fun _ h => h
  cases h : b.disposition <;> simp_all [Disposition.final, leadsTo]

theorem evolves_decideFaulted (b : Blank) : Evolves b b.decideFaulted := by
  unfold Blank.decideFaulted
  split
  · exact evolves_refl b
  · have o : b.disposition.final = false := by simpa using ‹¬ b.disposition.final = true›
    dsimp only
    split
    · exact (evolves_addFault .lineFault b).trans (evolves_rejected (addFault_open _ o))
    · exact evolves_rejected o

/-! ### The ring through a step -/

/-- What the work inside a step does to the ring, the changeover and the line's emptiness. -/
structure Flows (s t : State) : Prop extends Works s t where
  /-- A record stays at its position (R25, R40). -/
  records : ∀ k b, s.ring.at k = some b → ∃ b', t.ring.at k = some b' ∧ Evolves b b'
  /-- A gap stays a gap, but for a creation at position 0 (R29). -/
  gaps : ∀ k, k ≠ 0 → s.ring.at k = none → t.ring.at k = none
  /-- One creation at most, with the counter's number, and none in OFFLINE (R28, R29). -/
  creation : t.ring.nextSeq = s.ring.nextSeq ∧ (s.ring.at 0 = none → t.ring.at 0 = none)
    ∨ s.ring.at 0 = none ∧ t.ring.nextSeq = successor s.ring.nextSeq ∧ s.line.mode ≠ .offline
      ∧ ∃ b, t.ring.at 0 = some b ∧ b.seq = s.ring.nextSeq ∧ Clean b
  /-- Nothing inside a step enters or leaves OFFLINE (R153, R154). -/
  mode : t.line.mode = .offline ↔ s.line.mode = .offline
  notices : s.line.mode = .offline → s.notices = [] → t.notices = []
  /-- No slot comes into use (R137). -/
  inUse : ∀ k, t.inUse k = true → s.inUse k = true

theorem flows_refl (s : State) : Flows s s :=
  { works_refl s with
    records := fun _ b h => ⟨b, h, evolves_refl b⟩
    gaps := fun _ _ h => h
    creation := .inl ⟨rfl, fun h => h⟩
    mode := Iff.rfl
    notices := fun _ h => h
    inUse := fun _ h => h }

theorem Flows.trans {s t u : State} (h : Flows s t) (g : Flows t u) : Flows s u :=
  { h.toWorks.trans g.toWorks with
    records := fun k b hb => by
      obtain ⟨b', h1, h2⟩ := h.records k b hb
      obtain ⟨b'', g1, g2⟩ := g.records k b' h1
      exact ⟨b'', g1, h2.trans g2⟩
    gaps := fun k hk h0 => g.gaps k hk (h.gaps k hk h0)
    creation := by
      rcases h.creation with ⟨h1, h2⟩ | ⟨h1, h2, h3, b, h4, h5, h6⟩
      · rcases g.creation with ⟨g1, g2⟩ | ⟨g1, g2, g3, b, g4, g5, g6⟩
        · exact .inl ⟨g1.trans h1, fun h0 => g2 (h2 h0)⟩
        · have h0 : s.ring.at 0 = none := by
            cases hs : s.ring.at 0 with
            | none => rfl
            | some b0 =>
              obtain ⟨b', h', -⟩ := h.records 0 b0 hs
              rw [h'] at g1; cases g1
          exact .inr ⟨h0, by rw [g2, h1], fun m => g3 (h.mode.mpr m), b, g4, by rw [g5, h1], g6⟩
      · obtain ⟨b', g4, g5⟩ := g.records 0 b h4
        rcases g.creation with ⟨g1, g2⟩ | ⟨g1, _⟩
        · exact .inr ⟨h1, g1.trans h2, h3, b', g4, g5.seq.trans h5, g5.clean h6⟩
        · rw [h4] at g1; cases g1
    mode := g.mode.trans h.mode
    notices := fun m n => g.notices (h.mode.mpr m) (h.notices m n)
    inUse := fun k hk => h.inUse k (g.inUse k hk) }

theorem flows_ite {c : Prop} [Decidable c] {s t u : State} (h : Flows s t) (g : Flows s u) :
    Flows s (if c then t else u) := by split <;> assumption

/-! ### The three kinds of change -/

theorem carried_iff {s : State} {k : Fin 4} :
    s.carried k = true ↔ ∃ j b, s.presentAt j = some b ∧ b.fmt = k := by
  simp [State.carried, Option.any_eq_true]

theorem anyOpen_iff {s : State} {k : Fin 4} :
    s.anyOpen k = true ↔ ∃ i, (s.station k i).windowOpen = true := by simp [State.anyOpen]

theorem inUse_iff {s : State} {k : Fin 4} :
    s.inUse k = true ↔ s.active = some k ∨ s.pendingSlot = some k ∨ s.carried k = true ∨ s.anyOpen k = true := by
  simp [State.inUse, or_assoc]

theorem evaluated_iff {s : State} {k : Fin 4} :
    s.evaluated k = true ↔ s.active = some k ∨ s.carried k = true ∨ s.anyOpen k = true := by
  simp [State.evaluated, or_assoc]

theorem inUse_of_evaluated {s : State} {k : Fin 4} (h : s.evaluated k = true) : s.inUse k = true := by
  rw [evaluated_iff] at h
  rw [inUse_iff]
  tauto

/-- Neither ring nor changeover nor stations change, and OFFLINE and an empty queue stay. -/
theorem flows_of_parts {s t : State} (w : Works s t) (ring : t.ring = s.ring) (stations : t.stations = s.stations)
    (active : t.active = s.active) (pending : t.pendingSlot = s.pendingSlot)
    (mode : t.line.mode = .offline ↔ s.line.mode = .offline)
    (notices : s.line.mode = .offline → s.notices = [] → t.notices = []) : Flows s t :=
  { w with
    records := fun _ b h => ⟨b, by rw [ring]; exact h, evolves_refl b⟩
    gaps := fun _ _ h => by rw [ring]; exact h
    creation := .inl ⟨by rw [ring], fun h => by rw [ring]; exact h⟩
    mode := mode
    notices := notices
    inUse := fun k h => by
      have e : t.inUse k = s.inUse k := by
        simp only [State.inUse, State.carried, State.anyOpen, State.station, State.presentAt, w.lineLength, ring,
          stations, active, pending]
      rw [← e]; exact h }

/-- Stations change and no window opens. -/
theorem flows_stations (s : State) (stations : Vector (Vector Station 16) 4)
    (h : ∀ (k : Fin 4) (i : Fin 16), stations[k][i].windowOpen = true → s.stations[k][i].windowOpen = true) :
    Flows s { s with stations := stations } :=
  { (works_of_parts .. : Works s { s with stations := stations }) with
    records := fun _ b h => ⟨b, h, evolves_refl b⟩
    gaps := fun _ _ h => h
    creation := .inl ⟨rfl, fun h => h⟩
    mode := Iff.rfl
    notices := fun _ h => h
    inUse := fun k hk => by
      rw [inUse_iff] at hk ⊢
      rcases hk with hk | hk | hk | hk
      · exact .inl hk
      · exact .inr (.inl hk)
      · exact .inr (.inr (.inl hk))
      · obtain ⟨i, hi⟩ := anyOpen_iff.mp hk
        exact .inr (.inr (.inr (anyOpen_iff.mpr ⟨i, h k i hi⟩))) }

/-- Records evolve, each at its place. -/
theorem flows_entries {s : State} (entries : Vector (Option Blank) 64)
    (h : ∀ k : Fin 64, ∀ o, ({ s.ring with entries := entries } : Machine.Ring).at k = o →
      (∀ b, s.ring.at k = some b → ∃ b', o = some b' ∧ Evolves b b') ∧ (s.ring.at k = none → o = none)) :
    Flows s { s with ring := { s.ring with entries := entries } } :=
  { works_entries s entries with
    records := fun k b hb => (h k _ rfl).1 b hb
    gaps := fun k _ hk => (h k _ rfl).2 hk
    creation := .inl ⟨rfl, fun h0 => (h 0 _ rfl).2 h0⟩
    mode := Iff.rfl
    notices := fun _ h => h
    inUse := fun k hk => by
      rw [inUse_iff] at hk ⊢
      rcases hk with hk | hk | hk | hk
      · exact .inl hk
      · exact .inr (.inl hk)
      · refine .inr (.inr (.inl ?_))
        obtain ⟨j, b', hb, hf⟩ := carried_iff.mp hk
        obtain ⟨hl, ha⟩ := presentAt_some.mp hb
        cases hs : s.ring.at j with
        | none => have := (h j _ ha).2 hs; cases this
        | some b =>
          obtain ⟨b'', e, ev⟩ := (h j _ ha).1 b hs
          cases e
          exact carried_iff.mpr ⟨j, b, presentAt_some.mpr ⟨hl, hs⟩, by rw [← ev.fmt]; exact hf⟩
      · exact .inr (.inr (.inr hk)) }

/-! ### Updates -/

theorem flows_update {s : State} (seq : Word) (f : Blank → Blank)
    (h : ∀ b, s.record seq = some b → Evolves b (f b)) : Flows s (s.update seq f) := by
  cases hp : s.positionOf seq with
  | none => rw [update_of_none hp]; exact flows_refl s
  | some k =>
    obtain ⟨b, hb, -⟩ := positionOf_some hp
    rw [update_of_some hp hb]
    refine flows_entries _ fun j o ho => ?_
    replace ho : (s.putAt k (some (f b))).ring.at j = o := ho
    rw [at_putAt] at ho
    split at ho
    · subst j
      have hs := (presentAt_some.mp hb).2
      refine ⟨fun b0 h0 => ?_, fun h0 => ?_⟩
      · rw [hs] at h0; cases h0
        exact ⟨f b, ho.symm, h b (by rw [record_of_positionOf hp, hb])⟩
      · rw [hs] at h0; cases h0
    · exact ⟨fun b0 h0 => ⟨b0, by rw [← ho, h0], evolves_refl b0⟩, fun h0 => by rw [← ho, h0]⟩

theorem flows_updateAll (s : State) (f : Blank → Blank) (h : ∀ b, Evolves b (f b)) : Flows s (s.updateAll f) := by
  have e : s.updateAll f = { s with ring := { s.ring with entries := (s.updateAll f).ring.entries } } := by
    simp only [State.updateAll]
  rw [e]
  refine flows_entries _ fun k o ho => ?_
  replace ho : (s.updateAll f).ring.at k = o := by rw [e]; exact ho
  rw [at_updateAll] at ho
  split at ho
  · exact ⟨fun b hb => ⟨f b, by rw [← ho, hb]; rfl, h b⟩, fun hn => by rw [← ho, hn]; rfl⟩
  · exact ⟨fun b hb => ⟨b, by rw [← ho, hb], evolves_refl b⟩, fun hn => by rw [← ho, hn]⟩

theorem flows_mapStations (s : State) (f : Fin 4 → Fin 16 → Station → Station)
    (h : ∀ k i st, (f k i st).windowOpen = true → st.windowOpen = true) : Flows s (s.mapStations f) :=
  flows_stations s _ fun k i hk => by
    rw [fin_getElem_mapTable, fin_getElem_mapTable] at hk
    exact h k i _ hk

theorem flows_prune (s : State) : Flows s s.prune :=
  flows_stations s _ fun k i hk => by
    rw [fin_getElem_mapTable] at hk
    split at hk
    · exact hk
    · rw [fin_getElem_mapTable] at hk; cases hk

/-- One station changed, its window not opened, or opened in a slot in use. -/
theorem flows_updStation {s : State} {k : Fin 4} (i : Fin 16) {f : Station → Station}
    (h : (f (s.station k i)).windowOpen = true → (s.station k i).windowOpen = true ∨ s.inUse k = true) :
    Flows s (s.updStation k i f) :=
  { works_updStation s k i f with
    records := fun _ b h => ⟨b, h, evolves_refl b⟩
    gaps := fun _ _ h => h
    creation := .inl ⟨rfl, fun h => h⟩
    mode := Iff.rfl
    notices := fun _ h => h
    inUse := fun k' hk => by
      rw [inUse_iff] at hk
      rcases hk with hk | hk | hk | hk
      · exact inUse_iff.mpr (.inl hk)
      · exact inUse_iff.mpr (.inr (.inl hk))
      · exact inUse_iff.mpr (.inr (.inr (.inl hk)))
      · obtain ⟨j, hj⟩ := anyOpen_iff.mp hk
        simp only [State.station, updStation_stations, fin_getElem_setAt] at hj
        split at hj
        · subst k'
          rw [fin_getElem_setAt] at hj
          split at hj
          · subst j
            rcases h hj with h | h
            · exact inUse_iff.mpr (.inr (.inr (.inr (anyOpen_iff.mpr ⟨i, h⟩))))
            · exact h
          · exact inUse_iff.mpr (.inr (.inr (.inr (anyOpen_iff.mpr ⟨j, hj⟩))))
        · exact inUse_iff.mpr (.inr (.inr (.inr (anyOpen_iff.mpr ⟨j, hj⟩)))) }

theorem flows_setEvent (s : State) (e : LineEvent) : Flows s (s.setEvent e) :=
  flows_of_parts (works_setEvent s e) rfl rfl rfl rfl Iff.rfl fun _ h => h

theorem flows_choice (s : State) (n : Nat) : Flows s { s with choice := n } :=
  flows_of_parts (works_choice s n) rfl rfl rfl rfl Iff.rfl fun _ h => h

theorem flows_batch (s : State) (b : BatchCounter) : Flows s { s with batch := b } :=
  flows_of_parts (works_batch s b) rfl rfl rfl rfl Iff.rfl fun _ h => h

theorem flows_gum (s : State) (g : Gum) : Flows s { s with gum := g } :=
  flows_of_parts (works_of_parts ..) rfl rfl rfl rfl Iff.rfl fun _ h => h

theorem flows_registration (s : State) (r : Registration) : Flows s { s with registration := r } :=
  flows_of_parts (works_registration s r) rfl rfl rfl rfl Iff.rfl fun _ h => h

theorem flows_withdraw (s : State) (seq : Word) : Flows s (s.withdraw seq) :=
  flows_of_parts (works_withdraw s seq) rfl rfl rfl rfl Iff.rfl fun _ h => by simp [State.withdraw, h]

theorem flows_line (s : State) (l : LineControl) (h : l.mode = .offline ↔ s.line.mode = .offline) :
    Flows s { s with line := l } :=
  flows_of_parts (works_of_parts ..) rfl rfl rfl rfl h fun _ h => h

theorem flows_updBatch (s : State) (f : BatchFields → BatchFields) : Flows s (s.updBatch f) := flows_batch ..
theorem flows_setBatchState (s : State) (b : BatchState) : Flows s (s.setBatchState b) := flows_batch ..
theorem flows_openBatchFor (s : State) (k : Fin 4) : Flows s (s.openBatchFor k) := flows_batch ..
theorem flows_countReject (s : State) : Flows s s.countReject := flows_batch ..

theorem flows_eitherOrder {a b : State → State} {matters : Bool} (ha : ∀ s, Flows s (a s)) (hb : ∀ s, Flows s (b s))
    (s : State) : Flows s (eitherOrder matters a b s) := by
  have hc := flows_choice s (s.choice + 1)
  unfold eitherOrder
  split
  · dsimp only
    split
    · exact hc.trans ((hb _).trans (ha _))
    · exact hc.trans ((ha _).trans (hb _))
  · exact (ha _).trans (hb _)

/-! ### The gum circuit and the fault latch -/

theorem flows_cutWindow (expiry : Bool) (s : State) (x : Fin 4 × Fin 16) : Flows s (State.cutWindow expiry s x) := by
  unfold State.cutWindow
  refine Flows.trans ?_ (flows_updStation _ fun h => by cases h)
  split
  · exact flows_update _ _ fun b _ => evolves_cutShort expiry b
  · exact flows_refl s
  · exact flows_refl s

theorem flows_foldl {α : Type} {f : State → α → State} (h : ∀ s x, Flows s (f s x)) (l : List α) (s : State) :
    Flows s (l.foldl f s) := by
  induction l generalizing s with
  | nil => exact flows_refl s
  | cons x l ih => exact (h s x).trans (ih _)

theorem flows_gumTo (new : GumState) (expiry : Bool) (s : State) : Flows s (s.gumTo new expiry) := by
  have h := flows_gum s { state := new, standbyTimer := 0, primeTimer := none }
  unfold State.gumTo
  dsimp only
  split
  · exact (h.trans (flows_foldl (flows_cutWindow expiry) _ _)).trans (flows_prune _)
  · exact h

theorem flows_abortPrime (new : GumState) (s : State) : Flows s (s.abortPrime new) :=
  flows_ite ((flows_gumTo ..).trans (flows_setEvent ..)) (flows_refl s)

theorem flows_gumLeavesHalt (s : State) : Flows s s.gumLeavesHalt :=
  (flows_gum s { s.gum with standbyTimer := 0 }).trans (flows_abortPrime ..)

theorem flows_standbyExpires (s : State) : Flows s s.standbyExpires :=
  ((flows_updateAll _ _ evolves_spoil).trans (flows_gumTo ..)).trans (flows_setEvent ..)

theorem flows_primeCompletes (s : State) : Flows s s.primeCompletes := (flows_gumTo ..).trans (flows_setEvent ..)

theorem flows_gumChangeover (n : Fin 4) (s : State) : Flows s (s.gumChangeover n) := by
  unfold State.gumChangeover
  dsimp only
  have h : ∀ t : State, Flows s t → Flows s (if t.standbyDue then t.standbyExpires else t) :=
    fun t ht => flows_ite (ht.trans (flows_standbyExpires t)) ht
  apply h
  split
  · exact flows_gumTo ..
  · exact flows_ite (flows_refl s) (flows_gumTo ..)
  · exact flows_gumTo ..
  · exact flows_abortPrime ..

theorem flows_closeFired (s : State) : Flows s s.closeFired := by
  unfold State.closeFired
  refine (flows_mapStations s _ fun k i st h => ?_).trans
    (flows_of_parts (works_cells _ _ fun i => by simp) rfl rfl rfl rfl Iff.rfl fun _ h => h)
  split at h
  · cases h
  · exact h

theorem flows_leaveArmed (s : State) : Flows s s.leaveArmed :=
  (flows_eitherOrder flows_closeFired (flows_abortPrime .standby) s).trans (flows_prune _)

theorem flows_raiseCause (c : Cause) (s : State) : Flows s (s.raiseCause c) := by
  unfold State.raiseCause
  dsimp only
  split
  · rename_i h
    exact Flows.trans (flows_line s _ (by simp [h])) (flows_leaveArmed _)
  · exact flows_of_parts (works_of_parts ..) rfl rfl rfl rfl Iff.rfl fun _ h => h

/-! ### Registration and the batch counter -/

theorem flows_applyCorrection (c : Int) (s : State) : Flows s (s.applyCorrection c) := by
  unfold State.applyCorrection
  dsimp only
  split
  · exact (flows_registration s _).trans (flows_setEvent ..)
  · exact flows_registration s _

theorem flows_markMissed (seq : Word) (h : Header) (s : State) : Flows s (s.markMissed seq h) := by
  unfold State.markMissed
  dsimp only
  have w := (flows_registration s (s.registration.miss h.missLimit)).trans
    (flows_update seq (Blank.addFault .noMark) fun b _ => evolves_addFault _ b)
  exact flows_ite (w.trans (flows_setEvent ..)) w

theorem flows_markSeen (seq : Word) (h : Header) (a : Half) (s : State) : Flows s (s.markSeen seq h a) := by
  unfold State.markSeen
  dsimp only
  refine Flows.trans ?_ (flows_applyCorrection ..)
  have w := fun e => (flows_registration s { s.registration with missCount := 0, state := .tracking }).trans
    (flows_update seq (fun b => { b with regErr := some e }) fun b _ => evolves_regErr _ b)
  split
  · exact (w _).trans (flows_update _ _ fun b _ => evolves_addFault _ b)
  · exact w _

theorem flows_markEvaluation (seq : Word) (k : Fin 4) (seen : Bool) (first : Option Half) (s : State) :
    Flows s (s.markEvaluation seq k seen first) := by
  unfold State.markEvaluation
  dsimp only
  split
  · exact (flows_registration s _).trans (flows_markSeen ..)
  · exact (flows_registration s _).trans (flows_markMissed ..)

theorem flows_closeBox (s : State) : Flows s s.closeBox := (flows_batch s _).trans (flows_setEvent ..)

theorem flows_closeOpenBatch (b : OpenBatch) (cause : CloseCause) (boundary : Option (Fin 4)) (s : State) :
    Flows s (s.closeOpenBatch b cause boundary) := by
  unfold State.closeOpenBatch
  dsimp only
  refine Flows.trans ?_ (flows_openBatchFor ..)
  have w := flows_batch s { s.batch with
    log := s.batch.log ++ [BatchRecord.mk b.fields cause], kick := true, inBox := increase .inBox s.batch.inBox }
  have w2 := flows_ite (c := (s.batch.log ++ [BatchRecord.mk b.fields cause]).length = logHigh)
    (w.trans (flows_setEvent _ .logHigh)) w
  exact flows_ite (w2.trans (flows_closeBox _)) w2

theorem flows_formatBoundary (fmt : Fin 4) (s : State) : Flows s (s.formatBoundary fmt) := by
  unfold State.formatBoundary
  split
  · exact flows_refl s
  · split
    · exact flows_refl s
    · split
      · split
        · dsimp only
          exact (flows_ite (flows_closeBox s) (flows_refl s)).trans (flows_updBatch ..)
        · split
          · exact (flows_setBatchState ..).trans (flows_updBatch ..)
          · exact flows_closeOpenBatch ..
      · split
        · exact flows_updBatch ..
        · exact flows_closeOpenBatch ..

theorem flows_fullSizeTest (s : State) : Flows s s.fullSizeTest := by
  unfold State.fullSizeTest
  repeat' (first
    | exact flows_refl s
    | exact flows_setBatchState ..
    | exact flows_closeOpenBatch ..
    | (dsimp only; split)
    | split)

theorem flows_deliver (seq : Word) (fmt : Fin 4) (s : State) : Flows s (s.deliver seq fmt) := by
  unfold State.deliver
  dsimp only
  have w := flows_formatBoundary fmt s
  split
  · exact w
  · exact (((w.trans (flows_update _ _ fun b _ => evolves_deliver _ b)).trans (flows_updBatch ..)).trans
      (flows_batch ..)).trans (flows_fullSizeTest _)

theorem flows_loseBlank (seq : Word) (s : State) : Flows s (s.loseBlank seq) := by
  unfold State.loseBlank
  dsimp only
  have w := ((flows_update (s := s) seq (Blank.lose .countMissing) fun b _ => evolves_lose _ b).trans
    (flows_withdraw _ seq)).trans (flows_updBatch _ fun f => { f with suspect := true })
  split
  · exact w.trans (flows_batch ..)
  · exact (w.trans (flows_batch ..)).trans (flows_raiseCause ..)

theorem flows_passDefect (seq : Word) (s : State) : Flows s (s.passDefect seq) :=
  ((flows_update _ _ fun b _ => evolves_passDefect b).trans (flows_updBatch ..)).trans (flows_batch ..)

theorem flows_countVerification (handed : Option Blank) (seen : Bool) (s : State) :
    Flows s (s.countVerification handed seen) := by
  unfold State.countVerification State.unexpectedEdge
  repeat' (first
    | exact flows_refl s
    | exact flows_updBatch ..
    | exact flows_deliver ..
    | exact flows_loseBlank ..
    | exact flows_passDefect ..
    | split)

/-! ### The verdict unit: its notices come in ARMED alone -/

theorem flows_handNotice (b : Blank) (k : Fin 64) {s : State} (m : s.line.mode ≠ .offline) :
    Flows s (s.handNotice b k) :=
  flows_ite (flows_of_parts (works_of_parts ..) rfl rfl rfl rfl Iff.rfl fun h _ => absurd h m)
    (flows_update _ _ fun b _ => (evolves_addFault _ b).trans (evolves_skipVerdict _))

theorem flows_rejectDecision (b : Blank) (s : State) : Flows s (s.rejectDecision b).1 := by
  have w := (flows_update (s := s) b.seq
    (fun b' => (b'.settleVerdict s.slots[b'.fmt].header.policy).decide)
    fun b' _ => (evolves_settleVerdict _ b').trans (evolves_decide _)).trans (flows_withdraw _ b.seq)
  exact flows_ite (w.trans (flows_countReject _)) w

theorem flows_rejectDecisionFaulted (b : Blank) (s : State) : Flows s (s.rejectDecisionFaulted b) :=
  flows_ite (flows_refl s) (((flows_update _ _ fun b' _ =>
    (evolves_settleVerdict _ b').trans (evolves_decideFaulted _)).trans (flows_withdraw ..)).trans
      (flows_countReject _))

end Sys2Proof.Laws
end

