-- ==== Sys2Proof/Laws/Scheduler.lean ====
section
/-!
SUPPORT. What the station scheduler does to the ring: the crossings of a step keep every record's number, format and
fate, create one record at most, and bring no slot into use (R29, R40, R47, R137).
-/

namespace Sys2Proof.Laws

open Sys2Proof.Machine Sys2Proof.Safety

theorem successor_ne (n : Word) : successor n ≠ n := by
  unfold successor
  split
  · rename_i h; rw [h]; decide
  · intro h
    have : (1 : Word) = 0 := by
      have := congrArg (fun x => x - n) h
      simp at this
    exact absurd this (by decide)

theorem successor_ne_zero {n : Word} : successor n ≠ 0 := by
  unfold successor
  split
  · decide
  · rename_i h
    intro g
    apply h
    have : n = 0 - 1 := by rw [← g]; simp
    rw [this]; decide

/-! ### A changeover taking effect, a record created -/

/-- Where the counter stays, no record was created. -/
theorem Flows.gap_zero {s t : State} (h : Flows s t) (n : t.ring.nextSeq = s.ring.nextSeq)
    (h0 : s.ring.at 0 = none) : t.ring.at 0 = none := by
  rcases h.creation with ⟨-, g⟩ | ⟨-, g, -⟩
  · exact g h0
  · rw [n] at g; exact absurd g.symm (successor_ne _)

theorem flows_join {s : State} (n : Fin 4) (theta : Nat) : Flows s (s.join n theta) :=
  flows_stations s _ fun k i hk => by
    rw [fin_getElem_mapTable] at hk
    split at hk
    · rw [fin_getElem_mapTable] at hk
      split at hk <;> cases hk
    · exact hk

theorem flows_makeActive {n : Fin 4} (theta : Nat) {s : State} (h : s.inUse n = true) :
    Flows s (s.makeActive n theta) := by
  have w : Flows s { s with active := some n, pendingSlot := none, fresh := true } :=
    { (works_of_parts .. : Works s { s with active := some n, pendingSlot := none, fresh := true }) with
      records := fun _ b h => ⟨b, h, evolves_refl b⟩
      gaps := fun _ _ h => h
      creation := .inl ⟨rfl, fun h => h⟩
      mode := Iff.rfl
      notices := fun _ h => h
      inUse := fun k hk => by
        rw [inUse_iff] at hk
        rcases hk with hk | hk | hk | hk
        · cases hk; exact h
        · cases hk
        · exact inUse_iff.mpr (.inr (.inr (.inl hk)))
        · exact inUse_iff.mpr (.inr (.inr (.inr hk))) }
  exact ((flows_ite w (w.trans (flows_join ..))).trans (flows_gumChangeover ..)).trans (flows_prune _)

theorem makeActive_nextSeq (n : Fin 4) (theta : Nat) (s : State) :
    (s.makeActive n theta).ring.nextSeq = s.ring.nextSeq := by
  obtain ⟨a, b, g, e, h⟩ := makeActive_spec n theta s
  rw [h]

/-- A record put at an empty position 0 with the counter's number, and the counter moved on (R28, R29). -/
theorem flows_creation {s : State} {b : Blank} (h0 : s.ring.at 0 = none) (m : s.line.mode ≠ .offline)
    (hs : b.seq = s.ring.nextSeq) (hc : Clean b) (hu : s.inUse b.fmt = true) :
    Flows s { s.putAt 0 (some b) with
      ring := { (s.putAt 0 (some b)).ring with nextSeq := successor s.ring.nextSeq } } := by
  have at' : ∀ k, ({ (s.putAt 0 (some b)).ring with nextSeq := successor s.ring.nextSeq } : Machine.Ring).at k
      = if 0 = k then some b else s.ring.at k := fun k => at_putAt s 0 k (some b)
  exact
    { (works_putAt s 0 (some b)).trans (works_nextSeq _ _) with
      records := fun k b0 hb => ⟨b0, by
        rw [at', if_neg (by rintro rfl; rw [h0] at hb; cases hb)]
        exact hb, evolves_refl b0⟩
      gaps := fun k hk h => by rw [at', if_neg (Ne.symm hk)]; exact h
      creation := .inr ⟨h0, rfl, m, b, by rw [at', if_pos rfl], hs, hc⟩
      mode := Iff.rfl
      notices := fun _ h => h
      inUse := fun k hk => by
        rw [inUse_iff] at hk
        rcases hk with hk | hk | hk | hk
        · exact inUse_iff.mpr (.inl hk)
        · exact inUse_iff.mpr (.inr (.inl hk))
        · obtain ⟨j, b', hb, hf⟩ := carried_iff.mp hk
          obtain ⟨hl, ha⟩ := presentAt_some.mp hb
          rw [at'] at ha
          split at ha
          · cases ha; rw [← hf]; exact hu
          · exact inUse_iff.mpr (.inr (.inr (.inl (carried_iff.mpr ⟨j, b', presentAt_some.mpr ⟨hl, ha⟩, hf⟩))))
        · exact inUse_iff.mpr (.inr (.inr (.inr hk))) }

theorem flows_cymCreation (s : State) : Flows s s.cymCreation :=
  flows_of_parts (works_cymCreation s) rfl rfl rfl rfl Iff.rfl fun _ h => h

@[simp] theorem fresh_seq (n : Word) (k : Fin 4) (i a : Bool) : (Blank.fresh n k i a).seq = n := by
  unfold Blank.fresh; dsimp only; split <;> simp
@[simp] theorem fresh_fmt (n : Word) (k : Fin 4) (i a : Bool) : (Blank.fresh n k i a).fmt = k := by
  unfold Blank.fresh; dsimp only; split <;> simp

theorem clean_fresh (n : Word) (k : Fin 4) (i a : Bool) : Clean (Blank.fresh n k i a) := by
  unfold Blank.fresh
  dsimp only
  split
  · intro _; rfl
  · exact not_clean_disposition (by simp [Blank.addFault, Disposition.final, Disposition.faulted])

theorem flows_createRecord {k : Fin 4} (theta : Nat) {s : State} (h0 : s.ring.at 0 = none)
    (m : s.line.mode ≠ .offline) (hu : s.active = some k) : Flows s (s.createRecord k theta) := by
  unfold State.createRecord
  extract_lets fmt s1 inspected b s2 r s3 s4
  have w1 : Flows s s1 ∧ s1.ring.nextSeq = s.ring.nextSeq ∧ s1.inUse fmt = true := by
    unfold s1 fmt
    cases hp : s.pendingSlot with
    | none => exact ⟨flows_refl s, rfl, inUse_iff.mpr (.inl hu)⟩
    | some n =>
      refine ⟨flows_makeActive theta (inUse_iff.mpr (.inr (.inl hp))), makeActive_nextSeq .., ?_⟩
      obtain ⟨a, b, g, e, h⟩ := makeActive_spec n theta s
      dsimp only [Option.getD]
      rw [h]
      exact inUse_iff.mpr (.inl rfl)
  obtain ⟨w1, n1, u1⟩ := w1
  have w3 : Flows s s3 := w1.trans (flows_creation (w1.gap_zero n1 h0) (fun g => m (w1.mode.mp g)) (fresh_seq ..)
    (clean_fresh _ _ _ _) (by rw [fresh_fmt]; exact u1))
  have w4 : Flows s s4 := flows_ite w3 (w3.trans (flows_registration ..))
  exact w4.trans (flows_cymCreation s4)

/-! ### Stations -/

theorem flows_fire (k : Fin 4) (i : Fin 16) (e : Entry) (s : State) : Flows s (s.fire k i e) := by
  have w : Flows s (s.updStation k i fun st => { st with fired := true }) := flows_updStation i fun h => .inl h
  unfold State.fire
  dsimp only
  split
  · refine w.trans (flows_of_parts (works_cells _ _ fun j => ?_) rfl rfl rfl rfl Iff.rfl fun _ h => h)
    rw [fin_getElem_setAt]
    split
    · subst j; exact ⟨rfl, rfl⟩
    · exact ⟨rfl, rfl⟩
  · exact w

theorem fire_mode (k : Fin 4) (i : Fin 16) (e : Entry) (s : State) : (s.fire k i e).line = s.line := by
  unfold State.fire; dsimp only; split <;> rfl

theorem flows_outputAction (k : Fin 4) (i : Fin 16) (e : Entry) (b : Option Blank) (s : State) :
    Flows s (s.outputAction k i e b) := by
  have fire := flows_fire k i e
  have batch : ∀ c : BatchCounter, Flows s ({ s with batch := c }.fire k i e) :=
    fun c => (flows_batch s c).trans (fire _)
  have skip : ∀ n, Flows s (s.update n Blank.skipVerdict) := fun n => flows_update n _ fun b _ => evolves_skipVerdict b
  have gum : ∀ n, Flows s (s.update n (Blank.addFault .gumSkipped)) :=
    fun n => flows_update n _ fun b _ => evolves_addFault _ b
  unfold State.outputAction
  generalize hm : s.line.mode = m, e.kind = kind
  cases m <;> cases kind <;> cases b <;> dsimp only
  all_goals first
    | exact flows_refl s
    | exact flows_ite (batch _) (flows_refl s)
    | exact flows_ite (fire s) (flows_refl s)
    | exact flows_ite (flows_ite (fire s) (gum _)) (flows_refl s)
    | exact flows_ite (flows_ite ((fire s).trans (flows_handNotice _ _ (by rw [fire_mode, hm]; decide))) (fire s))
        (flows_ite (skip _) (flows_refl s))
    | exact flows_ite ((flows_rejectDecision _ s).trans (fire _)) (flows_rejectDecision _ s)
    | exact flows_rejectDecisionFaulted ..

theorem flows_sendOperation (e : Entry) (st : Station) (s : State) : Flows s (s.sendOperation e st) := by
  unfold State.sendOperation
  repeat' (first | exact flows_refl s | exact flows_update _ _ fun b _ => evolves_addOp _ b | split)

theorem flows_feedEvaluation (k : Fin 4) (st : Station) (theta : Nat) (s : State) :
    Flows s (s.feedEvaluation k st theta) := by
  unfold State.feedEvaluation
  split
  · rename_i h
    simp only [Bool.and_eq_true, decide_eq_true_eq, Option.isNone_iff_eq_none] at h
    exact flows_createRecord theta h.2 h.1.2 h.1.1.1
  · exact flows_refl s

theorem flows_markStation (k : Fin 4) (st : Station) (s : State) : Flows s (s.markStation k st) := by
  unfold State.markStation
  repeat' (first | exact flows_refl s | exact flows_markEvaluation .. | split)

theorem flows_patchCheck (k : Fin 4) (st : Station) (s : State) : Flows s (s.patchCheck k st) := by
  unfold State.patchCheck
  repeat' (first | exact flows_refl s | exact flows_update _ _ fun b _ => evolves_addFault _ b | split)

theorem flows_run (k : Fin 4) (i : Fin 16) (f : Station → Nat) (s : State) :
    Flows s (s.updStation k i fun st => { st with missRun := f st }) := flows_updStation i fun h => .inl h

theorem flows_foldMiss (k : Fin 4) (i : Fin 16) (st : Station) (s : State) : Flows s (s.foldMiss k i st) :=
  flows_ite (flows_run k i (fun st => st.missRun + 1) s)
    ((flows_run k i (fun _ => 0) s).trans (flows_raiseCause ..))

theorem flows_foldCheck (k : Fin 4) (i : Fin 16) (st : Station) (s : State) : Flows s (s.foldCheck k i st) := by
  have run := flows_run k i (fun _ => 0)
  have op : ∀ n, Flows s (s.update n (Blank.addOp .fold)) := fun n => flows_update n _ fun b _ => evolves_addOp _ b
  have miss : ∀ n, Flows s (s.update n (Blank.addFault .foldMissing)) :=
    fun n => flows_update n _ fun b _ => evolves_addFault _ b
  unfold State.foldCheck
  repeat' (first
    | exact flows_refl s
    | exact run s
    | exact (op _).trans (run _)
    | exact (miss _).trans (flows_foldMiss ..)
    | exact flows_foldMiss ..
    | split)

theorem flows_countStation (k : Fin 4) (st : Station) (s : State) : Flows s (s.countStation k st) := by
  unfold State.countStation
  repeat' (first | exact flows_refl s | exact flows_countVerification .. | split)

theorem flows_closingAction (k : Fin 4) (i : Fin 16) (e : Entry) (st : Station) (theta : Nat) (s : State) :
    Flows s (s.closingAction k i e st theta) := by
  unfold State.closingAction
  repeat' (first
    | exact flows_refl s
    | exact flows_sendOperation ..
    | exact flows_feedEvaluation ..
    | exact flows_markStation ..
    | exact flows_patchCheck ..
    | exact flows_foldCheck ..
    | exact flows_countStation ..
    | split)

theorem flows_closeWindow (k : Fin 4) (i : Fin 16) (e : Entry) (theta : Nat) (s : State) :
    Flows s (s.closeWindow k i e theta) :=
  (flows_closingAction ..).trans (flows_updStation i fun h => by cases h)

/-- Whatever a station becomes, in a slot that was in use. -/
theorem flows_open {s t : State} {k : Fin 4} (w : Flows s t) (h : s.inUse k = true) (i : Fin 16)
    (f : Station → Station) : Flows s (t.updStation k i f) :=
  { w.toWorks.trans (works_updStation t k i f) with
    records := w.records
    gaps := w.gaps
    creation := w.creation
    mode := w.mode
    notices := w.notices
    inUse := fun k' hk => by
      by_cases e : k = k'
      · subst e; exact h
      · apply w.inUse
        rw [inUse_iff] at hk ⊢
        rcases hk with hk | hk | hk | hk
        · exact .inl hk
        · exact .inr (.inl hk)
        · exact .inr (.inr (.inl hk))
        · obtain ⟨j, hj⟩ := anyOpen_iff.mp hk
          simp only [State.station, updStation_stations, fin_getElem_setAt, if_neg e] at hj
          exact .inr (.inr (.inr (anyOpen_iff.mpr ⟨j, hj⟩))) }

theorem flows_onCrossing {k : Fin 4} (i : Fin 16) (e : Entry) (theta : Nat) {s : State} (h : s.inUse k = true) :
    Flows s (s.onCrossing k i e theta) := by
  have w : Flows s (s.updStation k i fun st => { st with onMark := true }) := flows_updStation i fun h => .inl h
  unfold State.onCrossing
  extract_lets s1 s2 b s3
  have w2 : Flows s s2 := flows_ite (w.trans (flows_closeWindow k i e theta _)) w
  have w3 : Flows s s3 := flows_open w2 h i _
  exact flows_ite (w3.trans (flows_outputAction ..)) w3

theorem flows_offCrossing (k : Fin 4) (i : Fin 16) (e : Entry) (theta : Nat) (s : State) :
    Flows s (s.offCrossing k i e theta) := by
  have w : Flows s (s.updStation k i fun st => { st with offMark := true }) := flows_updStation i fun h => .inl h
  exact flows_ite (w.trans (flows_closeWindow ..)) w

/-- A crossing of a slot in the evaluated set taken (R46, R47). -/
theorem flows_takeCrossing {c : Crossing} {s : State} (h : s.evaluated c.slot = true) :
    Flows s (s.takeCrossing c) := by
  unfold State.takeCrossing
  split
  · exact flows_refl s
  · exact (flows_ite (flows_onCrossing _ _ _ (inUse_of_evaluated h)) (flows_offCrossing ..)).trans (flows_prune _)

/-- The crossings still to be taken are of slots in the evaluated set (R47). -/
theorem crossings_evaluated {s : State} {low high : Nat} {c : Crossing} (h : c ∈ s.crossings low high) :
    s.evaluated c.slot = true := by
  simp only [State.crossings, List.mem_flatMap, List.mem_finRange, true_and] at h
  obtain ⟨k, h⟩ := h
  split at h
  · rename_i hk
    simp only [List.mem_flatMap, List.mem_finRange, true_and] at h
    obtain ⟨i, h⟩ := h
    split at h
    · have : c.slot = k := by
        simp only [crossingsOf, List.mem_append] at h
        rcases h with h | h <;> split at h <;> simp_all
      rw [this]; exact hk
    · cases h
  · cases h

theorem firstCrossing_mem {use : Nat} {l : List Crossing} {c : Crossing} (h : firstCrossing use l = some c) :
    c ∈ l := by
  cases l with
  | nil => cases h
  | cons a l =>
    simp only [firstCrossing, Option.some.injEq] at h
    have : ∀ (l : List Crossing) (b : Crossing),
        l.foldl (fun best d => if d.before use best then d else best) b ∈ b :: l := by
      intro l
      induction l with
      | nil => intro b; simp
      | cons d l ih =>
        intro b
        rw [List.foldl_cons]
        rcases List.mem_cons.mp (ih (if d.before use b = true then d else b)) with h | h
        · rw [h]; split <;> simp
        · exact List.mem_cons_of_mem _ (List.mem_cons_of_mem _ h)
    rw [← h]
    exact this l a

theorem flows_takeCrossings (use high fuel low : Nat) (s : State) :
    Flows s (State.takeCrossings use high fuel low s) := by
  induction fuel generalizing low s with
  | zero => exact flows_refl s
  | succ fuel ih =>
    unfold State.takeCrossings
    split
    · exact flows_refl s
    · rename_i c hc
      exact (flows_takeCrossing (crossings_evaluated (firstCrossing_mem hc))).trans (ih ..)

/-- A forward step that passes angles (R8, R44). -/
theorem flows_passAngles (low high : Nat) (s : State) : Flows s (s.passAngles low high) :=
  flows_ite (flows_refl s) ((flows_choice s (s.choice + 1)).trans (flows_takeCrossings ..))

theorem flows_handEdge (cell : Fin 16) (angle : Half) (s : State) : Flows s (s.handEdge cell angle) :=
  flows_stations s _ fun k i hk => by
    rw [fin_getElem_mapTable] at hk
    split at hk
    · rw [fin_getElem_mapTable] at hk
      split at hk
      · split at hk
        · exact hk
        · exact hk
      · exact hk
    · exact hk

/-! ### The head advance -/

/-- The ring at a head advance (R24): the head steps back, the entry at P−1 and the one that became position 0 are gaps,
and every other entry stands. -/
theorem ringAdvance_ring (s : State) :
    s.ringAdvance.ring = { s.ring with
      head := s.ring.head - 1
      entries := setAt (setAt s.ring.entries (s.ring.head + Fin.ofNat 64 (s.lineLength - 1)) none)
        (s.ring.head - 1 + 0) none } := by
  unfold State.ringAdvance; dsimp only; split <;> rfl

/-- The notices at a head advance (R24): those of the record that leaves are withdrawn. -/
theorem ringAdvance_notices (s : State) :
    s.ringAdvance.notices = s.notices.filter fun n =>
      (s.ring.at (Fin.ofNat 64 (s.lineLength - 1))).all fun b => n.seq ≠ b.seq := by
  unfold State.ringAdvance; dsimp only
  split <;> rename_i h
  · rw [h]; rfl
  · rw [h]; simp only [Option.all_none, List.filter_true]; rfl

theorem headAdvance_ring (s : State) : s.headAdvance.ring = s.ringAdvance.ring := rfl

/-- The records at a head advance (R24): each moves one position toward the exit, and position 0 is a gap. -/
theorem headAdvance_presentAt {s : State} (h1 : 1 ≤ s.lineLength) (h64 : s.lineLength ≤ 64) :
    s.headAdvance.presentAt 0 = none
    ∧ ∀ k : Fin 64, k.val + 1 < s.lineLength → s.headAdvance.presentAt (k + 1) = s.presentAt k := by
  have hl : s.headAdvance.lineLength = s.lineLength := by
    simp only [State.lineLength, (headAdvance_spec s).1.constants]
  constructor
  · simp only [State.presentAt, Ring.at, headAdvance_ring, ringAdvance_ring, fin_getElem_setAt_self]
    split <;> rfl
  · intro k hk
    have hk1 : (k + 1 : Fin 64).val = k.val + 1 := by
      simp only [Fin.val_add]; exact Nat.mod_eq_of_lt (by simp; omega)
    have e : s.ring.head - 1 + (k + 1) = s.ring.head + k := by omega
    have n1 : s.ring.head - 1 + 0 ≠ s.ring.head + k := by
      intro h; have := congrArg Fin.val h; simp only [Fin.val_add, Fin.val_sub] at this; omega
    have n2 : s.ring.head + Fin.ofNat 64 (s.lineLength - 1) ≠ s.ring.head + k := by
      intro h
      have := congrArg Fin.val (add_left_cancel h)
      simp only [Fin.val_ofNat] at this
      rw [Nat.mod_eq_of_lt (by omega)] at this; omega
    have hk' : k.val < s.lineLength := by omega
    simp only [State.presentAt, hl, hk1, hk, hk', if_true, Ring.at, headAdvance_ring, ringAdvance_ring, e,
      fin_getElem_setAt_of_ne _ _ n1, fin_getElem_setAt_of_ne _ _ n2]

end Sys2Proof.Laws
end

