-- ==== Sys2Proof/Laws/Crossings.lean ====
section
/-!
SUPPORT. The crossings of a step come to an end (R44): a crossing taken sets its mark, nothing taken with it clears a
mark of an evaluated slot, and a slot joins at most once, at the changeover a step may hold (R47, R48). The crossings
that may still come are counted, each operation says once that it adds none, and the walk of the scheduler ends with
none left.
-/

namespace Sys2Proof.Laws

open Sys2Proof.Machine Sys2Proof.Safety

/-! ### The crossings that may still come -/

/-- The marks that stand clear in a slot. -/
def clearMarks (s : State) (k : Fin 4) : Nat :=
  ∑ i : Fin 16, ((if (s.station k i).onMark then 0 else 1) + if (s.station k i).offMark then 0 else 1)

/-- The crossings that may still come: the clear marks of the evaluated set, and a whole slot more while a changeover is
pending. -/
def crossingsLeft (s : State) : Nat :=
  (∑ k : Fin 4, if s.evaluated k then clearMarks s k else 0) + if s.pendingSlot.isSome then 32 else 0

theorem clearMarks_le (s : State) (k : Fin 4) : clearMarks s k ≤ 32 := by
  refine (Finset.sum_le_card_nsmul (n := 2) _ _ fun i _ => ?_).trans (by simp)
  split <;> split <;> omega

theorem crossingsLeft_le (s : State) : crossingsLeft s ≤ 160 := by
  have h : (∑ k : Fin 4, if s.evaluated k then clearMarks s k else 0) ≤ 128 := by
    refine (Finset.sum_le_card_nsmul (n := 32) _ _ fun k _ => ?_).trans (by simp)
    split
    · exact clearMarks_le s k
    · omega
  unfold crossingsLeft
  split <;> omega

/-- Whether the marks of a slot are those of another state. -/
def SameMarks (s t : State) (k : Fin 4) : Prop :=
  ∀ i : Fin 16, (t.station k i).onMark = (s.station k i).onMark ∧ (t.station k i).offMark = (s.station k i).offMark

theorem SameMarks.clearMarks {s t : State} {k : Fin 4} (h : SameMarks s t k) : clearMarks t k = clearMarks s k := by
  simp only [Laws.clearMarks, (h _).1, (h _).2]

theorem crossingsLeft_le_of {s t : State} (h : ∀ k, t.evaluated k = true → s.evaluated k = true ∧ SameMarks s t k)
    (p : t.pendingSlot = s.pendingSlot) : crossingsLeft t ≤ crossingsLeft s := by
  unfold crossingsLeft
  rw [p]
  refine Nat.add_le_add_right (Finset.sum_le_sum fun k _ => ?_) _
  split
  · rename_i hk
    obtain ⟨e, m⟩ := h k hk
    rw [if_pos e, m.clearMarks]
  · exact Nat.zero_le _

/-! ### What the work of a crossing adds no crossing by -/

/-- The work inside a crossing brings no slot into the evaluated set, keeps the marks of those that stay, opens no
window and closes none of an input station. -/
structure Settles (s t : State) : Prop extends Flows s t where
  nextSeq : t.ring.nextSeq = s.ring.nextSeq
  active : t.active = s.active
  pendingSlot : t.pendingSlot = s.pendingSlot
  opened : ∀ k i, (t.station k i).windowOpen = true → (s.station k i).windowOpen = true
  inputs : ∀ k i e, s.entry k i = some e → e.kind.isOutput = false → (s.station k i).windowOpen = true →
    (t.station k i).windowOpen = true
  marks : ∀ k, t.evaluated k = true → SameMarks s t k

theorem Settles.evaluated {s t : State} (h : Settles s t) {k : Fin 4} (hk : t.evaluated k = true) :
    s.evaluated k = true := by
  rw [evaluated_iff] at hk ⊢
  rcases hk with hk | hk | hk
  · exact .inl (h.active ▸ hk)
  · obtain ⟨j, b, hb, hf⟩ := carried_iff.mp hk
    obtain ⟨hl, ha⟩ := presentAt_some.mp hb
    rw [h.toWorks.lineLength] at hl
    refine .inr (.inl ?_)
    cases hs : s.ring.at j with
    | none =>
      have : t.ring.at j = none := by
        by_cases j0 : j = 0
        · subst j0; exact h.toFlows.gap_zero h.nextSeq hs
        · exact h.gaps j j0 hs
      rw [this] at ha; cases ha
    | some b0 =>
      obtain ⟨b', h1, h2⟩ := h.records j b0 hs
      rw [h1] at ha; cases ha
      exact carried_iff.mpr ⟨j, b0, presentAt_some.mpr ⟨hl, hs⟩, by rw [← h2.fmt]; exact hf⟩
  · obtain ⟨i, hi⟩ := anyOpen_iff.mp hk
    exact .inr (.inr (anyOpen_iff.mpr ⟨i, h.opened k i hi⟩))

theorem settles_refl (s : State) : Settles s s :=
  { flows_refl s with
    nextSeq := rfl, active := rfl, pendingSlot := rfl
    opened := fun _ _ h => h
    inputs := fun _ _ _ _ _ h => h
    marks := fun _ _ _ => ⟨rfl, rfl⟩ }

theorem Settles.trans {s t u : State} (h : Settles s t) (g : Settles t u) : Settles s u :=
  { h.toFlows.trans g.toFlows with
    nextSeq := g.nextSeq.trans h.nextSeq
    active := g.active.trans h.active
    pendingSlot := g.pendingSlot.trans h.pendingSlot
    opened := fun k i p => h.opened k i (g.opened k i p)
    inputs := fun k i e he ho p => g.inputs k i e (by rw [h.toWorks.entry]; exact he) ho (h.inputs k i e he ho p)
    marks := fun k hk i =>
      ⟨(g.marks k hk i).1.trans (h.marks k (g.evaluated hk) i).1,
        (g.marks k hk i).2.trans (h.marks k (g.evaluated hk) i).2⟩ }

theorem settles_ite {c : Prop} [Decidable c] {s t u : State} (h : Settles s t) (g : Settles s u) :
    Settles s (if c then t else u) := by split <;> assumption

/-- Records and counters may change, the stations and the changeover do not. -/
theorem settles_of_flows {s t : State} (h : Flows s t) (nextSeq : t.ring.nextSeq = s.ring.nextSeq)
    (stations : t.stations = s.stations) (active : t.active = s.active) (pending : t.pendingSlot = s.pendingSlot) :
    Settles s t :=
  { h with
    nextSeq := nextSeq, active := active, pendingSlot := pending
    opened := fun k i p => by simpa only [State.station, stations] using p
    inputs := fun k i _ _ _ p => by simpa only [State.station, stations] using p
    marks := fun k _ i => by simp only [State.station, stations, and_self] }

/-- One station changed in anything but its marks; its window is not opened, and not closed at an input station. -/
theorem settles_updStation {s : State} {k : Fin 4} {i : Fin 16} {f : Station → Station}
    (marks : ∀ st, (f st).onMark = st.onMark ∧ (f st).offMark = st.offMark)
    (opened : ∀ st, (f st).windowOpen = true → st.windowOpen = true)
    (inputs : ∀ e, s.entry k i = some e → e.kind.isOutput = false → ∀ st, (f st).windowOpen = st.windowOpen) :
    Settles s (s.updStation k i f) :=
  { flows_updStation i fun h => .inl (opened _ h) with
    nextSeq := rfl, active := rfl, pendingSlot := rfl
    opened := fun k' j p => by
      simp only [State.station, updStation_stations, fin_getElem_setAt] at p ⊢
      split at p
      · subst k'
        rw [fin_getElem_setAt] at p
        split at p
        · subst j; exact opened _ p
        · exact p
      · exact p
    inputs := fun k' j e he ho p => by
      simp only [State.station, updStation_stations, fin_getElem_setAt] at p ⊢
      split
      · subst k'
        rw [fin_getElem_setAt]
        split
        · subst j; rw [inputs e he ho]; exact p
        · exact p
      · exact p
    marks := fun k' _ j => by
      simp only [State.station, updStation_stations, fin_getElem_setAt]
      split
      · subst k'
        rw [fin_getElem_setAt]
        split
        · subst j; exact marks _
        · exact ⟨rfl, rfl⟩
      · exact ⟨rfl, rfl⟩ }

/-- A slot of the evaluated set keeps its stations, and another loses their state (R47). -/
theorem prune_station (s : State) (k : Fin 4) (i : Fin 16) :
    s.prune.station k i = if s.evaluated k then s.station k i else (s.station k i).lose := by
  simp only [State.station, State.prune, mapSlots_stations, fin_getElem_mapTable]
  split
  · rfl
  · rw [fin_getElem_mapTable]

/-- Losing the state of slots outside the evaluated set takes none into it and none out of it. -/
theorem prune_evaluated (s : State) (k : Fin 4) : s.prune.evaluated k = s.evaluated k := by
  have c : s.prune.carried k = s.carried k := rfl
  cases h : s.evaluated k with
  | true =>
    have st : s.prune.anyOpen k = s.anyOpen k := by simp only [State.anyOpen, prune_station, h, if_true]
    rw [State.evaluated, prune_active, c, st]
    exact h
  | false =>
    have st : s.prune.anyOpen k = false := by
      simp [State.anyOpen, prune_station, h, Station.lose, Station.cleared]
    rw [State.evaluated, prune_active, c, st]
    simp only [State.evaluated, Bool.or_eq_false_iff] at h ⊢
    exact ⟨h.1, trivial⟩

theorem leftSetsCleared_prune (s : State) : LeftSetsCleared s.prune := fun k h i => by
  rw [prune_evaluated] at h
  rw [prune_station, h]
  rfl

theorem settles_prune (s : State) : Settles s s.prune := by
  have e : ∀ k, s.prune.evaluated k = true → s.evaluated k = true := by
    intro k hk
    rw [evaluated_iff] at hk ⊢
    rcases hk with hk | hk | hk
    · exact .inl hk
    · exact .inr (.inl hk)
    · obtain ⟨i, hi⟩ := anyOpen_iff.mp hk
      refine .inr (.inr (anyOpen_iff.mpr ⟨i, ?_⟩))
      simp only [State.station, State.prune, mapSlots_stations, fin_getElem_mapTable] at hi ⊢
      split at hi
      · exact hi
      · rw [fin_getElem_mapTable] at hi; cases hi
  exact
    { flows_prune s with
      nextSeq := rfl, active := rfl, pendingSlot := rfl
      opened := fun k i p => by
        simp only [State.station, State.prune, mapSlots_stations, fin_getElem_mapTable] at p ⊢
        split at p
        · exact p
        · rw [fin_getElem_mapTable] at p; cases p
      inputs := fun k i _ _ _ p => by
        have hk : s.evaluated k = true := evaluated_iff.mpr (.inr (.inr (anyOpen_iff.mpr ⟨i, p⟩)))
        simp only [State.station, State.prune, mapSlots_stations, fin_getElem_mapTable, if_pos hk] at p ⊢
        exact p
      marks := fun k hk i => by
        simp only [State.station, State.prune, mapSlots_stations, fin_getElem_mapTable, if_pos (e k hk), and_self] }

theorem settles_update {s : State} (seq : Word) (f : Blank → Blank)
    (h : ∀ b, s.record seq = some b → Evolves b (f b)) : Settles s (s.update seq f) := by
  obtain ⟨e, he⟩ := update_eq s seq f
  exact settles_of_flows (flows_update seq f h) (by rw [he]) (by rw [he]) (by rw [he]) (by rw [he])

theorem settles_updateAll (s : State) (f : Blank → Blank) (h : ∀ b, Evolves b (f b)) : Settles s (s.updateAll f) := by
  obtain ⟨e, he⟩ := updateAll_eq s f
  exact settles_of_flows (flows_updateAll s f h) (by rw [he]) (by rw [he]) (by rw [he]) (by rw [he])

theorem settles_setEvent (s : State) (e : LineEvent) : Settles s (s.setEvent e) :=
  settles_of_flows (flows_setEvent s e) rfl rfl rfl rfl
theorem settles_choice (s : State) (n : Nat) : Settles s { s with choice := n } :=
  settles_of_flows (flows_choice s n) rfl rfl rfl rfl
theorem settles_batch (s : State) (b : BatchCounter) : Settles s { s with batch := b } :=
  settles_of_flows (flows_batch s b) rfl rfl rfl rfl
theorem settles_gum (s : State) (g : Gum) : Settles s { s with gum := g } :=
  settles_of_flows (flows_gum s g) rfl rfl rfl rfl
theorem settles_registration (s : State) (r : Registration) : Settles s { s with registration := r } :=
  settles_of_flows (flows_registration s r) rfl rfl rfl rfl
theorem settles_withdraw (s : State) (seq : Word) : Settles s (s.withdraw seq) :=
  settles_of_flows (flows_withdraw s seq) rfl rfl rfl rfl
theorem settles_line (s : State) (l : LineControl) (h : l.mode = .offline ↔ s.line.mode = .offline) :
    Settles s { s with line := l } := settles_of_flows (flows_line s l h) rfl rfl rfl rfl
theorem settles_updBatch (s : State) (f : BatchFields → BatchFields) : Settles s (s.updBatch f) := settles_batch ..
theorem settles_setBatchState (s : State) (b : BatchState) : Settles s (s.setBatchState b) := settles_batch ..
theorem settles_openBatchFor (s : State) (k : Fin 4) : Settles s (s.openBatchFor k) := settles_batch ..
theorem settles_countReject (s : State) : Settles s s.countReject := settles_batch ..

theorem settles_eitherOrder {a b : State → State} {matters : Bool} (ha : ∀ s, Settles s (a s))
    (hb : ∀ s, Settles s (b s)) (s : State) : Settles s (eitherOrder matters a b s) := by
  have hc := settles_choice s (s.choice + 1)
  unfold eitherOrder
  split
  · dsimp only
    split
    · exact hc.trans ((hb _).trans (ha _))
    · exact hc.trans ((ha _).trans (hb _))
  · exact (ha _).trans (hb _)

/-! ### The gum circuit and the fault latch close windows of output stations alone -/

theorem firedGum_output {s : State} {x : Fin 4 × Fin 16} (h : x ∈ s.firedGum) {e : Entry}
    (he : s.entry x.1 x.2 = some e) : e.kind.isOutput = true := by
  simp only [State.firedGum, List.mem_flatMap, List.mem_finRange, List.mem_map, List.mem_filter, true_and,
    Bool.and_eq_true, Option.any_eq_true, decide_eq_true_eq] at h
  obtain ⟨k, i, ⟨⟨⟨e', h1, h2⟩, -⟩, -⟩, rfl⟩ := h
  rw [he] at h1; cases h1; rw [h2]; rfl

theorem settles_cutWindow (expiry : Bool) {s : State} {x : Fin 4 × Fin 16}
    (o : ∀ e, s.entry x.1 x.2 = some e → e.kind.isOutput = true) : Settles s (State.cutWindow expiry s x) := by
  have close : ∀ {t : State}, Settles s t → Settles s (t.updStation x.1 x.2 Station.close) := fun h =>
    h.trans (settles_updStation (fun _ => ⟨rfl, rfl⟩) (fun _ h => by cases h) fun e he hi => by
      rw [h.toWorks.entry] at he; rw [o e he] at hi; cases hi)
  unfold State.cutWindow
  apply close
  split
  · exact settles_update _ _ fun b _ => evolves_cutShort expiry b
  · exact settles_refl s
  · exact settles_refl s

theorem settles_cutWindows (expiry : Bool) (l : List (Fin 4 × Fin 16)) {s : State}
    (o : ∀ x ∈ l, ∀ e, s.entry x.1 x.2 = some e → e.kind.isOutput = true) :
    Settles s (l.foldl (State.cutWindow expiry) s) := by
  induction l generalizing s with
  | nil => exact settles_refl s
  | cons x l ih =>
    have w := settles_cutWindow expiry (o x (by simp))
    exact w.trans (ih fun y hy e he => o y (by simp [hy]) e (by rw [← w.toWorks.entry]; exact he))

theorem settles_gumTo (new : GumState) (expiry : Bool) (s : State) : Settles s (s.gumTo new expiry) := by
  have h := settles_gum s { state := new, standbyTimer := 0, primeTimer := none }
  unfold State.gumTo
  dsimp only
  split
  · exact (h.trans (settles_cutWindows expiry _ fun x hx e he => firedGum_output hx he)).trans (settles_prune _)
  · exact h

theorem settles_abortPrime (new : GumState) (s : State) : Settles s (s.abortPrime new) :=
  settles_ite ((settles_gumTo ..).trans (settles_setEvent ..)) (settles_refl s)

theorem settles_standbyExpires (s : State) : Settles s s.standbyExpires :=
  ((settles_updateAll _ _ evolves_spoil).trans (settles_gumTo ..)).trans (settles_setEvent ..)

theorem settles_gumChangeover (n : Fin 4) (s : State) : Settles s (s.gumChangeover n) := by
  unfold State.gumChangeover
  dsimp only
  have h : ∀ t : State, Settles s t → Settles s (if t.standbyDue then t.standbyExpires else t) :=
    fun t ht => settles_ite (ht.trans (settles_standbyExpires t)) ht
  apply h
  split
  · exact settles_gumTo ..
  · exact settles_ite (settles_refl s) (settles_gumTo ..)
  · exact settles_gumTo ..
  · exact settles_abortPrime ..

/-- Leaving ARMED closes exactly the open and fired output windows (R56). -/
theorem closeFired_station (s : State) (k : Fin 4) (i : Fin 16) : s.closeFired.station k i =
    if (s.entry k i).any (fun e => e.kind.isOutput) && (s.station k i).windowOpen && (s.station k i).fired
    then (s.station k i).close else s.station k i := by
  show (mapTable _ s.stations)[k][i] = _
  rw [fin_getElem_mapTable, fin_getElem_mapTable]; rfl

theorem settles_closeFired (s : State) : Settles s s.closeFired := by
  have st := closeFired_station s
  exact
    { flows_closeFired s with
      nextSeq := rfl, active := rfl, pendingSlot := rfl
      opened := fun k i p => by
        rw [st] at p
        split at p
        · cases p
        · exact p
      inputs := fun k i e he hi p => by
        rw [st, he]
        simpa [hi] using p
      marks := fun k _ i => by
        rw [st]
        split <;> exact ⟨rfl, rfl⟩ }

theorem settles_leaveArmed (s : State) : Settles s s.leaveArmed :=
  (settles_eitherOrder settles_closeFired (settles_abortPrime .standby) s).trans (settles_prune _)

theorem settles_raiseCause (c : Cause) (s : State) : Settles s (s.raiseCause c) := by
  unfold State.raiseCause
  dsimp only
  split
  · rename_i h
    exact Settles.trans (settles_line s _ (by simp [h])) (settles_leaveArmed _)
  · exact settles_line s _ Iff.rfl

/-! ### Registration, the batch counter and the verdict unit -/

theorem settles_applyCorrection (c : Int) (s : State) : Settles s (s.applyCorrection c) := by
  unfold State.applyCorrection
  dsimp only
  split
  · exact (settles_registration s _).trans (settles_setEvent ..)
  · exact settles_registration s _

theorem settles_markMissed (seq : Word) (h : Header) (s : State) : Settles s (s.markMissed seq h) := by
  unfold State.markMissed
  dsimp only
  have w := (settles_registration s (s.registration.miss h.missLimit)).trans
    (settles_update seq (Blank.addFault .noMark) fun b _ => evolves_addFault _ b)
  exact settles_ite (w.trans (settles_setEvent ..)) w

theorem settles_markSeen (seq : Word) (h : Header) (a : Half) (s : State) : Settles s (s.markSeen seq h a) := by
  unfold State.markSeen
  dsimp only
  refine Settles.trans ?_ (settles_applyCorrection ..)
  have w := fun e => (settles_registration s { s.registration with missCount := 0, state := .tracking }).trans
    (settles_update seq (fun b => { b with regErr := some e }) fun b _ => evolves_regErr _ b)
  split
  · exact (w _).trans (settles_update _ _ fun b _ => evolves_addFault _ b)
  · exact w _

theorem settles_markEvaluation (seq : Word) (k : Fin 4) (seen : Bool) (first : Option Half) (s : State) :
    Settles s (s.markEvaluation seq k seen first) := by
  unfold State.markEvaluation
  dsimp only
  split
  · exact (settles_registration s _).trans (settles_markSeen ..)
  · exact (settles_registration s _).trans (settles_markMissed ..)

theorem settles_closeBox (s : State) : Settles s s.closeBox := (settles_batch s _).trans (settles_setEvent ..)

theorem settles_closeOpenBatch (b : OpenBatch) (cause : CloseCause) (boundary : Option (Fin 4)) (s : State) :
    Settles s (s.closeOpenBatch b cause boundary) := by
  unfold State.closeOpenBatch
  dsimp only
  refine Settles.trans ?_ (settles_openBatchFor ..)
  have w := settles_batch s { s.batch with
    log := s.batch.log ++ [BatchRecord.mk b.fields cause], kick := true, inBox := increase .inBox s.batch.inBox }
  have w2 := settles_ite (c := (s.batch.log ++ [BatchRecord.mk b.fields cause]).length = logHigh)
    (w.trans (settles_setEvent _ .logHigh)) w
  exact settles_ite (w2.trans (settles_closeBox _)) w2

theorem settles_formatBoundary (fmt : Fin 4) (s : State) : Settles s (s.formatBoundary fmt) := by
  unfold State.formatBoundary
  split
  · exact settles_refl s
  · split
    · exact settles_refl s
    · split
      · split
        · dsimp only
          exact (settles_ite (settles_closeBox s) (settles_refl s)).trans (settles_updBatch ..)
        · split
          · exact (settles_setBatchState ..).trans (settles_updBatch ..)
          · exact settles_closeOpenBatch ..
      · split
        · exact settles_updBatch ..
        · exact settles_closeOpenBatch ..

theorem settles_fullSizeTest (s : State) : Settles s s.fullSizeTest := by
  unfold State.fullSizeTest
  repeat' (first
    | exact settles_refl s
    | exact settles_setBatchState ..
    | exact settles_closeOpenBatch ..
    | (dsimp only; split)
    | split)

theorem settles_deliver (seq : Word) (fmt : Fin 4) (s : State) : Settles s (s.deliver seq fmt) := by
  unfold State.deliver
  dsimp only
  have w := settles_formatBoundary fmt s
  split
  · exact w
  · exact (((w.trans (settles_update _ _ fun b _ => evolves_deliver _ b)).trans (settles_updBatch ..)).trans
      (settles_batch ..)).trans (settles_fullSizeTest _)

theorem settles_loseBlank (seq : Word) (s : State) : Settles s (s.loseBlank seq) := by
  unfold State.loseBlank
  dsimp only
  have w := ((settles_update (s := s) seq (Blank.lose .countMissing) fun b _ => evolves_lose _ b).trans
    (settles_withdraw _ seq)).trans (settles_updBatch _ fun f => { f with suspect := true })
  split
  · exact w.trans (settles_batch ..)
  · exact (w.trans (settles_batch ..)).trans (settles_raiseCause ..)

theorem settles_passDefect (seq : Word) (s : State) : Settles s (s.passDefect seq) :=
  ((settles_update _ _ fun b _ => evolves_passDefect b).trans (settles_updBatch ..)).trans (settles_batch ..)

theorem settles_countVerification (handed : Option Blank) (seen : Bool) (s : State) :
    Settles s (s.countVerification handed seen) := by
  unfold State.countVerification State.unexpectedEdge
  repeat' (first
    | exact settles_refl s
    | exact settles_updBatch ..
    | exact settles_deliver ..
    | exact settles_loseBlank ..
    | exact settles_passDefect ..
    | split)

theorem settles_handNotice (b : Blank) (k : Fin 64) {s : State} (m : s.line.mode ≠ .offline) :
    Settles s (s.handNotice b k) :=
  settles_ite
    (settles_of_flows (flows_of_parts (works_of_parts ..) rfl rfl rfl rfl Iff.rfl fun h _ => absurd h m) rfl rfl rfl rfl)
    (settles_update _ _ fun b _ => (evolves_addFault _ b).trans (evolves_skipVerdict _))

theorem settles_rejectDecision (b : Blank) (s : State) : Settles s (s.rejectDecision b).1 := by
  have w := (settles_update (s := s) b.seq
    (fun b' => (b'.settleVerdict s.slots[b'.fmt].header.policy).decide)
    fun b' _ => (evolves_settleVerdict _ b').trans (evolves_decide _)).trans (settles_withdraw _ b.seq)
  exact settles_ite (w.trans (settles_countReject _)) w

theorem settles_rejectDecisionFaulted (b : Blank) (s : State) : Settles s (s.rejectDecisionFaulted b) :=
  settles_ite (settles_refl s) (((settles_update _ _ fun b' _ =>
    (evolves_settleVerdict _ b').trans (evolves_decideFaulted _)).trans (settles_withdraw ..)).trans
      (settles_countReject _))

/-! ### Stations -/

theorem settles_fire (k : Fin 4) (i : Fin 16) (e : Entry) (s : State) : Settles s (s.fire k i e) := by
  have w : Settles s (s.updStation k i fun st => { st with fired := true }) :=
    settles_updStation (fun _ => ⟨rfl, rfl⟩) (fun _ h => h) fun _ _ _ _ => rfl
  unfold State.fire
  dsimp only
  split
  · refine w.trans (settles_of_flows (flows_of_parts (works_cells _ _ fun j => ?_) rfl rfl rfl rfl Iff.rfl
      fun _ h => h) rfl rfl rfl rfl)
    rw [fin_getElem_setAt]
    split
    · subst j; exact ⟨rfl, rfl⟩
    · exact ⟨rfl, rfl⟩
  · exact w

theorem settles_outputAction (k : Fin 4) (i : Fin 16) (e : Entry) (b : Option Blank) (s : State) :
    Settles s (s.outputAction k i e b) := by
  have fire := settles_fire k i e
  have batch : ∀ c : BatchCounter, Settles s ({ s with batch := c }.fire k i e) :=
    fun c => (settles_batch s c).trans (fire _)
  have skip : ∀ n, Settles s (s.update n Blank.skipVerdict) :=
    fun n => settles_update n _ fun b _ => evolves_skipVerdict b
  have gum : ∀ n, Settles s (s.update n (Blank.addFault .gumSkipped)) :=
    fun n => settles_update n _ fun b _ => evolves_addFault _ b
  unfold State.outputAction
  generalize hm : s.line.mode = m, e.kind = kind
  cases m <;> cases kind <;> cases b <;> dsimp only
  all_goals first
    | exact settles_refl s
    | exact settles_ite (batch _) (settles_refl s)
    | exact settles_ite (fire s) (settles_refl s)
    | exact settles_ite (settles_ite (fire s) (gum _)) (settles_refl s)
    | exact settles_ite
        (settles_ite ((fire s).trans (settles_handNotice _ _ (by rw [fire_mode, hm]; decide))) (fire s))
        (settles_ite (skip _) (settles_refl s))
    | exact settles_ite ((settles_rejectDecision _ s).trans (fire _)) (settles_rejectDecision _ s)
    | exact settles_rejectDecisionFaulted ..

theorem settles_run (k : Fin 4) (i : Fin 16) (f : Station → Nat) (s : State) :
    Settles s (s.updStation k i fun st => { st with missRun := f st }) :=
  settles_updStation (fun _ => ⟨rfl, rfl⟩) (fun _ h => h) fun _ _ _ _ => rfl

theorem settles_foldMiss (k : Fin 4) (i : Fin 16) (st : Station) (s : State) : Settles s (s.foldMiss k i st) :=
  settles_ite (settles_run k i (fun st => st.missRun + 1) s)
    ((settles_run k i (fun _ => 0) s).trans (settles_raiseCause ..))

theorem settles_foldCheck (k : Fin 4) (i : Fin 16) (st : Station) (s : State) : Settles s (s.foldCheck k i st) := by
  have run := settles_run k i (fun _ => 0)
  have op : ∀ n, Settles s (s.update n (Blank.addOp .fold)) := fun n => settles_update n _ fun b _ => evolves_addOp _ b
  have miss : ∀ n, Settles s (s.update n (Blank.addFault .foldMissing)) :=
    fun n => settles_update n _ fun b _ => evolves_addFault _ b
  unfold State.foldCheck
  repeat' (first
    | exact settles_refl s
    | exact run s
    | exact (op _).trans (run _)
    | exact (miss _).trans (settles_foldMiss ..)
    | exact settles_foldMiss ..
    | split)

theorem settles_sendOperation (e : Entry) (st : Station) (s : State) :
    Settles s (s.sendOperation e st) ∧ (s.sendOperation e st).stations = s.stations := by
  unfold State.sendOperation
  split
  · split
    · refine ⟨settles_update _ _ fun b _ => evolves_addOp _ b, ?_⟩
      obtain ⟨a, h⟩ := update_eq s ‹Word› (Blank.addOp ‹Op›)
      rw [h]
    · exact ⟨settles_refl s, rfl⟩
  · exact ⟨settles_refl s, rfl⟩

/-! ### The creation of a record, and with it a changeover -/

/-- No crossing more may come, the slots stay, and no window of an input station closes. -/
structure Eases (s t : State) : Prop where
  left : crossingsLeft t ≤ crossingsLeft s
  slots : t.slots = s.slots
  inputs : ∀ k i e, s.entry k i = some e → e.kind.isOutput = false → (s.station k i).windowOpen = true →
    (t.station k i).windowOpen = true

theorem eases_refl (s : State) : Eases s s := ⟨le_refl _, rfl, fun _ _ _ _ _ h => h⟩

theorem Eases.trans {s t u : State} (h : Eases s t) (g : Eases t u) : Eases s u :=
  ⟨g.left.trans h.left, g.slots.trans h.slots, fun k i e he ho p =>
    g.inputs k i e (by simpa only [State.entry, h.slots] using he) ho (h.inputs k i e he ho p)⟩

theorem eases_ite {c : Prop} [Decidable c] {s t u : State} (h : Eases s t) (g : Eases s u) :
    Eases s (if c then t else u) := by split <;> assumption

theorem Settles.eases {s t : State} (h : Settles s t) : Eases s t :=
  ⟨crossingsLeft_le_of (fun k hk => ⟨h.evaluated hk, h.marks k hk⟩) h.pendingSlot, h.slots, h.inputs⟩

/-- A pending changeover that takes effect adds the crossings of one slot and takes away what was kept for it (R48). -/
theorem eases_makeActive (n : Fin 4) (theta : Nat) {s : State} (h : s.pendingSlot.isSome = true) :
    Eases s (s.makeActive n theta) := by
  have key : ∀ t : State, (∀ k, k ≠ n → t.evaluated k = true → s.evaluated k = true ∧ SameMarks s t k) →
      (s.evaluated n = true → SameMarks s t n) → t.pendingSlot = none → crossingsLeft t ≤ crossingsLeft s := by
    intro t h1 h2 h3
    unfold crossingsLeft
    rw [h3, if_pos h]
    simp only [Option.isSome_none, Bool.false_eq_true, if_false, add_zero]
    refine (Finset.sum_le_sum (g := fun k => (if s.evaluated k then clearMarks s k else 0)
      + if k = n then 32 else 0) fun k _ => ?_).trans ?_
    · by_cases hk : k = n
      · subst hk
        rw [if_pos rfl]
        have := clearMarks_le t k
        split <;> omega
      · rw [if_neg hk, add_zero]
        split
        · rename_i e
          rw [if_pos (h1 k hk e).1, (h1 k hk e).2.clearMarks]
        · exact Nat.zero_le _
    · rw [Finset.sum_add_distrib]
      simp
  have s1 : Eases s { s with active := some n, pendingSlot := none, fresh := true } := by
    refine ⟨key _ (fun k hk e => ⟨?_, fun _ => ⟨rfl, rfl⟩⟩) (fun _ _ => ⟨rfl, rfl⟩) rfl, rfl, fun _ _ _ _ _ h => h⟩
    rw [evaluated_iff] at e ⊢
    rcases e with e | e | e
    · cases e; exact absurd rfl hk
    · exact .inr (.inl e)
    · exact .inr (.inr e)
  have s2 : s.evaluated n = false →
      Eases s (State.join n theta { s with active := some n, pendingSlot := none, fresh := true }) := by
    intro hn
    have st : ∀ k i, k ≠ n →
        (State.join n theta { s with active := some n, pendingSlot := none, fresh := true }).station k i
          = s.station k i := fun k i hk => by
      show (mapTable _ s.stations)[k][i] = _
      rw [fin_getElem_mapTable, if_neg hk]; rfl
    refine ⟨key _ (fun k hk e => ⟨?_, fun i => by rw [st k i hk]; exact ⟨rfl, rfl⟩⟩)
      (fun h => by rw [hn] at h; cases h) rfl, rfl, fun k i _ _ _ p => ?_⟩
    · rw [evaluated_iff] at e ⊢
      rcases e with e | e | e
      · cases e; exact absurd rfl hk
      · exact .inr (.inl e)
      · obtain ⟨i, hi⟩ := anyOpen_iff.mp e
        rw [st k i hk] at hi
        exact .inr (.inr (anyOpen_iff.mpr ⟨i, hi⟩))
    · by_cases hk : k = n
      · subst hk
        rw [evaluated_iff.mpr (.inr (.inr (anyOpen_iff.mpr ⟨i, p⟩)))] at hn; cases hn
      · rw [st k i hk]; exact p
  unfold State.makeActive
  dsimp only
  refine Eases.trans ?_ ((settles_gumChangeover ..).trans (settles_prune _)).eases
  split
  · exact s1
  · exact s2 (by simpa using ‹¬ s.evaluated n = true›)

/-- A record of the active slot put into the ring brings no slot into the evaluated set (R47). -/
theorem eases_putRecord {s : State} {b : Blank} (h : s.active = some b.fmt) (n : Word) :
    Eases s { s.putAt 0 (some b) with ring := { (s.putAt 0 (some b)).ring with nextSeq := n } } := by
  refine ⟨crossingsLeft_le_of (fun k hk => ⟨?_, fun _ => ⟨rfl, rfl⟩⟩) rfl, rfl, fun _ _ _ _ _ p => p⟩
  rw [evaluated_iff] at hk ⊢
  rcases hk with hk | hk | hk
  · exact .inl hk
  · obtain ⟨j, b', hb, hf⟩ := carried_iff.mp hk
    have hb : (s.putAt 0 (some b)).presentAt j = some b' := hb
    rw [presentAt_putAt] at hb
    split at hb
    · split at hb
      · cases hb; rw [← hf]; exact .inl h
      · cases hb
    · exact .inr (.inl (carried_iff.mpr ⟨j, b', hb, hf⟩))
  · exact .inr (.inr hk)

theorem eases_createRecord {k : Fin 4} (theta : Nat) {s : State} (h : s.active = some k) :
    Eases s (s.createRecord k theta) := by
  unfold State.createRecord
  extract_lets fmt s1 inspected b s2 r s3 s4
  have w1 : Eases s s1 ∧ s1.active = some fmt := by
    unfold s1 fmt
    cases hp : s.pendingSlot with
    | none => exact ⟨eases_refl s, h⟩
    | some n =>
      refine ⟨eases_makeActive n theta (by rw [hp]; rfl), ?_⟩
      obtain ⟨a, b, g, e, h⟩ := makeActive_spec n theta s
      dsimp only [Option.getD]
      rw [h]
  have w3 : Eases s s3 := w1.1.trans (eases_putRecord (by rw [fresh_fmt]; exact w1.2) _)
  have w4 : Eases s s4 := eases_ite w3 (w3.trans (settles_registration ..).eases)
  exact w4.trans (settles_of_flows (flows_cymCreation s4) rfl rfl rfl rfl).eases

/-! ### A crossing taken -/

theorem eases_closingAction (k : Fin 4) (i : Fin 16) (e : Entry) (st : Station) (theta : Nat) (s : State) :
    Eases s (s.closingAction k i e st theta) := by
  unfold State.closingAction State.markStation State.patchCheck State.countStation State.feedEvaluation
  repeat' (first
    | exact eases_refl s
    | exact (settles_sendOperation e st s).1.eases
    | exact (settles_markEvaluation ..).eases
    | exact (settles_update _ _ fun b _ => evolves_addFault _ b).eases
    | exact (settles_foldCheck ..).eases
    | exact (settles_countVerification ..).eases
    | (refine eases_createRecord _ ?_; simp_all)
    | split)

/-- The window of the station that closes stays open while the action of its closing is taken. -/
theorem closingAction_open {k : Fin 4} {i : Fin 16} {e : Entry} (st : Station) (theta : Nat) {s : State}
    (he : s.entry k i = some e) (h : (s.station k i).windowOpen = true) :
    ((s.closingAction k i e st theta).station k i).windowOpen = true := by
  cases ho : e.kind.isOutput with
  | false => exact (eases_closingAction k i e st theta s).inputs k i e he ho h
  | true =>
    rw [State.closingAction, if_pos ho, State.station, (settles_sendOperation e st s).2]
    exact h

/-- One station of an evaluated slot changed in anything but its marks. -/
theorem eases_station {s t : State} {k : Fin 4} {i : Fin 16} {st : Station} (hk : s.evaluated k = true)
    (ht : t = { s with stations := setAt s.stations k (setAt s.stations[k] i st) })
    (m : st.onMark = (s.station k i).onMark ∧ st.offMark = (s.station k i).offMark) :
    crossingsLeft t ≤ crossingsLeft s := by
  subst ht
  refine crossingsLeft_le_of (fun k' e => ⟨?_, fun j => ?_⟩) rfl
  · by_cases g : k = k'
    · subst g; exact hk
    · rw [evaluated_iff] at e ⊢
      rcases e with e | e | e
      · exact .inl e
      · exact .inr (.inl e)
      · obtain ⟨j, hj⟩ := anyOpen_iff.mp e
        simp only [State.station, fin_getElem_setAt, if_neg g] at hj
        exact .inr (.inr (anyOpen_iff.mpr ⟨j, hj⟩))
  · simp only [State.station, fin_getElem_setAt]
    split
    · subst k'
      rw [fin_getElem_setAt]
      split
      · subst j; exact m
      · exact ⟨rfl, rfl⟩
    · exact ⟨rfl, rfl⟩

/-- A clear mark set takes one crossing away. -/
theorem crossingsLeft_mark {s : State} {k : Fin 4} {i : Fin 16} {f : Station → Station} (hk : s.evaluated k = true)
    (w : ∀ st, (f st).windowOpen = st.windowOpen)
    (m : ((f (s.station k i)).onMark = true ∧ (s.station k i).onMark = false
        ∧ (f (s.station k i)).offMark = (s.station k i).offMark)
      ∨ ((f (s.station k i)).offMark = true ∧ (s.station k i).offMark = false
        ∧ (f (s.station k i)).onMark = (s.station k i).onMark)) :
    crossingsLeft (s.updStation k i f) < crossingsLeft s := by
  have st : ∀ k' j, (s.updStation k i f).station k' j
      = if k = k' ∧ i = j then f (s.station k i) else s.station k' j := by
    intro k' j
    show (setAt s.stations k (setAt s.stations[k] i (f s.stations[k][i])))[k'][j] = _
    rw [fin_getElem_setAt]
    by_cases h1 : k = k'
    · subst h1
      by_cases h2 : i = j
      · subst h2
        rw [if_pos rfl, if_pos ⟨rfl, rfl⟩, fin_getElem_setAt_self]
        rfl
      · rw [if_pos rfl, if_neg fun h => h2 h.2]
        exact fin_getElem_setAt_of_ne _ _ h2
    · rw [if_neg h1, if_neg fun h => h1 h.1]
      rfl
  have ev : ∀ k', (s.updStation k i f).evaluated k' = s.evaluated k' := by
    intro k'
    have o : (s.updStation k i f).anyOpen k' = s.anyOpen k' := by
      simp only [State.anyOpen, st]
      refine congrArg (List.any (List.finRange 16)) (funext fun j => ?_)
      split
      · rename_i h; rw [w, h.1, h.2]
      · rfl
    show (decide (s.active = some k') || s.carried k' || (s.updStation k i f).anyOpen k') = _
    rw [o]; rfl
  unfold crossingsLeft
  refine Nat.add_lt_add_right (Finset.sum_lt_sum (fun k' _ => ?_) ⟨k, Finset.mem_univ k, ?_⟩) _
  · rw [ev]
    split
    · refine Finset.sum_le_sum fun j _ => ?_
      rw [st]
      split
      · rename_i h
        obtain ⟨rfl, rfl⟩ := h
        rcases m with ⟨a, b, c⟩ | ⟨a, b, c⟩ <;> simp [a, b, c]
      · exact le_refl _
    · exact le_refl _
  · rw [ev, if_pos hk, if_pos hk]
    refine Finset.sum_lt_sum (fun j _ => ?_) ⟨i, Finset.mem_univ i, ?_⟩
    · rw [st]
      split
      · rename_i h
        obtain ⟨-, rfl⟩ := h
        rcases m with ⟨a, b, c⟩ | ⟨a, b, c⟩ <;> simp [a, b, c]
      · exact le_refl _
    · rw [(st k i).trans (if_pos ⟨rfl, rfl⟩)]
      rcases m with ⟨a, b, c⟩ | ⟨a, b, c⟩ <;> simp [a, b, c]

theorem evaluated_of_open {s : State} {k : Fin 4} {i : Fin 16} (h : (s.station k i).windowOpen = true) :
    s.evaluated k = true := evaluated_iff.mpr (.inr (.inr (anyOpen_iff.mpr ⟨i, h⟩)))

theorem eases_left_closeWindow {k : Fin 4} {i : Fin 16} {e : Entry} (theta : Nat) {s : State}
    (he : s.entry k i = some e) (h : (s.station k i).windowOpen = true) :
    crossingsLeft (s.closeWindow k i e theta) ≤ crossingsLeft s := by
  have o := closingAction_open (s.station k i) theta he h
  have g := (eases_closingAction k i e (s.station k i) theta s).left
  unfold State.closeWindow
  generalize s.closingAction k i e (s.station k i) theta = u at o g ⊢
  exact (eases_station (i := i) (st := (u.station k i).close) (evaluated_of_open o) rfl ⟨rfl, rfl⟩).trans g

theorem left_offCrossing {k : Fin 4} {i : Fin 16} {e : Entry} (theta : Nat) {s : State} (he : s.entry k i = some e)
    (hk : s.evaluated k = true) (m : (s.station k i).offMark = false) :
    crossingsLeft (s.offCrossing k i e theta) < crossingsLeft s := by
  have h1 : crossingsLeft (s.updStation k i fun st => { st with offMark := true }) < crossingsLeft s :=
    crossingsLeft_mark hk (fun _ => rfl) (.inr ⟨rfl, m, rfl⟩)
  unfold State.offCrossing
  dsimp only
  split
  · rename_i o
    exact (eases_left_closeWindow theta (s := s.updStation k i fun st => { st with offMark := true }) he o).trans_lt h1
  · exact h1

theorem left_onCrossing {k : Fin 4} {i : Fin 16} {e : Entry} (theta : Nat) {s : State} (he : s.entry k i = some e)
    (hk : s.evaluated k = true) (m : (s.station k i).onMark = false) :
    crossingsLeft (s.onCrossing k i e theta) < crossingsLeft s := by
  have h1 : crossingsLeft (s.updStation k i fun st => { st with onMark := true }) < crossingsLeft s :=
    crossingsLeft_mark hk (fun _ => rfl) (.inl ⟨rfl, m, rfl⟩)
  unfold State.onCrossing
  extract_lets s1 s2 b s3
  have h3 : crossingsLeft s3 < crossingsLeft s := by
    refine lt_of_le_of_lt ?_ h1
    unfold s3
    generalize hb : b = b'
    clear hb
    unfold s2
    split
    · rename_i o
      have o' := closingAction_open (s := s1) (s1.station k i) theta he o
      have g := (eases_closingAction k i e (s1.station k i) theta s1).left
      unfold State.closeWindow
      generalize s1.closingAction k i e (s1.station k i) theta = u at o' g ⊢
      refine (eases_station (s := u) (i := i) (st := Station.opened e b' (Station.close (u.station k i)))
        (evaluated_of_open o') ?_ ⟨rfl, rfl⟩).trans g
      simp [State.updStation, State.station]
    · refine eases_station (k := k) (i := i) (st := Station.opened e b' (s1.station k i)) ?_ rfl ⟨rfl, rfl⟩
      rw [evaluated_iff] at hk ⊢
      rcases hk with hk | hk | hk
      · exact .inl hk
      · exact .inr (.inl hk)
      · obtain ⟨j, hj⟩ := anyOpen_iff.mp hk
        refine .inr (.inr (anyOpen_iff.mpr ⟨j, ?_⟩))
        simp only [State.station, updStation_stations, fin_getElem_setAt_self, fin_getElem_setAt] at hj ⊢
        split
        · subst j; exact hj
        · exact hj
  split
  · exact (settles_outputAction ..).eases.left.trans_lt h3
  · exact h3

/-! ### The walk ends -/

theorem crossings_spec {s : State} {low high : Nat} {x : Crossing} (h : x ∈ s.crossings low high) :
    s.evaluated x.slot = true ∧ ∃ e, s.entry x.slot x.index = some e
      ∧ if x.isOn = true then (s.station x.slot x.index).onMark = false
        else (s.station x.slot x.index).offMark = false := by
  refine ⟨crossings_evaluated h, ?_⟩
  simp only [State.crossings, List.mem_flatMap, List.mem_finRange, true_and] at h
  obtain ⟨k, h⟩ := h
  split at h
  · simp only [List.mem_flatMap, List.mem_finRange, true_and] at h
    obtain ⟨i, h⟩ := h
    split at h
    · rename_i e he
      simp only [crossingsOf, List.mem_append] at h
      rcases h with h | h
      · split at h
        · rename_i m
          rw [List.mem_singleton] at h; subst h
          exact ⟨e, he, by simp_all⟩
        · cases h
      · split at h
        · rename_i m
          rw [List.mem_singleton] at h; subst h
          exact ⟨e, he, by simp_all⟩
        · cases h
    · cases h
  · cases h

/-- A crossing taken leaves fewer that may still come. -/
theorem left_takeCrossing {s : State} {low high : Nat} {x : Crossing} (h : x ∈ s.crossings low high) :
    crossingsLeft (s.takeCrossing x) < crossingsLeft s := by
  obtain ⟨hk, e, he, m⟩ := crossings_spec h
  unfold State.takeCrossing
  rw [he]
  refine ((settles_prune _).eases.left).trans_lt ?_
  split
  · rename_i on
    rw [if_pos on] at m
    exact left_onCrossing _ he hk m
  · rename_i on
    rw [if_neg on] at m
    exact left_offCrossing _ he hk m

/-- One crossing is of a lower angle than another, or of the same angle and no higher order (R44). -/
def NotAfter (a b : Crossing) : Prop := a.angle < b.angle ∨ (a.angle = b.angle ∧ a.order ≤ b.order)

theorem NotAfter.trans {a b c : Crossing} (h : NotAfter a b) (g : NotAfter b c) : NotAfter a c := by
  unfold NotAfter at *; omega

theorem notAfter_of_before {use : Nat} {a b : Crossing} (h : a.before use b = true) : NotAfter a b := by
  unfold Crossing.before at h
  unfold NotAfter
  split at h
  · exact .inl (of_decide_eq_true h)
  · split at h
    · exact .inr ⟨by omega, le_of_lt (of_decide_eq_true h)⟩
    · omega

theorem notAfter_of_not_before {use : Nat} {a b : Crossing} (h : a.before use b = false) : NotAfter b a := by
  unfold Crossing.before at h
  unfold NotAfter
  split at h
  · have := of_decide_eq_false h; omega
  · split at h
    · have := of_decide_eq_false h; omega
    · omega

/-- The crossing taken first is not after any other. -/
theorem firstCrossing_notAfter {use : Nat} {l : List Crossing} {c : Crossing} (h : firstCrossing use l = some c) :
    ∀ y ∈ l, NotAfter c y := by
  have key : ∀ (l : List Crossing) (b : Crossing),
      let r := l.foldl (fun best d => if d.before use best then d else best) b
      NotAfter r b ∧ ∀ y ∈ l, NotAfter r y := by
    intro l
    induction l with
    | nil => exact fun b => ⟨.inr ⟨rfl, le_refl _⟩, by simp⟩
    | cons d l ih =>
      intro b
      simp only [List.foldl_cons, List.forall_mem_cons]
      cases hd : d.before use b
      · obtain ⟨h1, h2⟩ := ih b
        exact ⟨h1, h1.trans (notAfter_of_not_before hd), h2⟩
      · obtain ⟨h1, h2⟩ := ih d
        exact ⟨h1.trans (notAfter_of_before hd), h1, h2⟩
  cases l with
  | nil => cases h
  | cons a l =>
    simp only [firstCrossing, Option.some.injEq] at h
    rw [← h, List.forall_mem_cons]
    exact key l a

theorem firstCrossing_none {use : Nat} {l : List Crossing} (h : firstCrossing use l = none) : l = [] := by
  cases l with
  | nil => rfl
  | cons a l => cases h

/-- With as much fuel as crossings may come, the walk takes them in the order of R44 until none is left. -/
theorem passes_takeCrossings {use high fuel : Nat} (low : Nat) {s : State} (h : crossingsLeft s ≤ fuel) :
    Passes high low s (State.takeCrossings use high fuel low s) := by
  induction fuel generalizing low s with
  | zero =>
    refine .done (List.eq_nil_iff_forall_not_mem.mpr fun x hx => ?_)
    have := left_takeCrossing hx
    omega
  | succ fuel ih =>
    unfold State.takeCrossings
    split
    · rename_i hc
      exact .done (firstCrossing_none hc)
    · rename_i c hc
      have mem := firstCrossing_mem hc
      have := left_takeCrossing mem
      exact .next c mem (firstCrossing_notAfter hc) (ih _ (by omega))

end Sys2Proof.Laws
end

