-- ==== Sys2Proof/Laws/Framing.lean ====
section
/-!
SUPPORT. What the edges of a port's clock do to the bits of its frame (R163, R168).
-/

namespace Sys2Proof.Laws

open Sys2Proof.Machine

@[simp] theorem rise_clocking (bit : Bool) (bits : List Bool) :
    (Framing.clocking bits false).rise bit = .clocking (bits ++ [bit]) true := rfl
@[simp] theorem fall_clocking (bits : List Bool) : (Framing.clocking bits true).fall = .clocking bits false := rfl
@[simp] theorem rise_abandoned (bit : Bool) : Framing.abandoned.rise bit = .abandoned := rfl
@[simp] theorem fall_abandoned : Framing.abandoned.fall = .abandoned := rfl

@[simp] theorem putFrame_putFrame (s : State) (p : Port) (f g : Framing) :
    (s.putFrame p f).putFrame p g = s.putFrame p g := by
  simp [State.putFrame]

/-- A whole clock period with the clock low before it: one bit more is sampled, and nothing else changes. -/
theorem clock_clocking (s : State) (p : Port) (bits : List Bool) (bit : Bool) :
    ((s.putFrame p (.clocking bits false)).clockRise p bit).clockFall p
      = s.putFrame p (.clocking (bits ++ [bit]) false) := by
  simp [State.clockRise, State.clockFall]

/-- Periods of the clock sample their bits in order (R163). -/
theorem clocks_clocking (s : State) (p : Port) (bits more : List Bool) :
    more.foldl (fun s bit => (s.clockRise p bit).clockFall p) (s.putFrame p (.clocking bits false))
      = s.putFrame p (.clocking (bits ++ more) false) := by
  induction more generalizing bits with
  | nil => simp
  | cons bit more ih => simp [clock_clocking, ih]

/-- The data output does not change on the rising edge (R168). -/
theorem dataOut_clockRise (s : State) (p : Port) (bit : Bool) : (s.clockRise p bit).dataOut p = s.dataOut p := by
  cases h : s.frames.get p with
  | idle => simp [State.dataOut, State.clockRise, h, Framing.rise]
  | abandoned => simp [State.dataOut, State.clockRise, h]
  | clocking bits high => cases high <;> simp [State.dataOut, State.clockRise, h, Framing.rise, outIndex]

end Sys2Proof.Laws
end

