-- ==== Sys2Proof/Laws/Notices.lean ====
section
/-!
SUPPORT. Where a notice is placed in the queue (R101), and which notices a withdrawal leaves (R103).
-/

namespace Sys2Proof.Laws

open Sys2Proof.Machine

/-- The notices before the place of a new one are for records at a higher position. -/
theorem standsBefore_of_mem_takeWhile (s : State) (position : Fin 64) (l : List Notice) {x : Notice}
    (h : x ∈ l.takeWhile (s.standsBefore position)) : ∃ p, s.positionOf x.seq = some p ∧ position < p := by
  have : s.standsBefore position x = true := List.all_eq_true.mp (List.all_takeWhile ..) x h
  simpa [State.standsBefore, Option.any_eq_true] using this

/-- With room in the queue a notice handed over is placed after those of records at a higher position, up to the first
of a record that is not; nothing else changes (R101). -/
theorem handNotice_spec (b : Blank) (position : Fin 64) (s : State) (h : s.notices.length < noticeRoom) :
    ∃ before after : List Notice, s.notices = before ++ after
      ∧ s.handNotice b position = { s with notices :=
          before ++ { seq := b.seq, fmt := b.fmt, stamp := s.angle.cycle.setWidth 16 } :: after }
      ∧ (∀ x ∈ before, ∃ p, s.positionOf x.seq = some p ∧ position < p)
      ∧ ∀ x ∈ after.head?, ∀ p, s.positionOf x.seq = some p → p ≤ position := by
  refine ⟨_, _, (List.takeWhile_append_dropWhile (p := s.standsBefore position)).symm, by simp [State.handNotice, h],
    fun x hx => standsBefore_of_mem_takeWhile s position _ hx, fun x hx p hp => ?_⟩
  have := List.head?_dropWhile_not (s.standsBefore position) s.notices
  rw [Option.mem_def.mp hx] at this
  simpa [State.standsBefore, hp] using this

theorem mem_withdraw {s : State} {seq : Word} {n : Notice} :
    n ∈ (s.withdraw seq).notices ↔ n ∈ s.notices ∧ n.seq ≠ seq := by
  simp [State.withdraw]

/-- A withdrawal leaves the other notices in their order (R103). -/
theorem withdraw_sublist (s : State) (seq : Word) : (s.withdraw seq).notices.Sublist s.notices :=
  List.filter_sublist

end Sys2Proof.Laws
end

