-- ==== Sys2Proof/Tests/Slice0.lean ====
section
/-!
SUPPORT. The model's own tests: the well-formedness checks, frames written out from the catalogue of section 10.3, values
of the manual's tables and worked sequences, and, for every statement that has hypotheses, a state and operands that meet
them, with the boundary values of its clauses.
-/

namespace Sys2Proof.Tests

open Sys2Proof Sys2Proof.Machine Sys2Proof.Safety

/-! ### Well-formedness: each check refuses a term -/

theorem test_unknown_group_below_16_is_ill_formed :
    (Instr.writeFormat .line 0 (.unknownGroup 15 0)).wellFormed = false := by decide
theorem test_unknown_group_header_is_ill_formed :
    (Instr.writeFormat .line 0 (.unknownGroup 0xFF 0)).wellFormed = false := by decide
theorem test_short_frame_of_whole_length_is_ill_formed :
    (Instr.shortFrame .drive [0x05, 1, 9]).wellFormed = false := by decide
theorem test_short_frame_of_no_byte_is_ill_formed : (Instr.shortFrame .drive []).wellFormed = false := by decide
theorem test_catalogued_code_is_not_unknown : (Instr.unknownCommand .line 0x20 []).wellFormed = false := by decide
theorem test_parameters_beyond_the_frame_are_ill_formed :
    (Instr.unknownCommand .line 0x10 (List.replicate 63 0)).wellFormed = false := by decide
theorem test_offered_code_is_not_off_port : (Instr.notOnPort .line 0x20 []).wellFormed = false := by decide
theorem test_right_length_is_no_mismatch :
    (Instr.parameterLengthMismatch .line 0x20 []).wellFormed = false := by decide
theorem test_arm_with_a_parameter_is_a_mismatch :
    (Instr.parameterLengthMismatch .line 0x20 [0]).wellFormed = true := by decide

/-! ### Frames of the catalogue (section 10.3), byte by byte -/

theorem test_frame_status_ignores_bytes_beyond_l : decodeFrame .drive [0x01, 0, 0xAA] = .status .drive := by decide
theorem test_frame_read_seq : decodeFrame .inspection [0x05, 4, 0x78, 0x56, 0x34, 0x12]
    = .readSeq .inspection 0x12345678 := by decide
theorem test_frame_lock_take : decodeFrame .drive [0x0A, 1, 5] = .lockTake .drive 5 := by decide
theorem test_frame_absent_entry : decodeFrame .line [0x0D, 3, 2, 15, 0] = .writeFormat .line 2 (.absentEntry 15) := by
  decide
theorem test_frame_present_entry :
    decodeFrame .line [0x0D, 13, 1, 4, 1, 3, 2, 7, 0x00, 0x10, 0x00, 0x20, 0xD0, 0x07, 1]
      = .writeFormat .line 1 (.presentEntry 4
          { kind := 3, position := 2, cell := 7, onAngle := 0x1000, offAngle := 0x2000, leadUs := 2000
            enable := 1 }) := by decide
theorem test_frame_set_constants : decodeFrame .line [0x24, 8, 0x20, 0x4E, 1, 0xFF, 0xFF, 40, 1, 0xFF]
    = .setConstants { e := 20000, direction := 1, z0 := 0xFFFF, p := 40, chordEnable := 1, purgeCell := 0xFF } := by
  decide
theorem test_frame_set_cell : decodeFrame .line [0x25, 9, 3, 1, 0, 2, 50, 0, 0, 0, 0]
    = .setCell { cell := 3, mode := 1, polarity := 0, edgeSelect := 2, filter := 50, width := 0, safeLevel := 0 } := by
  decide
theorem test_frame_close_batch : decodeFrame .line [0x2A, 0] = .closeBatch := by decide
theorem test_frame_nudge_negative : decodeFrame .line [0x2D, 2, 0xFF, 0xFF] = .nudge (-1) := by decide
theorem test_frame_verdict : decodeFrame .inspection [0x41, 6, 0xBC, 0x02, 0, 0, 2, 9] = .verdict 700 2 9 := by decide
theorem test_frame_take_trim : decodeFrame .drive [0x60, 0] = .takeTrim := by decide
theorem test_frame_arm_on_the_drive_port : decodeFrame .drive [0x20, 0] = .notOnPort .drive 0x20 [] := by decide
theorem test_frame_uncatalogued : decodeFrame .line [0x10, 1, 7] = .unknownCommand .line 0x10 [7] := by decide
theorem test_frame_short : decodeFrame .line [0x05, 4, 1, 2, 3] = .shortFrame .line [0x05, 4, 1, 2, 3] := by decide
theorem test_frame_wrong_length : decodeFrame .line [0x20, 1, 0] = .parameterLengthMismatch .line 0x20 [0] := by decide
theorem test_frame_empty : decodeFrame .inspection [] = .emptyFrame .inspection := by decide
theorem test_table_word_spells_no_command : decodeTableWord 8 0x20 = none := rfl

/-! ### A small line: one format, one record -/

/-- The state a result answers. -/
def after (r : Result) : State :=
  match r with
  | .next t => t
  | _ => State.reset

/-- The constants of the manual's examples (E = 20,000) with a short line. -/
def lineConstants : Constants :=
  { e := 20000, direction := .normal, z0 := some 500, p := 8, chordEnable := true, purgeCell := some 15 }

/-- A present entry. -/
def entryAt (kind : Kind) (position : Fin 64) (cell : Fin 16) (on off : Half) : Entry :=
  { kind := kind, position := position, cell := cell, onAngle := on, offAngle := off, leadUs := 0, enabled := true }

/-- A VALID format: FEED, MARK, GUM, INSPECT, REJECT and COUNT, with the header of the worked sequence of section 4.3. -/
def lineFormat : Format :=
  { state := .valid
    header :=
      { regOn := true, target := 12000, deadband := 40, gain := 128, cmax := 500, amax := 2000, missLimit := 3
        rejectTolerance := 1000, policy := .reject, standbyCode := 1, primeTime := 2, batchSize := 3, perBox := 2 }
    table := Vector.ofFn fun i => match i.val with
      | 0 => some (entryAt .feed 0 0 0x1000 0x2000)
      | 1 => some (entryAt .mark 0 1 0x2000 0x3000)
      | 2 => some (entryAt .gum 1 2 0x4000 0x5000)
      | 3 => some (entryAt .inspect 2 3 0x6000 0x6100)
      | 4 => some (entryAt .reject 3 4 0x7000 0x7100)
      | 5 => some (entryAt .count 5 5 0x8000 0x8100)
      | _ => none }

/-- A cell of a mode, as SET CELL would leave it. -/
def cellOf (mode : CellMode) : Cell := { Cell.reset with config := { Cell.reset.config with mode := mode } }

/-- The record under test. -/
def lineRecord : Blank :=
  { seq := 7, fmt := 0, ops := 0, faults := 0, regErr := none, verdict := .awaiting, failCode := none
    disposition := .inLine, batch := none }

/-- The open batch. -/
def lineBatch : OpenBatch :=
  { state := .open
    fields :=
      { number := 1, fmt := 0, heldSize := 3, heldPerBox := 2, count := 0, firstSeq := none, lastSeq := none
        rejects := 0, passedDefects := 0, unexpected := 0, indexInBox := 1, boxNumber := 1, suspect := false
        mixed := false } }

/-- ARMED and running, slot 0 active, one record at position 3. -/
def line0 : State :=
  { State.reset with
    constants := some lineConstants
    angle := { AngleUnit.reset with p := 100, tc := 40000, haltTimer := 0, lastCount := some .forward, hasReference := true }
    cells := Vector.ofFn fun i => match i.val with
      | 0 => cellOf .edgeIn | 1 => cellOf .edgeIn | 5 => cellOf .edgeIn
      | 2 => cellOf .windowOut | 3 => cellOf .windowOut | 4 => cellOf .pulseOut
      | 6 => cellOf .levelIn | _ => cellOf .off
    ring := { Machine.Ring.reset with
      entries := setAt Machine.Ring.reset.entries 3 (some lineRecord), nextSeq := 8
      windows := { line := .whole 8, inspection := .whole 8, drive := .whole 8 } }
    gum := { state := .ready, standbyTimer := 0, primeTimer := none }
    batch := { BatchCounter.reset with openBatch := some lineBatch, nextNumber := 2 }
    slots := setAt State.reset.slots 0 lineFormat
    active := some 0
    line := { State.reset.line with mode := .armed } }

/-- The same line halted. -/
def halted0 : State := { line0 with angle := { line0.angle with haltTimer := 250000 } }

/-- The same line with its record in another state. -/
def withRecord (b : Blank) : State := line0.putAt 3 (some b)

/-- OFFLINE with the constants and the format, nothing on the line. -/
def offline0 : State :=
  { halted0 with ring := { halted0.ring with entries := Vector.replicate 64 none }, line := State.reset.line }

/-! ### Values of the manual's tables and worked sequences -/

theorem test_angle_of_3750 : ({ line0 with angle := { line0.angle with p := 3750 } } : State).theta = 12288 := by decide
theorem test_angle_of_19999 : ({ line0 with angle := { line0.angle with p := 19999 } } : State).theta = 65532 := by
  decide
theorem test_index_distances : indexDistance 20000 500 497 = 3 ∧ indexDistance 20000 500 480 = 20
    ∧ indexDistance 20000 5 19998 = 7 ∧ indexDistance 20000 19997 2 = -5 ∧ indexDistance 20000 500 10500 = 10000
    ∧ indexDistance 20000 500 10499 = -9999 := by decide
theorem test_lead_angles : leadAngle 2000 40000 = 3276 ∧ leadAngle 20000 40000 = 16384 ∧ leadAngle 2000 60000 = 2184
    ∧ leadAngle 20000 2000000 = 655 ∧ leadAngle 20000 0 = 0 := by decide
theorem test_registration_errors : registrationError 12000 12288 = 288 ∧ registrationError 60000 1000 = 6536
    ∧ registrationError 1000 60000 = -6536 ∧ registrationError 0 32768 = -32768
    ∧ registrationError 32768 0 = -32768 ∧ registrationError 65535 0 = 1 := by decide

/-- Stages 4 and 5 with deadband 0 under a gain. -/
def gained (gain : Nat) (e : Int) : Int := correctionOf { lineFormat.header with deadband := 0, gain := gain } e

theorem test_corrections : gained 128 288 = 144 ∧ gained 100 (-301) = -118 ∧ gained 128 (-301) = -151 ∧ gained 128 3 = 2
    ∧ gained 128 (-3) = -2 ∧ gained 64 2 = 1 ∧ gained 127 1 = 0 ∧ gained 256 (-32768) = -32768 := by decide

/-- The line with the MARK of slot 0 restarted and its record at position 0. -/
def marked (angles : List Half) : Registration :=
  (angles.foldl (fun s a => s.markEvaluation 7 0 true (some a)) line0).registration

/-- Cycles 1 and 2 of the worked sequence "five marks and a take". -/
theorem test_two_marks : ((marked [12288, 12150]).total, (marked [12288, 12150]).residue, (marked [12288, 12150]).trim,
    (marked [12288, 12150]).contributions) = ((219 : Int), (54624 : Int), (66 : Int), 2) := by decide

/-- Cycle 3 of the worked sequence, after the take. -/
theorem test_third_mark :
    let r := (({ line0 with registration := { (marked [12288, 12150]) with trim := 0, contributions := 0 } } : State)
      |>.markEvaluation 7 0 true (some 11699)).registration
    (r.total, r.residue, r.trim, r.contributions) = ((68 : Int), (-16256 : Int), (-45 : Int), 1) := by decide

/-- Step a of the worked sequence "the trim total at its limit", as NUDGE enters it. -/
theorem test_total_at_its_limit :
    let s := { line0 with registration := { Registration.reset with
      state := .tracking, total := 1800, heldCmax := 500, heldAmax := 2000 } }
    let t := after (exec (.nudge 500) s)
    (t.registration.total, t.registration.residue, t.registration.trim, t.registration.limit,
      hasBit t.line.events LineEvent.regLimit.bit) = ((2000 : Int), (2304 : Int), (61 : Int), true, true) := by decide

/-- A reversal through the origin (section 1.2): from p = 5, 12 backward counts leave debt 7. -/
theorem test_reversal_through_the_origin :
    let s := (List.range 12).foldl (fun s _ => after (exec .backwardCount s))
      { offline0 with angle := { line0.angle with p := 5 } }
    (s.angle.p, s.angle.debt, s.theta, s.motion) = (0, 7, 0, Motion.reverse) := by decide

/-- The sample table of a filter of 50 µs at 0 to 80 µs (section 1.4). -/
theorem test_filter_of_50 :
    let cell : Cell := { cellOf .edgeIn with config := { (cellOf .edgeIn).config with filter := 50 } }
    let s0 := { offline0 with cells := setAt offline0.cells 0 cell }
    let s1 := after (exec (.pinChange 0 true) s0)
    let s2 := after (exec (.pinChange 0 false) s1)
    let s3 := after (exec (.filterExpiry 0) (after (exec (.pinChange 0 true) s2)))
    (s1.cells[(0 : Fin 16)].filterTimer, s2.cells[(0 : Fin 16)].filterTimer, s3.cells[(0 : Fin 16)].level,
      s3.cells[(0 : Fin 16)].event, s3.cells[(0 : Fin 16)].overrun) = (some 0, none, true, true, false) := by decide

/-- Step 4 of the worked sequence "a full log, a held batch and a mixed batch": HELD with count 4 of held B = 3 and room
in the log closes OVERSIZE with count 5. -/
theorem test_held_batch_closes_oversize :
    let held : OpenBatch := { state := .held, fields := { lineBatch.fields with number := 73, count := 4 } }
    let s := withRecord { lineRecord with disposition := .cleared }
    let t := { s with batch := { s.batch with openBatch := some held } }.countVerification
      (some { lineRecord with disposition := .cleared }) true
    t.batch.log.map (fun r => (r.fields.number, r.fields.count, r.cause))
      = [((73 : Word), (5 : Word), CloseCause.oversize)] := by decide

/-- Steps 1 to 4 of the worked sequence "a flying changeover with room in the log". -/
theorem test_format_boundary_closes_the_batch :
    let old : OpenBatch := { state := .open, fields := { lineBatch.fields with number := 120, fmt := 1, count := 212 } }
    let s := withRecord { lineRecord with disposition := .cleared }
    let t := { s with batch := { s.batch with
      openBatch := some old, nextNumber := 121, boxNumber := 33, inBox := 1 } }.countVerification
      (some { lineRecord with disposition := .cleared }) true
    t.batch.log.map (fun r => r.cause) = [.changeover] ∧ t.batch.boxNumber = 34 ∧ t.batch.inBox = 0
      ∧ t.batch.box = true ∧ t.batch.openBatch.map (fun b => (b.fields.number, b.fields.count, b.fields.indexInBox))
        = some ((121 : Word), (1 : Word), (1 : Word)) := by decide

theorem test_lock_taken_is_locked :
    let s := after (exec (.lockTake .line 1) State.reset)
    (after (exec (.lockTake .drive 1) s)).ports.drive.response = { status := .locked, payload := [1, 1, 1, 1] } := by
  decide
theorem test_lock_new_gives_l4 :
    (after (exec (.lockNew .inspection) State.reset)).ports.inspection.response
      = { status := .ok, payload := [4, 1, 0, 0] } := by decide
theorem test_arm_without_constants :
    (after (exec .arm State.reset)).ports.line.response.status = .noConstants := by decide
theorem test_reset_response_is_the_mark :
    State.reset.ports.line.response.returned 3 = [0x3F, 0, 0xFF] := by decide
theorem test_feed_creates_a_record :
    let s := line0.updStation 0 0 fun st => { st with onMark := true, windowOpen := true, latch := .gap, seen := true }
    let t := after (exec .forwardCount { s with angle := { s.angle with p := 2499 } })
    (t.presentAt 0).map (fun b => (b.seq, b.disposition, b.verdict)) = some (8, .inLine, .awaiting) := by decide
theorem test_gum_fires_on_a_good_blank :
    let s := line0.putAt 1 (some { lineRecord with seq := 6 })
    let t := after (exec .forwardCount { s with angle := { s.angle with p := 4999 } })
    (t.station 0 2).fired = true ∧ t.cellLevel 2 = true := by decide
theorem test_inspect_hands_a_notice :
    let s := line0.putAt 2 (some { lineRecord with seq := 6 })
    let t := after (exec .forwardCount { s with angle := { s.angle with p := 7499 } })
    t.notices.map (fun n => n.seq) = [6] := by decide
theorem test_wrap_advances_the_head :
    let t := after (exec .forwardCount { line0 with angle := { line0.angle with p := 19999 } })
    t.ring.head = 63 ∧ t.presentAt 4 = some lineRecord ∧ t.presentAt 3 = none := by decide
theorem test_standby_expiry_at_five_seconds :
    let s := { halted0 with gum := { halted0.gum with standbyTimer := 4999999 } }
    s.tick.gum.state = .standby ∧ { s with gum := { s.gum with standbyTimer := 4999998 } }.tick.gum.state = .ready := by
  decide +kernel
theorem test_chord_is_taken_at_two_seconds :
    let s := { halted0 with line := { halted0.line with mode := .faulted, chordTimer := some 1999999 } }
    s.tick.line.mode = .armed ∧ s.tick.line.chordState = .spent := by
  decide +kernel
theorem test_commit_error_names_the_check :
    let s := after (exec (.lockTake .line 1) offline0)
    (after (exec (.commitFormat .line 1) s)).ports.line.response = { status := .formatError, payload := [1] } := by
  decide
theorem test_commit_of_the_line_format :
    let s := after (exec (.lockTake .line 0) offline0)
    (after (exec (.commitFormat .line 0) s)).ports.line.response = { status := .ok, payload := [] } := by decide

/-! ### Witnesses: a state and operands that meet the hypotheses of each statement, clause by clause -/

/-- Raw parameters of an edge input on an unbound cell, to be varied. -/
def rawCell : RawCell :=
  { cell := 8, mode := 1, polarity := 0, edgeSelect := 0, filter := 1000, width := 0, safeLevel := 0 }

/-- Raw constants at the least values of their ranges, to be varied. -/
def rawConstants : RawConstants :=
  { e := 2000, direction := 0, z0 := 1999, p := 6, chordEnable := 1, purgeCell := 15 }

/-- A raw header at limits of its ranges. -/
def rawHeader : RawHeader :=
  { regEnable := 1, target := 0, deadband := 4096, gain := 256, cmax := 8192, amax := 32767, missLimit := 1
    rejectTolerance := 32767, policy := 1, standbyCode := 255, primeTime := 600, batchSize := 1000, perBox := 99 }

/-- A raw entry at limits of its ranges. -/
def rawEntry : RawEntry :=
  { kind := 11, position := 63, cell := 15, onAngle := 0, offAngle := 0xFFFF, leadUs := 20000, enable := 1 }

/-- `line0` with another open batch and log. -/
def withBatch (o : Option OpenBatch) (log : List BatchRecord) : State :=
  { line0 with batch := { line0.batch with openBatch := o, log := log } }

/-- The open batch with a count. -/
def countOf (n : Word) : OpenBatch := { lineBatch with fields := { lineBatch.fields with count := n } }

/-- A log of `n` records. -/
def logOf (n : Nat) : List BatchRecord := List.replicate n { fields := lineBatch.fields, cause := .full }

/-- `line0` with another registration unit. -/
def withRegistration (r : Registration) : State := { line0 with registration := r }

/-- `line0` with another count position and debt. -/
def atCount (p debt : Nat) : State := { line0 with angle := { line0.angle with p := p, debt := debt } }

/-- `line0` with one cell replaced. -/
def withCell (i : Fin 16) (c : Cell) : State := { line0 with cells := setAt line0.cells i c }

/-- `line0` with one lock replaced. -/
def withLock (i : Fin 8) (l : Lock) : State := { line0 with locks := setAt line0.locks i l }

/-- `line0` in another mode. -/
def inMode (m : LineMode) : State := { line0 with line := { line0.line with mode := m } }

theorem witness_takes (p : Port) : Takes line0 p ∧ Takes halted0 p ∧ Takes offline0 p ∧ Takes State.reset p := by
  cases p <;> exact ⟨⟨rfl, rfl⟩, ⟨rfl, rfl⟩, ⟨rfl, rfl⟩, ⟨rfl, rfl⟩⟩

theorem witness_StepRunsFrontCommand : State.reset.pending = [] := rfl

theorem witness_MicrosecondMovesTimers :
    let s := { withCell 4 { cellOf .pulseOut with pulseTimer := some 2 } with
      cym := { mode := .cycle, pulse := some 2, hold := false } }
    let u := { withCell 4 { cellOf .pulseOut with pulseTimer := some 1 } with
      cym := { mode := .cycle, pulse := some 1, hold := false } }
    s.pending = [] ∧ s.heldInReset = false ∧ s.cells[(4 : Fin 16)].pulseTimer = some (0 + 2)
    ∧ s.cym.pulse = some (0 + 2) ∧ u.pending = [] ∧ u.heldInReset = false
    ∧ u.cells[(4 : Fin 16)].pulseTimer = some 1 ∧ u.cym.pulse = some 1
    ∧ ({ line0 with heldInReset := true } : State).pending = [] := by decide

/-- Filters, standby, prime and chord at the µs before their end and at it. -/
theorem witness_MicrosecondMovesTimers_expiries :
    let filtering (n : Nat) : Cell := { cellOf .edgeIn with
      config := { (cellOf .edgeIn).config with filter := 1000 }, filterTimer := some n, pinHigh := true }
    let s (n : Nat) := (withCell 0 (filtering n)).updStation 0 0 fun st => { st with windowOpen := true }
    let primed (n : Nat) : Gum := { state := .priming, standbyTimer := 0, primeTimer := some n }
    (s 998).cells[(0 : Fin 16)].filterTimer = some 998 ∧ 998 + 1 < (s 998).cells[(0 : Fin 16)].config.filter
    ∧ (s 999).cells[(0 : Fin 16)].filterTimer = some 999 ∧ (s 999).cells[(0 : Fin 16)].config.filter ≤ 999 + 1
    ∧ (s 999).cells[(0 : Fin 16)].config.edgeSelect = .rising
    ∧ (s 999).cells[(0 : Fin 16)].config.polarity.logical (s 999).cells[(0 : Fin 16)].pinHigh = true
    ∧ (s 999).entry 0 0 = some (entryAt .feed 0 0 0x1000 0x2000) ∧ (s 999).evaluated 0 = true
    ∧ ((s 999).station 0 0).windowOpen = true ∧ (s 999).cells[(1 : Fin 16)].filterTimer = none
    ∧ line0.gum.state = .ready ∧ line0.motion ≠ .halted ∧ line0.angle.haltTimer + 1 < 250000
    ∧ halted0.gum.state = .ready ∧ halted0.motion = .halted ∧ halted0.active = some 0
    ∧ halted0.slots[(0 : Fin 4)].header.standbyCode = 1 ∧ 4999998 + 1 < 1 * 5000000 ∧ 1 * 5000000 ≤ 4999999 + 1
    ∧ ({ halted0 with gum := primed 2 } : State).gum.primeTimer = some (0 + 2)
    ∧ ({ halted0 with gum := primed 1 } : State).gum.primeTimer = some 1 ∧ line0.line.chordTimer = none := by decide

theorem witness_CommandFramesRoundTrip :
    (Instr.nudge (-8192)).wellFormed = true ∧ encodeFrame (.nudge (-8192)) = some (.line, [0x2D, 2, 0x00, 0xE0])
    ∧ (Instr.verdict 0xFFFFFFFF 2 255).wellFormed = true
    ∧ encodeFrame (.verdict 0xFFFFFFFF 2 255) = some (.inspection, [0x41, 6, 0xFF, 0xFF, 0xFF, 0xFF, 2, 255]) := by
  decide

/-- READ SEQ clocked bit by bit, with a byte cut short, while the port takes frames, after its reset and in it. -/
theorem witness_EveryFrameSpellsAWellFormedCommand :
    let clock (s : State) (bits : List Bool) := bits.foldl (fun s bit => (s.clockRise .drive bit).clockFall .drive) s
    let bits := ([0x05, 4, 7, 0, 0, 0] : List Byte).flatMap bitsOf ++ [true, true, true, true, true, true, true]
    let taken := clock (line0.chipSelect .drive) bits
    let abandoned := after (exec (.portReset .drive) taken)
    Takes line0 .drive ∧ ([true, true, true, true, true, true, true] : List Bool).length < 8
    ∧ (taken.chipDeselect .drive).pending = [.readSeq .drive 7]
    ∧ taken.dataOut .drive = some true ∧ (line0.chipSelect .drive).dataOut .drive = some false
    ∧ ((clock (line0.chipSelect .drive) [true]).clockRise .drive true).dataOut .drive = some false
    ∧ (((clock (line0.chipSelect .drive) [true]).clockRise .drive true).clockFall .drive).dataOut .drive = some true
    ∧ abandoned.frames.get .drive = .abandoned ∧ (abandoned.chipDeselect .drive).pending = []
    ∧ ¬ Takes abandoned .drive := by
  unfold Takes; decide +kernel

theorem witness_DisregardedFramesChangeNothing :
    encodeFrame .arm = some (.line, [0x20, 0]) ∧ ({ line0 with heldInReset := true } : State).heldInReset = true
    ∧ (({ line0 with ports := line0.ports.set .line { line0.ports.line with prstLow := true } } : State).ports.get
        .line).prstLow = true := by decide

/-- Crossings of `line0` at and around 0x2000, where the FEED off-crossing stands before the MARK on-crossing. -/
theorem witness_CrossingsAreTakenInOrder :
    let s := line0.updStation 0 0 fun st => { st with onMark := true, windowOpen := true, latch := .gap }
    let feed : Crossing := { slot := 0, index := 0, isOn := false, angle := 0x2000, order := 0 }
    let mark : Crossing := { slot := 0, index := 1, isOn := true, angle := 0x2000, order := 1 }
    s.crossings 0x1FFF 0x2000 = [feed, mark] ∧ s.crossings 0x2001 0x2FFF = []
    ∧ s.entry 0 0 = some (entryAt .feed 0 0 0x1000 0x2000) ∧ (s.station 0 0).windowOpen = true
    ∧ s.entry 0 1 = some (entryAt .mark 0 1 0x2000 0x3000) ∧ (s.station 0 1).windowOpen = false
    ∧ (entryAt .mark 0 1 0x2000 0x3000).kind.isOutput = false ∧ (entryAt .gum 1 2 0x4000 0x5000).kind.isOutput = true
    ∧ line0.firedGum = [] ∧ line0.evaluated 1 = false
    ∧ ({ line0 with slots := setAt line0.slots 1 lineFormat } : State).entry 1 2
        = some (entryAt .gum 1 2 0x4000 0x5000) := by decide

/-- The evaluated set of `line0` and of a slot that only an open window holds, before and after its off-crossing. -/
theorem witness_CrossingsAreTakenInOrder_leaving :
    let two : State := { line0 with slots := setAt line0.slots 1 lineFormat }
    let s := two.updStation 1 2 fun st => { st with onMark := true, windowOpen := true, latch := .gap }
    let x : Crossing := { slot := 1, index := 2, isOn := false, angle := 0x5000, order := 2 }
    two.evaluated 0 = true ∧ two.evaluated 1 = false ∧ s.evaluated 1 = true ∧ s.entry x.slot x.index ≠ none
    ∧ (s.takeCrossing x).evaluated 1 = false ∧ ((s.takeCrossing x).station 1 2).onMark = false
    ∧ (two.presentAt 3).map (fun b => b.fmt) = some 0 := by decide

theorem witness_MotionReport : Takes line0 .drive ∧ line0.motion = .running ∧ State.reset.constants = none := by
  unfold Takes; decide

theorem witness_OtherPortsAreUntouched :
    LocksLegal (withLock 1 { allocated := true, held := true, holder := some .drive })
    ∧ encodeFrame (.lockTake .line 1) = some (.line, [0x0A, 1, 1]) ∧ Port.drive ≠ Port.line
    ∧ Instr.lockTake .line 1 ≠ .softReset
    ∧ (withLock 1 { allocated := true, held := true, holder := some .drive }).locks[(1 : Fin 8)].heldBy .drive = true := by
  unfold LocksLegal LockLegal; decide

theorem witness_WindowCommands :
    Takes line0 .line ∧ line0.constants.map (fun c => c.p - 1) = some 7
    ∧ (7 : Byte).toNat ≤ 7 ∧ 7 < (8 : Byte).toNat ∧ (0 : Byte).toNat < (1 : Byte).toNat
    ∧ (line0.ring.windows.get .line).pointer = (0 : Fin 64).val ∧ line0.presentAt 0 = none
    ∧ (let w : ReadWindow := { first := 3, last := 3, pointer := 3 }
       w.first ≤ w.pointer ∧ w.pointer = w.last ∧ line0.presentAt 3 = some lineRecord) := by unfold Takes; decide

theorem witness_ReadSeqAnswers :
    Takes line0 .drive ∧ line0.presentAt 3 = some lineRecord ∧ lineRecord.seq = 7
    ∧ (∀ j : Fin 64, ∀ b ∈ line0.presentAt j, b.seq = 7 → j = 3)
    ∧ (∀ j : Fin 64, ∀ b ∈ line0.presentAt j, b.seq ≠ 6) := by unfold Takes; decide

theorem witness_PeekAndTakeCell : Takes line0 .line ∧ (15 : Byte).toNat < 16 ∧ 16 ≤ (16 : Byte).toNat := by
  unfold Takes; decide

theorem witness_SetCellConfigures_refusals :
    Takes line0 .line ∧ line0.line.mode ≠ .offline ∧ Takes offline0 .line ∧ offline0.line.mode = .offline
    ∧ 16 ≤ ({ rawCell with cell := 16 } : RawCell).cell.toNat ∧ 4 < ({ rawCell with mode := 5 } : RawCell).mode.toNat
    ∧ 1000 < ({ rawCell with filter := 1001 } : RawCell).filter.toNat
    ∧ 1 < ({ rawCell with polarity := 2 } : RawCell).polarity.toNat
    ∧ 2 < ({ rawCell with edgeSelect := 3 } : RawCell).edgeSelect.toNat
    ∧ 1 < ({ rawCell with mode := 3, safeLevel := 2 } : RawCell).safeLevel.toNat
    ∧ ({ rawCell with mode := 4, width := 49 } : RawCell).width.toNat < 50
    ∧ 50000 < ({ rawCell with mode := 4, width := 50001 } : RawCell).width.toNat := by unfold Takes; decide

theorem witness_SetCellConfigures_accepted :
    offline0.line.mode = .offline ∧ rawCell.cell.toNat < 16
    ∧ cellConfigOf rawCell = some
        { mode := .edgeIn, polarity := .activeHigh, edgeSelect := .rising, filter := 1000, width := 0
          safeLevel := .inactive }
    ∧ (cellConfigOf { rawCell with mode := 4, width := 50 }).map (·.width) = some 50
    ∧ (cellConfigOf { rawCell with mode := 4, width := 50000 }).map (·.width) = some 50000
    ∧ (∀ (k : Fin 4) (j : Fin 16), ∀ e ∈ offline0.slots[k].table[j], offline0.slots[k].state = .valid → e.cell ≠ 8)
    ∧ (∃ (k : Fin 4) (j : Fin 16), ∃ e ∈ offline0.slots[k].table[j],
        offline0.slots[k].state = .valid ∧ e.cell = 2 ∧ CellMode.edgeIn.serves e.kind = false) := by
  refine ⟨by decide, by decide, by decide, by decide, by decide, by decide, 0, 2, ?_⟩
  exact ⟨entryAt .gum 1 2 0x4000 0x5000, by decide⟩

theorem witness_EdgesQualify :
    let filtered : Cell := { cellOf .edgeIn with config := { (cellOf .edgeIn).config with filter := 1000 } }
    let s := line0.updStation 0 1 fun st => { st with windowOpen := true }
    line0.heldInReset = false ∧ line0.cells[(0 : Fin 16)].config.mode = .edgeIn
    ∧ line0.cells[(0 : Fin 16)].pinHigh ≠ true ∧ line0.cells[(0 : Fin 16)].level ≠ true
    ∧ line0.cells[(0 : Fin 16)].config.filter = 0
    ∧ (withCell 0 filtered).cells[(0 : Fin 16)].config.filter ≠ 0
    ∧ (withCell 0 { filtered with pinHigh := true }).cells[(0 : Fin 16)].level = false
    ∧ (withCell 0 { filtered with pinHigh := true, filterTimer := some 999 }).cells[(0 : Fin 16)].filterTimer.isSome = true
    ∧ s.evaluated 0 = true ∧ (s.station 0 1).windowOpen = true
    ∧ s.entry 0 1 = some (entryAt .mark 0 1 0x2000 0x3000) := by decide

/-- Output cells outside ARMED and in it: a fired window and a running pulse without debt and with it, and a prime with its
GUM and purge cells. -/
theorem witness_LevelInputsPulseEndsAndSafeOutputs :
    let fired := line0.updStation 0 2 fun st => { st with windowOpen := true, fired := true }
    let owing (s : State) : State := { s with angle := { s.angle with debt := 1 } }
    let pulsing := withCell 4 { cellOf .pulseOut with pulseTimer := some 1 }
    let priming (s : State) : State := { s with gum := { state := .priming, standbyTimer := 0, primeTimer := some 1 } }
    let purging := priming (withCell 15 (cellOf .pulseOut))
    line0.cells[(6 : Fin 16)].config.mode = .levelIn ∧ line0.heldInReset = false ∧ offline0.line.mode ≠ .armed
    ∧ offline0.cells[(2 : Fin 16)].config.mode = .windowOut ∧ offline0.cells[(4 : Fin 16)].config.mode = .pulseOut
    ∧ line0.line.mode = .armed ∧ fired.entry 0 2 = some (entryAt .gum 1 2 0x4000 0x5000)
    ∧ fired.evaluated 0 = true ∧ (fired.station 0 2).fired = true
    ∧ fired.cellLevel 2 = true ∧ fired.pinDrive 2 = some true
    ∧ (owing fired).cellLevel 2 = false ∧ line0.cellLevel 2 = false
    ∧ pulsing.cellLevel 4 = true ∧ (owing pulsing).cellLevel 4 = false ∧ line0.cellLevel 4 = false
    ∧ (priming (owing line0)).cellLevel 2 = true ∧ (priming line0).cellLevel 3 = false
    ∧ purging.constants = some lineConstants ∧ lineConstants.purgeCell = some 15 ∧ purging.cellLevel 15 = true
    ∧ line0.cells[(0 : Fin 16)].config.mode = .edgeIn ∧ line0.cells[(7 : Fin 16)].config.mode = .off := by
  decide

theorem witness_ForwardCountMovesAngle :
    (atCount 0 1).heldInReset = false ∧ 0 < (atCount 0 1).angle.debt ∧ (atCount 0 1).gum.state ≠ .priming
    ∧ (atCount 0 1).constants = some lineConstants ∧ (atCount 19998 0).angle.p + 1 < lineConstants.e
    ∧ ¬ (atCount 19999 0).angle.p + 1 < lineConstants.e ∧ State.reset.heldInReset = false
    ∧ State.reset.constants = none ∧ 4 ≤ lineConstants.p ∧ lineConstants.p ≤ 64
    ∧ (atCount 19999 0).presentAt 3 = some lineRecord ∧ (3 : Fin 64).val + 1 < lineConstants.p
    ∧ (7 : Fin 64).val + 1 = lineConstants.p ∧ (atCount 19999 0).active = some 0
    ∧ (atCount 19999 0).entry 0 2 = some (entryAt .gum 1 2 0x4000 0x5000) := by decide

/-- Counts without debt: in motion, from HALTED, and from HALTED in a prime without and with a fired GUM window, and the
count that reaches the FEED off-crossing at 0x2000. -/
theorem witness_ForwardCountMovesAngle_angles :
    let halted (p : Nat) : State := { atCount p 0 with angle := { (atCount p 0).angle with haltTimer := 250000 } }
    let priming : State := { halted 19999 with gum := { state := .priming, standbyTimer := 0, primeTimer := some 1 } }
    let fired := priming.updStation 0 2 fun st => { st with windowOpen := true, fired := true }
    let feeding := (atCount 2499 0).updStation 0 0 fun st => { st with onMark := true, windowOpen := true, seen := true }
    (atCount 19999 0).angle.debt = 0 ∧ (atCount 19999 0).motion ≠ .halted
    ∧ (halted 19998).motion = .halted ∧ (halted 19998).gum.state ≠ .priming ∧ (halted 19998).angle.debt = 0
    ∧ priming.motion = .halted ∧ priming.gum.state = .priming ∧ priming.firedGum = [] ∧ priming.angle.debt = 0
    ∧ fired.motion = .halted ∧ fired.gum.state = .priming ∧ fired.firedGum ≠ [] ∧ fired.heldInReset = false
    ∧ feeding.theta + 1 ≤ 0x2000 ∧ (feeding.angle.p + 1) * 65536 / lineConstants.e = 0x2000
    ∧ ((after (exec .forwardCount feeding)).presentAt 0).isSome = true := by decide

/-- Both directions at two levels of QA and QB, a head advance at which slot 1's last record leaves and slot 0 stays. -/
theorem witness_ForwardCountMovesAngle_levels :
    let inverted : State := { line0 with constants := some { lineConstants with direction := .inverted } }
    let leaving := ({ line0 with slots := setAt line0.slots 1 lineFormat }.putAt 7
      (some { lineRecord with seq := 2, fmt := 1 })).updStation 1 2 fun st => { st with onMark := true }
    (line0.angle.qa, line0.angle.qb) = (false, false) ∧ lineConstants.direction = .normal
    ∧ (let t := after (exec .forwardCount line0); (t.angle.qa, t.angle.qb) = (true, false))
    ∧ (let t := after (exec .forwardCount (after (exec .forwardCount line0))); (t.angle.qa, t.angle.qb) = (true, true))
    ∧ (let t := after (exec .backwardCount line0); (t.angle.qa, t.angle.qb) = (false, true))
    ∧ (let t := after (exec .forwardCount inverted); (t.angle.qa, t.angle.qb) = (false, true))
    ∧ leaving.evaluated 1 = true ∧ leaving.headAdvance.evaluated 1 = false ∧ leaving.headAdvance.evaluated 0 = true
    ∧ (leaving.headAdvance.station 1 2).onMark = false := by decide

theorem witness_BackwardCountMovesAngle :
    let priming := { atCount 1 0 with
      angle := { (atCount 1 0).angle with haltTimer := 250000 }
      gum := { state := .priming, standbyTimer := 0, primeTimer := some 1 } }
    (atCount 1 0).heldInReset = false ∧ ((atCount 1 0).angle.debt = 0 ∧ 0 < (atCount 1 0).angle.p)
    ∧ (atCount 0 19999).angle.debt + 1 ≤ lineConstants.e ∧ ¬ (atCount 0 20000).angle.debt + 1 ≤ lineConstants.e
    ∧ (atCount 1 0).motion ≠ .halted ∧ halted0.motion = .halted ∧ halted0.gum.state ≠ .priming
    ∧ priming.motion = .halted ∧ priming.gum.state = .priming ∧ priming.firedGum = [] ∧ priming.evaluated 0 = true := by
  decide

theorem witness_LossOfTrackLosesRecords :
    let s := atCount 0 20000
    s.heldInReset = false ∧ s.constants = some lineConstants ∧ lineConstants.e < s.angle.debt + 1 ∧ s.angle.debt ≠ 0
    ∧ s.presentAt 3 = some lineRecord ∧ lineRecord.disposition.final = false ∧ s.presentAt 2 = none
    ∧ (s.putAt 2 (some { lineRecord with seq := 6, disposition := .rejected })).presentAt 2
        = some { lineRecord with seq := 6, disposition := .rejected } := by decide

/-- Distances 8 and 9, a wrap forward and a wrap backward, with Z0 = 500 and Z0 = 19,997, and E/2. -/
theorem witness_IndexCorrectionMovesAngle :
    let close (p : Nat) (z0 : Nat) (d : Int) : Prop :=
      (20000 : Int) ∣ ((z0 : Int) - p) - d ∧ -(20000 : Int) < 2 * d ∧ 2 * d ≤ 20000
    let s := atCount 492 0
    (s.heldInReset = false ∧ s.constants = some lineConstants ∧ lineConstants.z0 = some 500 ∧ 500 < lineConstants.e
      ∧ s.angle.p < lineConstants.e ∧ s.angle.debt = 0 ∧ s.angle.lastCount = some .forward)
    ∧ close 492 500 8 ∧ close 491 500 9 ∧ close 19999 500 501 ∧ close 10500 500 10000 ∧ close 508 500 (-8)
    ∧ close 2 19997 (-5) ∧ ((2 : Int) + -5 < 0) ∧ ((20000 : Int) ≤ 19999 + 501)
    ∧ State.reset.constants = none ∧ (atCount 0 1).angle.debt ≠ 0 := by decide

theorem witness_MotionTimersAndDiscardedSamples : line0.heldInReset = false ∧ line0.motion = .running := by decide

theorem witness_FaultAdditionTable :
    (lineRecord.addFault .noMark).disposition = .toReject
    ∧ (({ lineRecord with disposition := .cleared } : Blank).addFault .noMark).disposition = .flagged
    ∧ ({ lineRecord with disposition := .lost } : Blank).addFault .noMark = { lineRecord with disposition := .lost } := by
  decide

theorem witness_FeedCreatesRecord :
    let seen : Station := { Station.cleared with seen := true }
    line0.lineLength ≠ 0 ∧ line0.pendingSlot = none ∧ line0.active = some 0 ∧ seen.seen = true
    ∧ line0.line.mode = .armed ∧ line0.ring.at 0 = none ∧ (inMode .faulted).line.mode ≠ .offline
    ∧ (inMode .faulted).line.mode ≠ .armed ∧ line0.active ≠ some 1
    ∧ (line0.putAt 0 (some lineRecord)).ring.at 0 ≠ none ∧ Station.cleared.seen = false
    ∧ ({ line0 with pendingSlot := some 1 } : State).pendingSlot = some 1
    ∧ ({ line0 with pendingSlot := some 1 } : State).slots[(1 : Fin 4)].header.regOn = false
    ∧ line0.slots[(0 : Fin 4)].header.regOn = true := by decide

theorem witness_GateDecidesInArmed :
    let e := entryAt .reject 3 4 0x7000 0x7100
    let final := { lineRecord with disposition := .delivered }
    e.kind = .reject ∧ e.enabled = true ∧ line0.line.mode = .armed ∧ (line0.station 0 4).windowOpen = false
    ∧ line0.presentAt e.position = some lineRecord ∧ lineRecord.fmt = 0
    ∧ line0.positionOf lineRecord.seq = some e.position ∧ lineRecord.disposition.final = false
    ∧ (lineRecord.verdict = .awaiting ∧ line0.slots[(0 : Fin 4)].header.policy = .reject)
    ∧ (withRecord final).presentAt e.position = some final ∧ (withRecord final).positionOf final.seq = some e.position
    ∧ final.disposition.final = true := by decide

theorem witness_GateDecidesInArmed_faulted :
    let e := entryAt .reject 3 4 0x7000 0x7100
    let s := inMode .faulted
    e.kind = .reject ∧ e.enabled = true ∧ s.line.mode = .faulted ∧ (s.station 0 4).windowOpen = false
    ∧ s.presentAt e.position = some lineRecord ∧ lineRecord.fmt = 0 ∧ s.positionOf lineRecord.seq = some e.position
    ∧ lineRecord.disposition.final = false ∧ lineRecord.faults = 0 := by decide

theorem witness_DeliveryFillsBatch (n : Fin 3) (log : List BatchRecord) (_ : log ∈ [logOf 0, logOf 23, logOf 32]) :
    let s := withBatch (some (countOf (BitVec.ofNat 32 n.val))) log
    s.line.mode ≠ .offline ∧ s.batch.openBatch = some (countOf (BitVec.ofNat 32 n.val))
    ∧ (countOf (BitVec.ofNat 32 n.val)).state = .open ∧ (countOf (BitVec.ofNat 32 n.val)).fields.fmt = lineRecord.fmt
    ∧ lineRecord.disposition = .inLine ∧ s.presentAt 3 = some lineRecord ∧ s.positionOf lineRecord.seq = some 3
    ∧ (countOf (BitVec.ofNat 32 n.val)).fields.count ≠ BitVec.allOnes 32
    ∧ (countOf (BitVec.ofNat 32 n.val)).fields.count.toNat + 1 = n.val + 1
    ∧ (countOf (BitVec.ofNat 32 n.val)).fields.heldSize = 3 := by
  revert n log
  decide

/-- An open and a HELD batch at, below and above held B = 3, with room in the log and without, and another format. -/
theorem witness_DeliveryFillsBatch_held (state : BatchState) (_ : state ∈ [BatchState.open, .held]) (n : Fin 5) :
    let o : OpenBatch := { countOf (BitVec.ofNat 32 n.val) with state := state }
    let s (m : Nat) := withBatch (some o) (logOf m)
    (s 31).batch.openBatch = some o ∧ (s 31).batch.log.length < 32 ∧ ¬ (s 32).batch.log.length < 32
    ∧ o.fields.heldSize = 3 ∧ o.fields.count.toNat = n.val ∧ o.fields.fmt ≠ 1 ∧ (s 31).batch.inBox = 0
    ∧ ({ (s 31) with batch := { (s 31).batch with inBox := 1 } } : State).batch.inBox ≠ 0
    ∧ (s 31).line.mode ≠ .offline ∧ (s 31).record lineRecord.seq = some lineRecord := by
  revert n state
  decide

/-- The record of slot 1 at a boundary with the log full: a HELD batch of any count, and an OPEN one of count 1 or more. -/
theorem witness_DeliveryFillsBatch_mixed (n : Fin 5) :
    let b := { lineRecord with fmt := 1 }
    let o (state : BatchState) : OpenBatch := { countOf (BitVec.ofNat 32 n.val) with state := state }
    let s (state : BatchState) : State := { withRecord b with batch := (withBatch (some (o state)) (logOf 32)).batch }
    (∀ state ∈ [BatchState.open, .held], (s state).line.mode ≠ .offline ∧ (s state).batch.openBatch = some (o state)
      ∧ (o state).fields.fmt ≠ b.fmt ∧ 32 ≤ (s state).batch.log.length ∧ (s state).presentAt 3 = some b
      ∧ (s state).positionOf b.seq = some 3 ∧ (s state).record b.seq = some b
      ∧ (o state).fields.count ≠ BitVec.allOnes 32)
    ∧ b.disposition = .inLine ∧ (o .held).state = .held ∧ (n ≠ 0 → (o .open).fields.count ≠ 0) := by
  revert n
  decide

theorem witness_LostBlankMakesBatchSuspect (run : Fin 2) :
    let s := { line0 with batch := { line0.batch with missRun := run.val } }
    s.line.mode ≠ .offline ∧ s.batch.openBatch = some lineBatch ∧ s.batch.missRun ≤ 1
    ∧ lineRecord.disposition = .inLine ∧ s.presentAt 3 = some lineRecord ∧ s.positionOf lineRecord.seq = some 3 := by
  revert run
  decide

theorem witness_LostBlankMakesBatchSuspect_others (d : Disposition)
    (_ : d ∈ [Disposition.toReject, .flagged, .rejected, .lost, .delivered]) :
    let b := { lineRecord with disposition := d }
    let s := withRecord b
    s.line.mode ≠ .offline ∧ s.batch.openBatch = some lineBatch ∧ s.presentAt 3 = some b
    ∧ s.positionOf b.seq = some 3 ∧ offline0.line.mode = .offline := by
  revert d
  decide

theorem witness_TakeAndPeekBatch :
    Takes line0 .line ∧ line0.batch.log = [] ∧ Takes (withBatch none (logOf 1)) .line
    ∧ (withBatch none (logOf 1)).batch.log = { fields := lineBatch.fields, cause := .full } :: [] := by
  unfold Takes; decide

theorem witness_CloseBatchCloses :
    let s (n : Word) (m : Nat) := withBatch (some (countOf n)) (logOf m)
    Takes (s 1 0) .line ∧ (withBatch none []).batch.openBatch = none ∧ (countOf 0).fields.count = 0
    ∧ (s 2 31).batch.openBatch = some (countOf 2) ∧ (countOf 2).fields.count ≠ 0
    ∧ (s 2 31).batch.log.length < 32 ∧ 32 ≤ (s 2 32).batch.log.length
    ∧ (countOf 2).fields.count.toNat < (countOf 2).fields.heldSize
    ∧ (countOf 3).fields.count.toNat = (countOf 3).fields.heldSize
    ∧ (countOf 3).fields.heldSize < (countOf 4).fields.count.toNat := by unfold Takes; decide

theorem witness_NudgeRunsThePipeline :
    let s := withRegistration { Registration.reset with state := .tracking, heldCmax := 500, heldAmax := 2000 }
    Takes line0 .line ∧ Takes s .line ∧ s.constants = some lineConstants
    ∧ (8193 : Half).toInt = 8193 ∧ (-8193 : Half).toInt = -8193 ∧ (8192 : Half).toInt = 8192
    ∧ (-8192 : Half).toInt = -8192 ∧ line0.registration.state = .off ∧ s.registration.state ≠ .off := by
  unfold Takes; decide

theorem witness_ErrorAndCorrectionAreExact :
    (65535 : Nat) < 65536 ∧ (40 : Int).natAbs ≤ lineFormat.header.deadband
    ∧ lineFormat.header.deadband < (-41 : Int).natAbs
    ∧ 2 * (256 * correctionOf lineFormat.header 41 - 41 * lineFormat.header.gain).natAbs = 256 := by decide

theorem witness_MarkEvaluationsMeasureOrMiss :
    let s (n : Nat) := withRegistration { Registration.reset with state := .tracking, missCount := n, lastSlot := some 0 }
    (s 3).registration.lastSlot = some 0 ∧ (s 3).presentAt 3 = some lineRecord ∧ (s 3).positionOf lineRecord.seq = some 3
    ∧ lineFormat.header.missLimit < min 255 ((s 3).registration.missCount + 1)
    ∧ ¬ lineFormat.header.missLimit < min 255 ((s 2).registration.missCount + 1)
    ∧ (s 255).registration.missCount = 255 ∧ line0.registration.lastSlot ≠ some 0
    ∧ line0.presentAt 3 = some lineRecord ∧ line0.positionOf lineRecord.seq = some 3
    ∧ line0.constants = some lineConstants
    ∧ ¬ lineFormat.header.rejectTolerance < (registrationError 12000 13000).natAbs
    ∧ lineFormat.header.rejectTolerance < (registrationError 12000 13001).natAbs := by decide

theorem witness_TakeTrimEmptiesTrim :
    let s := withRegistration { Registration.reset with contributions := 1 }
    let u := withRegistration { Registration.reset with overrun := true }
    Takes s .drive ∧ 0 < s.registration.contributions ∧ Takes u .drive ∧ u.registration.overrun = true
    ∧ Takes line0 .drive ∧ line0.registration.contributions = 0 ∧ line0.registration.overrun = false
    ∧ (line0.registration.contributions = 0 → line0.registration.trim = 0) := by
  unfold Takes; decide

theorem witness_PrimeStartsAndCompletes :
    let off := { halted0 with gum := { halted0.gum with state := .off } }
    let priming := { halted0 with gum := { state := .priming, standbyTimer := 0, primeTimer := some 1 } }
    Takes offline0 .line ∧ offline0.line.mode ≠ .armed ∧ Takes off .line ∧ off.line.mode = .armed
    ∧ off.gum.state = .off ∧ line0.line.mode = .armed ∧ line0.gum.state ≠ .off ∧ line0.motion ≠ .halted
    ∧ halted0.line.mode = .armed ∧ halted0.gum.state ≠ .off ∧ halted0.motion = .halted ∧ halted0.active = some 0
    ∧ priming.heldInReset = false ∧ priming.gum.state = .priming ∧ priming.constants ≠ none
    ∧ priming.motion = .halted := by unfold Takes; decide

/-- The GUM station's window is open and fired with the record latched, another station's is open. -/
theorem witness_StandbyExpirySpoilsGum :
    let fired : Station := { Station.cleared with windowOpen := true, fired := true, latch := .blank 7 }
    let s := (halted0.updStation 0 2 fun _ => fired).updStation 0 3 fun _ => fired
    s.heldInReset = false ∧ s.gum.state = .ready ∧ s.motion = .halted ∧ SeqsDistinct s
    ∧ s.presentAt 3 = some lineRecord ∧ GumLatched s lineRecord.seq
    ∧ s.entry 0 3 = some (entryAt .inspect 2 3 0x6000 0x6100) ∧ (s.station 0 3).windowOpen = true
    ∧ SeqsDistinct halted0 ∧ ¬ GumLatched halted0 lineRecord.seq := by
  intro fired s
  have one : ∀ k : Fin 64, ∀ b ∈ s.presentAt k, k = 3 := by decide
  have one' : ∀ k : Fin 64, ∀ b ∈ halted0.presentAt k, k = 3 := by decide
  have shut : ∀ (k : Fin 4) (i : Fin 16), (halted0.station k i).windowOpen = false := by decide
  refine ⟨by decide, by decide, by decide, fun j k b b' hj hk _ => (one j b hj).trans (one k b' hk).symm, by decide,
    ⟨0, 2, entryAt .gum 1 2 0x4000 0x5000, by decide⟩, by decide, by decide,
    fun j k b b' hj hk _ => (one' j b hj).trans (one' k b' hk).symm, ?_⟩
  rintro ⟨k, i, e, -, -, h, -⟩
  simp [shut k i] at h

theorem witness_TakeNoticeRemovesOldest :
    let s := { line0 with notices := [{ seq := 7, fmt := 0, stamp := 0 }] }
    Takes line0 .inspection ∧ line0.notices = [] ∧ Takes s .inspection
    ∧ s.notices = { seq := 7, fmt := 0, stamp := 0 } :: [] := by unfold Takes; decide

theorem witness_AttentionLinesFollowTheirOwners :
    ({ line0 with heldInReset := true } : State).heldInReset = true ∧ line0.heldInReset = false := by decide

theorem witness_VerdictsAreAnsweredByTheTable :
    let of (v : Verdict) (d : Disposition) : State := withRecord { lineRecord with verdict := v, disposition := d }
    Takes line0 .inspection ∧ (∀ j : Fin 64, ∀ b ∈ line0.presentAt j, b.seq ≠ 6)
    ∧ line0.positionOf 7 = some 3 ∧ line0.presentAt 3 = some lineRecord ∧ lineRecord.verdict = .awaiting
    ∧ lineRecord.disposition.final = false ∧ (0 : Byte) ≠ 1 ∧ (0 : Byte) ≠ 2
    ∧ (of .missing .cleared).positionOf 7 = some 3 ∧ (of .awaiting .delivered).positionOf 7 = some 3
    ∧ (of .pass .inLine).positionOf 7 = some 3 ∧ (of .skipped .toReject).positionOf 7 = some 3
    ∧ (of .awaiting .delivered).presentAt 3 = some { lineRecord with disposition := .delivered } := by
  unfold Takes; decide

theorem witness_MarkRejectAddsOperator :
    let final := { lineRecord with disposition := .lost }
    Takes line0 .line ∧ (∀ j : Fin 64, ∀ b ∈ line0.presentAt j, b.seq ≠ 8) ∧ line0.positionOf 7 = some 3
    ∧ line0.presentAt 3 = some lineRecord ∧ lineRecord.disposition.final = false
    ∧ (withRecord final).positionOf 7 = some 3 ∧ (withRecord final).presentAt 3 = some final
    ∧ final.disposition.final = true := by unfold Takes; decide

theorem witness_WriteFormatReplacesGroup :
    let held (i : Fin 8) := withLock i { allocated := true, held := true, holder := some .line }
    Takes line0 .line ∧ 4 ≤ (4 : Byte).toNat ∧ (3 : Byte).toNat < 4
    ∧ ¬ (line0.locks[boundLock 3].held = true ∧ line0.locks[boundLock 3].holder = some .line)
    ∧ Takes (held 0) .line ∧ (held 0).locks[boundLock 0].held = true ∧ (held 0).locks[boundLock 0].holder = some .line
    ∧ (held 0).inUse 0 = true ∧ (held 3).locks[boundLock 3].held = true ∧ (held 3).inUse 3 = false
    ∧ (headerOf rawHeader).isSome = true ∧ headerOf { rawHeader with perBox := 100 } = none
    ∧ (entryOf rawEntry).isSome = true ∧ entryOf { rawEntry with offAngle := 0 } = none := by unfold Takes; decide

theorem witness_ReadFormatReportsGroup :
    Takes line0 .drive ∧ 4 ≤ (4 : Byte).toNat ∧ (3 : Byte).toNat < 4 ∧ (16 ≤ (16 : Byte).toNat ∧ (16 : Byte) ≠ 0xFF)
    ∧ 16 ≤ (254 : Byte).toNat ∧ (15 : Byte).toNat < 16 := by unfold Takes; decide

theorem witness_CommitFormatChecks :
    let held (i : Fin 8) := withLock i { allocated := true, held := true, holder := some .line }
    let checks (s : State) (f : Format) :=
      [f.check1, f.check2, f.check3, f.check4, f.check5, f.check6, s.check7 f, f.check8, f.check9]
    Takes (held 0) .line ∧ 4 ≤ (4 : Byte).toNat ∧ (0 : Byte).toNat < 4
    ∧ (held 0).locks[boundLock 0].held = true ∧ (held 0).locks[boundLock 0].holder = some .line
    ∧ ¬ (line0.locks[boundLock 0].held = true ∧ line0.locks[boundLock 0].holder = some .line)
    ∧ (∀ m < 9, (checks (held 0) lineFormat)[m]? = some true)
    ∧ (checks (held 1) State.reset.slots[(1 : Fin 4)])[0]? = some false
    ∧ (let f := { lineFormat with table := setAt lineFormat.table 6 (some (entryAt .window 0 15 0x4000 0x5000)) }
       (checks (held 1) f)[6]? = some false ∧ ∀ m < 6, (checks (held 1) f)[m]? = some true) := by
  unfold Takes; decide

/-- On-crossings: kinds at position 3 under the record, with 15 and 16 notices queued, and requests latched. -/
theorem witness_StationsActOnTheirRecords_on :
    let at3 (kind : Kind) := { line0 with
      slots := setAt line0.slots 0 { lineFormat with table := setAt lineFormat.table 9 (some (entryAt kind 3 2 0 1)) } }
    let queued (n : Nat) := { at3 .inspect with notices := List.replicate n { seq := 7, fmt := 0, stamp := 0 } }
    let owed := { at3 .kick with batch := { line0.batch with kick := true, box := true } }
    (∀ kind ∈ [Kind.window, .patch, .gum, .inspect, .kick, .box],
      (at3 kind).entry 0 9 = some (entryAt kind 3 2 0 1) ∧ kind.isOutput = true
      ∧ ((at3 kind).station 0 9).windowOpen = false ∧ (entryAt kind 3 2 0 1).enabled = true
      ∧ (at3 kind).line.mode = .armed ∧ (at3 kind).presentAt 3 = some lineRecord
      ∧ (at3 kind).positionOf lineRecord.seq = some 3)
    ∧ lineRecord.fmt = 0 ∧ lineRecord.disposition = .inLine ∧ lineRecord.verdict = .awaiting
    ∧ (at3 .gum).gum.state = .ready ∧ (at3 .gum).presentAt 2 = none
    ∧ (queued 15).notices.length < 16 ∧ 16 ≤ (queued 16).notices.length
    ∧ (∀ x ∈ (queued 1).notices, ((queued 1).positionOf x.seq).isSome = true)
    ∧ owed.batch.kick = true ∧ owed.active = some 0 := by decide

/-- Off-crossings: the window of each kind open with the record latched, and a miss run of 0 and of 1. -/
theorem witness_StationsActOnTheirRecords_off :
    let at3 (kind : Kind) (run : Nat) := { line0 with
        slots := setAt line0.slots 0 { lineFormat with table := setAt lineFormat.table 9 (some (entryAt kind 3 2 0 1)) }
      }.updStation 0 9 fun st => { st with windowOpen := true, latch := .blank 7, missRun := run }
    (∀ kind ∈ [Kind.window, .patch, .gum, .inspect, .reject, .kick, .box, .patchCheck, .foldCheck],
      (at3 kind 0).entry 0 9 = some (entryAt kind 3 2 0 1) ∧ ((at3 kind 0).station 0 9).windowOpen = true
      ∧ ((at3 kind 0).station 0 9).latch = .blank lineRecord.seq ∧ (at3 kind 0).presentAt 3 = some lineRecord
      ∧ (at3 kind 0).positionOf lineRecord.seq = some 3)
    ∧ (entryAt .foldCheck 3 2 0 1).enabled = true ∧ lineRecord.fmt = 0
    ∧ ((at3 .foldCheck 1).station 0 9).missRun = 1 ∧ ((at3 .foldCheck 1).station 0 9).seen = false
    ∧ lineRecord.disposition.final = false ∧ (at3 .foldCheck 1).gum.state ≠ .priming := by decide

/-- Off-crossings of FEED, MARK and COUNT with the window open: a gap and a record at position 0; its own record, another
slot's and a gap latched; a disabled station. -/
theorem witness_StationsActOnTheirRecords_inputs :
    let opened (i : Fin 16) (latch : Latch) (s : State) : State :=
      s.updStation 0 i fun st => { st with windowOpen := true, latch := latch, seen := true }
    let first (b : Blank) : State := line0.putAt 0 (some b)
    let own := { lineRecord with seq := 9 }
    let other := { lineRecord with seq := 9, fmt := 1 }
    let last := { lineRecord with seq := 6 }
    let disabled := { entryAt .feed 0 0 0x1000 0x2000 with enabled := false }
    let off : State := { line0 with
      slots := setAt line0.slots 0 { lineFormat with table := setAt lineFormat.table 0 (some disabled) } }
    (opened 0 .gap line0).entry 0 0 = some (entryAt .feed 0 0 0x1000 0x2000)
    ∧ ((opened 0 .gap line0).station 0 0).windowOpen = true ∧ ((opened 0 .gap line0).station 0 0).seen = true
    ∧ line0.active = some 0 ∧ line0.line.mode ≠ .offline ∧ line0.ring.at 0 = none ∧ (first own).ring.at 0 ≠ none
    ∧ (first own).presentAt 0 = some own ∧ own.fmt = 0 ∧ (first other).presentAt 0 = some other ∧ other.fmt ≠ 0
    ∧ (opened 1 (.blank 9) (first own)).entry 0 1 = some (entryAt .mark 0 1 0x2000 0x3000)
    ∧ (opened 5 (.blank 6) line0).entry 0 5 = some (entryAt .count 5 5 0x8000 0x8100)
    ∧ ((opened 5 (.blank 6) (line0.putAt 5 (some last))).station 0 5).latch = .blank last.seq
    ∧ (line0.putAt 5 (some last)).record last.seq = some last ∧ line0.record 6 = none
    ∧ ((opened 5 .gap line0).station 0 5).latch = .gap ∧ line0.active ≠ some 1
    ∧ (opened 0 .gap off).entry 0 0 = some disabled ∧ disabled.kind.isOutput = false ∧ disabled.enabled = false := by
  decide

/-- Off-crossings of an output station, PATCH_CHECK and FOLD_CHECK with a gap latched, and a record that has left. -/
theorem witness_StationsActOnTheirRecords_nothing (latch : Latch) (_ : latch ∈ [Latch.gap, .blank 6]) :
    let at3 (kind : Kind) := { line0 with
        slots := setAt line0.slots 0 { lineFormat with table := setAt lineFormat.table 9 (some (entryAt kind 3 2 0 1)) }
      }.updStation 0 9 fun st => { st with windowOpen := true, fired := true, latch := latch, missRun := 1 }
    ∀ kind ∈ [Kind.window, .patch, .gum, .inspect, .reject, .kick, .box, .patchCheck, .foldCheck],
      (at3 kind).entry 0 9 = some (entryAt kind 3 2 0 1) ∧ ((at3 kind).station 0 9).windowOpen = true
      ∧ ((at3 kind).station 0 9).latch = latch ∧ (at3 kind).record 6 = none
      ∧ ((at3 kind).offCrossing 0 9 (entryAt kind 3 2 0 1) 1).presentAt 3 = some lineRecord
      ∧ (((at3 kind).offCrossing 0 9 (entryAt kind 3 2 0 1) 1).station 0 9).missRun = 1 := by
  revert latch
  decide

theorem witness_ChangeoverActsByTheTable :
    let two := setAt line0.slots 1 lineFormat
    let held : Lock := { allocated := true, held := true, holder := some .drive }
    let s := { line0 with slots := two }
    let u := { offline0 with slots := two }
    Takes s .line ∧ 4 ≤ (4 : Byte).toNat ∧ (1 : Byte).toNat < 4 ∧ line0.slots[(1 : Fin 4)].state ≠ .valid
    ∧ s.slots[(1 : Fin 4)].state = .valid ∧ s.locks[boundLock 1].held = false ∧ s.active = some 0 ∧ s.active ≠ some 1
    ∧ s.line.mode ≠ .offline ∧ (withLock 0 held).locks[boundLock 0].held = true
    ∧ (withLock 0 held).slots[(0 : Fin 4)].state = .valid ∧ Takes u .line ∧ u.line.mode = .offline
    ∧ u.slots[(1 : Fin 4)].state = .valid ∧ u.active ≠ some 1 := by unfold Takes; decide

/-- A standby count below and at the timeout of the new slot, a prime, and an OFFLINE changeover. -/
theorem witness_GumFollowsChangeover :
    let two := setAt line0.slots 1 lineFormat
    let gum (state : GumState) (n : Nat) := { halted0 with
      slots := two, gum := { state := state, standbyTimer := n, primeTimer := none } }
    let u := { offline0 with slots := two }
    line0.firedGum = [] ∧ (gum .ready 4999999).firedGum = [] ∧ (gum .ready 4999999).motion = .halted
    ∧ (gum .ready 4999999).slots[(1 : Fin 4)].hasGum = true
    ∧ ¬ 1 * 5000000 ≤ (gum .ready 4999999).gum.standbyTimer ∧ 1 * 5000000 ≤ (gum .ready 5000000).gum.standbyTimer
    ∧ line0.slots[(1 : Fin 4)].hasGum = false ∧ (gum .priming 0).gum.state = .priming
    ∧ (1 : Byte).toNat < 4 ∧ Takes u .line ∧ u.line.mode = .offline ∧ u.slots[(1 : Fin 4)].state = .valid
    ∧ u.locks[boundLock 1].held = false ∧ u.active ≠ some 1
    ∧ ({ line0 with pendingSlot := some 1 } : State).pendingSlot = some 1 := by unfold Takes; decide

theorem witness_CymModesAndPulses :
    Takes line0 .line ∧ 2 < (3 : Byte).toNat ∧ (2 : Byte).toNat ≤ 2 ∧ line0.heldInReset = false := by
  unfold Takes; decide

theorem witness_LockPoolCommandsAnswer :
    let all := { line0 with locks := Vector.replicate 8 { allocated := true, held := false, holder := none } }
    Takes line0 .line ∧ line0.locks[(4 : Fin 8)].allocated = false
    ∧ (∀ m : Fin 8, 4 ≤ m.val → m < (4 : Fin 8) → line0.locks[m].allocated = true)
    ∧ Takes all .line ∧ (∀ l : Fin 8, 4 ≤ l.val → all.locks[l].allocated = true)
    ∧ (7 : Byte).toNat < 8 ∧ 8 ≤ (8 : Byte).toNat := by unfold Takes; decide

/-- STOP in ARMED with a fired GUM window, an open window that is not fired and a closed one, in a prime and without. -/
theorem witness_StopRaisesThePortsCause :
    let s := (line0.updStation 0 2 fun st => { st with windowOpen := true, fired := true, latch := .blank 7 })
      |>.updStation 0 3 fun st => { st with windowOpen := true, latch := .gap }
    let priming := { s with gum := { state := .priming, standbyTimer := 0, primeTimer := some 1 } }
    let t := after (exec (.stop .inspection) s)
    let u := after (exec (.stop .inspection) { line0 with gum := priming.gum })
    Takes (inMode .faulted) .drive ∧ (inMode .faulted).line.mode ≠ .armed ∧ Takes s .inspection
    ∧ s.line.mode = .armed ∧ s.entry 0 2 = some (entryAt .gum 1 2 0x4000 0x5000)
    ∧ (s.station 0 2).windowOpen = true ∧ (s.station 0 2).fired = true
    ∧ (s.station 0 3).windowOpen = true ∧ (s.station 0 3).fired = false ∧ (s.station 0 4).windowOpen = false
    ∧ s.gum.state ≠ .priming ∧ priming.gum.state = .priming ∧ priming.firedGum ≠ [] ∧ line0.firedGum = []
    ∧ (t.station 0 2).latch = .empty ∧ (t.station 0 2).windowOpen = false ∧ t.station 0 3 = s.station 0 3
    ∧ t.evaluated 0 = true ∧ u.gum.state = .standby ∧ hasBit u.line.events LineEvent.primeAborted.bit = true := by
  unfold Takes; decide

/-- In that prime the record is latched by the fired GUM window and no two records carry one number. -/
theorem witness_StopRaisesThePortsCause_records :
    let s := line0.updStation 0 2 fun st => { st with windowOpen := true, fired := true, latch := .blank 7 }
    SeqsDistinct s ∧ GumLatched s 7 ∧ s.presentAt 3 = some lineRecord ∧ ¬ GumLatched line0 7 ∧ s.presentAt 2 = none := by
  intro s
  have one : ∀ k : Fin 64, ∀ b ∈ s.presentAt k, k = 3 := by decide
  have shut : ∀ (k : Fin 4) (i : Fin 16), (line0.station k i).windowOpen = false := by decide
  refine ⟨fun j k b b' hj hk _ => (one j b hj).trans (one k b' hk).symm,
    ⟨0, 2, entryAt .gum 1 2 0x4000 0x5000, by decide⟩, by decide, ?_, by decide⟩
  rintro ⟨k, i, e, -, -, h, -⟩
  simp [shut k i] at h

theorem witness_ArmAndClear :
    let s := { offline0 with batch := BatchCounter.reset }
    Takes line0 .line ∧ line0.line.mode ≠ .offline ∧ line0.line.mode ≠ .faulted
    ∧ State.reset.line.mode = .offline ∧ State.reset.constants = none
    ∧ Takes s .line ∧ s.line.mode = .offline ∧ s.constants ≠ none ∧ s.active = some 0 ∧ s.batch.openBatch = none
    ∧ offline0.batch.openBatch ≠ none ∧ ({ offline0 with active := none } : State).active = none
    ∧ Takes (inMode .faulted) .line ∧ (inMode .faulted).line.mode = .faulted := by unfold Takes; decide

theorem witness_DisarmEmptiesTheLine :
    Takes offline0 .line ∧ offline0.line.mode = .offline ∧ line0.line.mode ≠ .offline ∧ line0.motion ≠ .halted
    ∧ Takes halted0 .line ∧ halted0.line.mode ≠ .offline ∧ halted0.motion = .halted ∧ halted0.active = some 0
    ∧ halted0.gum.state ≠ .priming := by unfold Takes; decide

theorem witness_ClearChordWorks :
    let low := { line0 with opaHigh := false, opbHigh := false }
    line0.heldInReset = false ∧ line0.constants = some lineConstants ∧ lineConstants.chordEnable = true
    ∧ line0.opaHigh = true ∧ line0.line.chordState = .ready
    ∧ ({ line0 with line := { line0.line with chordState := .spent } } : State).line.chordState = .spent
    ∧ low.opaHigh = false ∧ low.heldInReset = false ∧ low.constants = some lineConstants
    ∧ (true ≠ false ∧ line0.opbHigh ≠ false)
    ∧ ({ low with line := { low.line with chordTimer := some 1999999 } } : State).line.chordTimer ≠ none := by decide

/-- The chord with the enable off, and with the constants not written. -/
theorem witness_ClearChordWorks_off :
    let off : State := { line0 with constants := some { lineConstants with chordEnable := false } }
    off.heldInReset = false ∧ (∀ c ∈ off.constants, c.chordEnable = false) ∧ off.opaHigh ≠ false
    ∧ off.line.chordState = .ready ∧ State.reset.constants = none ∧ State.reset.heldInReset = false
    ∧ State.reset.opaHigh ≠ false ∧ off.line.chordTimer = none := by decide

theorem witness_SoftResetKeepsAndClears :
    Takes line0 .line ∧ line0.line.mode = .armed ∧ Takes offline0 .line ∧ offline0.line.mode ≠ .armed
    ∧ ({ offline0 with opaHigh := false } : State).opaHigh = false
    ∧ offline0.cells[(0 : Fin 16)].config.mode = .edgeIn
    ∧ offline0.entry 0 2 = some (entryAt .gum 1 2 0x4000 0x5000) := by unfold Takes; decide

/-- Each of the three resets on a line with a frame in progress: what it answers, at clauses of the tables. -/
theorem witness_PowerOnAndRstnReset :
    let s := { (withCell 0 { cellOf .edgeIn with pinHigh := true, event := true, filterTimer := some 3 }).chipSelect .drive
      with opaHigh := false }
    let power := after (exec (.powerOn true) s)
    let held := after (exec .rstnReset s)
    s.frames.get .drive ≠ .idle ∧ s.frames.get .line = .idle
    ∧ power.frames.get .drive = .abandoned ∧ power.constants = none ∧ power.line.chordState = .spent
    ∧ held.frames.get .drive = .abandoned ∧ held.frames.get .line = .idle ∧ held.constants = some lineConstants
    ∧ held.heldInReset = true ∧ held.cells[(0 : Fin 16)].level = true ∧ held.cells[(0 : Fin 16)].event = false
    ∧ held.cells[(0 : Fin 16)].filterTimer = none ∧ (after (exec .rstnRelease held)).heldInReset = false := by decide

/-- The least and greatest values of SET CONSTANTS that are taken; one below and one above each range. -/
theorem witness_SetConstantsRestarts :
    let inside (r : RawConstants) : Prop := ¬ (r.e.toNat < 2000 ∨ 40000 < r.e.toNat ∨ 1 < r.direction.toNat
      ∨ (r.z0.toNat ≠ 0xFFFF ∧ r.e.toNat ≤ r.z0.toNat) ∨ r.p.toNat < 4 ∨ 64 < r.p.toNat
      ∨ 1 < r.chordEnable.toNat ∨ (15 < r.purgeCell.toNat ∧ r.purgeCell.toNat ≠ 0xFF))
    Takes offline0 .line ∧ offline0.line.mode = .offline ∧ line0.line.mode ≠ .offline
    ∧ inside rawConstants ∧ inside { rawConstants with e := 40000, z0 := 0xFFFF, p := 64, purgeCell := 0xFF }
    ∧ ¬ inside { rawConstants with e := 1999 } ∧ ¬ inside { rawConstants with e := 40001 }
    ∧ ¬ inside { rawConstants with z0 := 2000 } ∧ ¬ inside { rawConstants with p := 3 }
    ∧ ¬ inside { rawConstants with p := 65 } ∧ ¬ inside { rawConstants with purgeCell := 16 }
    ∧ (∀ (k : Fin 4) (i : Fin 16), ∀ e ∈ offline0.slots[k].table[i], e.position.val < rawConstants.p.toNat)
    ∧ (∃ e ∈ offline0.slots[(0 : Fin 4)].table[(5 : Fin 16)], (5 : Nat) ≤ e.position.val)
    ∧ offline0.slots[(0 : Fin 4)].state = .valid := by
  unfold Takes
  refine ⟨by decide, by decide, by decide, by decide, by decide, by decide, by decide, by decide, by decide, by decide,
    by decide, by decide, ⟨entryAt .count 5 5 0x8000 0x8100, by decide⟩, by decide⟩

/-- A running line that keeps every promise: the hypotheses of the statements on steps. -/
theorem witness_StepKeeps :
    ConstantsInRange line0 ∧ AngleInRange line0 ∧ TimersInRange line0 ∧ WindowsLegal line0 ∧ BuffersInRoom line0
    ∧ RegistrationInRange line0 ∧ LocksLegal line0 ∧ OfflineEmpty line0 ∧ OutsideLineGaps line0 ∧ SeqsInCutOrder line0
    ∧ RecordsClean line0 ∧ BatchNumbersSuccessive line0 ∧ InUseValid line0 := by
  refine ⟨by unfold ConstantsInRange; decide, by show 100 < 20000 ∧ 0 ≤ 20000; decide, by unfold TimersInRange; decide,
    fun p => by cases p <;> (unfold WindowLegal; decide), by unfold BuffersInRoom; decide,
    by unfold RegistrationInRange; decide, by unfold LocksLegal LockLegal; decide, by unfold OfflineEmpty; decide,
    by unfold OutsideLineGaps; decide, by unfold SeqsInCutOrder; decide, ?_, rfl, by unfold InUseValid; decide⟩
  have h : ∀ k : Fin 64, ∀ b ∈ line0.ring.at k, b.faults = 0 := by decide
  exact fun k b hb _ => h k b hb

/-- The line with its record at the INSPECT station just passed and its notice queued. -/
def noticed0 : State := { line0 with notices := [{ seq := 7, fmt := 0, stamp := 0 }] }

theorem witness_StepKeepsRingLaws :
    ConstantsInRange noticed0 ∧ OfflineEmpty noticed0 ∧ OutsideLineGaps noticed0 ∧ SeqsInCutOrder noticed0
    ∧ InUseValid noticed0 ∧ SingleInspect noticed0 ∧ NoticesLawful noticed0 ∧ noticed0.notices ≠ [] := by
  have one : ∀ p : Fin 64, ∀ b ∈ noticed0.presentAt p, p = 3 ∧ b.fmt = 0 := by decide
  have only : ∀ k : Fin 4, noticed0.slots[k].state = .valid → k = 0 := by decide
  have inspects : ∀ i : Fin 16, ∀ e ∈ noticed0.entry 0 i, e.kind = .inspect → i = 3 ∧ e.position = 2 := by decide
  refine ⟨by unfold ConstantsInRange; decide, by unfold OfflineEmpty; decide, by unfold OutsideLineGaps; decide,
    by unfold SeqsInCutOrder; decide, by unfold InUseValid; decide, ?_, ⟨?_, ?_, ?_⟩, by decide⟩
  · intro k i j e e' hk hi hj he he'
    cases only k hk
    exact (inspects i e hi he).1.trans (inspects j e' hj he').1.symm
  · intro n hn
    cases List.mem_singleton.mp hn
    exact ⟨3, lineRecord, by decide⟩
  · exact List.pairwise_singleton _ _
  · intro n _ p b hp _ i e hi he
    obtain ⟨rfl, hb⟩ := one p b hp
    rw [hb] at hi
    rw [(inspects i e hi he).2]
    exact .inl (by decide)

/-- The step that the statements on steps are about: a command, and an empty queue's µs. -/
theorem witness_StepKeeps_step (c : Instr) :
    (∃ t, step { line0 with pending := [c] } = .next t) ∧ ∃ t, step line0 = .next t := by
  cases c <;> exact ⟨⟨_, rfl⟩, ⟨_, rfl⟩⟩

theorem witness_RecordsKeepTheirFate :
    line0.presentAt 3 = some lineRecord
    ∧ (after (exec .forwardCount (atCount 19999 0))).presentAt 4 = some lineRecord
    ∧ (withRecord { lineRecord with disposition := .rejected }).presentAt 3
        = some { lineRecord with disposition := .rejected }
    ∧ ({ lineRecord with disposition := .rejected } : Blank).disposition.final = true := by decide

end Sys2Proof.Tests
end

/-!
PROOF. The report of a line cell (section 10.5) and the two commands that answer it, PEEK CELL and TAKE CELL (R21).
-/

namespace Sys2Proof.Proofs

open Sys2Proof Sys2Proof.Machine Sys2Proof.Safety Sys2Proof.Laws

/-! ### A byte as the number of a cell -/

theorem indexOf_of_lt {n : Nat} {b : Byte} (h : b.toNat < n) : indexOf n b = some ⟨b.toNat, h⟩ := dif_pos h

theorem indexOf_of_le {n : Nat} {b : Byte} (h : n ≤ b.toNat) : indexOf n b = none := dif_neg h.not_gt

/-! ### The coded values of a cell's configuration -/

theorem cellMode_codedFrom0 : CodedFrom0 CellMode.value [.off, .edgeIn, .levelIn, .windowOut, .pulseOut] :=
  ⟨by decide, fun m => by cases m <;> decide⟩

theorem polarity_codedFrom0 : CodedFrom0 Polarity.value [.activeHigh, .activeLow] :=
  ⟨by decide, fun p => by cases p <;> decide⟩

theorem edgeSelect_codedFrom0 : CodedFrom0 EdgeSelect.value [.rising, .falling, .both] :=
  ⟨by decide, fun e => by cases e <;> decide⟩

theorem safeLevel_codedFrom0 : CodedFrom0 SafeLevel.value [.inactive, .active] :=
  ⟨by decide, fun l => by cases l <;> decide⟩

/-! ### The report -/

/-- A cell's report byte by byte, in the order of section 10.5. -/
theorem cellLayout_eq (s : State) (i : Fin 16) :
    s.cellLayout i =
      [BitVec.ofNat 8 i.val, s.cells[i].config.mode.value, s.cells[i].config.polarity.value,
        s.cells[i].config.edgeSelect.value,
        byteOf (BitVec.ofNat 16 s.cells[i].config.filter) 0, byteOf (BitVec.ofNat 16 s.cells[i].config.filter) 1,
        byteOf (BitVec.ofNat 16 s.cells[i].config.width) 0, byteOf (BitVec.ofNat 16 s.cells[i].config.width) 1,
        s.cells[i].config.safeLevel.value, flagByte (s.cellLevel i),
        byteOf (s.cellZ i).stamp 0, byteOf (s.cellZ i).stamp 1, byteOf (s.cellZ i).angle 0, byteOf (s.cellZ i).angle 1,
        flagByte s.cells[i].event, flagByte s.cells[i].overrun] := rfl

/-- The report of the cell a byte numbers starts with that byte. -/
theorem cellLayout_number (s : State) {cell : Byte} (h : cell.toNat < 16) :
    (s.cellLayout ⟨cell.toNat, h⟩)[0]? = some cell := by
  simp [cellLayout_eq]

/-! ### The commands -/

section
variable {s : State} {p : Port} {cell : Byte}

theorem exec_peekCell (ht : Takes s p) :
    exec (.peekCell p cell) s = .next ((s.peekCell cell).1.respond p (s.peekCell cell).2) :=
  takeFrame_of_takes ht (State.peekCell cell)

theorem exec_takeCell (ht : Takes s .line) :
    exec (.takeCell cell) s = .next ((s.takeCell cell).1.respond .line (s.takeCell cell).2) :=
  takeFrame_of_takes ht (State.takeCell cell)

theorem peekCell_of_lt (h : cell.toNat < 16) :
    s.peekCell cell = (s, { status := .ok, payload := s.cellLayout ⟨cell.toNat, h⟩ }) := by
  simp only [State.peekCell, indexOf_of_lt h]

theorem peekCell_of_le (h : 16 ≤ cell.toNat) : s.peekCell cell = (s, .bare .range) := by
  simp only [State.peekCell, indexOf_of_le h]

theorem takeCell_of_lt (h : cell.toNat < 16) :
    s.takeCell cell = (s.updCell ⟨cell.toNat, h⟩ fun c => { c with event := false, overrun := false },
      { status := .ok, payload := s.cellLayout ⟨cell.toNat, h⟩ }) := by
  simp only [State.takeCell, indexOf_of_lt h]

theorem takeCell_of_le (h : 16 ≤ cell.toNat) : s.takeCell cell = (s, .bare .range) := by
  simp only [State.takeCell, indexOf_of_le h]

end

/-- Settles O13. A number below 16 names a cell: the report is read off its 16 bytes, and TAKE CELL's change is the
update of that one cell. Any other number gives no index, and both commands refuse it with RANGE (R21). -/
theorem peekAndTakeCell : Obligations.PeekAndTakeCell := by
  intro p cell s ht
  constructor
  · intro h i c l
    have layout : l = _ := cellLayout_eq s i
    have peek : exec (.peekCell p cell) s = .next (s.respond p { status := .ok, payload := l }) := by
      rw [exec_peekCell ht, peekCell_of_lt h]
    have take : p = .line → exec (.takeCell cell) s
        = .next (State.respond (s.updCell i fun c => { c with event := false, overrun := false })
            .line { status := .ok, payload := l }) := by
      rintro rfl
      rw [exec_takeCell ht, takeCell_of_lt h]
    refine ⟨?length, cellLayout_number s h, ?mode, ?polarity, ?edgeSelect, ?filter, ?width, ?safeLevel, ?level, ?stamp,
      ?angle, ?event, ?overrun, cellMode_codedFrom0, polarity_codedFrom0, edgeSelect_codedFrom0, safeLevel_codedFrom0,
      peek, take⟩
    all_goals rw [layout]; rfl
  · intro h
    constructor
    · rw [exec_peekCell ht, peekCell_of_le h, Response.bare]
    · rintro rfl
      rw [exec_takeCell ht, takeCell_of_le h, Response.bare]

end Sys2Proof.Proofs

/-!
PROOF. The masters' reads of the tracking ring (section 2.6): the entry of a record (section 10.5), READ SEQ (R36), SET
WINDOW (R34) and READ NEXT (R35).
-/

namespace Sys2Proof.Proofs

open Sys2Proof Sys2Proof.Machine Sys2Proof.Safety Sys2Proof.Laws

/-! ### Bits of the bytes of an entry -/

theorem getLsbD_byteOf {n : Nat} (x : BitVec n) (k i : Nat) :
    (byteOf x k).getLsbD i = (decide (i < 8) && x.getLsbD (8 * k + i)) := by
  simp [byteOf]

/-- The ops byte: bit `o.bit` says whether `o` is in the set, and no other bit is set. -/
theorem opsByte_spec (ops : OpSet) :
    (ops.setWidth 8).toNat < 64 ∧ ∀ o : Op, (ops.setWidth 8).getLsbD o.bit = hasBit ops o.bit := by
  constructor
  · rw [BitVec.toNat_setWidth_of_le (by decide)]
    exact ops.isLt
  · intro o
    have inByte : o.bit < 8 := (op_bit_lt o).trans (by decide)
    simp [hasBit, inByte]

/-- The low byte of the fault set holds the members of bits 0 to 7. -/
theorem faultsLow_spec (faults : FaultSet) (f : BlankFault) (h : f.bit < 8) :
    (byteOf (faults.setWidth 16) 0).getLsbD f.bit = hasBit faults f.bit := by
  have inField : f.bit < 16 := h.trans (by decide)
  rw [getLsbD_byteOf]
  simp [hasBit, h, inField]

/-- The high byte of the fault set holds the members from bit 8 on, and no other bit is set. -/
theorem faultsHigh_spec (faults : FaultSet) :
    (byteOf (faults.setWidth 16) 1).toNat < 32
    ∧ ∀ f : BlankFault, 8 ≤ f.bit → (byteOf (faults.setWidth 16) 1).getLsbD (f.bit - 8) = hasBit faults f.bit := by
  constructor
  · have below : faults.toNat < 8192 := faults.isLt
    simp only [byteOf, BitVec.toNat_setWidth, BitVec.toNat_ushiftRight, Nat.shiftRight_eq_div_pow]
    omega
  · intro f h
    have below := blankFault_bit_lt f
    have inByte : f.bit - 8 < 8 := by omega
    have inField : f.bit < 16 := by omega
    have back : 8 + (f.bit - 8) = f.bit := by omega
    rw [getLsbD_byteOf]
    simp [hasBit, inByte, back, inField]

/-- The presence byte: bits 0 to 2 are its three flags, and no other bit is set. -/
theorem presenceByte_spec (regErr failCode batch : Bool) :
    let x := flagByte regErr ||| (flagByte failCode <<< 1) ||| (flagByte batch <<< 2)
    x.toNat < 8 ∧ x.getLsbD 0 = regErr ∧ x.getLsbD 1 = failCode ∧ x.getLsbD 2 = batch := by
  revert regErr failCode batch
  decide

/-! ### The entry of a record -/

/-- A record's entry byte by byte, in the order of section 10.5. -/
theorem layout_eq (position : Nat) (b : Blank) :
    b.layout position =
      [1, BitVec.ofNat 8 position, byteOf b.seq 0, byteOf b.seq 1, byteOf b.seq 2, byteOf b.seq 3,
        BitVec.ofNat 8 b.fmt.val, b.ops.setWidth 8,
        byteOf (b.faults.setWidth 16) 0, byteOf (b.faults.setWidth 16) 1,
        flagByte b.regErr.isSome ||| (flagByte b.failCode.isSome <<< 1) ||| (flagByte b.batch.isSome <<< 2),
        byteOf (BitVec.ofInt 16 (b.regErr.getD 0)) 0, byteOf (BitVec.ofInt 16 (b.regErr.getD 0)) 1,
        b.verdict.value, b.failCode.getD 0, b.disposition.value,
        byteOf (b.batch.getD 0) 0, byteOf (b.batch.getD 0) 1, byteOf (b.batch.getD 0) 2, byteOf (b.batch.getD 0) 3] :=
  rfl

theorem entryFields_layout (position : Nat) (b : Blank) : EntryFields position b (b.layout position) := by
  rw [layout_eq]
  refine ⟨rfl, rfl, rfl, rfl, rfl, ?ops, ?faultsLow, ?faultsHigh, ?presence, rfl, rfl, rfl, rfl, rfl⟩
  case ops =>
    rintro _ ⟨⟩
    exact opsByte_spec b.ops
  case faultsLow =>
    rintro _ ⟨⟩
    exact faultsLow_spec b.faults
  case faultsHigh =>
    rintro _ ⟨⟩
    exact faultsHigh_spec b.faults
  case presence =>
    rintro _ ⟨⟩
    exact presenceByte_spec b.regErr.isSome b.failCode.isSome b.batch.isSome

theorem entryCodes : EntryCodes :=
  ⟨⟨by decide, fun o => by cases o <;> decide⟩, ⟨by decide, fun f => by cases f <;> decide⟩,
    ⟨by decide, fun v => by cases v <;> decide⟩, ⟨by decide, fun d => by cases d <;> decide⟩⟩

/-! ### The commands -/

section
variable {s : State} {p : Port}

theorem exec_readSeq {seq : Word} (ht : Takes s p) :
    exec (.readSeq p seq) s = .next ((s.readSeq seq).1.respond p (s.readSeq seq).2) :=
  takeFrame_of_takes ht (State.readSeq seq)

theorem exec_setWindow {first last : Byte} (ht : Takes s p) :
    exec (.setWindow p first last) s
      = .next ((s.setWindow p first last).1.respond p (s.setWindow p first last).2) :=
  takeFrame_of_takes ht (State.setWindow p first last)

theorem exec_readNext (ht : Takes s p) : exec (.readNext p) s = .next ((s.readNext p).1.respond p (s.readNext p).2) :=
  takeFrame_of_takes ht (State.readNext p)

theorem readSeq_of_positionOf_some {seq : Word} {k : Fin 64} (h : s.positionOf seq = some k) :
    s.readSeq seq = (s, { status := .ok, payload := entryLayout k.val (s.presentAt k) }) := by
  simp only [State.readSeq, h]

theorem readSeq_of_positionOf_none {seq : Word} (h : s.positionOf seq = none) :
    s.readSeq seq = (s, .bare .notTracked) := by
  simp only [State.readSeq, h]

theorem setWindow_of_le {first last : Byte} (h : first.toNat ≤ last.toNat) (hl : last.toNat ≤ s.lineLength - 1) :
    s.setWindow p first last
      = (s.putWindow p { first := first.toNat, last := last.toNat, pointer := first.toNat }, .bare .ok) :=
  if_pos ⟨h, hl⟩

theorem setWindow_of_lt {first last : Byte} (h : last.toNat < first.toNat ∨ s.lineLength - 1 < last.toNat) :
    s.setWindow p first last = (s, .bare .range) :=
  if_neg (by omega)

/-- The limit of a window (R34): P − 1, or 63 before the constants are written. -/
theorem lineLength_sub_one (s : State) :
    s.lineLength - 1 = match s.constants with | some c => c.p - 1 | none => 63 := by
  cases h : s.constants <;> simp [State.lineLength, h]

theorem readNext_of_pointer {k : Fin 64} (h : (s.ring.windows.get p).pointer = k.val) :
    s.readNext p = (s.putWindow p (s.ring.windows.get p).advance,
      { status := .ok, payload := entryLayout k.val (s.presentAt k) }) := by
  simp [State.readNext, h]

end

/-- A pointer within its window stays within it when it moves on (R35). -/
theorem advance_within {w : ReadWindow} (h : w.first ≤ w.pointer) (hl : w.pointer ≤ w.last) :
    w.first ≤ w.advance.pointer ∧ w.advance.pointer ≤ w.last := by
  unfold ReadWindow.advance
  dsimp only
  split <;> omega

/-- Settles O12. A number that one present record alone carries is looked up at its position, a number that no present
record carries is not found (R25), and READ SEQ answers by that lookup (R36). -/
theorem readSeqAnswers : Obligations.ReadSeqAnswers := by
  intro p seq s ht
  refine ⟨?_, ?_, fun k b => entryFields_layout k.val b, entryCodes⟩
  · intro k b present number unique
    have found : s.positionOf seq = some k := positionOf_eq_some present number unique
    rw [exec_readSeq ht, readSeq_of_positionOf_some found, present, entryLayout]
  · intro absent
    have missing : s.positionOf seq = none := positionOf_none.mpr absent
    rw [exec_readSeq ht, readSeq_of_positionOf_none missing, Response.bare]

/-- Settles O11. The two clauses of SET WINDOW are the two sides of its one test (R34); READ NEXT answers the entry at the
pointer and puts the window advanced (R35); a head advance keeps the windows, as it keeps the rest of the setup. -/
theorem windowCommands : Obligations.WindowCommands := by
  refine ⟨?setWindow, ?readNext, fun s => (headAdvance_spec s).1.windows, fun k b => entryFields_layout k.val b,
    entryCodes⟩
  case setWindow =>
    intro p first last s ht limit
    have atLimit : s.lineLength - 1 = limit := lineLength_sub_one s
    constructor
    · intro ordered below
      rw [exec_setWindow ht, setWindow_of_le ordered (atLimit ▸ below)]
      rfl
    · intro outside
      rw [exec_setWindow ht, setWindow_of_lt (atLimit ▸ outside), Response.bare]
  case readNext =>
    rintro p k w s ht rfl pointed next
    constructor
    · rw [exec_readNext ht, readNext_of_pointer pointed]
      cases s.presentAt k <;> rfl
    · exact advance_within

end Sys2Proof.Proofs

/-!
PROOF. The fault addition rule (R30).
-/

namespace Sys2Proof.Proofs

open Sys2Proof Sys2Proof.Machine Sys2Proof.Safety Sys2Proof.Laws

/-- A record that is not final takes the fault, and its disposition moves by the table of R30. -/
theorem addFault_of_open {b : Blank} (o : b.disposition.final = false) (f : BlankFault) :
    b.addFault f = { b with faults := addBit b.faults f.bit, disposition := b.disposition.faulted } := by
  simp [Blank.addFault, o]

theorem addBit_addBit_comm {n : Nat} (s : BitVec n) (i j : Nat) : addBit (addBit s i) j = addBit (addBit s j) i := by
  simp only [addBit, BitVec.or_assoc, BitVec.or_comm (BitVec.twoPow n i)]

/-- Fault additions commute: a final record takes neither fault, any other takes both and stays open in between. -/
theorem addFault_comm (b : Blank) (f g : BlankFault) : (b.addFault f).addFault g = (b.addFault g).addFault f := by
  cases o : b.disposition.final with
  | true => simp only [addFault_final o]
  | false =>
    rw [addFault_of_open (addFault_open f o), addFault_of_open (addFault_open g o), addFault_of_open o,
      addFault_of_open o, addBit_addBit_comm]

/-- Settles O22, by the two cases of R30: a final record is left as it is, any other takes the fault and moves. The
empty-fault law is the one every change of a record keeps. -/
theorem faultAdditionTable : Obligations.FaultAdditionTable := by
  intro f b
  refine ⟨?final, ?openRecord, addFault_comm b f, (evolves_addFault f b).clean⟩
  case final =>
    intro h
    have closed : b.disposition.final = true := by
      rcases h with h | h | h <;> rw [h] <;> rfl
    exact addFault_final closed f
  case openRecord =>
    rintro d rfl h
    have o : b.disposition.final = false := by
      rcases h with h | h | h | h <;> rw [h] <;> rfl
    have moved : b.disposition.faulted
        = if b.disposition = .inLine ∨ b.disposition = .toReject then .toReject else .flagged := by
      rcases h with h | h | h | h <;> rw [h] <;> rfl
    rw [addFault_of_open o]
    exact ⟨moved, fun g => addFault_set_mem b.faults f g, rfl⟩

end Sys2Proof.Proofs

/-!
PROOF. The lines to the masters and CYM follow the state they report (R84, R104, R149, R150, R160, R167).
-/

namespace Sys2Proof.Proofs

open Sys2Proof Sys2Proof.Machine Sys2Proof.Safety Sys2Proof.Laws

/-! ### A set held as bits is empty exactly when it has no member -/

theorem ne_zero_iff_hasBit {n : Nat} {x : BitVec n} : x ≠ 0 ↔ ∃ i < n, hasBit x i = true := by
  constructor
  · intro nonzero
    by_contra none
    push Not at none
    exact nonzero (BitVec.eq_of_getLsbD_eq fun i h => by simpa [hasBit] using none i h)
  · rintro ⟨i, -, set⟩ rfl
    simp [hasBit] at set

/-- Every bit of the event set stands for a line event (R171). -/
theorem exists_lineEvent_bit : ∀ i < 7, ∃ e : LineEvent, e.bit = i
  | 0, _ => ⟨.regLost, rfl⟩
  | 1, _ => ⟨.regLimit, rfl⟩
  | 2, _ => ⟨.gumStandby, rfl⟩
  | 3, _ => ⟨.primeDone, rfl⟩
  | 4, _ => ⟨.primeAborted, rfl⟩
  | 5, _ => ⟨.logHigh, rfl⟩
  | 6, _ => ⟨.boxClosed, rfl⟩

/-- Every bit of the cause set stands for a fault cause (R171). -/
theorem exists_cause_bit : ∀ i < 7, ∃ c : Cause, c.bit = i
  | 0, _ => ⟨.jamFold, rfl⟩
  | 1, _ => ⟨.jamCount, rfl⟩
  | 2, _ => ⟨.trackLost, rfl⟩
  | 3, _ => ⟨.indexSlip, rfl⟩
  | 4, _ => ⟨.stopL, rfl⟩
  | 5, _ => ⟨.stopI, rfl⟩
  | 6, _ => ⟨.stopD, rfl⟩

/-- A set of members that own its bits is not empty exactly when it has a member. -/
theorem ne_zero_iff_member {α : Type} {n : Nat} {bit : α → Nat} (lt : ∀ a, bit a < n) (owned : ∀ i < n, ∃ a, bit a = i)
    (x : BitVec n) : x ≠ 0 ↔ ∃ a, hasBit x (bit a) = true := by
  rw [ne_zero_iff_hasBit]
  constructor
  · rintro ⟨i, h, set⟩
    obtain ⟨a, rfl⟩ := owned i h
    exact ⟨a, set⟩
  · rintro ⟨a, set⟩
    exact ⟨bit a, lt a, set⟩

theorem events_ne_zero_iff (events : EventSet) : events ≠ 0 ↔ ∃ e : LineEvent, hasBit events e.bit = true :=
  ne_zero_iff_member lineEvent_bit_lt exists_lineEvent_bit events

theorem causes_ne_zero_iff (causes : CauseSet) : causes ≠ 0 ↔ ∃ c : Cause, hasBit causes c.bit = true :=
  ne_zero_iff_member cause_bit_lt exists_cause_bit causes

/-! ### The lines -/

section
variable {s : State}

theorem atnInspection_iff (running : s.heldInReset = false) : s.atnInspection = true ↔ s.notices ≠ [] := by
  simp [State.atnInspection, running]

theorem atnDrive_iff (running : s.heldInReset = false) :
    s.atnDrive = true ↔ 0 < s.registration.contributions ∨ s.registration.overrun = true := by
  simp [State.atnDrive, running]

theorem atnLine_iff (running : s.heldInReset = false) :
    s.atnLine = true ↔ (∃ e : LineEvent, hasBit s.line.events e.bit = true)
      ∨ (∃ c : Cause, hasBit s.line.causes c.bit = true) ∨ s.batch.log ≠ [] := by
  rw [← events_ne_zero_iff, ← causes_ne_zero_iff]
  simp [State.atnLine, running, or_assoc]

theorem stopRequest_iff (running : s.heldInReset = false) :
    s.stopRequest = true ↔ s.line.mode = .faulted ∨ 28 ≤ s.batch.log.length := by
  change _ ↔ _ ∨ stopLevel ≤ _
  simp [State.stopRequest, running]

theorem cymHigh_iff (running : s.heldInReset = false) :
    s.cymHigh = true ↔ s.cym.mode ≠ .off ∧ (s.cym.pulse.isSome = true ∨ s.cym.hold = true) := by
  simp [State.cymHigh, running]

/-- A part held in reset asserts no line (R167). -/
theorem lines_low_of_held (held : s.heldInReset = true) :
    s.atnInspection = false ∧ s.atnDrive = false ∧ s.atnLine = false ∧ s.stopRequest = false ∧ s.cymHigh = false := by
  simp [State.atnInspection, State.atnDrive, State.atnLine, State.stopRequest, State.cymHigh, held]

end

/-- Settles O36, line by line: each is the state it reports, and low in a part held in reset. -/
theorem attentionLinesFollowTheirOwners : Obligations.AttentionLinesFollowTheirOwners := by
  intro s
  refine ⟨lines_low_of_held, fun running => ?_⟩
  exact ⟨atnInspection_iff running, atnDrive_iff running, atnLine_iff running, stopRequest_iff running,
    cymHigh_iff running⟩

end Sys2Proof.Proofs

/-!
PROOF. The correction pipeline of the registration unit (R76 to R79), the command NUDGE (R80) and the MARK evaluation of
a record (R70 to R75).
-/

namespace Sys2Proof.Proofs

open Sys2Proof Sys2Proof.Machine Sys2Proof.Safety Sys2Proof.Laws

/-! ### Stages 6 to 9 -/

/-- The correction that stage 6 leaves, under the held limits (R76). -/
def limitedCorrection (v : Int) (r : Registration) : Int := clampTo r.heldCmax v

/-- The trim total that stage 7 leaves (R77). -/
def newTotal (v : Int) (r : Registration) : Int := clampTo r.heldAmax (r.total + limitedCorrection v r)

/-- Stage 7 cuts the correction (R77). -/
abbrev Cut (v : Int) (r : Registration) : Prop := newTotal v r - r.total ≠ limitedCorrection v r

/-- What stage 8 divides by 65,536 (R78). -/
def numerator (e : Nat) (v : Int) (r : Registration) : Int := (newTotal v r - r.total) * (e : Int) + r.residue

/-- The counts that stage 8 gives (R78). -/
def newCounts (e : Nat) (v : Int) (r : Registration) : Int := (numerator e v r).tdiv 65536

/-- The registration unit after stages 6 to 9 on a correction, with `e` counts per revolution (R76 to R79). -/
def corrected (e : Nat) (v : Int) (r : Registration) : Registration :=
  { r with
    total := newTotal v r
    residue := numerator e v r - newCounts e v r * 65536
    trim := clampTo 32767 (r.trim + newCounts e v r)
    overrun := r.overrun || decide (r.trim + newCounts e v r < -32767 ∨ 32767 < r.trim + newCounts e v r)
    contributions := min 255 (r.contributions + 1)
    limit :=
      if Cut v r then true
      else if -(r.heldAmax : Int) < newTotal v r ∧ newTotal v r < r.heldAmax then false else r.limit }

theorem natAbs_lt_iff_between (x : Int) (n : Nat) : x.natAbs < n ↔ -(n : Int) < x ∧ x < n := by omega

theorem lt_natAbs_iff_outside (x : Int) (n : Nat) : n < x.natAbs ↔ x < -(n : Int) ∨ (n : Int) < x := by omega

/-- The model's stages one after another are `corrected`. -/
theorem stages_eq_corrected (e : Nat) (v : Int) (r : Registration) :
    let clamped := r.totalClamp (clampTo r.heldCmax v)
    let converted := clamped.1.convert e clamped.2.1
    converted.1.fold converted.2 = corrected e v r ∧ clamped.2.2 = decide (Cut v r) := by
  refine ⟨?_, rfl⟩
  simp only [Registration.totalClamp, Registration.convert, Registration.fold, corrected, natAbs_lt_iff_between,
    lt_natAbs_iff_outside]
  rfl

/-- Stages 6 to 9 change the registration unit, and set REG_LIMIT where stage 7 cuts (R76 to R79). -/
theorem applyCorrection_eq {s : State} {c : Constants} (written : s.constants = some c) (v : Int) :
    s.applyCorrection v = { s with
      registration := corrected c.e v s.registration
      line := { s.line with
        events := if Cut v s.registration then addBit s.line.events LineEvent.regLimit.bit else s.line.events } } := by
  obtain ⟨unit, cut⟩ := stages_eq_corrected c.e v s.registration
  unfold State.applyCorrection
  simp only [written, unit, cut, decide_eq_true_eq]
  split <;> rfl

/-! ### NUDGE -/

section
variable {s : State} {v : Half}

theorem exec_nudge (ht : Takes s .line) : exec (.nudge v) s = .next ((s.nudge v).1.respond .line (s.nudge v).2) :=
  takeFrame_of_takes ht (State.nudge v)

theorem nudge_outside (h : v.toInt < -8192 ∨ 8192 < v.toInt) : s.nudge v = (s, .bare .range) :=
  if_pos (by omega)

theorem nudge_off (low : -8192 ≤ v.toInt) (high : v.toInt ≤ 8192) (off : s.registration.state = .off) :
    s.nudge v = (s, .bare .regOff) := by
  rw [State.nudge, if_neg (by omega), if_pos off]

theorem nudge_on (low : -8192 ≤ v.toInt) (high : v.toInt ≤ 8192) (on : s.registration.state ≠ .off) :
    s.nudge v = (s.applyCorrection v.toInt, .bare .ok) := by
  rw [State.nudge, if_neg (by omega), if_neg on]

end

/-- Settles O29, by the three branches of NUDGE: out of range, in OFF, and the pipeline on its value. -/
theorem nudgeRunsThePipeline : Obligations.NudgeRunsThePipeline := by
  intro v s ht
  refine ⟨?outside, ?off, ?on⟩
  case outside =>
    intro outside
    rw [exec_nudge ht, nudge_outside outside, Response.bare]
  case off =>
    intro low high off
    rw [exec_nudge ht, nudge_off low high off, Response.bare]
  case on =>
    intro low high on c written
    rw [exec_nudge ht, nudge_on low high on, applyCorrection_eq written]
    rfl

/-! ### The MARK evaluation of a record -/

section
variable {s : State} {seq : Word} {p : Fin 64} {b : Blank}

/-- An update changes the record found under the number. -/
theorem presentAt_update_found (found : s.positionOf seq = some p) (present : s.presentAt p = some b)
    (f : Blank → Blank) : (s.update seq f).presentAt p = some (f b) := by
  rw [presentAt_update, if_pos found, present, Option.map_some]

/-- An update changes no other record. -/
theorem presentAt_update_other (found : s.positionOf seq = some p) (f : Blank → Blank) {j : Fin 64} (other : j ≠ p) :
    (s.update seq f).presentAt j = s.presentAt j := by
  rw [presentAt_update, if_neg]
  rw [found, Option.some.injEq]
  exact other.symm

/-- Two updates of one record are one, where the first keeps its number. -/
theorem update_update {f : Blank → Blank} (keeps : ∀ b, (f b).seq = b.seq) (g : Blank → Blank) :
    (s.update seq f).update seq g = s.update seq fun b => g (f b) := by
  cases found : s.positionOf seq with
  | none => rw [update_of_none found, update_of_none found, update_of_none found]
  | some k =>
    obtain ⟨b, present, -⟩ := positionOf_some found
    have found' : (s.update seq f).positionOf seq = some k := (positionOf_update s seq f keeps seq).trans found
    have present' : (s.update seq f).presentAt k = some (f b) := presentAt_update_found found present f
    rw [update_of_some found' present', update_of_some found present, update_of_some found present, putAt_putAt]

/-- An update reads and changes the ring alone. -/
theorem update_with_registration (r : Registration) (f : Blank → Blank) :
    ({ s with registration := r } : State).update seq f = { s.update seq f with registration := r } := by
  have same : ({ s with registration := r } : State).positionOf seq = s.positionOf seq := rfl
  unfold State.update
  rw [same]
  split <;> rfl

theorem update_constants (f : Blank → Blank) : (s.update seq f).constants = s.constants :=
  (works_update s seq f).constants

theorem update_line (f : Blank → Blank) : (s.update seq f).line = s.line := by
  obtain ⟨_, h⟩ := update_eq s seq f
  rw [h]

/-- A miss (R71): the miss rule, NO_MARK on the record, and REG_LOST on entry into LOST. -/
theorem markMissed_eq (h : Header) :
    s.markMissed seq h = { s.update seq (Blank.addFault .noMark) with
      registration := s.registration.miss h.missLimit
      line := { s.line with
        events := if (s.registration.miss h.missLimit).state = .lost ∧ s.registration.state ≠ .lost
          then addBit s.line.events LineEvent.regLost.bit else s.line.events } } := by
  have line := update_line (s := s) (seq := seq) (Blank.addFault .noMark)
  unfold State.markMissed
  simp only [update_with_registration, Bool.and_eq_true, decide_eq_true_eq]
  split <;> simp only [State.setEvent, line]

/-- The reg_err of a measured record and the reject test (R73, R74). -/
def measured (h : Header) (e : Int) (b : Blank) : Blank :=
  if h.rejectTolerance < e.natAbs then ({ b with regErr := some e } : Blank).addFault .regOut
  else { b with regErr := some e }

theorem update_measured (h : Header) (e : Int) :
    s.update seq (measured h e)
      = if h.rejectTolerance < e.natAbs
        then (s.update seq fun b => { b with regErr := some e }).update seq (Blank.addFault .regOut)
        else s.update seq fun b => { b with regErr := some e } := by
  unfold measured
  split
  · exact (update_update (f := fun b => { b with regErr := some e }) (fun _ => rfl) _).symm
  · rfl

/-- A measurement stage by stage (R72 to R79): TRACKING with no misses, the record measured, the correction applied. -/
theorem markSeen_stages (h : Header) (angle : Half) :
    let e := registrationError h.target angle.toNat
    let tracking : State := { s with registration := { s.registration with missCount := 0, state := .tracking } }
    s.markSeen seq h angle = State.applyCorrection (correctionOf h e) (tracking.update seq (measured h e)) := by
  intro e tracking
  rw [update_measured]
  rfl

theorem markSeen_eq {c : Constants} (written : s.constants = some c) (h : Header) (angle : Half) :
    let e := registrationError h.target angle.toNat
    let r : Registration := { s.registration with missCount := 0, state := .tracking }
    s.markSeen seq h angle = { s.update seq (measured h e) with
      registration := corrected c.e (correctionOf h e) r
      line := { s.line with
        events := if Cut (correctionOf h e) r then addBit s.line.events LineEvent.regLimit.bit
          else s.line.events } } := by
  intro e r
  rw [markSeen_stages, applyCorrection_eq (c := c) (by rw [update_constants]; exact written)]
  simp only [update_with_registration, update_line]
  rfl

/-! ### A record handed over -/

/-- A record handed without a mark (R70, R71). -/
theorem markEvaluation_missed (k : Fin 4) (first : Option Half) :
    let h := s.slots[k].header
    let r := s.registration.formatCheck k h
    s.markEvaluation seq k false first = { s.update seq (Blank.addFault .noMark) with
      registration := r.miss h.missLimit
      line := { s.line with
        events := if (r.miss h.missLimit).state = .lost ∧ r.state ≠ .lost
          then addBit s.line.events LineEvent.regLost.bit else s.line.events } } := by
  intro h r
  rw [State.markEvaluation, if_neg Bool.false_ne_true, markMissed_eq]
  simp only [update_with_registration]
  rfl

/-- A record handed with a mark (R70, R72 to R79). -/
theorem markEvaluation_seen {c : Constants} (written : s.constants = some c) (k : Fin 4) (angle : Half) :
    let h := s.slots[k].header
    let e := registrationError h.target angle.toNat
    let r : Registration := { s.registration.formatCheck k h with missCount := 0, state := .tracking }
    s.markEvaluation seq k true (some angle) = { s.update seq (measured h e) with
      registration := corrected c.e (correctionOf h e) r
      line := { s.line with
        events := if Cut (correctionOf h e) r then addBit s.line.events LineEvent.regLimit.bit
          else s.line.events } } := by
  intro h e r
  rw [State.markEvaluation, if_pos rfl, Option.getD_some, markSeen_eq (c := c) (by exact written)]
  simp only [update_with_registration]
  rfl

/-- The records do not depend on the registration unit nor on the line mode control. -/
theorem presentAt_with_registration_line (r : Registration) (l : LineControl) (j : Fin 64) :
    ({ s with registration := r, line := l } : State).presentAt j = s.presentAt j := rfl

end

/-- The unit becomes LOST above the miss limit and at a held 255 (R71). -/
theorem miss_eq (missLimit : Nat) (r : Registration) :
    r.miss missLimit = { r with
      missCount := min 255 (r.missCount + 1)
      state := if missLimit < min 255 (r.missCount + 1) ∨ r.missCount = 255 then .lost else .coasting } := by
  simp [Registration.miss]

theorem miss_lost_iff (missLimit : Nat) (r : Registration) :
    (r.miss missLimit).state = .lost ↔ missLimit < min 255 (r.missCount + 1) ∨ r.missCount = 255 := by
  rw [miss_eq]
  exact ite_eq_left_iff.trans (by simp only [reduceCtorEq, imp_false, not_not])

/-- Settles O31. The format check gives the unit `r`; without a mark the miss rule follows, with a mark the measurement.
Both change the record found under the number and no other. -/
theorem markEvaluationsMeasureOrMiss : Obligations.MarkEvaluationsMeasureOrMiss := by
  intro b k p s present found h r
  constructor
  case left =>
    intro first t lost
    have next : t = _ := markEvaluation_missed k first
    rw [next]
    simp only [presentAt_with_registration_line]
    refine ⟨miss_eq h.missLimit r, presentAt_update_found found present _,
      fun j other => presentAt_update_other found _ other, ?_⟩
    simp only [miss_lost_iff]
    rfl
  case right =>
    intro angle c written t e correction c1 total cut num n
    have next : t = _ := markEvaluation_seen written k angle
    rw [next]
    simp only [presentAt_with_registration_line]
    exact ⟨rfl, presentAt_update_found found present _, fun j other => presentAt_update_other found _ other, rfl⟩

end Sys2Proof.Proofs

/-!
PROOF. Every way to change the registration unit, named once (chapter 4), the command TAKE TRIM (R82), and the law that
every step keeps: the pending trim is 0 whenever no contribution is counted.
-/

namespace Sys2Proof.Proofs

open Sys2Proof Sys2Proof.Machine Sys2Proof.Safety Sys2Proof.Laws

/-! ### The changes of the registration unit -/

/-- One change of the registration unit, by the rule that makes it. -/
inductive RegistrationChange : Registration → Registration → Prop
  /-- Entering OFF (R68). -/
  | enterOff (r : Registration) : RegistrationChange r r.enterOff
  /-- The format check (R70). -/
  | formatCheck (k : Fin 4) (h : Header) (r : Registration) : RegistrationChange r (r.formatCheck k h)
  /-- A miss (R71). -/
  | miss (missLimit : Nat) (r : Registration) : RegistrationChange r (r.miss missLimit)
  /-- A mark (R72). -/
  | mark (r : Registration) : RegistrationChange r { r with missCount := 0, state := .tracking }
  /-- A correction through stages 6 to 9 (R76 to R79). -/
  | correct (e : Nat) (v : Int) (r : Registration) : RegistrationChange r (corrected e v r)
  /-- The trim age at a head advance (R83). -/
  | headAdvance (r : Registration) : RegistrationChange r r.headAdvance
  /-- SET CONSTANTS (R68). -/
  | newConstants (r : Registration) : RegistrationChange r r.newConstants
  /-- TAKE TRIM (R82). -/
  | takeTrim (r : Registration) :
      RegistrationChange r { r with trim := 0, contributions := 0, age := 0, overrun := false }
  /-- Power-on and the resets (R87). -/
  | reset (r : Registration) : RegistrationChange r .reset

/-- The registration unit goes from one state to the other by such changes alone, if it changes at all. -/
def RegistrationMoves (s t : State) : Prop := Relation.ReflTransGen RegistrationChange s.registration t.registration

theorem moves_of_eq {s t : State} (h : t.registration = s.registration) : RegistrationMoves s t := by
  rw [RegistrationMoves, h]

theorem moves_refl (s : State) : RegistrationMoves s s := moves_of_eq rfl

theorem moves_of_change {s t : State} (h : RegistrationChange s.registration t.registration) : RegistrationMoves s t :=
  .single h

theorem RegistrationMoves.trans {s t u : State} (h : RegistrationMoves s t) (g : RegistrationMoves t u) :
    RegistrationMoves s u := Relation.ReflTransGen.trans h g

theorem moves_ite {c : Prop} [Decidable c] {s t u : State} (h : RegistrationMoves s t) (g : RegistrationMoves s u) :
    RegistrationMoves s (if c then t else u) := by split <;> assumption

theorem moves_eitherOrder {a b : State → State} {matters : Bool} (ha : ∀ s, RegistrationMoves s (a s))
    (hb : ∀ s, RegistrationMoves s (b s)) (s : State) : RegistrationMoves s (eitherOrder matters a b s) := by
  have ab (s : State) : RegistrationMoves s (b (a s)) := (ha s).trans (hb _)
  have ba (s : State) : RegistrationMoves s (a (b s)) := (hb s).trans (ha _)
  exact moves_ite (moves_ite (ba { s with choice := s.choice + 1 }) (ab { s with choice := s.choice + 1 })) (ab s)

/-! ### The work that leaves the unit alone: gum circuit, fault latch, batch counter, verdict unit -/

section
variable (s : State)

@[simp] theorem update_registration (seq : Word) (f : Blank → Blank) :
    (s.update seq f).registration = s.registration := by
  obtain ⟨_, h⟩ := update_eq s seq f
  rw [h]

@[simp] theorem gumTo_registration (new : GumState) (expiry : Bool) :
    (s.gumTo new expiry).registration = s.registration := by
  obtain ⟨_, _, h⟩ := gumTo_spec new expiry s
  rw [h]

@[simp] theorem abortPrime_registration (new : GumState) : (s.abortPrime new).registration = s.registration := by
  unfold State.abortPrime
  split <;> simp

@[simp] theorem gumLeavesHalt_registration : s.gumLeavesHalt.registration = s.registration := by
  simp [State.gumLeavesHalt]

@[simp] theorem standbyExpires_registration : s.standbyExpires.registration = s.registration := by
  simp [State.standbyExpires]

@[simp] theorem primeCompletes_registration : s.primeCompletes.registration = s.registration := by
  simp [State.primeCompletes]

@[simp] theorem makeActive_registration (n : Fin 4) (theta : Nat) :
    (s.makeActive n theta).registration = s.registration := by
  obtain ⟨_, _, _, _, h⟩ := makeActive_spec n theta s
  rw [h]

@[simp] theorem raiseCause_registration (c : Cause) : (s.raiseCause c).registration = s.registration := by
  by_cases armed : s.line.mode = .armed
  · obtain ⟨_, _, _, h⟩ := raiseCause_of_armed c armed
    rw [h]
  · rw [raiseCause_of_not_armed c armed]

@[simp] theorem closeBox_registration : s.closeBox.registration = s.registration := rfl

@[simp] theorem closeOpenBatch_registration (b : OpenBatch) (cause : CloseCause) (boundary : Option (Fin 4)) :
    (s.closeOpenBatch b cause boundary).registration = s.registration := by
  simp [State.closeOpenBatch, apply_ite State.registration]

@[simp] theorem formatBoundary_registration (fmt : Fin 4) : (s.formatBoundary fmt).registration = s.registration := by
  unfold State.formatBoundary
  repeat' split
  all_goals simp

@[simp] theorem fullSizeTest_registration : s.fullSizeTest.registration = s.registration := by
  unfold State.fullSizeTest
  repeat' split
  all_goals simp [apply_ite State.registration]

@[simp] theorem deliver_registration (seq : Word) (fmt : Fin 4) :
    (s.deliver seq fmt).registration = s.registration := by
  unfold State.deliver
  dsimp only
  split <;> simp

@[simp] theorem loseBlank_registration (seq : Word) : (s.loseBlank seq).registration = s.registration := by
  simp [State.loseBlank, apply_ite State.registration]

@[simp] theorem passDefect_registration (seq : Word) : (s.passDefect seq).registration = s.registration := by
  simp [State.passDefect]

@[simp] theorem countVerification_registration (handed : Option Blank) (seen : Bool) :
    (s.countVerification handed seen).registration = s.registration := by
  unfold State.countVerification State.unexpectedEdge
  repeat' split
  all_goals simp

@[simp] theorem handNotice_registration (b : Blank) (k : Fin 64) :
    (s.handNotice b k).registration = s.registration := by
  unfold State.handNotice
  split <;> simp

@[simp] theorem countReject_registration : s.countReject.registration = s.registration := rfl

@[simp] theorem rejectDecision_registration (b : Blank) :
    (s.rejectDecision b).1.registration = s.registration := by
  simp [State.rejectDecision, apply_ite State.registration]

@[simp] theorem rejectDecisionFaulted_registration (b : Blank) :
    (s.rejectDecisionFaulted b).registration = s.registration := by
  simp [State.rejectDecisionFaulted, apply_ite State.registration]

/-! ### Stations other than FEED and MARK leave the unit alone -/

@[simp] theorem fire_registration (k : Fin 4) (i : Fin 16) (e : Entry) :
    (s.fire k i e).registration = s.registration := by
  unfold State.fire
  dsimp only
  split <;> rfl

@[simp] theorem outputAction_registration (k : Fin 4) (i : Fin 16) (e : Entry) (b : Option Blank) :
    (s.outputAction k i e b).registration = s.registration := by
  unfold State.outputAction
  split <;> simp [apply_ite State.registration]

@[simp] theorem sendOperation_registration (e : Entry) (st : Station) :
    (s.sendOperation e st).registration = s.registration := by
  unfold State.sendOperation
  repeat' split
  all_goals simp

@[simp] theorem patchCheck_registration (k : Fin 4) (st : Station) :
    (s.patchCheck k st).registration = s.registration := by
  unfold State.patchCheck
  repeat' split
  all_goals simp

@[simp] theorem foldMiss_registration (k : Fin 4) (i : Fin 16) (st : Station) :
    (s.foldMiss k i st).registration = s.registration := by
  simp [State.foldMiss, apply_ite State.registration]

@[simp] theorem foldCheck_registration (k : Fin 4) (i : Fin 16) (st : Station) :
    (s.foldCheck k i st).registration = s.registration := by
  unfold State.foldCheck
  repeat' split
  all_goals simp

@[simp] theorem countStation_registration (k : Fin 4) (st : Station) :
    (s.countStation k st).registration = s.registration := by
  unfold State.countStation
  repeat' split
  all_goals simp

end

/-! ### FEED and MARK evaluations and the crossings -/

theorem applyCorrection_registration (v : Int) (s : State) :
    ∃ e, (s.applyCorrection v).registration = corrected e v s.registration := by
  unfold State.applyCorrection
  dsimp only
  split
  · exact ⟨_, (stages_eq_corrected _ v s.registration).1⟩
  · exact ⟨_, (stages_eq_corrected _ v s.registration).1⟩

theorem moves_applyCorrection (v : Int) (s : State) : RegistrationMoves s (s.applyCorrection v) := by
  obtain ⟨e, h⟩ := applyCorrection_registration v s
  exact moves_of_change (h ▸ .correct e v s.registration)

theorem moves_markMissed (seq : Word) (h : Header) (s : State) : RegistrationMoves s (s.markMissed seq h) := by
  rw [markMissed_eq]
  exact moves_of_change (.miss h.missLimit s.registration)

theorem moves_markSeen (seq : Word) (h : Header) (angle : Half) (s : State) :
    RegistrationMoves s (s.markSeen seq h angle) := by
  rw [markSeen_stages]
  have marked : RegistrationMoves s
      { s with registration := { s.registration with missCount := 0, state := .tracking } } :=
    moves_of_change (.mark s.registration)
  exact (marked.trans (moves_of_eq (update_registration ..))).trans (moves_applyCorrection ..)

theorem moves_markEvaluation (seq : Word) (k : Fin 4) (seen : Bool) (first : Option Half) (s : State) :
    RegistrationMoves s (s.markEvaluation seq k seen first) := by
  have checked : RegistrationMoves s
      { s with registration := s.registration.formatCheck k s.slots[k].header } :=
    moves_of_change (.formatCheck k s.slots[k].header s.registration)
  exact moves_ite (checked.trans (moves_markSeen ..)) (checked.trans (moves_markMissed ..))

/-- A creation enters OFF for a format without registration (R68). -/
theorem moves_createRecord (k : Fin 4) (theta : Nat) (s : State) : RegistrationMoves s (s.createRecord k theta) := by
  unfold State.createRecord
  extract_lets fmt s1 inspected b s2 r s3 s4
  have active : s1.registration = s.registration := by
    unfold s1
    split
    · exact makeActive_registration ..
    · rfl
  have created : RegistrationMoves s s3 := moves_of_eq active
  have off : RegistrationMoves s { s3 with registration := s3.registration.enterOff } :=
    created.trans (moves_of_change (.enterOff s3.registration))
  exact (moves_ite created off).trans (moves_of_eq (cymCreation_registration s4))

theorem moves_closingAction (k : Fin 4) (i : Fin 16) (e : Entry) (st : Station) (theta : Nat) (s : State) :
    RegistrationMoves s (s.closingAction k i e st theta) := by
  have feed : RegistrationMoves s (s.feedEvaluation k st theta) := moves_ite (moves_createRecord ..) (moves_refl s)
  have mark : RegistrationMoves s (s.markStation k st) := by
    unfold State.markStation
    split
    · exact moves_ite (moves_markEvaluation ..) (moves_refl s)
    · exact moves_refl s
  unfold State.closingAction
  split
  · exact moves_of_eq (sendOperation_registration ..)
  · split
    · split
      · exact feed
      · exact mark
      · exact moves_of_eq (patchCheck_registration ..)
      · exact moves_of_eq (foldCheck_registration ..)
      · exact moves_of_eq (countStation_registration ..)
      · exact moves_refl s
    · exact moves_refl s

theorem moves_closeWindow (k : Fin 4) (i : Fin 16) (e : Entry) (theta : Nat) (s : State) :
    RegistrationMoves s (s.closeWindow k i e theta) :=
  (moves_closingAction ..).trans (moves_of_eq (updStation_registration ..))

theorem moves_onCrossing (k : Fin 4) (i : Fin 16) (e : Entry) (theta : Nat) (s : State) :
    RegistrationMoves s (s.onCrossing k i e theta) := by
  unfold State.onCrossing
  extract_lets s1 s2 b s3
  have marked : RegistrationMoves s s1 := moves_of_eq rfl
  have closed : RegistrationMoves s s2 := moves_ite (marked.trans (moves_closeWindow ..)) marked
  have opened : RegistrationMoves s s3 := closed.trans (moves_of_eq rfl)
  exact moves_ite (opened.trans (moves_of_eq (outputAction_registration ..))) opened

theorem moves_offCrossing (k : Fin 4) (i : Fin 16) (e : Entry) (theta : Nat) (s : State) :
    RegistrationMoves s (s.offCrossing k i e theta) := by
  have marked : RegistrationMoves s (s.updStation k i fun st => { st with offMark := true }) := moves_of_eq rfl
  exact moves_ite (marked.trans (moves_closeWindow ..)) marked

theorem moves_takeCrossing (c : Crossing) (s : State) : RegistrationMoves s (s.takeCrossing c) := by
  unfold State.takeCrossing
  split
  · exact moves_refl s
  · exact (moves_ite (moves_onCrossing ..) (moves_offCrossing ..)).trans (moves_of_eq (prune_registration _))

theorem moves_takeCrossings (use high fuel low : Nat) (s : State) :
    RegistrationMoves s (State.takeCrossings use high fuel low s) := by
  induction fuel generalizing low s with
  | zero => exact moves_refl s
  | succ fuel ih =>
    unfold State.takeCrossings
    split
    · exact moves_refl s
    · exact (moves_takeCrossing ..).trans (ih ..)

theorem moves_passAngles (low high : Nat) (s : State) : RegistrationMoves s (s.passAngles low high) :=
  moves_ite (moves_refl s) (moves_takeCrossings s.choice high crossingFuel low { s with choice := s.choice + 1 })

/-! ### Counts, index corrections and time -/

/-- A head advance moves the trim age (R83). -/
theorem moves_headAdvance (s : State) : RegistrationMoves s s.headAdvance := by
  have ring : s.ringAdvance.registration = s.registration := by
    unfold State.ringAdvance
    dsimp only
    split <;> rfl
  have age : s.headAdvance.registration = s.ringAdvance.registration.headAdvance := rfl
  exact moves_of_change (by rw [age, ring]; exact .headAdvance s.registration)

theorem moves_wrap (p : Nat) (s : State) : RegistrationMoves s (s.wrap p) :=
  ((moves_passAngles ..).trans (moves_headAdvance _)).trans
    ((moves_of_eq (setP_registration _ p)).trans (moves_passAngles ..))

theorem moves_stepForward (p : Nat) (s : State) : RegistrationMoves s (s.stepForward p) :=
  (moves_of_eq (setP_registration s p)).trans (moves_passAngles ..)

theorem moves_takeCount (sense : CountSense) {work : State → State} (h : ∀ s, RegistrationMoves s (work s))
    (s : State) : RegistrationMoves s (s.takeCount sense work) := by
  have counted : RegistrationMoves s (s.counted sense) := moves_of_eq rfl
  exact moves_ite
    (counted.trans (moves_eitherOrder (fun s => moves_of_eq (gumLeavesHalt_registration s)) h _))
    (counted.trans (h _))

theorem moves_forwardWork (c : Constants) (s : State) : RegistrationMoves s (s.forwardWork c) :=
  moves_ite (moves_of_eq rfl) (moves_ite (moves_stepForward ..) (moves_wrap ..))

@[simp] theorem loseAll_registration (s : State) : s.loseAll.registration = s.registration := by
  simp [State.loseAll]

theorem moves_trackLost (s : State) : RegistrationMoves s s.trackLost :=
  moves_eitherOrder (fun s => moves_of_eq (loseAll_registration s))
    (fun s => moves_of_eq (raiseCause_registration s _)) s

theorem moves_backwardWork (c : Constants) (s : State) : RegistrationMoves s (s.backwardWork c) :=
  moves_ite (moves_of_eq rfl) (moves_ite (moves_trackLost { s with angle := { s.angle with debt := 0 } })
    (moves_of_eq rfl))

theorem moves_correctIndex (c : Constants) (z0 : Nat) (s : State) : RegistrationMoves s (s.correctIndex c z0) :=
  moves_ite (moves_refl s) (moves_ite (moves_ite (moves_stepForward ..) (moves_wrap ..))
    (moves_ite (moves_of_eq rfl) (moves_of_eq rfl)))

@[simp] theorem qualify_registration (cell : Fin 16) (s : State) :
    (s.qualify cell).registration = s.registration := by
  simp [State.qualify, apply_ite State.registration]

@[simp] theorem pinGoes_registration (cell : Fin 16) (high : Bool) (s : State) :
    (s.pinGoes cell high).registration = s.registration := by
  simp [State.pinGoes, apply_ite State.registration]

@[simp] theorem takeChord_registration (s : State) : s.takeChord.registration = s.registration := by
  simp [State.takeChord, apply_ite State.registration]

theorem moves_takeExpiries (s : State) : RegistrationMoves s s.takeExpiries := by
  unfold State.takeExpiries
  extract_lets s1 s2 s3
  have filters : ∀ (l : List (Fin 16)) (s : State),
      RegistrationMoves s (l.foldl (fun s i => if s.cells[i].filterDue then s.qualify i else s) s) := by
    intro l
    induction l with
    | nil => exact moves_refl
    | cons i l ih =>
      exact fun s => (moves_ite (moves_of_eq (qualify_registration i s)) (moves_refl s)).trans (ih _)
  have m1 : RegistrationMoves s s1 := filters (List.finRange 16) s
  have m2 : RegistrationMoves s s2 := moves_ite (m1.trans (moves_of_eq (standbyExpires_registration s1))) m1
  have m3 : RegistrationMoves s s3 := moves_ite (m2.trans (moves_of_eq (primeCompletes_registration s2))) m2
  exact moves_ite (m3.trans (moves_of_eq (takeChord_registration s3))) m3

theorem moves_tick (s : State) : RegistrationMoves s s.tick :=
  moves_ite (moves_refl s) (moves_takeExpiries s.advanceTimers)

/-! ### Commands that leave the unit alone -/

section
variable (s : State)

@[simp] theorem setWindow_registration (p : Port) (first last : Byte) :
    (s.setWindow p first last).1.registration = s.registration := by
  unfold State.setWindow
  repeat' split
  all_goals rfl

@[simp] theorem readSeq_registration (seq : Word) : (s.readSeq seq).1.registration = s.registration := by
  unfold State.readSeq
  repeat' split
  all_goals rfl

@[simp] theorem peekCell_registration (cell : Byte) : (s.peekCell cell).1.registration = s.registration := by
  unfold State.peekCell
  repeat' split
  all_goals rfl

@[simp] theorem takeCell_registration (cell : Byte) : (s.takeCell cell).1.registration = s.registration := by
  unfold State.takeCell
  repeat' split
  all_goals rfl

@[simp] theorem setCell_registration (values : RawCell) : (s.setCell values).1.registration = s.registration := by
  unfold State.setCell
  repeat' split
  all_goals rfl

@[simp] theorem lockNew_registration : s.lockNew.1.registration = s.registration := by
  unfold State.lockNew
  repeat' split
  all_goals rfl

@[simp] theorem lockCommand_registration (number : Byte) (f : Fin 8 → Lock → Lock × Status) :
    (s.lockCommand number f).1.registration = s.registration := by
  unfold State.lockCommand
  repeat' split
  all_goals rfl

@[simp] theorem writeFormat_registration (p : Port) (slot : Byte) (group : FormatGroup) :
    (s.writeFormat p slot group).1.registration = s.registration := by
  unfold State.writeFormat
  repeat' split
  all_goals rfl

@[simp] theorem readFormat_registration (slot group : Byte) :
    (s.readFormat slot group).1.registration = s.registration := by
  unfold State.readFormat
  repeat' split
  all_goals rfl

@[simp] theorem commitFormat_registration (p : Port) (slot : Byte) :
    (s.commitFormat p slot).1.registration = s.registration := by
  unfold State.commitFormat
  repeat' split
  all_goals rfl

@[simp] theorem takeBatch_registration : s.takeBatch.1.registration = s.registration := by
  unfold State.takeBatch
  repeat' split
  all_goals rfl

@[simp] theorem peekBatch_registration : s.peekBatch.1.registration = s.registration := by
  unfold State.peekBatch
  repeat' split
  all_goals rfl

@[simp] theorem closeBatch_registration : s.closeBatch.1.registration = s.registration := by
  unfold State.closeBatch
  repeat' split
  all_goals simp

@[simp] theorem arm_registration : s.arm.1.registration = s.registration := by
  unfold State.arm State.openBatchAtArm
  repeat' split
  all_goals rfl

@[simp] theorem clear_registration : s.clear.1.registration = s.registration := by
  unfold State.clear
  repeat' split
  all_goals rfl

@[simp] theorem changeover_registration (slot : Byte) : (s.changeover slot).1.registration = s.registration := by
  unfold State.changeover State.acceptChangeover
  repeat' split
  all_goals simp

@[simp] theorem primeGum_registration : s.primeGum.1.registration = s.registration := by
  unfold State.primeGum
  repeat' split
  all_goals rfl

@[simp] theorem setCym_registration (mode : Byte) : (s.setCym mode).1.registration = s.registration := by
  unfold State.setCym
  repeat' split
  all_goals rfl

@[simp] theorem takeNotice_registration : s.takeNotice.1.registration = s.registration := by
  unfold State.takeNotice
  repeat' split
  all_goals rfl

@[simp] theorem takeVerdict_registration (seq : Word) (outcome code : Byte) :
    (s.takeVerdict seq outcome code).1.registration = s.registration := by
  unfold State.takeVerdict
  repeat' split
  all_goals simp

@[simp] theorem markReject_registration (seq : Word) : (s.markReject seq).1.registration = s.registration := by
  unfold State.markReject
  repeat' split
  all_goals simp

@[simp] theorem operatorLines_registration (opaHigh opbHigh : Bool) :
    (s.operatorLines opaHigh opbHigh).registration = s.registration := by
  unfold State.operatorLines
  repeat' split
  all_goals rfl

@[simp] theorem portReset_registration (p : Port) : (s.portReset p).registration = s.registration := by
  simp [State.portReset, apply_ite State.registration]

end

/-! ### Commands that change it -/

theorem moves_nudge (v : Half) (s : State) : RegistrationMoves s (s.nudge v).1 := by
  unfold State.nudge
  split
  · exact moves_refl s
  · split
    · exact moves_refl s
    · exact moves_applyCorrection ..

theorem moves_takeTrim (s : State) : RegistrationMoves s s.takeTrim.1 := by
  unfold State.takeTrim
  dsimp only
  split
  · exact moves_of_change (.takeTrim s.registration)
  · exact moves_refl s

/-- An accepted DISARM enters OFF (R68). -/
theorem moves_disarm (s : State) : RegistrationMoves s s.disarm.1 := by
  unfold State.disarm
  split
  · exact moves_refl s
  · split
    · exact moves_refl s
    · have off : s.disarmed.registration = (s.abortPrime .standby).registration.enterOff := rfl
      exact moves_of_change (by rw [off, abortPrime_registration]; exact .enterOff s.registration)

theorem moves_setConstants (values : RawConstants) (s : State) : RegistrationMoves s (s.setConstants values).1 := by
  unfold State.setConstants
  split
  · exact moves_refl s
  · split
    · exact moves_refl s
    · split
      · exact moves_of_change (.newConstants s.registration)
      · exact moves_refl s

/-- Power-on and the resets leave the unit at its reset values (R87). -/
theorem moves_of_reset {s t : State} (h : t.registration = .reset) : RegistrationMoves s t :=
  moves_of_change (h ▸ .reset s.registration)

/-! ### Every command and every step -/

theorem moves_frame {p : Port} {f : State → State × Response} {s t : State}
    (next : takeFrame p f s = .next t) (h : ∀ s, RegistrationMoves s (f s).1) : RegistrationMoves s t := by
  rcases takeFrame_next next with ⟨-, rfl⟩ | ⟨-, rfl⟩
  · exact moves_refl t
  · exact (h s).trans (moves_of_eq (respond_registration ..))

theorem moves_frame_of_eq {p : Port} {f : State → State × Response} {s t : State}
    (next : takeFrame p f s = .next t) (h : ∀ s, (f s).1.registration = s.registration) : RegistrationMoves s t :=
  moves_frame next fun s => moves_of_eq (h s)

theorem moves_event {f : State → State} {s t : State} (next : takeEvent f s = .next t)
    (h : ∀ s, RegistrationMoves s (f s)) : RegistrationMoves s t := by
  rcases takeEvent_next next with ⟨-, rfl⟩ | ⟨-, rfl⟩
  · exact moves_refl t
  · exact h s

theorem moves_event_of_eq {f : State → State} {s t : State} (next : takeEvent f s = .next t)
    (h : ∀ s, (f s).registration = s.registration) : RegistrationMoves s t :=
  moves_event next fun s => moves_of_eq (h s)

/-- An outcome that is one next state is that state. -/
theorem moves_next {s t u : State} (next : (.next u : Result) = .next t) (h : RegistrationMoves s u) :
    RegistrationMoves s t := by
  cases next
  exact h

theorem moves_indexCorrection {s t : State} (next : execIndexCorrection s = .next t) : RegistrationMoves s t := by
  refine moves_event next fun s => ?_
  split
  · exact moves_refl s
  · split
    · exact moves_refl s
    · exact moves_ite
        (moves_ite
          (moves_eitherOrder (fun s => moves_of_eq (raiseCause_registration s _)) (moves_correctIndex _ _) s)
          (moves_correctIndex ..))
        (moves_refl s)

theorem moves_softReset {s t : State} (next : execSoftReset s = .next t) : RegistrationMoves s t := by
  unfold execSoftReset at next
  split at next
  · exact moves_frame_of_eq next fun _ => rfl
  · exact moves_next next (moves_ite (moves_refl s) (moves_of_reset rfl))

theorem moves_count {sense : CountSense} {work : Constants → State → State}
    (h : ∀ c s, RegistrationMoves s (work c s)) {s t : State}
    (next : takeEvent (fun s =>
      let s' := s.transition sense
      match s.constants with
      | some c => s'.takeCount sense (work c)
      | none => s') s = .next t) : RegistrationMoves s t := by
  refine moves_event next fun s => ?_
  dsimp only
  have sampled : RegistrationMoves s (s.transition sense) := moves_of_eq rfl
  split
  · exact sampled.trans (moves_takeCount sense (h _) _)
  · exact sampled

/-- Every command changes the registration unit by its rules alone. -/
theorem moves_exec {i : Instr} {s t : State} (next : exec i s = .next t) : RegistrationMoves s t := by
  cases i with
  | nop | status | readMotion | shortFrame | unknownCommand | notOnPort | parameterLengthMismatch =>
    exact moves_frame_of_eq (f := fun s => (s, _)) next fun _ => rfl
  | statusWithAcknowledge | readNext => exact moves_frame_of_eq next fun _ => rfl
  | setWindow => exact moves_frame_of_eq next fun _ => setWindow_registration ..
  | readSeq => exact moves_frame_of_eq next fun _ => readSeq_registration ..
  | peekCell => exact moves_frame_of_eq next fun _ => peekCell_registration ..
  | takeCell => exact moves_frame_of_eq next fun _ => takeCell_registration ..
  | stop port =>
    exact moves_frame_of_eq (f := fun s => (s.raiseCause (stopCause port), .bare .ok)) next
      fun _ => raiseCause_registration ..
  | lockNew => exact moves_frame_of_eq next fun _ => lockNew_registration ..
  | lockReturn | lockTake | lockRelease | lockQuery =>
    exact moves_frame_of_eq next fun _ => lockCommand_registration ..
  | writeFormat => exact moves_frame_of_eq next fun _ => writeFormat_registration ..
  | readFormat => exact moves_frame_of_eq next fun _ => readFormat_registration ..
  | commitFormat => exact moves_frame_of_eq next fun _ => commitFormat_registration ..
  | arm => exact moves_frame_of_eq next fun _ => arm_registration ..
  | disarm => exact moves_frame next moves_disarm
  | clear => exact moves_frame_of_eq next fun _ => clear_registration ..
  | softReset => exact moves_softReset next
  | setConstants values => exact moves_frame next (moves_setConstants values)
  | setCell => exact moves_frame_of_eq next fun _ => setCell_registration ..
  | changeover => exact moves_frame_of_eq next fun _ => changeover_registration ..
  | takeBatch => exact moves_frame_of_eq next fun _ => takeBatch_registration ..
  | peekBatch => exact moves_frame_of_eq next fun _ => peekBatch_registration ..
  | closeBatch => exact moves_frame_of_eq next fun _ => closeBatch_registration ..
  | markReject => exact moves_frame_of_eq next fun _ => markReject_registration ..
  | primeGum => exact moves_frame_of_eq next fun _ => primeGum_registration ..
  | nudge v => exact moves_frame next (moves_nudge v)
  | setCym => exact moves_frame_of_eq next fun _ => setCym_registration ..
  | takeNotice => exact moves_frame_of_eq next fun _ => takeNotice_registration ..
  | verdict => exact moves_frame_of_eq next fun _ => takeVerdict_registration ..
  | takeTrim => exact moves_frame next moves_takeTrim
  | forwardCount => exact moves_count moves_forwardWork next
  | backwardCount => exact moves_count moves_backwardWork next
  | indexCorrection => exact moves_indexCorrection next
  | discardedSample | haltTimerExpiry | crawlThreshold =>
    exact moves_event_of_eq (f := fun s => { s with angle := _ }) next fun _ => rfl
  | cymPulseEnd => exact moves_event_of_eq next fun _ => endCymPulse_registration ..
  | pulseEnd cell =>
    exact moves_event_of_eq (f := fun s => s.updCell cell _) next fun _ => updCell_registration ..
  | filterExpiry cell =>
    exact moves_event (f := fun s => if s.cells[cell].filterTimer.isSome then s.qualify cell else s) next
      fun s => moves_ite (moves_of_eq (qualify_registration cell s)) (moves_refl s)
  | standbyExpiry =>
    exact moves_event (f := fun s => if s.standbyRuns then s.standbyExpires else s) next
      fun s => moves_ite (moves_of_eq (standbyExpires_registration s)) (moves_refl s)
  | primeComplete =>
    exact moves_event (f := fun s => if s.gum.state = .priming then s.primeCompletes else s) next
      fun s => moves_ite (moves_of_eq (primeCompletes_registration s)) (moves_refl s)
  | chordTaken =>
    exact moves_event (f := fun s => if s.line.chordTimer.isSome then s.takeChord else s) next
      fun s => moves_ite (moves_of_eq (takeChord_registration s)) (moves_refl s)
  | pinChange | levelInputChange => exact moves_next next (moves_of_eq (pinGoes_registration ..))
  | operatorLineChange => exact moves_next next (moves_of_eq (operatorLines_registration ..))
  | powerOn | rstnReset => exact moves_next next (moves_of_reset rfl)
  | portReset => exact moves_next next (moves_of_eq (portReset_registration ..))
  | emptyFrame | rstnRelease | portResetRelease => exact moves_next next (moves_of_eq rfl)

theorem moves_step {s t : State} (next : step s = .next t) : RegistrationMoves s t := by
  unfold step at next
  split at next
  · exact moves_next next (moves_tick s)
  · have taken (rest : List Instr) : RegistrationMoves s { s with pending := rest } := moves_of_eq rfl
    exact (taken _).trans (moves_exec next)

/-! ### Q is 0 whenever n is 0 -/

/-- Nothing is pending where no contribution is counted (R79, R82). -/
def TrimCounted (r : Registration) : Prop := r.contributions = 0 → r.trim = 0

/-- A correction counts a contribution, what empties n empties Q, and the other changes leave both alone. -/
theorem trimCounted_of_change {r r' : Registration} (change : RegistrationChange r r') (h : TrimCounted r) :
    TrimCounted r' := by
  cases change with
  | enterOff | miss | mark => exact h
  | formatCheck =>
    unfold TrimCounted Registration.formatCheck
    split <;> exact h
  | headAdvance =>
    unfold Registration.headAdvance
    split <;> exact h
  | correct =>
    intro none
    simp [corrected] at none
  | newConstants | takeTrim | reset => exact fun _ => rfl

theorem trimCounted_of_changes {r r' : Registration} (changes : Relation.ReflTransGen RegistrationChange r r')
    (h : TrimCounted r) : TrimCounted r' := by
  induction changes with
  | refl => exact h
  | tail _ change counted => exact trimCounted_of_change change counted

/-! ### TAKE TRIM -/

section
variable {s : State}

theorem exec_takeTrim (ht : Takes s .drive) : exec .takeTrim s = .next (s.takeTrim.1.respond .drive s.takeTrim.2) :=
  takeFrame_of_takes ht State.takeTrim

theorem takeTrim_of_pending (h : 0 < s.registration.contributions ∨ s.registration.overrun = true) :
    s.takeTrim
      = ({ s with registration := { s.registration with trim := 0, contributions := 0, age := 0, overrun := false } },
        { status := .ok, payload := trimLayout s.registration.trim s.registration.contributions s.registration.age
            s.registration.overrun }) :=
  if_pos (by simpa using h)

theorem takeTrim_of_none (counted : s.registration.contributions = 0) (overrun : s.registration.overrun = false) :
    s.takeTrim = (s, { status := .empty, payload := trimLayout 0 0 0 false }) :=
  if_neg (by simp [counted, overrun])

end

/-- Settles O32, by the two branches of TAKE TRIM, and for every step by the changes it makes to the unit. -/
theorem takeTrimEmptiesTrim : Obligations.TakeTrimEmptiesTrim := by
  refine ⟨?takeTrim, ?everyStep⟩
  case takeTrim =>
    intro s ht r
    constructor
    · intro pending
      rw [exec_takeTrim ht, takeTrim_of_pending pending]
      rfl
    · intro counted overrun
      rw [exec_takeTrim ht, takeTrim_of_none counted overrun]
      rfl
  case everyStep =>
    intro s t counted next
    exact trimCounted_of_changes (moves_step next) counted

end Sys2Proof.Proofs

/-!
PROOF. The notices handed out (R102) and the operator's mark (R113).
-/

namespace Sys2Proof.Proofs

open Sys2Proof Sys2Proof.Machine Sys2Proof.Safety Sys2Proof.Laws

section
variable {s : State}

/-! ### TAKE NOTICE -/

theorem exec_takeNotice (ht : Takes s .inspection) :
    exec .takeNotice s = .next (s.takeNotice.1.respond .inspection s.takeNotice.2) :=
  takeFrame_of_takes ht State.takeNotice

theorem takeNotice_of_nil (h : s.notices = []) : s.takeNotice = (s, .bare .empty) := by
  simp only [State.takeNotice, h]

theorem takeNotice_of_cons {n : Notice} {rest : List Notice} (h : s.notices = n :: rest) :
    s.takeNotice = ({ s with notices := rest }, { status := .ok, payload := n.layout }) := by
  simp only [State.takeNotice, h]

/-! ### MARK REJECT -/

/-- The table of R30 for the dispositions that are not final, as one test. -/
theorem faulted_of_open {d : Disposition} (o : d.final = false) :
    d.faulted = if d = .inLine ∨ d = .toReject then .toReject else .flagged := by
  cases d with
  | inLine | toReject | cleared | flagged => rfl
  | rejected | delivered | lost => cases o

theorem exec_markReject {seq : Word} (ht : Takes s .line) :
    exec (.markReject seq) s = .next ((s.markReject seq).1.respond .line (s.markReject seq).2) :=
  takeFrame_of_takes ht (State.markReject seq)

theorem markReject_of_untracked {seq : Word} (h : s.record seq = none) :
    s.markReject seq = (s, .bare .notTracked) := by
  simp only [State.markReject, h]

theorem markReject_of_final {seq : Word} {b : Blank} (h : s.record seq = some b) (closed : b.disposition.final = true) :
    s.markReject seq = (s, .bare .tooLate) := by
  simp only [State.markReject, h, if_pos closed]

theorem markReject_of_open {seq : Word} {b : Blank} (h : s.record seq = some b) (o : b.disposition.final = false) :
    s.markReject seq = (s.update seq (Blank.addFault .operator), .bare .ok) := by
  simp only [State.markReject, h, o, Bool.false_eq_true, if_false]

end

/-- Settles O35, by the two forms of the queue: empty, or an oldest notice before the rest. -/
theorem takeNoticeRemovesOldest : Obligations.TakeNoticeRemovesOldest := by
  intro s ht
  constructor
  · intro empty
    rw [exec_takeNotice ht, takeNotice_of_nil empty, Response.bare]
  · intro n rest queued
    rw [exec_takeNotice ht, takeNotice_of_cons queued, Notice.layout]

/-- Settles O38, by the three branches of MARK REJECT: no record of the number, a final one, and one that takes OPERATOR
by the fault addition rule at the position where it is found. -/
theorem markRejectAddsOperator : Obligations.MarkRejectAddsOperator := by
  intro seq s ht
  constructor
  · intro absent
    have untracked : s.record seq = none := record_none.mpr absent
    rw [exec_markReject ht, markReject_of_untracked untracked, Response.bare]
  · intro k b found present
    have tracked : s.record seq = some b := (record_of_positionOf found).trans present
    constructor
    · intro closed
      rw [exec_markReject ht, markReject_of_final tracked closed, Response.bare]
    · intro o
      rw [exec_markReject ht, markReject_of_open tracked o, update_of_some found present, addFault_of_open o,
        faulted_of_open o]
      rfl

end Sys2Proof.Proofs

/-!
PROOF. The lock pool (section 8.3): what LOCK NEW allocates (R143), and what the commands on a lock number make of
a lock and answer (R142 to R145).
-/

namespace Sys2Proof.Proofs

open Sys2Proof Sys2Proof.Machine Sys2Proof.Safety Sys2Proof.Laws

theorem heldBy_iff {l : Lock} {p : Port} : l.heldBy p = true ↔ l.held = true ∧ l.holder = some p := by
  simp [Lock.heldBy]

/-- The answer about lock `number` of the pool: its layout as it stands after the command (R142). -/
def lockAnswer (number : Byte) (status : Status) (l : Lock) : Response :=
  { status := status, payload := l.layout number }

section
variable {s : State} {p : Port} {number : Byte}

/-! ### The lowest-numbered free lock -/

theorem lowestFree_eq_some_iff {l : Fin 8} :
    s.lowestFree = some l ↔ (4 ≤ l.val ∧ s.locks[l].allocated = false)
      ∧ ∀ m < l, ¬ (4 ≤ m.val ∧ s.locks[m].allocated = false) := by
  rw [State.lowestFree, ← Fin.find?_eq_find?_finRange, Fin.find?_eq_some_iff]
  simp [isBound]

theorem lowestFree_eq_none_iff :
    s.lowestFree = none ↔ ∀ l : Fin 8, 4 ≤ l.val → s.locks[l].allocated = true := by
  rw [State.lowestFree, ← Fin.find?_eq_find?_finRange, Fin.find?_eq_none_iff]
  simp [isBound]

/-! ### LOCK NEW -/

theorem lockNew_of_lowestFree {l : Fin 8} (h : s.lowestFree = some l) :
    s.lockNew = ({ s with locks := setAt s.locks l { allocated := true, held := false, holder := none } },
      { status := .ok, payload := [BitVec.ofNat 8 l.val, 1, 0, 0] }) := by
  simp [State.lockNew, h, State.lockResponse, State.putLock, Lock.layout, flagByte, holderValue]

theorem lockNew_of_noneFree (h : s.lowestFree = none) : s.lockNew = s.noLock 0xFF .noneFree := by
  simp only [State.lockNew, h]

/-! ### The commands on a lock number -/

/-- A command that answers about no lock of the pool changes nothing but the field choice (log 9). -/
theorem takeFrame_noLock (ht : Takes s p) {status : Status} {f : State → State × Response}
    (h : f s = s.noLock number status) :
    ∃ t a b c, takeFrame p f s = .next t
      ∧ t = State.respond { s with choice := t.choice } p { status := status, payload := [number, a, b, c] } := by
  rw [takeFrame_of_takes ht, h]
  exact ⟨_, _, _, _, rfl, rfl⟩

section
variable {i : Fin 8} {l : Lock}

theorem takeLock_of_unallocated (h : l.allocated = false) : takeLock p i l = (l, .notAllocated) := by
  simp [takeLock, h]

theorem takeLock_of_held (allocated : ¬ l.allocated = false) (held : l.held = true) :
    takeLock p i l = (l, .locked) := by
  simp [takeLock, allocated, held]

theorem takeLock_of_free (allocated : ¬ l.allocated = false) (free : ¬ l.held = true) :
    takeLock p i l = ({ l with held := true, holder := some p }, .ok) := by
  simp [takeLock, allocated, free]

theorem releaseLock_of_unallocated (h : l.allocated = false) : releaseLock p i l = (l, .notAllocated) := by
  simp [releaseLock, h]

theorem releaseLock_of_holder (allocated : ¬ l.allocated = false) (holds : l.held = true ∧ l.holder = some p) :
    releaseLock p i l = ({ l with held := false }, .ok) := by
  simp [releaseLock, allocated, heldBy_iff.mpr holds]

theorem releaseLock_of_notHolder (allocated : ¬ l.allocated = false)
    (other : ¬ (l.held = true ∧ l.holder = some p)) : releaseLock p i l = (l, .notHolder) := by
  simp [releaseLock, allocated, mt heldBy_iff.mp other]

theorem returnLock_of_bound (h : i.val < 4) : returnLock i l = (l, .range) := by
  simp [returnLock, isBound, h]

theorem returnLock_of_unallocated (free : ¬ i.val < 4) (h : l.allocated = false) :
    returnLock i l = (l, .notAllocated) := by
  simp [returnLock, isBound, free, h]

theorem returnLock_of_allocated (free : ¬ i.val < 4) (allocated : ¬ l.allocated = false) :
    returnLock i l = ({ allocated := false, held := false, holder := none }, .ok) := by
  simp [returnLock, isBound, free, allocated]

end

theorem lockCommand_of_le (h : 8 ≤ number.toNat) (f : Fin 8 → Lock → Lock × Status) :
    s.lockCommand number f = s.noLock number .range := by
  simp only [State.lockCommand, indexOf_of_le h]

theorem lockCommand_of_lt (h : number.toNat < 8) {f : Fin 8 → Lock → Lock × Status} {l : Lock} {status : Status}
    (made : f ⟨number.toNat, h⟩ s.locks[(⟨number.toNat, h⟩ : Fin 8)] = (l, status)) :
    s.lockCommand number f
      = ({ s with locks := setAt s.locks ⟨number.toNat, h⟩ l }, lockAnswer number status l) := by
  simp only [State.lockCommand, indexOf_of_lt h, made]
  simp [State.putLock, State.lockResponse, lockAnswer]

/-- A command on a lock of the pool that makes `l` of it. -/
theorem takeFrame_lockCommand (ht : Takes s p) (h : number.toNat < 8) {f : Fin 8 → Lock → Lock × Status} {l : Lock}
    {status : Status} (made : f ⟨number.toNat, h⟩ s.locks[(⟨number.toNat, h⟩ : Fin 8)] = (l, status)) :
    takeFrame p (State.lockCommand number f) s
      = .next (State.respond { s with locks := setAt s.locks ⟨number.toNat, h⟩ l } p (lockAnswer number status l)) := by
  rw [takeFrame_of_takes ht, lockCommand_of_lt h made]

/-- A command on a lock of the pool that leaves it as it stands. -/
theorem takeFrame_lockCommand_same (ht : Takes s p) (h : number.toNat < 8) {f : Fin 8 → Lock → Lock × Status}
    {status : Status} (made : f ⟨number.toNat, h⟩ s.locks[(⟨number.toNat, h⟩ : Fin 8)]
      = (s.locks[(⟨number.toNat, h⟩ : Fin 8)], status)) :
    takeFrame p (State.lockCommand number f) s
      = .next (s.respond p (lockAnswer number status s.locks[(⟨number.toNat, h⟩ : Fin 8)])) := by
  rw [takeFrame_lockCommand ht h made, Fin.getElem_fin, setAt_getElem_self]

end

/-- Settles O46. LOCK NEW goes by the lowest free lock, a command on a lock number by the branches of what it makes
of the lock; where no lock of the pool is named, only the field choice moves. -/
theorem lockPoolCommandsAnswer : Obligations.LockPoolCommandsAnswer := by
  refine ⟨fun p s ht => ⟨?lowest, ?noneFree⟩, fun p number s ht => ⟨?ofPool, ?outside⟩⟩
  case lowest =>
    intro l free unallocated lower
    have lowest : s.lowestFree = some l :=
      lowestFree_eq_some_iff.mpr ⟨⟨free, unallocated⟩, fun m below ⟨free', unallocated'⟩ =>
        Bool.false_ne_true (unallocated'.symm.trans (lower m free' below))⟩
    exact (takeFrame_of_takes ht State.lockNew).trans (by rw [lockNew_of_lowestFree lowest])
  case noneFree =>
    intro all
    exact takeFrame_noLock ht (lockNew_of_noneFree (lowestFree_eq_none_iff.mpr all))
  case ofPool =>
    intro h i l as becomes
    refine ⟨takeFrame_lockCommand_same ht h rfl, ?take, ?release, ?giveBack⟩
    case take =>
      split
      next unallocated => exact takeFrame_lockCommand_same ht h (takeLock_of_unallocated unallocated)
      next allocated =>
        split
        next held => exact takeFrame_lockCommand_same ht h (takeLock_of_held allocated held)
        next free => exact takeFrame_lockCommand ht h (takeLock_of_free allocated free)
    case release =>
      split
      next unallocated => exact takeFrame_lockCommand_same ht h (releaseLock_of_unallocated unallocated)
      next allocated =>
        split
        next holds => exact takeFrame_lockCommand ht h (releaseLock_of_holder allocated holds)
        next other => exact takeFrame_lockCommand_same ht h (releaseLock_of_notHolder allocated other)
    case giveBack =>
      split
      next bound => exact takeFrame_lockCommand_same ht h (returnLock_of_bound bound)
      next free =>
        split
        next unallocated => exact takeFrame_lockCommand_same ht h (returnLock_of_unallocated free unallocated)
        next allocated => exact takeFrame_lockCommand ht h (returnLock_of_allocated free allocated)
  case outside =>
    intro above c named
    have refused (f : Fin 8 → Lock → Lock × Status) := takeFrame_noLock ht (lockCommand_of_le (s := s) above f)
    simp only [List.mem_cons, List.not_mem_nil, or_false] at named
    obtain rfl | rfl | rfl | rfl := named
    · exact refused queryLock
    · exact refused (takeLock p)
    · exact refused (releaseLock p)
    · exact refused returnLock

end Sys2Proof.Proofs

/-!
PROOF. Reading the format store: READ FORMAT and the layout of its two kinds of group (R139, sections 10.3 and 10.5).
-/

namespace Sys2Proof.Proofs

open Sys2Proof Sys2Proof.Machine Sys2Proof.Safety Sys2Proof.Laws

/-! ### The coded values of a format -/

theorem slotState_codedFrom0 : CodedFrom0 SlotState.value [.empty, .draft, .valid] :=
  ⟨by decide, fun t => by cases t <;> decide⟩

theorem policy_codedFrom0 : CodedFrom0 Policy.value [.reject, .pass] :=
  ⟨by decide, fun p => by cases p <;> decide⟩

theorem kind_codedFrom0 : CodedFrom0 Kind.value
    [.window, .patch, .gum, .inspect, .reject, .kick, .box, .feed, .mark, .patchCheck, .foldCheck, .count] :=
  ⟨by decide, fun k => by cases k <;> decide⟩

/-! ### The layouts -/

/-- The header group byte by byte, in the order of section 10.3. -/
theorem headerLayout_eq (d : Header) :
    d.layout =
      [flagByte d.regOn, byteOf (BitVec.ofNat 16 d.target) 0, byteOf (BitVec.ofNat 16 d.target) 1,
        byteOf (BitVec.ofNat 16 d.deadband) 0, byteOf (BitVec.ofNat 16 d.deadband) 1,
        byteOf (BitVec.ofNat 16 d.gain) 0, byteOf (BitVec.ofNat 16 d.gain) 1,
        byteOf (BitVec.ofNat 16 d.cmax) 0, byteOf (BitVec.ofNat 16 d.cmax) 1,
        byteOf (BitVec.ofNat 16 d.amax) 0, byteOf (BitVec.ofNat 16 d.amax) 1, BitVec.ofNat 8 d.missLimit,
        byteOf (BitVec.ofNat 16 d.rejectTolerance) 0, byteOf (BitVec.ofNat 16 d.rejectTolerance) 1,
        d.policy.value, BitVec.ofNat 8 d.standbyCode,
        byteOf (BitVec.ofNat 16 d.primeTime) 0, byteOf (BitVec.ofNat 16 d.primeTime) 1,
        byteOf (BitVec.ofNat 16 d.batchSize) 0, byteOf (BitVec.ofNat 16 d.batchSize) 1,
        BitVec.ofNat 8 d.perBox] := rfl

theorem stationLayout_none : stationLayout none = [0] := rfl

/-- A present entry byte by byte, in the order of section 10.3. -/
theorem stationLayout_some (e : Entry) :
    stationLayout (some e) =
      [1, e.kind.value, BitVec.ofNat 8 e.position.val, BitVec.ofNat 8 e.cell.val, byteOf e.onAngle 0,
        byteOf e.onAngle 1, byteOf e.offAngle 0, byteOf e.offAngle 1, byteOf (BitVec.ofNat 16 e.leadUs) 0,
        byteOf (BitVec.ofNat 16 e.leadUs) 1, flagByte e.enabled] := rfl

/-! ### The command -/

section
variable {s : State} {p : Port} {slot group : Byte}

theorem groupLayout_header (f : Format) : f.groupLayout 0xFF = some f.header.layout := if_pos rfl

theorem groupLayout_of_lt (f : Format) (h : group.toNat < 16) :
    f.groupLayout group = some (stationLayout f.table[(⟨group.toNat, h⟩ : Fin 16)]) := by
  have entry : group ≠ 0xFF := by rintro rfl; exact absurd h (by decide)
  rw [Format.groupLayout, if_neg entry, indexOf_of_lt h, Option.map_some]

theorem groupLayout_of_unknown (f : Format) (h : 16 ≤ group.toNat) (other : group ≠ 0xFF) :
    f.groupLayout group = none := by
  rw [Format.groupLayout, if_neg other, indexOf_of_le h, Option.map_none]

theorem exec_readFormat (ht : Takes s p) :
    exec (.readFormat p slot group) s = .next ((s.readFormat slot group).1.respond p (s.readFormat slot group).2) :=
  takeFrame_of_takes ht (State.readFormat slot group)

theorem readFormat_of_le (h : 4 ≤ slot.toNat) : s.readFormat slot group = (s, .bare .range) := by
  simp only [State.readFormat, indexOf_of_le h]

theorem readFormat_of_unknown (h : 16 ≤ group.toNat) (other : group ≠ 0xFF) :
    s.readFormat slot group = (s, .bare .range) := by
  cases named : indexOf 4 slot with
  | none => simp only [State.readFormat, named]
  | some k => simp only [State.readFormat, named, groupLayout_of_unknown _ h other]

theorem readFormat_of_groupLayout (h : slot.toNat < 4) {values : List Byte}
    (layout : s.slots[(⟨slot.toNat, h⟩ : Fin 4)].groupLayout group = some values) :
    s.readFormat slot group
      = (s, { status := .ok, payload := s.slots[(⟨slot.toNat, h⟩ : Fin 4)].state.value :: values }) := by
  simp only [State.readFormat, indexOf_of_lt h, layout]

end

/-- Settles O40. The two layouts are read off their bytes; the answer goes by what the group byte names (R139). -/
theorem readFormatReportsGroup : Obligations.ReadFormatReportsGroup := by
  refine ⟨⟨slotState_codedFrom0, policy_codedFrom0, kind_codedFrom0⟩, fun p slot group s ht => ⟨?refused, ?answered⟩⟩
  case refused =>
    rintro (noSlot | ⟨noIndex, noHeader⟩)
    · rw [exec_readFormat ht, readFormat_of_le noSlot, Response.bare]
    · rw [exec_readFormat ht, readFormat_of_unknown noIndex noHeader, Response.bare]
  case answered =>
    intro h f d l
    constructor
    · rintro rfl
      have layout : l = _ := headerLayout_eq d
      constructor
      · rw [layout]
        exact ⟨rfl, rfl, rfl, rfl, rfl, rfl, rfl, rfl, rfl, rfl, rfl, rfl, rfl, rfl⟩
      · rw [exec_readFormat ht, readFormat_of_groupLayout h (groupLayout_header f)]
    · intro hg entry
      refine ⟨?absent, ?present, ?answer⟩
      case absent =>
        intro absent
        rw [absent, stationLayout_none]
      case present =>
        intro e present l
        have layout : l = _ := (congrArg stationLayout present).trans (stationLayout_some e)
        rw [layout]
        exact ⟨rfl, rfl, rfl, rfl, rfl, rfl, rfl, rfl, rfl⟩
      case answer =>
        rw [exec_readFormat ht, readFormat_of_groupLayout h (groupLayout_of_lt f hg)]

end Sys2Proof.Proofs

/-!
PROOF. Writing the format store: the values a WRITE FORMAT carries (sections 8.1 and 10.3, R41) and its tests in order
(R138).
-/

namespace Sys2Proof.Proofs

open Sys2Proof Sys2Proof.Machine Sys2Proof.Safety Sys2Proof.Laws

/-! ### The values of single fields -/

section
variable {b : Byte}

theorem flagOf_eq : flagOf b = if b.toNat ≤ 1 then some (decide (b = 1)) else none := by
  unfold flagOf
  split
  next zero => simp [BitVec.eq_of_toNat_eq (y := 0#8) zero]
  next one => simp [BitVec.eq_of_toNat_eq (y := 1#8) one]
  next notZero notOne => rw [if_neg fun small => (Nat.le_one_iff_eq_zero_or_eq_one.mp small).elim notZero notOne]

theorem isSome_flagOf_iff : (flagOf b).isSome = true ↔ b.toNat ≤ 1 := by
  rw [flagOf_eq]
  split <;> simp [*]

theorem eq_decide_of_flagOf {v : Bool} (h : flagOf b = some v) : v = decide (b = 1) := by
  rw [flagOf_eq] at h
  exact (Option.some.inj (Option.ite_none_right_eq_some.mp h).2).symm

theorem policyOf_eq : policyOf b = if b.toNat ≤ 1 then some (if b = 0 then .reject else .pass) else none := by
  unfold policyOf
  split
  next zero => simp [BitVec.eq_of_toNat_eq (y := 0#8) zero]
  next one => simp [BitVec.eq_of_toNat_eq (y := 1#8) one]
  next notZero notOne => rw [if_neg fun small => (Nat.le_one_iff_eq_zero_or_eq_one.mp small).elim notZero notOne]

theorem value_of_kindOf {k : Kind} (h : kindOf b = some k) : k.value = b := by
  unfold kindOf at h
  split at h <;> cases h
  all_goals
    next coded => exact (BitVec.eq_of_toNat_eq coded).symm

/-- The kinds are coded from 0 to 11, and no other value names one. -/
theorem isSome_kindOf_iff : (kindOf b).isSome = true ↔ b.toNat ≤ 11 := by
  constructor
  · intro named
    obtain ⟨k, hk⟩ := Option.isSome_iff_exists.mp named
    rw [← value_of_kindOf hk]
    cases k <;> decide
  · intro coded
    unfold kindOf
    interval_cases b.toNat <;> rfl

theorem isSome_indexOf_iff {n : Nat} : (indexOf n b).isSome = true ↔ b.toNat < n := by
  rcases Nat.lt_or_ge b.toNat n with h | h
  · simp [indexOf_of_lt h, h]
  · simp [indexOf_of_le h, h]

theorem val_of_indexOf {n : Nat} {i : Fin n} (h : indexOf n b = some i) : i.val = b.toNat := by
  obtain ⟨_, named⟩ := Option.dite_none_right_eq_some.mp h
  exact congrArg Fin.val (Option.some.inj named).symm

end

theorem inRange_iff {low high n : Nat} : inRange low high n = true ↔ low ≤ n ∧ n ≤ high := by
  simp [inRange]

/-! ### The header group -/

/-- The ranges of the header's fields (section 8.1); a field that takes every value of its width has no row. -/
def HeaderInRange (r : RawHeader) : Prop :=
  r.regEnable.toNat ≤ 1 ∧ r.deadband.toNat ≤ 4096 ∧ r.gain.toNat ≤ 256 ∧ r.cmax.toNat ≤ 8192
    ∧ r.amax.toNat ≤ 32767 ∧ 1 ≤ r.missLimit.toNat ∧ 1 ≤ r.rejectTolerance.toNat
    ∧ r.rejectTolerance.toNat ≤ 32767 ∧ r.policy.toNat ≤ 1 ∧ 1 ≤ r.primeTime.toNat ∧ r.primeTime.toNat ≤ 600
    ∧ 1 ≤ r.batchSize.toNat ∧ r.batchSize.toNat ≤ 1000 ∧ 1 ≤ r.perBox.toNat ∧ r.perBox.toNat ≤ 99

/-- The header as it is carried. -/
def headerValues (r : RawHeader) : Header :=
  { regOn := decide (r.regEnable = 1), target := r.target.toNat, deadband := r.deadband.toNat, gain := r.gain.toNat
    cmax := r.cmax.toNat, amax := r.amax.toNat, missLimit := r.missLimit.toNat
    rejectTolerance := r.rejectTolerance.toNat, policy := if r.policy = 0 then .reject else .pass
    standbyCode := r.standbyCode.toNat, primeTime := r.primeTime.toNat, batchSize := r.batchSize.toNat
    perBox := r.perBox.toNat }

/-- A header is taken exactly in its ranges, and stored as it is carried. -/
theorem headerOf_eq_some_iff {r : RawHeader} {h : Header} :
    headerOf r = some h ↔ HeaderInRange r ∧ h = headerValues r := by
  have byte := r.missLimit.isLt
  simp only [headerOf, flagOf_eq, policyOf_eq, Option.bind_eq_bind, Option.bind_eq_some_iff,
    Option.ite_none_right_eq_some, Option.some.injEq, Bool.and_eq_true, inRange_iff]
  constructor
  · rintro ⟨_, ⟨flag, rfl⟩, _, ⟨policy, rfl⟩, ranges, rfl⟩
    refine ⟨?_, rfl⟩
    unfold HeaderInRange
    omega
  · rintro ⟨ranges, rfl⟩
    unfold HeaderInRange at ranges
    exact ⟨_, ⟨by omega, rfl⟩, _, ⟨by omega, rfl⟩, by omega, rfl⟩

/-! ### A station entry -/

/-- An entry is taken where each of its fields is, and holds what they are taken as. -/
theorem entryOf_eq_some_iff {r : RawEntry} {e : Entry} :
    entryOf r = some e ↔
      kindOf r.kind = some e.kind ∧ indexOf 64 r.position = some e.position ∧ indexOf 16 r.cell = some e.cell
      ∧ flagOf r.enable = some e.enabled ∧ r.onAngle ≠ r.offAngle ∧ r.leadUs.toNat ≤ 20000
      ∧ e.onAngle = r.onAngle ∧ e.offAngle = r.offAngle ∧ e.leadUs = r.leadUs.toNat := by
  simp only [entryOf, Option.bind_eq_bind, Option.bind_eq_some_iff, Option.ite_none_right_eq_some, Option.some.injEq,
    Bool.and_eq_true, decide_eq_true_eq, inRange_iff]
  constructor
  · rintro ⟨kind, hk, position, hp, cell, hc, enabled, he, ⟨distinct, -, lead⟩, rfl⟩
    exact ⟨hk, hp, hc, he, distinct, lead, rfl, rfl, rfl⟩
  · rintro ⟨hk, hp, hc, he, distinct, lead, on, off, us⟩
    exact ⟨_, hk, _, hp, _, hc, _, he, ⟨distinct, Nat.zero_le _, lead⟩, by rw [← on, ← off, ← us]⟩

/-- The ranges of an entry's fields (R138). -/
theorem isSome_entryOf_iff {r : RawEntry} :
    (entryOf r).isSome = true ↔ r.kind.toNat ≤ 11 ∧ r.position.toNat ≤ 63 ∧ r.cell.toNat ≤ 15
      ∧ r.onAngle ≠ r.offAngle ∧ r.leadUs.toNat ≤ 20000 ∧ r.enable.toNat ≤ 1 := by
  constructor
  · intro taken
    obtain ⟨e, he⟩ := Option.isSome_iff_exists.mp taken
    obtain ⟨kind, position, cell, enable, distinct, lead, -⟩ := entryOf_eq_some_iff.mp he
    have kindIn := isSome_kindOf_iff.mp (Option.isSome_of_eq_some kind)
    have positionIn := isSome_indexOf_iff.mp (Option.isSome_of_eq_some position)
    have cellIn := isSome_indexOf_iff.mp (Option.isSome_of_eq_some cell)
    have enableIn := isSome_flagOf_iff.mp (Option.isSome_of_eq_some enable)
    exact ⟨kindIn, by omega, by omega, distinct, lead, enableIn⟩
  · rintro ⟨kindIn, positionIn, cellIn, distinct, lead, enableIn⟩
    obtain ⟨kind, hk⟩ := Option.isSome_iff_exists.mp (isSome_kindOf_iff.mpr kindIn)
    obtain ⟨position, hp⟩ := Option.isSome_iff_exists.mp (isSome_indexOf_iff.mpr (Nat.lt_succ_of_le positionIn))
    obtain ⟨cell, hc⟩ := Option.isSome_iff_exists.mp (isSome_indexOf_iff.mpr (Nat.lt_succ_of_le cellIn))
    obtain ⟨enabled, he⟩ := Option.isSome_iff_exists.mp (isSome_flagOf_iff.mpr enableIn)
    exact Option.isSome_of_eq_some
      (entryOf_eq_some_iff (e := ⟨kind, position, cell, r.onAngle, r.offAngle, r.leadUs.toNat, enabled⟩).mpr
        ⟨hk, hp, hc, he, distinct, lead, rfl, rfl, rfl⟩)

/-! ### The tests of R138 -/

section
variable {s : State} {p : Port} {slot : Byte} {g : FormatGroup}

theorem groupKnown_iff : groupKnown g = true ↔ ∀ a b, g ≠ .unknownGroup a b := by
  cases g <;> simp [groupKnown]

theorem exec_writeFormat (ht : Takes s p) :
    exec (.writeFormat p slot g) s = .next ((s.writeFormat p slot g).1.respond p (s.writeFormat p slot g).2) :=
  takeFrame_of_takes ht (State.writeFormat p slot g)

theorem writeFormat_of_le (h : 4 ≤ slot.toNat) : s.writeFormat p slot g = (s, .bare .range) := by
  simp only [State.writeFormat, indexOf_of_le h]

theorem writeFormat_of_unknownGroup (a b : Byte) :
    s.writeFormat p slot (.unknownGroup a b) = (s, .bare .range) := by
  cases named : indexOf 4 slot with
  | none => simp only [State.writeFormat, named]
  | some k => simp [State.writeFormat, named, groupKnown]

variable {k : Fin 4} (named : indexOf 4 slot = some k) (known : groupKnown g = true)
include named known

theorem writeFormat_of_notHolder (other : s.locks[boundLock k].heldBy p = false) :
    s.writeFormat p slot g = (s, .bare .notHolder) := by
  simp only [State.writeFormat, named, known, other, Bool.not_true, Bool.not_false, Bool.false_eq_true, if_true,
    if_false]

theorem writeFormat_of_inUse (holds : s.locks[boundLock k].heldBy p = true) (used : s.inUse k = true) :
    s.writeFormat p slot g = (s, .bare .inUse) := by
  simp only [State.writeFormat, named, known, holds, used, Bool.not_true, Bool.false_eq_true, if_true, if_false]

variable (holds : s.locks[boundLock k].heldBy p = true) (unused : s.inUse k = false)
include holds unused

theorem writeFormat_of_write_none (outside : s.slots[k].write g = none) :
    s.writeFormat p slot g = (s, .bare .range) := by
  simp only [State.writeFormat, named, known, holds, unused, outside, Bool.not_true, Bool.false_eq_true, if_false]

theorem writeFormat_of_write_some {f : Format} (written : s.slots[k].write g = some f) :
    s.writeFormat p slot g = ({ s with slots := setAt s.slots k f }, .bare .ok) := by
  simp only [State.writeFormat, named, known, holds, unused, written, Bool.not_true, Bool.false_eq_true, if_false,
    State.putSlot]

end

/-- Settles O39. The tests follow R138's order down to `Format.write`, which replaces the one group; the ranges and the
stored values are those of `headerOf` and `entryOf`. -/
theorem writeFormatReplacesGroup : Obligations.WriteFormatReplacesGroup := by
  refine ⟨fun p slot g s ht => ⟨?refused, ?tested⟩, ?headerRanges, fun r => isSome_entryOf_iff, ?headerStored,
    ?entryStored⟩
  case refused =>
    rintro (noSlot | ⟨a, b, rfl⟩)
    · rw [exec_writeFormat ht, writeFormat_of_le noSlot, Response.bare]
    · rw [exec_writeFormat ht, writeFormat_of_unknownGroup a b, Response.bare]
  case tested =>
    intro h knownGroup k holds
    have named : indexOf 4 slot = some k := indexOf_of_lt h
    have known : groupKnown g = true := groupKnown_iff.mpr knownGroup
    refine ⟨fun other => ?notHolder, fun holding used => ?inUse, fun holding unused => ?values⟩
    case notHolder =>
      have notHeld : s.locks[boundLock k].heldBy p = false := Bool.eq_false_iff.mpr (mt heldBy_iff.mp other)
      rw [exec_writeFormat ht, writeFormat_of_notHolder named known notHeld, Response.bare]
    case inUse =>
      rw [exec_writeFormat ht, writeFormat_of_inUse named known (heldBy_iff.mpr holding) used, Response.bare]
    case values =>
      have outside (unwritten : s.slots[k].write g = none) :
          exec (.writeFormat p slot g) s = .next (s.respond p { status := .range, payload := [] }) := by
        rw [exec_writeFormat ht, writeFormat_of_write_none named known (heldBy_iff.mpr holding) unused unwritten,
          Response.bare]
      have accepted {f : Format} (written : s.slots[k].write g = some f) :
          exec (.writeFormat p slot g) s
            = .next (State.respond { s with slots := setAt s.slots k f } p { status := .ok, payload := [] }) := by
        rw [exec_writeFormat ht, writeFormat_of_write_some named known (heldBy_iff.mpr holding) unused written,
          Response.bare]
      refine ⟨?headerOutside, ?entryOutside, ?header, ?entry, ?absent⟩
      case headerOutside =>
        rintro r rfl rejected
        exact outside (by rw [Format.write, rejected, Option.map_none])
      case entryOutside =>
        rintro i r rfl rejected
        exact outside (by rw [Format.write, rejected, Option.map_none])
      case header =>
        rintro r header rfl taken
        exact accepted (by rw [Format.write, taken, Option.map_some])
      case entry =>
        rintro i r entry rfl taken
        exact accepted (by rw [Format.write, taken, Option.map_some])
      case absent =>
        rintro i rfl
        exact accepted rfl
  case headerRanges =>
    intro r
    simp only [Option.isSome_iff_exists, headerOf_eq_some_iff, exists_and_left, exists_eq, and_true, HeaderInRange]
  case headerStored =>
    intro r h taken
    exact (headerOf_eq_some_iff.mp taken).2
  case entryStored =>
    intro r e taken
    obtain ⟨kind, position, cell, enable, -, -, on, off, lead⟩ := entryOf_eq_some_iff.mp taken
    exact ⟨value_of_kindOf kind, val_of_indexOf position, val_of_indexOf cell, on, off, lead,
      eq_decide_of_flagOf enable⟩

end Sys2Proof.Proofs

/-!
PROOF. What each command can make of the state before its response, said once, for the statements on every step.
-/

namespace Sys2Proof.Proofs

open Sys2Proof Sys2Proof.Machine Sys2Proof.Safety Sys2Proof.Laws

/-! ### Commands that only read -/

section
variable (s : State)

theorem readSeq_state (seq : Word) : (s.readSeq seq).1 = s := by
  unfold State.readSeq; split <;> rfl

theorem peekCell_state (cell : Byte) : (s.peekCell cell).1 = s := by
  unfold State.peekCell; split <;> rfl

theorem readFormat_state (slot group : Byte) : (s.readFormat slot group).1 = s := by
  unfold State.readFormat; split
  · rfl
  · split <;> rfl

theorem peekBatch_state : s.peekBatch.1 = s := by
  unfold State.peekBatch; split <;> rfl

/-! ### Commands of one block -/

/-- SET WINDOW is refused or sets a legal window (R34). -/
theorem setWindow_state (p : Port) (first last : Byte) : (s.setWindow p first last).1 = s
    ∨ first.toNat ≤ last.toNat ∧ last.toNat ≤ s.lineLength - 1
      ∧ (s.setWindow p first last).1
        = s.putWindow p { first := first.toNat, last := last.toNat, pointer := first.toNat } := by
  unfold State.setWindow
  split
  · exact .inr ⟨‹_ ∧ _›.1, ‹_ ∧ _›.2, rfl⟩
  · exact .inl rfl

theorem takeCell_state (cell : Byte) : ∃ cells, (s.takeCell cell).1 = { s with cells := cells } := by
  unfold State.takeCell
  split
  · exact ⟨_, rfl⟩
  · exact ⟨s.cells, rfl⟩

theorem setCell_state (r : RawCell) : ∃ cells, (s.setCell r).1 = { s with cells := cells } := by
  have same : ∃ cells, s = { s with cells := cells } := ⟨s.cells, rfl⟩
  unfold State.setCell
  split
  · exact same
  · split
    · split
      · exact ⟨_, rfl⟩
      · exact same
    · exact same

/-- LOCK NEW allocates a free lock, or draws the bytes of no lock (R143, log 9). -/
theorem lockNew_state : (∃ i : Fin 8, s.lowestFree = some i
      ∧ s.lockNew.1 = s.putLock i { allocated := true, held := false, holder := none })
    ∨ ∃ n, s.lockNew.1 = { s with choice := n } := by
  unfold State.lockNew
  split
  · exact .inr ⟨_, rfl⟩
  · exact .inl ⟨_, ‹_›, rfl⟩

/-- A command on a lock number changes that lock, or draws the bytes of no lock (R142, log 9). -/
theorem lockCommand_state (number : Byte) (f : Fin 8 → Lock → Lock × Status) :
    (∃ i : Fin 8, indexOf 8 number = some i ∧ (s.lockCommand number f).1 = s.putLock i (f i s.locks[i]).1)
    ∨ ∃ n, (s.lockCommand number f).1 = { s with choice := n } := by
  unfold State.lockCommand
  split
  · exact .inr ⟨_, rfl⟩
  · exact .inl ⟨_, ‹_›, rfl⟩

/-- WRITE FORMAT is refused or leaves a slot that is not in use DRAFT (R138). -/
theorem writeFormat_state (p : Port) (slot : Byte) (g : FormatGroup) : (s.writeFormat p slot g).1 = s
    ∨ ∃ k f, s.inUse k = false ∧ f.state = .draft ∧ (s.writeFormat p slot g).1 = s.putSlot k f := by
  unfold State.writeFormat
  split
  · exact .inl rfl
  · rename_i k _
    split
    · exact .inl rfl
    · split
      · exact .inl rfl
      · split
        · exact .inl rfl
        · rename_i unused
          split
          · exact .inl rfl
          · rename_i f written
            refine .inr ⟨k, f, by simpa using unused, ?_, rfl⟩
            cases g <;> simp only [Format.write, Option.map_eq_some_iff, Option.some.injEq, reduceCtorEq] at written
            · obtain ⟨_, -, rfl⟩ := written; rfl
            · exact written ▸ rfl
            · obtain ⟨_, -, rfl⟩ := written; rfl

/-- COMMIT FORMAT is refused or makes a slot VALID whose checks all pass (R140). -/
theorem commitFormat_state (p : Port) (slot : Byte) : (s.commitFormat p slot).1 = s
    ∨ ∃ k : Fin 4, s.firstFailure s.slots[k] = none
      ∧ (s.commitFormat p slot).1 = s.putSlot k { s.slots[k] with state := .valid } := by
  unfold State.commitFormat
  split
  · exact .inl rfl
  · split
    · exact .inl rfl
    · split
      · exact .inl rfl
      · exact .inr ⟨_, ‹_›, rfl⟩

/-- CHANGEOVER is refused, cancels a pending changeover, or makes a VALID slot pending, in OFFLINE active (R146). -/
theorem changeover_state (slot : Byte) : (s.changeover slot).1 = s
    ∨ (s.changeover slot).1 = { s with pendingSlot := none }
    ∨ ∃ n : Fin 4, s.slots[n].state = .valid ∧ s.active ≠ some n
      ∧ (s.line.mode = .offline ∧ (s.changeover slot).1 = s.makeActive n s.theta
        ∨ s.line.mode ≠ .offline ∧ (s.changeover slot).1 = { s with pendingSlot := some n }) := by
  unfold State.changeover
  split
  · exact .inl rfl
  · rename_i n _
    split
    · exact .inl rfl
    · rename_i valid
      split
      · exact .inl rfl
      · unfold State.acceptChangeover
        dsimp only
        split
        · exact .inr (.inl rfl)
        · rename_i other
          refine .inr (.inr ⟨n, by simpa using valid, other, ?_⟩)
          split
          · exact .inl ⟨‹_›, rfl⟩
          · exact .inr ⟨by simp [*], rfl⟩
          · exact .inr ⟨by simp [*], rfl⟩

theorem takeBatch_state : s.takeBatch.1 = s
    ∨ ∃ r rest, s.batch.log = r :: rest ∧ s.takeBatch.1 = { s with batch := { s.batch with log := rest } } := by
  unfold State.takeBatch
  split
  · exact .inl rfl
  · exact .inr ⟨_, _, ‹_›, rfl⟩

/-- CLOSE BATCH is refused or closes the open batch, the log having room (R130). -/
theorem closeBatch_state : s.closeBatch.1 = s
    ∨ ∃ b cause, s.batch.openBatch = some b ∧ s.logFull = false
      ∧ s.closeBatch.1 = s.closeOpenBatch b cause none := by
  unfold State.closeBatch
  split
  · exact .inl rfl
  · split
    · exact .inl rfl
    · split
      · exact .inl rfl
      · exact .inr ⟨_, _, ‹_›, by simpa using ‹¬ s.logFull = true›, rfl⟩

/-- ARM is refused or arms an OFFLINE line (R153). -/
theorem arms_state : s.arm.1 = s
    ∨ ∃ k, s.line.mode = .offline ∧ s.active = some k ∧ s.arm.1 = (s.enterMode .armed).openBatchAtArm k := by
  unfold State.arm
  split
  · exact .inl rfl
  · split
    · exact .inl rfl
    · split
      · exact .inl rfl
      · exact .inr ⟨_, not_not.mp ‹¬ s.line.mode ≠ .offline›, ‹_›, rfl⟩

theorem disarm_state : s.disarm.1 = s
    ∨ s.line.mode ≠ .offline ∧ s.motion = .halted ∧ s.disarm.1 = s.disarmed := by
  unfold State.disarm
  split
  · exact .inl rfl
  · split
    · exact .inl rfl
    · exact .inr ⟨‹_›, not_not.mp ‹¬ s.motion ≠ .halted›, rfl⟩

theorem clear_state : s.clear.1 = s ∨ s.line.mode = .faulted ∧ s.clear.1 = s.enterMode .armed := by
  unfold State.clear
  split
  · exact .inr ⟨‹_›, rfl⟩
  · exact .inl rfl
  · exact .inl rfl

theorem setConstants_state (r : RawConstants) : (s.setConstants r).1 = s
    ∨ ∃ c, s.line.mode = .offline ∧ constantsOf r = some c ∧ (s.setConstants r).1 = s.installConstants c := by
  unfold State.setConstants
  split
  · exact .inl rfl
  · split
    · exact .inl rfl
    · split
      · exact .inr ⟨_, not_not.mp ‹¬ s.line.mode ≠ .offline›, ‹_›, rfl⟩
      · exact .inl rfl

theorem primeGum_state : ∃ gum, s.primeGum.1 = { s with gum := gum } := by
  have same : ∃ gum, s = { s with gum := gum } := ⟨s.gum, rfl⟩
  unfold State.primeGum
  split
  · exact same
  · split
    · exact same
    · split
      · exact same
      · exact ⟨_, rfl⟩

theorem setCym_state (mode : Byte) : ∃ cym, (s.setCym mode).1 = { s with cym := cym } := by
  unfold State.setCym
  split
  · exact ⟨s.cym, rfl⟩
  · exact ⟨_, rfl⟩

theorem takeNotice_state : s.takeNotice.1 = s
    ∨ ∃ n rest, s.notices = n :: rest ∧ s.takeNotice.1 = { s with notices := rest } := by
  unfold State.takeNotice
  split
  · exact .inl rfl
  · exact .inr ⟨_, _, ‹_›, rfl⟩

/-- VERDICT changes nothing but a record that is AWAITING and not final (R106, R107). -/
theorem takeVerdict_state (seq : Word) (outcome code : Byte) : (s.takeVerdict seq outcome code).1 = s
    ∨ ∃ b o, s.record seq = some b ∧ b.disposition.final = false ∧ b.verdict = .awaiting
      ∧ (s.takeVerdict seq outcome code).1 = (s.update seq (Blank.judge o code)).withdraw seq := by
  unfold State.takeVerdict
  split
  · exact .inl rfl
  · rename_i o _
    split
    · exact .inl rfl
    · split
      · exact .inl rfl
      · rename_i b found
        split
        · split
          · exact .inl rfl
          · exact .inr ⟨b, o, found, by simpa using ‹¬ b.disposition.final = true›, ‹_›, rfl⟩
        all_goals exact .inl rfl

theorem markReject_state (seq : Word) : (s.markReject seq).1 = s
    ∨ (s.markReject seq).1 = s.update seq (Blank.addFault .operator) := by
  unfold State.markReject
  split
  · exact .inl rfl
  · split
    · exact .inl rfl
    · exact .inr rfl

theorem nudge_state (v : Half) : (s.nudge v).1 = s ∨ (s.nudge v).1 = s.applyCorrection v.toInt := by
  unfold State.nudge
  split
  · exact .inl rfl
  · split
    · exact .inl rfl
    · exact .inr rfl

theorem takeTrim_state : ∃ r, s.takeTrim.1 = { s with registration := r } := by
  unfold State.takeTrim
  dsimp only
  split
  · exact ⟨_, rfl⟩
  · exact ⟨s.registration, rfl⟩

theorem operatorLines_state (opaHigh opbHigh : Bool) : ∃ a b l, l.mode = s.line.mode
    ∧ s.operatorLines opaHigh opbHigh = { s with opaHigh := a, opbHigh := b, line := l } := by
  unfold State.operatorLines
  split
  · exact ⟨s.opaHigh, s.opbHigh, s.line, rfl, rfl⟩
  · dsimp only
    split
    · exact ⟨opaHigh, opbHigh, { s.line with chordState := chordAfterReset opaHigh opbHigh, chordTimer := none },
        rfl, rfl⟩
    · refine ⟨opaHigh, opbHigh, (State.chordLines { s with opaHigh := opaHigh, opbHigh := opbHigh }).line, ?_, rfl⟩
      unfold State.chordLines
      dsimp only
      split
      · rfl
      · split <;> rfl

end

/-! ### Cells -/

section
variable (s : State) (cell : Fin 16)

/-- A change that qualifies changes the cell and what the stations have seen (R16). -/
theorem qualify_state : ∃ cells, s.qualify cell = { s with cells := cells }
    ∨ ∃ angle, s.qualify cell = State.handEdge cell angle { s with cells := cells } := by
  unfold State.qualify
  dsimp only
  split
  · exact ⟨_, .inr ⟨_, rfl⟩⟩
  · exact ⟨_, .inl rfl⟩

/-- A change of a pin changes the cell and what the stations have seen (R16). -/
theorem pinGoes_state (high : Bool) : ∃ cells, s.pinGoes cell high = { s with cells := cells }
    ∨ ∃ angle, s.pinGoes cell high = State.handEdge cell angle { s with cells := cells } := by
  unfold State.pinGoes
  dsimp only
  split
  · exact ⟨s.cells, .inl rfl⟩
  · split
    · exact ⟨_, .inl rfl⟩
    · split
      · exact ⟨_, .inl rfl⟩
      · split
        · exact ⟨_, .inl rfl⟩
        · split
          · exact qualify_state (s.updCell cell fun c => { c with pinHigh := high }) cell
          · exact ⟨_, .inl rfl⟩

end

/-! ### What every command shares -/

/-- Two effects in either order are one order or the other, the free choice drawn before them (log 5). -/
theorem eitherOrder_eq (matters : Bool) (a b : State → State) (s : State) :
    ∃ n, eitherOrder matters a b s = b (a { s with choice := n })
      ∨ eitherOrder matters a b s = a (b { s with choice := n }) := by
  unfold eitherOrder
  split
  · dsimp only
    split
    · exact ⟨_, .inr rfl⟩
    · exact ⟨_, .inl rfl⟩
  · exact ⟨s.choice, .inl rfl⟩

/-- A relation between states that a response, and nothing at all, always keeps. -/
structure Answerable (R : State → State → Prop) : Prop where
  refl : ∀ s, R s s
  respond : ∀ {s t : State} (p : Port) (r : Response), R s t → R s (t.respond p r)

namespace Answerable

variable {R : State → State → Prop} (answerable : Answerable R) {s t : State}
include answerable

theorem of_eq (h : t = s) : R s t := h ▸ answerable.refl s

theorem frame {p : Port} {f : State → State × Response} (next : takeFrame p f s = .next t) (h : R s (f s).1) :
    R s t := by
  rcases takeFrame_next next with ⟨-, rfl⟩ | ⟨-, rfl⟩
  · exact answerable.refl t
  · exact answerable.respond _ _ h

theorem frame_same {p : Port} {f : State → State × Response} (next : takeFrame p f s = .next t)
    (h : (f s).1 = s) : R s t := answerable.frame next (answerable.of_eq h)

theorem event {f : State → State} (next : takeEvent f s = .next t) (h : R s (f s)) : R s t := by
  rcases takeEvent_next next with ⟨-, rfl⟩ | ⟨-, rfl⟩
  · exact answerable.refl t
  · exact h

/-- A happening that acts where a condition holds. -/
theorem event_if {c : State → Prop} [DecidablePred c] {f : State → State}
    (next : takeEvent (fun s => if c s then f s else s) s = .next t) (h : c s → R s (f s)) : R s t := by
  refine answerable.event next ?_
  split
  · exact h ‹_›
  · exact answerable.refl s

omit answerable in
theorem next {u : State} (next : (.next u : Result) = .next t) (h : R s u) : R s t := by
  cases next
  exact h

theorem softReset (next : execSoftReset s = .next t) (h : s.line.mode ≠ .armed → R s s.softReset) : R s t := by
  unfold execSoftReset at next
  split at next
  · exact answerable.frame_same next rfl
  · split at next
    · cases next; exact answerable.refl s
    · cases next; exact h ‹_›

theorem count {sense : CountSense} {work : Constants → State → State}
    (next : takeEvent (fun s =>
      let s' := s.transition sense
      match s.constants with
      | some c => s'.takeCount sense (work c)
      | none => s') s = .next t)
    (sampled : s.constants = none → R s (s.transition sense))
    (counted : ∀ c, s.constants = some c → R s ((s.transition sense).takeCount sense (work c))) : R s t := by
  refine answerable.event next ?_
  dsimp only
  split
  · exact counted _ ‹_›
  · exact sampled ‹_›

theorem indexCorrection (next : execIndexCorrection s = .next t)
    (corrects : ∀ c z0, s.constants = some c → c.z0 = some z0 → s.angle.debt = 0 → R s (s.correctIndex c z0))
    (slips : ∀ c z0 n, s.constants = some c → c.z0 = some z0 → s.angle.debt = 0 →
      R s ((State.raiseCause .indexSlip { s with choice := n }).correctIndex c z0)
      ∧ R s ((State.correctIndex c z0 { s with choice := n }).raiseCause .indexSlip)) : R s t := by
  refine answerable.event next ?_
  split
  · exact answerable.refl s
  · rename_i c written
    split
    · exact answerable.refl s
    · rename_i z0 named
      split
      · rename_i taken
        have noDebt : s.angle.debt = 0 := by simp at taken; exact taken.1
        dsimp only
        split
        · obtain ⟨n, h | h⟩ := eitherOrder_eq (decide (0 < indexDistance c.e z0 s.angle.p))
            (State.raiseCause .indexSlip) (State.correctIndex c z0) s
          · exact h ▸ (slips c z0 n written named noDebt).1
          · exact h ▸ (slips c z0 n written named noDebt).2
        · exact corrects c z0 written named noDebt
      · exact answerable.refl s

end Answerable

end Sys2Proof.Proofs

/-!
PROOF. Every step keeps the machine constants, p and the debt, the timers and the read windows in their ranges (R1, R2,
R5, R6, R10, R11, R34).
-/

namespace Sys2Proof.Proofs

open Sys2Proof Sys2Proof.Machine Sys2Proof.Safety Sys2Proof.Laws

/-! ### The time base does work -/

theorem works_qualify (cell : Fin 16) (s : State) : Works s (s.qualify cell) := by
  have level : Works s (s.updCell cell fun c => { c with level := c.pinLevel, filterTimer := none }) :=
    works_cells s _ fun i => by rw [fin_getElem_setAt]; split <;> simp_all
  have captured (t : State) (z : Capture) : Works t (t.updCell cell (Cell.capture z)) :=
    works_cells t _ fun i => by rw [fin_getElem_setAt]; split <;> simp_all [Cell.capture]
  exact works_ite ((level.trans (captured _ _)).trans (works_handEdge ..)) level

theorem works_takeChord (s : State) : Works s s.takeChord := by
  unfold State.takeChord
  dsimp only
  split <;> exact works_of_parts ..

theorem works_takeExpiries (s : State) : Works s s.takeExpiries := by
  unfold State.takeExpiries
  extract_lets s1 s2 s3
  have w1 : Works s s1 := works_foldl (fun s i => works_ite (works_qualify i s) (works_refl s)) _ s
  have w2 : Works s s2 := works_ite (w1.trans (works_standbyExpires _)) w1
  have w3 : Works s s3 := works_ite (w2.trans (works_primeCompletes _)) w2
  exact works_ite (w3.trans (works_takeChord _)) w3

/-! ### The ranges -/

/-- The four ranges together: what one step's proof needs of the step before. -/
def CountersInRange (s : State) : Prop := ConstantsInRange s ∧ AngleInRange s ∧ TimersInRange s ∧ WindowsLegal s

/-- A step keeps the ranges. -/
def KeepsCounters (s t : State) : Prop := CountersInRange s → CountersInRange t

section
variable {s t u : State}

theorem KeepsCounters.trans (h : KeepsCounters s t) (g : KeepsCounters t u) : KeepsCounters s u := fun r => g (h r)

theorem keepsCounters_refl (s : State) : KeepsCounters s s := id

/-- The ranges speak of the constants, the angle unit and the windows alone. -/
theorem keepsCounters_of_eq (constants : t.constants = s.constants) (angle : t.angle = s.angle)
    (windows : t.ring.windows = s.ring.windows) : KeepsCounters s t := by
  intro h
  simpa only [CountersInRange, ConstantsInRange, AngleInRange, TimersInRange, WindowsLegal, State.lineLength, constants,
    angle, windows] using h

theorem keepsCounters_of_works (h : Works s t) : KeepsCounters s t :=
  keepsCounters_of_eq h.constants h.angle h.windows

theorem keepsCounters_answerable : Answerable KeepsCounters :=
  ⟨keepsCounters_refl, fun _ _ h => h.trans (keepsCounters_of_eq rfl rfl rfl)⟩

/-- A legal window for one port. -/
theorem keepsCounters_putWindow {p : Port} {w : ReadWindow}
    (legal : WindowsLegal s → WindowLegal s.lineLength w) : KeepsCounters s (s.putWindow p w) := by
  rintro ⟨constants, angle, timers, windows⟩
  refine ⟨constants, angle, timers, fun q => ?_⟩
  change WindowLegal s.lineLength ((s.ring.windows.set p w).get q)
  rw [perPort_get_set]
  split
  · exact legal windows
  · exact windows q

/-- A line has a position, so the whole line is a legal window (R37). -/
theorem whole_legal (h : ConstantsInRange s) : WindowLegal s.lineLength (.whole s.lineLength) := by
  have line : 0 < s.lineLength := by
    unfold State.lineLength
    cases written : s.constants with
    | none => decide
    | some c =>
      obtain ⟨-, -, least, -⟩ := h c written
      exact Nat.lt_of_lt_of_le (by decide) least
  exact ⟨Nat.zero_le _, Nat.zero_le _, Nat.sub_lt line Nat.one_pos⟩

theorem windowsLegal_resetWindows (h : ConstantsInRange s) : WindowsLegal s.resetWindows
  | .line => whole_legal h
  | .inspection => whole_legal h
  | .drive => whole_legal h

/-! ### The angle unit -/

/-- The angle unit alone changes: the timers stay in range, and p and the debt do with the constants written or not. -/
theorem countersInRange_angle (h : CountersInRange s) (constants : t.constants = s.constants)
    (windows : t.ring.windows = s.ring.windows) (timers : TimersInRange t)
    (written : ∀ c, s.constants = some c → t.angle.p < c.e ∧ t.angle.debt ≤ c.e)
    (unwritten : s.constants = none → t.angle.p = 0 ∧ t.angle.debt = 0) : CountersInRange t := by
  obtain ⟨range, -, -, legal⟩ := h
  refine ⟨by simpa only [ConstantsInRange, constants] using range, ?_, timers, ?_⟩
  · unfold AngleInRange
    rw [constants]
    cases h : s.constants with
    | none => exact unwritten h
    | some c => exact written c h
  · simpa only [WindowsLegal, State.lineLength, constants, windows] using legal

/-- The constants and the windows stay, and so do p and the debt. -/
theorem countersInRange_timers (h : CountersInRange s) (constants : t.constants = s.constants)
    (windows : t.ring.windows = s.ring.windows) (p : t.angle.p = s.angle.p) (debt : t.angle.debt = s.angle.debt)
    (timers : TimersInRange t) : CountersInRange t := by
  refine countersInRange_angle h constants windows timers (fun c written => ?_) fun unwritten => ?_
  · have := h.2.1
    rw [AngleInRange, written] at this
    rwa [p, debt]
  · have := h.2.1
    rw [AngleInRange, unwritten] at this
    rwa [p, debt]

theorem angle_of_written {c : Constants} (h : CountersInRange s) (written : s.constants = some c) :
    s.angle.p < c.e ∧ s.angle.debt ≤ c.e ∧ 0 < c.e := by
  obtain ⟨constants, angle, -, -⟩ := h
  obtain ⟨least, -⟩ := constants c written
  rw [AngleInRange, written] at angle
  exact ⟨angle.1, angle.2, by omega⟩

/-- A head advance takes the cycle timer, a 24-bit value, into Tc (R10). -/
theorem timersInRange_headAdvance {a : AngleUnit} (h : TimersInRange s) (angle : s.angle = a) (p : Nat)
    (new : t.angle = { a.headAdvance with p := p }) : TimersInRange t := by
  subst angle
  obtain ⟨tc, timer, halt⟩ := h
  rw [TimersInRange, new]
  refine ⟨?_, Nat.zero_le _, halt⟩
  change (if s.angle.hasReference then s.angle.cycleTimer else s.angle.tc) ≤ cycleTimeMax
  split <;> assumption

theorem keepsCounters_wrap {c : Constants} {p : Nat} (written : s.constants = some c) (below : p < c.e) :
    KeepsCounters s (s.wrap p) := by
  intro h
  obtain ⟨setup, -, angle⟩ := wrap_spec p s
  refine countersInRange_angle h setup.constants setup.windows (timersInRange_headAdvance h.2.2.1 rfl p angle)
    (fun c' written' => ?_) fun unwritten => by rw [written] at unwritten; cases unwritten
  rw [written] at written'
  cases written'
  rw [angle]
  exact ⟨below, (angle_of_written h written).2.1⟩

theorem keepsCounters_stepForward {c : Constants} {p : Nat} (written : s.constants = some c) (below : p < c.e) :
    KeepsCounters s (s.stepForward p) := by
  intro h
  obtain ⟨setup, -, angle⟩ := stepForward_spec p s
  have timers : TimersInRange (s.stepForward p) := by rw [TimersInRange, angle]; exact h.2.2.1
  refine countersInRange_angle h setup.constants setup.windows timers
    (fun c' written' => ?_) fun unwritten => by rw [written] at unwritten; cases unwritten
  rw [written] at written'
  cases written'
  rw [angle]
  exact ⟨below, (angle_of_written h written).2.1⟩

/-- p and the debt set within their ranges. -/
theorem keepsCounters_setAngle {c : Constants} (written : s.constants = some c) (a : AngleUnit)
    (timers : TimersInRange s → TimersInRange { s with angle := a })
    (range : s.angle.p < c.e → s.angle.debt ≤ c.e → 0 < c.e → a.p < c.e ∧ a.debt ≤ c.e) :
    KeepsCounters s { s with angle := a } := by
  intro h
  obtain ⟨below, debt, positive⟩ := angle_of_written h written
  refine countersInRange_angle h rfl rfl (timers h.2.2.1) (fun c' written' => ?_)
    fun unwritten => by rw [written] at unwritten; cases unwritten
  rw [written] at written'
  cases written'
  exact range below debt positive

/-! ### Counts (R5, R6) -/

theorem keepsCounters_forwardWork {c : Constants} (written : s.constants = some c) :
    KeepsCounters s (s.forwardWork c) := by
  unfold State.forwardWork
  split
  · exact keepsCounters_setAngle written _ id fun below debt _ => ⟨below, Nat.le_trans (Nat.sub_le ..) debt⟩
  · split
    · exact keepsCounters_stepForward written ‹_›
    · exact fun h => keepsCounters_wrap written (angle_of_written h written).2.2 h

theorem keepsCounters_backwardWork {c : Constants} (written : s.constants = some c) :
    KeepsCounters s (s.backwardWork c) := by
  unfold State.backwardWork
  split
  · exact keepsCounters_setAngle written _ id fun below debt _ => ⟨Nat.lt_of_le_of_lt (Nat.sub_le ..) below, debt⟩
  · split
    · have zero : KeepsCounters s { s with angle := { s.angle with debt := 0 } } :=
        keepsCounters_setAngle written _ id fun below _ _ => ⟨below, Nat.zero_le _⟩
      exact zero.trans (keepsCounters_of_works (works_trackLost _))
    · exact keepsCounters_setAngle written _ id fun below _ _ => ⟨below, by simp only; omega⟩

/-- Around a count's own effect only the sampled levels and the halt timer move (R4). -/
theorem keepsCounters_takeCount {sense : CountSense} {work : State → State}
    (h : ∀ u, u.constants = s.constants → KeepsCounters u (work u)) : KeepsCounters s (s.takeCount sense work) := by
  obtain ⟨u, before, after⟩ := takeCount_spec sense work s
  have counted : KeepsCounters s (s.counted sense) := fun r =>
    countersInRange_timers r rfl rfl rfl rfl ⟨r.2.2.1.1, r.2.2.1.2.1, Nat.zero_le _⟩
  exact ((counted.trans (keepsCounters_of_works before)).trans (h u before.constants)).trans (keepsCounters_of_works after)

theorem keepsCounters_transition (sense : CountSense) : KeepsCounters s (s.transition sense) := fun r =>
  countersInRange_timers r rfl rfl rfl rfl r.2.2.1

/-! ### Index correction (R7) -/

/-- The distance is congruent to Z0 − p, above −E/2 and not above E/2. -/
theorem indexDistance_spec {e z0 p : Nat} (positive : 0 < e) :
    -(e : Int) < 2 * indexDistance e z0 p ∧ 2 * indexDistance e z0 p ≤ e
      ∧ ∃ m : Int, indexDistance e z0 p = z0 - p + m * e := by
  have nonneg : 0 ≤ ((z0 : Int) - p) % e := Int.emod_nonneg _ (by omega)
  have below : ((z0 : Int) - p) % e < e := Int.emod_lt_of_pos _ (by omega)
  have whole : ((z0 : Int) - p) % e = z0 - p + -(((z0 : Int) - p) / e) * e := by
    rw [Int.emod_def, neg_mul, mul_comm]; ring
  unfold indexDistance
  dsimp only
  split
  · exact ⟨by omega, by omega, _, whole⟩
  · exact ⟨by omega, by omega, -(((z0 : Int) - p) / e) - 1, by rw [whole]; ring⟩

theorem keepsCounters_correctIndex {c : Constants} {z0 : Nat} (written : s.constants = some c) (named : c.z0 = some z0) :
    KeepsCounters s (s.correctIndex c z0) := by
  intro h
  obtain ⟨below, debt, positive⟩ := angle_of_written h written
  have z0Below : z0 < c.e := (h.1 c written).2.2.2.2 z0 named
  obtain ⟨least, -, -⟩ := indexDistance_spec (z0 := z0) (p := s.angle.p) positive
  revert h
  unfold State.correctIndex
  dsimp only
  split
  · exact id
  · split
    · split
      · exact keepsCounters_stepForward written z0Below
      · exact keepsCounters_wrap written z0Below
    · split
      · exact keepsCounters_setAngle written _ id fun _ debt _ => ⟨z0Below, debt⟩
      · exact keepsCounters_setAngle written _ id fun _ _ _ => ⟨positive, by simp only; omega⟩

/-! ### Commands -/

theorem keepsCounters_setConstants (r : RawConstants) : KeepsCounters s (s.setConstants r).1 := by
  rcases setConstants_state s r with h | ⟨c, -, inside, h⟩
  · exact keepsCounters_answerable.of_eq h
  · rw [h]
    rintro ⟨-, -, ⟨-, -, halt⟩, -⟩
    have range : ConstantsInRange (s.installConstants c) := by
      rintro _ ⟨⟩
      simp only [constantsOf, Option.bind_eq_bind, Option.bind_eq_some_iff, Option.ite_none_right_eq_some, inRange,
        Bool.and_eq_true, decide_eq_true_eq, Option.some.injEq] at inside
      obtain ⟨_, -, z0, index, _, -, _, -, ⟨⟨e1, e2⟩, p1, p2⟩, rfl⟩ := inside
      refine ⟨e1, e2, p1, p2, fun z hz => ?_⟩
      cases hz
      simp only [indexPositionOf] at index
      split at index
      · cases index
      · split at index
        · cases index; assumption
        · cases index
    refine ⟨range, ⟨?_, Nat.zero_le _⟩, ⟨Nat.le_refl _, Nat.zero_le _, halt⟩, ?_⟩
    · obtain ⟨least, -⟩ := range c rfl
      exact (by decide : 0 < 2000).trans_le least
    · exact windowsLegal_resetWindows (s := { s with constants := some c }) range

/-- What both resets leave of the constants, the angle unit and the windows (R37). -/
theorem commonReset_counters (cause : ResetCause) (first : Option Cause) :
    (s.commonReset cause first).constants = s.constants ∧ (s.commonReset cause first).angle = s.angle
    ∧ ∀ p, (s.commonReset cause first).ring.windows.get p = .whole s.lineLength :=
  ⟨rfl, rfl, fun p => by cases p <;> rfl⟩

/-- A reset that keeps the angle unit and makes the windows whole. -/
theorem keepsCounters_whole (constants : t.constants = s.constants) (angle : t.angle = s.angle)
    (windows : ∀ p, t.ring.windows.get p = .whole s.lineLength) : KeepsCounters s t := by
  rintro ⟨range, angles, timers, -⟩
  simp only [CountersInRange, ConstantsInRange, AngleInRange, TimersInRange, WindowsLegal, State.lineLength, constants,
    angle, windows]
  exact ⟨range, angles, timers, fun _ => whole_legal range⟩

theorem keepsCounters_commonReset (cause : ResetCause) (first : Option Cause) :
    KeepsCounters s (s.commonReset cause first) := by
  obtain ⟨constants, angle, windows⟩ := commonReset_counters (s := s) cause first
  exact keepsCounters_whole constants angle windows

theorem keepsCounters_rstnReset : KeepsCounters s s.rstnReset := by
  intro h
  have common := keepsCounters_commonReset .resetLine none h
  refine countersInRange_angle common rfl rfl ⟨Nat.le_refl _, Nat.zero_le _, Nat.le_refl _⟩
    (fun c written => ?_) fun _ => ⟨rfl, rfl⟩
  exact ⟨(angle_of_written common written).2.2, Nat.zero_le _⟩

theorem keepsCounters_powerOn (rstnLow : Bool) : KeepsCounters s (s.powerOn rstnLow) := by
  intro _
  have noConstants : ConstantsInRange (s.powerOn rstnLow) := fun _ h => by cases h
  refine ⟨noConstants, ⟨rfl, rfl⟩, ⟨Nat.le_refl _, Nat.zero_le _, Nat.le_refl _⟩, fun p => ?_⟩
  cases p <;> exact whole_legal noConstants

theorem keepsCounters_readNext (p : Port) : KeepsCounters s (s.readNext p).1 :=
  keepsCounters_putWindow fun legal => by
    obtain ⟨first, last, inLine⟩ := legal p
    obtain ⟨first', last'⟩ := advance_within first last
    exact ⟨first', last', inLine⟩

theorem keepsCounters_setWindow (p : Port) (first last : Byte) : KeepsCounters s (s.setWindow p first last).1 := by
  rcases setWindow_state s p first last with h | ⟨ordered, inLine, h⟩
  · exact keepsCounters_answerable.of_eq h
  · rw [h]
    rintro r
    refine keepsCounters_putWindow (fun _ => ⟨Nat.le_refl _, ordered, ?_⟩) r
    have := (whole_legal r.1).2.2
    simp only [ReadWindow.whole] at this
    simp only
    omega

theorem keepsCounters_disarmed : KeepsCounters s s.disarmed :=
  (keepsCounters_of_works (works_abortPrime .standby s)).trans (keepsCounters_of_eq rfl rfl rfl)

theorem keepsCounters_portReset (p : Port) : KeepsCounters s (s.portReset p) := by
  have window : KeepsCounters s ((s.releaseLocksOf p).putWindow p (.whole s.lineLength)) := fun r =>
    keepsCounters_putWindow (s := s.releaseLocksOf p) (fun _ => whole_legal r.1) r
  unfold State.portReset
  dsimp only
  split <;> exact window.trans (keepsCounters_of_eq rfl rfl rfl)

theorem keepsCounters_tick : KeepsCounters s s.tick := by
  unfold State.tick
  split
  · exact id
  · have timers : KeepsCounters s s.advanceTimers := fun r =>
      countersInRange_timers r rfl rfl rfl rfl ⟨r.2.2.1.1, Nat.min_le_left .., Nat.min_le_left ..⟩
    exact timers.trans (keepsCounters_of_works (works_takeExpiries _))

theorem keepsCounters_cells {cells : Vector Cell 16}
    (h : t = { s with cells := cells } ∨ ∃ i angle, t = State.handEdge i angle { s with cells := cells }) :
    KeepsCounters s t := by
  rcases h with rfl | ⟨i, angle, rfl⟩ <;> exact keepsCounters_of_eq rfl rfl rfl

/-- Every command keeps the ranges. -/
theorem keepsCounters_exec {i : Instr} (next : exec i s = .next t) : KeepsCounters s t := by
  have answers := keepsCounters_answerable
  cases i with
  | nop | status | readMotion | shortFrame | unknownCommand | notOnPort | parameterLengthMismatch =>
    exact answers.frame_same (f := fun s => (s, _)) next rfl
  | statusWithAcknowledge => exact answers.frame next (keepsCounters_of_eq rfl rfl rfl)
  | setWindow p first last => exact answers.frame next (keepsCounters_setWindow p first last)
  | readNext p => exact answers.frame next (keepsCounters_readNext p)
  | readSeq p seq => exact answers.frame_same next (readSeq_state s seq)
  | peekCell p cell => exact answers.frame_same next (peekCell_state s cell)
  | takeCell cell =>
    obtain ⟨_, h⟩ := takeCell_state s cell
    exact answers.frame next (keepsCounters_cells (.inl h))
  | stop port =>
    exact answers.frame (f := fun s => (s.raiseCause (stopCause port), .bare .ok)) next
      (keepsCounters_of_works (works_raiseCause _ s))
  | lockNew =>
    rcases lockNew_state s with ⟨_, -, h⟩ | ⟨_, h⟩ <;>
      exact answers.frame next (h ▸ keepsCounters_of_eq rfl rfl rfl)
  | lockReturn p n | lockTake p n | lockRelease p n | lockQuery p n =>
    rcases lockCommand_state s n _ with ⟨_, -, h⟩ | ⟨_, h⟩ <;>
      exact answers.frame next (h ▸ keepsCounters_of_eq rfl rfl rfl)
  | writeFormat p slot g =>
    rcases writeFormat_state s p slot g with h | ⟨_, _, -, -, h⟩
    · exact answers.frame_same next h
    · exact answers.frame next (h ▸ keepsCounters_of_eq rfl rfl rfl)
  | readFormat p slot group => exact answers.frame_same next (readFormat_state s slot group)
  | commitFormat p slot =>
    rcases commitFormat_state s p slot with h | ⟨_, -, h⟩
    · exact answers.frame_same next h
    · exact answers.frame next (h ▸ keepsCounters_of_eq rfl rfl rfl)
  | arm =>
    rcases arms_state s with h | ⟨k, -, -, h⟩
    · exact answers.frame_same next h
    · refine answers.frame next (h ▸ ?_)
      unfold State.openBatchAtArm
      split <;> exact keepsCounters_of_eq rfl rfl rfl
  | disarm =>
    rcases disarm_state s with h | ⟨-, -, h⟩
    · exact answers.frame_same next h
    · exact answers.frame next (h ▸ keepsCounters_disarmed)
  | clear =>
    rcases clear_state s with h | ⟨-, h⟩
    · exact answers.frame_same next h
    · exact answers.frame next (h ▸ keepsCounters_of_eq rfl rfl rfl)
  | softReset =>
    exact answers.softReset next fun _ =>
      (keepsCounters_commonReset .soft s.line.firstCause).trans (keepsCounters_of_eq rfl rfl rfl)
  | setConstants r => exact answers.frame next (keepsCounters_setConstants r)
  | setCell r =>
    obtain ⟨_, h⟩ := setCell_state s r
    exact answers.frame next (keepsCounters_cells (.inl h))
  | changeover slot =>
    rcases changeover_state s slot with h | h | ⟨n, -, -, ⟨-, h⟩ | ⟨-, h⟩⟩
    · exact answers.frame_same next h
    · exact answers.frame next (h ▸ keepsCounters_of_eq rfl rfl rfl)
    · exact answers.frame next (h ▸ (keepsCounters_of_works (works_makeActive n _ s)))
    · exact answers.frame next (h ▸ keepsCounters_of_eq rfl rfl rfl)
  | takeBatch =>
    rcases takeBatch_state s with h | ⟨_, _, -, h⟩
    · exact answers.frame_same next h
    · exact answers.frame next (h ▸ keepsCounters_of_eq rfl rfl rfl)
  | peekBatch => exact answers.frame_same next (peekBatch_state s)
  | closeBatch =>
    rcases closeBatch_state s with h | ⟨_, _, -, -, h⟩
    · exact answers.frame_same next h
    · exact answers.frame next (h ▸ (keepsCounters_of_works (works_closeOpenBatch ..)))
  | markReject seq =>
    rcases markReject_state s seq with h | h
    · exact answers.frame_same next h
    · exact answers.frame next (h ▸ (keepsCounters_of_works (works_update ..)))
  | primeGum =>
    obtain ⟨_, h⟩ := primeGum_state s
    exact answers.frame next (h ▸ keepsCounters_of_eq rfl rfl rfl)
  | nudge v =>
    rcases nudge_state s v with h | h
    · exact answers.frame_same next h
    · exact answers.frame next (h ▸ (keepsCounters_of_works (works_applyCorrection _ s)))
  | setCym mode =>
    obtain ⟨_, h⟩ := setCym_state s mode
    exact answers.frame next (h ▸ keepsCounters_of_eq rfl rfl rfl)
  | takeNotice =>
    rcases takeNotice_state s with h | ⟨_, _, -, h⟩
    · exact answers.frame_same next h
    · exact answers.frame next (h ▸ keepsCounters_of_eq rfl rfl rfl)
  | verdict seq outcome code =>
    rcases takeVerdict_state s seq outcome code with h | ⟨_, _, -, -, -, h⟩
    · exact answers.frame_same next h
    · exact answers.frame next (h ▸ (keepsCounters_of_works ((works_update ..).trans (works_withdraw ..))))
  | takeTrim =>
    obtain ⟨_, h⟩ := takeTrim_state s
    exact answers.frame next (h ▸ keepsCounters_of_eq rfl rfl rfl)
  | forwardCount =>
    exact answers.count next (fun _ => keepsCounters_transition _) fun c written =>
      (keepsCounters_transition .forward).trans (keepsCounters_takeCount fun u same =>
        keepsCounters_forwardWork (same.trans written))
  | backwardCount =>
    exact answers.count next (fun _ => keepsCounters_transition _) fun c written =>
      (keepsCounters_transition .backward).trans (keepsCounters_takeCount fun u same =>
        keepsCounters_backwardWork (same.trans written))
  | indexCorrection =>
    refine answers.indexCorrection next (fun c z0 written named _ => keepsCounters_correctIndex written named)
      fun c z0 n written named _ => ?_
    have corrects (u : State) (same : u.constants = s.constants) : KeepsCounters u (u.correctIndex c z0) :=
      keepsCounters_correctIndex (same.trans written) named
    have raises (u : State) : KeepsCounters u (u.raiseCause .indexSlip) := (keepsCounters_of_works (works_raiseCause _ u))
    have chosen : KeepsCounters s { s with choice := n } := keepsCounters_of_eq rfl rfl rfl
    exact ⟨(chosen.trans (raises _)).trans (corrects _ (works_raiseCause ..).constants),
      (chosen.trans (corrects _ rfl)).trans (raises _)⟩
  | discardedSample =>
    exact answers.event (f := fun s => { s with angle := _ }) next fun r => countersInRange_timers r rfl rfl rfl rfl r.2.2.1
  | haltTimerExpiry =>
    exact answers.event (f := fun s => { s with angle := _ }) next fun r =>
      countersInRange_timers r rfl rfl rfl rfl ⟨r.2.2.1.1, r.2.2.1.2.1, Nat.le_refl _⟩
  | crawlThreshold =>
    exact answers.event (f := fun s => { s with angle := _ }) next fun r =>
      countersInRange_timers r rfl rfl rfl rfl ⟨r.2.2.1.1, Nat.max_le.mpr ⟨r.2.2.1.2.1, by decide⟩, r.2.2.1.2.2⟩
  | cymPulseEnd => exact answers.event next (keepsCounters_of_eq rfl rfl rfl)
  | pulseEnd cell => exact answers.event (f := fun s => s.updCell cell _) next (keepsCounters_of_eq rfl rfl rfl)
  | filterExpiry cell =>
    exact answers.event_if (c := fun s => s.cells[cell].filterTimer.isSome) next
      fun _ => (keepsCounters_of_works (works_qualify cell s))
  | standbyExpiry =>
    exact answers.event_if (c := fun s => s.standbyRuns) next fun _ => (keepsCounters_of_works (works_standbyExpires s))
  | primeComplete =>
    exact answers.event_if (c := fun s => s.gum.state = .priming) next fun _ => (keepsCounters_of_works (works_primeCompletes s))
  | chordTaken =>
    exact answers.event_if (c := fun s => s.line.chordTimer.isSome) next fun _ => (keepsCounters_of_works (works_takeChord s))
  | pinChange cell high | levelInputChange cell high =>
    obtain ⟨_, h | ⟨angle, h⟩⟩ := pinGoes_state s cell high
    · exact Answerable.next next (keepsCounters_cells (.inl h))
    · exact Answerable.next next (keepsCounters_cells (.inr ⟨cell, angle, h⟩))
  | operatorLineChange a b =>
    obtain ⟨_, _, _, -, h⟩ := operatorLines_state s a b
    exact Answerable.next next (h ▸ keepsCounters_of_eq rfl rfl rfl)
  | powerOn rstnLow => exact Answerable.next next (keepsCounters_powerOn rstnLow)
  | rstnReset => exact Answerable.next next keepsCounters_rstnReset
  | portReset p => exact Answerable.next next (keepsCounters_portReset p)
  | emptyFrame | rstnRelease | portResetRelease =>
    exact Answerable.next next (keepsCounters_of_eq rfl rfl rfl)

theorem keepsCounters_step (next : step s = .next t) : KeepsCounters s t := by
  unfold step at next
  split at next
  · exact Answerable.next next keepsCounters_tick
  · have taken (rest : List Instr) : KeepsCounters s { s with pending := rest } := keepsCounters_of_eq rfl rfl rfl
    exact (taken _).trans (keepsCounters_exec next)

end

/-- Settles O57: every command and the µs of an empty queue keep the four ranges together. -/
theorem stepKeepsCountersInRange : Obligations.StepKeepsCountersInRange :=
  fun _ _ constants angle timers windows next => keepsCounters_step next ⟨constants, angle, timers, windows⟩

end Sys2Proof.Proofs

/-!
PROOF. The batch counter (chapter 7): what a closure, the full-size test, the format boundary and a hand-over make of the
open batch, and the commands on it and on the log.
-/

namespace Sys2Proof.Proofs

open Sys2Proof Sys2Proof.Machine Sys2Proof.Safety Sys2Proof.Laws

/-! ### A closure (R127) -/

/-- A closure closes the box with it: at a changeover of formats, at a boundary, or by size (R127). -/
def BoxCloses (s : State) (o : OpenBatch) (cause : CloseCause) (boundary : Option (Fin 4)) : Prop :=
  cause = .changeover ∨ boundary.isSome = true
    ∨ (cause = .full ∨ cause = .oversize) ∧ o.fields.heldPerBox ≤ (increase .inBox s.batch.inBox).toNat

/-- The record appended to the log, the kick latched, the batch counted into its box. -/
def State.appended (s : State) (o : OpenBatch) (cause : CloseCause) : State :=
  { s with
    batch := { s.batch with
      log := s.batch.log ++ [BatchRecord.mk o.fields cause], kick := true, inBox := increase .inBox s.batch.inBox }
    line := { s.line with
      events := if s.batch.log.length = 23 then addBit s.line.events LineEvent.logHigh.bit else s.line.events } }

theorem closeOpenBatch_eq (o : OpenBatch) (cause : CloseCause) (boundary : Option (Fin 4)) (s : State)
    [Decidable (BoxCloses s o cause boundary)] :
    s.closeOpenBatch o cause boundary
      = (if BoxCloses s o cause boundary then (State.appended s o cause).closeBox
          else State.appended s o cause).openBatchFor (boundary.getD o.fields.fmt) := by
  have high : (s.batch.log ++ [BatchRecord.mk o.fields cause]).length = logHigh ↔ s.batch.log.length = 23 := by
    simp [logHigh]
  have appended : (if (s.batch.log ++ [BatchRecord.mk o.fields cause]).length = logHigh then
      State.setEvent { s with batch := { s.batch with
        log := s.batch.log ++ [BatchRecord.mk o.fields cause], kick := true
        inBox := increase .inBox s.batch.inBox } } .logHigh
      else { s with batch := { s.batch with
        log := s.batch.log ++ [BatchRecord.mk o.fields cause], kick := true
        inBox := increase .inBox s.batch.inBox } }) = State.appended s o cause := by
    simp only [high, State.appended]
    split <;> rfl
  unfold State.closeOpenBatch
  dsimp only
  rw [appended]
  congr 1
  have closes : (decide (cause = .changeover) || boundary.isSome
      || (decide (cause = .full) || decide (cause = .oversize))
        && decide (o.fields.heldPerBox ≤ (State.appended s o cause).batch.inBox.toNat)) = true
      ↔ BoxCloses s o cause boundary := by
    simp only [Bool.or_eq_true, Bool.and_eq_true, decide_eq_true_eq, or_assoc]
    rfl
  simp only [closes]

theorem closedAs_closeOpenBatch (o : OpenBatch) (cause : CloseCause) (boundary : Option (Fin 4)) (s : State) :
    ClosedAs s (s.closeOpenBatch o cause boundary) o cause (boundary.getD o.fields.fmt)
      (BoxCloses s o cause boundary) := by
  classical
  rw [closeOpenBatch_eq]
  have event (x : LineEvent) (y : LineEvent) (c : Prop) [Decidable c] (set : EventSet) :
      hasBit (if c then addBit set y.bit else set) x.bit = true ↔ hasBit set x.bit = true ∨ x = y ∧ c := by
    split <;> simp_all
  by_cases closes : BoxCloses s o cause boundary
  · rw [if_pos closes]
    refine ⟨rfl, rfl, rfl, rfl, fun _ => ⟨rfl, rfl, rfl⟩, fun h => absurd closes h, fun x => ?_, rfl, rfl⟩
    change hasBit (addBit (if _ then addBit _ _ else _) LineEvent.boxClosed.bit) x.bit = true ↔ _
    rw [addEvent_set_mem, Bool.or_eq_true, event]
    simp only [closes, and_true, decide_eq_true_eq]
    tauto
  · rw [if_neg closes]
    refine ⟨rfl, rfl, rfl, rfl, fun h => absurd h closes, fun _ => ⟨rfl, rfl, rfl⟩, fun x => ?_, rfl, rfl⟩
    change hasBit (if _ then addBit _ _ else _) x.bit = true ↔ _
    rw [event]
    simp only [closes, and_false, false_or]

theorem closedAs_of_iff {s t : State} {o : OpenBatch} {cause : CloseCause} {fmt : Fin 4} {c d : Prop}
    (h : ClosedAs s t o cause fmt c) (same : c ↔ d) : ClosedAs s t o cause fmt d := propext same ▸ h

/-! ### The log's room -/

section
variable {s : State}

theorem logFull_of_lt (h : s.batch.log.length < 32) : s.logFull = false := by
  exact decide_eq_false (Nat.not_le.mpr h)

theorem logFull_of_le (h : 32 ≤ s.batch.log.length) : s.logFull = true := by
  exact decide_eq_true h

/-! ### The open batch's updates -/

section
variable {o : OpenBatch} (opened : s.batch.openBatch = some o)
include opened

theorem updBatch_of_open (f : BatchFields → BatchFields) :
    s.updBatch f = { s with batch := { s.batch with openBatch := some { o with fields := f o.fields } } } := by
  simp only [State.updBatch, opened, Option.map_some]

theorem setBatchState_of_open (st : BatchState) :
    s.setBatchState st = { s with batch := { s.batch with openBatch := some { o with state := st } } } := by
  simp only [State.setBatchState, opened, Option.map_some]

/-! ### The full-size test (R126) -/

theorem fullSizeTest_open_below (open' : o.state = .open) (below : o.fields.count.toNat < o.fields.heldSize) :
    s.fullSizeTest = s := by
  simp only [State.fullSizeTest, opened, open', below.ne, if_false]

theorem fullSizeTest_open_full (open' : o.state = .open) (full : o.fields.count.toNat = o.fields.heldSize)
    (noRoom : 32 ≤ s.batch.log.length) : s.fullSizeTest = s.setBatchState .held := by
  simp only [State.fullSizeTest, opened, open', full, if_true, logFull_of_le noRoom]

theorem fullSizeTest_held_waits (held : o.state = .held) (noRoom : 32 ≤ s.batch.log.length) : s.fullSizeTest = s := by
  simp only [State.fullSizeTest, opened, held, logFull_of_le noRoom, if_true]

theorem fullSizeTest_held_below (held : o.state = .held) (room : s.batch.log.length < 32)
    (below : o.fields.count.toNat < o.fields.heldSize) : s.fullSizeTest = s.setBatchState .open := by
  simp only [State.fullSizeTest, opened, held, logFull_of_lt room, below, if_true, Bool.false_eq_true, if_false]

theorem fullSizeTest_closes (room : s.batch.log.length < 32) (full : o.fields.count.toNat = o.fields.heldSize) :
    s.fullSizeTest = s.closeOpenBatch o .full none := by
  cases h : o.state <;>
    simp only [State.fullSizeTest, opened, h, logFull_of_lt room, full, lt_irrefl, if_true, Bool.false_eq_true,
      if_false]

theorem fullSizeTest_oversize (held : o.state = .held) (room : s.batch.log.length < 32)
    (above : o.fields.heldSize < o.fields.count.toNat) : s.fullSizeTest = s.closeOpenBatch o .oversize none := by
  simp only [State.fullSizeTest, opened, held, logFull_of_lt room, above.not_gt, above.ne', Bool.false_eq_true,
    if_false]

theorem fullSizeTest_closedAs (room : s.batch.log.length < 32) (full : o.fields.count.toNat = o.fields.heldSize) :
    ClosedAs s s.fullSizeTest o .full o.fields.fmt
      (o.fields.heldPerBox ≤ (increase .inBox s.batch.inBox).toNat) := by
  rw [fullSizeTest_closes opened room full]
  exact closedAs_of_iff (closedAs_closeOpenBatch o .full none s) (by simp [BoxCloses])

theorem fullSizeTest_closedAs_oversize (held : o.state = .held) (room : s.batch.log.length < 32)
    (above : o.fields.heldSize < o.fields.count.toNat) : ClosedAs s s.fullSizeTest o .oversize o.fields.fmt
      (o.fields.heldPerBox ≤ (increase .inBox s.batch.inBox).toNat) := by
  rw [fullSizeTest_oversize opened held room above]
  exact closedAs_of_iff (closedAs_closeOpenBatch o .oversize none s) (by simp [BoxCloses])

end

/-! ### The format boundary (R125) -/

theorem formatBoundary_same {o : OpenBatch} {fmt : Fin 4} (opened : s.batch.openBatch = some o)
    (same : o.fields.fmt = fmt) : s.formatBoundary fmt = s := by
  simp only [State.formatBoundary, opened, same, if_true]

section
variable {o : OpenBatch} {fmt : Fin 4} (opened : s.batch.openBatch = some o) (other : o.fields.fmt ≠ fmt)
include opened other

theorem formatBoundary_empty_same_box (open' : o.state = .open) (empty : o.fields.count = 0)
    (noBatch : s.batch.inBox = 0) :
    s.formatBoundary fmt = s.updBatch fun f => { f with
      fmt := fmt, heldSize := s.slots[fmt].header.batchSize, heldPerBox := s.slots[fmt].header.perBox } := by
  simp only [State.formatBoundary, opened, other, if_false, open', empty, if_true, noBatch, ne_eq, not_true_eq_false]

theorem formatBoundary_empty_new_box (open' : o.state = .open) (empty : o.fields.count = 0)
    (batches : s.batch.inBox ≠ 0) :
    s.formatBoundary fmt = s.closeBox.updBatch fun f => { f with
      fmt := fmt, heldSize := s.slots[fmt].header.batchSize, heldPerBox := s.slots[fmt].header.perBox
      boxNumber := successor s.batch.boxNumber, indexInBox := 1 } := by
  simp only [State.formatBoundary, opened, other, if_false, open', empty, if_true, ne_eq, batches, not_false_eq_true]
  rfl

theorem formatBoundary_open_room (open' : o.state = .open) (filled : o.fields.count ≠ 0)
    (room : s.batch.log.length < 32) : s.formatBoundary fmt = s.closeOpenBatch o .changeover (some fmt) := by
  simp only [State.formatBoundary, opened, other, if_false, open', filled, logFull_of_lt room, Bool.false_eq_true]

theorem formatBoundary_held_room (held : o.state = .held) (room : s.batch.log.length < 32) :
    s.formatBoundary fmt = s.closeOpenBatch o (o.fields.causeOf .changeover) (some fmt) := by
  simp only [State.formatBoundary, opened, other, if_false, held, logFull_of_lt room, Bool.false_eq_true]

/-- A batch with the log full is HELD and MIXED. -/
theorem formatBoundary_full (waits : o.state = .held ∨ o.fields.count ≠ 0) (noRoom : 32 ≤ s.batch.log.length) :
    s.formatBoundary fmt = { s with batch := { s.batch with
      openBatch := some { state := .held, fields := { o.fields with mixed := true } } } } := by
  match h : o.state with
  | .open =>
    have filled : o.fields.count ≠ 0 := waits.resolve_left (by simp [h])
    simp only [State.formatBoundary, opened, other, if_false, h, filled, logFull_of_le noRoom, if_true,
      State.setBatchState, State.updBatch, Option.map_some]
  | .held =>
    simp only [State.formatBoundary, opened, other, if_false, h, logFull_of_le noRoom, if_true, State.updBatch,
      Option.map_some]

end

end

end Sys2Proof.Proofs

/-!
PROOF. GUM windows cut short (R92), the windows and pulses a fault ends (R19, R56), and what both leave of the records: the
statements on STOP, the standby expiry, a changeover's gum state and the loss of track.
-/

namespace Sys2Proof.Proofs

open Sys2Proof Sys2Proof.Machine Sys2Proof.Safety Sys2Proof.Laws

theorem station_updStation (s : State) (k k' : Fin 4) (i i' : Fin 16) (f : Station → Station) :
    (s.updStation k i f).station k' i'
      = if k = k' ∧ i = i' then f (s.station k i) else s.station k' i' := by
  simp only [State.station, updStation_stations, fin_getElem_setAt]
  by_cases slot : k = k'
  · subst slot
    by_cases index : i = i'
    · subst index; simp
    · simp [index, Fin.val_inj]
  · simp [slot]

@[simp] theorem close_close (st : Station) : st.close.close = st.close := rfl

/-! ### Requests that leave a final record alone (R30, R32) -/

@[simp] theorem cutShort_seq (expiry : Bool) (b : Blank) : (b.cutShort expiry).seq = b.seq := by
  unfold Blank.cutShort; split <;> simp

theorem cutShort_final {b : Blank} (h : b.disposition.final = true) (expiry : Bool) : b.cutShort expiry = b := by
  unfold Blank.cutShort
  split <;> simp only [addFault_final h]

theorem lose_final {b : Blank} (h : b.disposition.final = true) (f : BlankFault) : b.lose f = b := if_pos h

theorem addBit_addBit {n : Nat} (set : BitVec n) (i : Nat) : addBit (addBit set i) i = addBit set i := by
  simp only [addBit, BitVec.or_assoc, BitVec.or_self]

theorem addFault_addFault (f : BlankFault) (b : Blank) : (b.addFault f).addFault f = b.addFault f := by
  cases o : b.disposition.final with
  | true => simp only [addFault_final o]
  | false =>
    have twice : b.disposition.faulted.faulted = b.disposition.faulted := by cases b.disposition <;> rfl
    rw [addFault_of_open (addFault_open f o), addFault_of_open o, addBit_addBit, twice]

/-- A gum shot is cut short once. -/
theorem cutShort_cutShort (expiry : Bool) (b : Blank) : (b.cutShort expiry).cutShort expiry = b.cutShort expiry := by
  unfold Blank.cutShort
  cases expiry with
  | false => exact addFault_addFault ..
  | true =>
    simp only [if_true]
    rw [addFault_comm _ .gumSet .gumSkipped, addFault_addFault, addFault_addFault]

/-! ### Records through a raised cause -/

/-- Every record stays, or is cut short. -/
def CutsSome (expiry : Bool) (s t : State) : Prop :=
  ∀ k b, s.ring.at k = some b → t.ring.at k = some b ∨ t.ring.at k = some (b.cutShort expiry)

theorem cutsSome_of_ring {s t : State} (h : t.ring = s.ring) (expiry : Bool) : CutsSome expiry s t :=
  fun k b hb => .inl (by rw [h, hb])

theorem CutsSome.trans {expiry : Bool} {s t u : State} (h : CutsSome expiry s t) (g : CutsSome expiry t u) :
    CutsSome expiry s u := by
  intro k b hb
  rcases h k b hb with kept | cut
  · exact g k b kept
  · rcases g k _ cut with kept | twice
    · exact .inr kept
    · rw [cutShort_cutShort] at twice
      exact .inr twice

theorem cutsSome_update (expiry : Bool) (seq : Word) (s : State) :
    CutsSome expiry s (s.update seq (Blank.cutShort expiry)) := by
  intro k b hb
  cases found : s.positionOf seq with
  | none => rw [update_of_none found]; exact .inl hb
  | some j =>
    obtain ⟨b', present, -⟩ := positionOf_some found
    rw [update_of_some found present, at_putAt]
    by_cases same : j = k
    · subst same
      obtain rfl := Option.some.inj ((presentAt_some.mp present).2.symm.trans hb)
      exact .inr (if_pos rfl)
    · exact .inl (by rw [if_neg same, hb])

theorem cutsSome_cutWindow (expiry : Bool) (s : State) (x : Fin 4 × Fin 16) :
    CutsSome expiry s (State.cutWindow expiry s x) := by
  unfold State.cutWindow
  split
  · exact cutsSome_update expiry _ s
  · exact cutsSome_of_ring rfl expiry
  · exact cutsSome_of_ring rfl expiry

theorem cutsSome_cutWindows (expiry : Bool) (l : List (Fin 4 × Fin 16)) (s : State) :
    CutsSome expiry s (l.foldl (State.cutWindow expiry) s) := by
  induction l generalizing s with
  | nil => exact cutsSome_of_ring rfl expiry
  | cons x l ih => exact (cutsSome_cutWindow expiry s x).trans (ih _)

theorem cutsSome_gumTo (new : GumState) (expiry : Bool) (s : State) : CutsSome expiry s (s.gumTo new expiry) := by
  unfold State.gumTo
  dsimp only
  split
  · exact cutsSome_cutWindows expiry s.firedGum
      { s with gum := { state := new, standbyTimer := 0, primeTimer := none } }
  · exact cutsSome_of_ring rfl expiry

theorem cutsSome_abortPrime (new : GumState) (s : State) : CutsSome false s (s.abortPrime new) := by
  unfold State.abortPrime
  split
  · exact cutsSome_gumTo new false s
  · exact cutsSome_of_ring rfl false

theorem cutsSome_leaveArmed (s : State) : CutsSome false s s.leaveArmed := by
  have order : CutsSome false s (eitherOrder (decide (s.gum.state = .priming) && !s.firedGum.isEmpty)
      State.closeFired (State.abortPrime .standby) s) := by
    obtain ⟨n, h | h⟩ := eitherOrder_eq (decide (s.gum.state = .priming) && !s.firedGum.isEmpty)
      State.closeFired (State.abortPrime .standby) s <;> rw [h]
    · exact cutsSome_abortPrime .standby (State.closeFired { s with choice := n })
    · exact cutsSome_abortPrime .standby { s with choice := n }
  exact order

theorem cutsSome_raiseCause (c : Cause) (s : State) : CutsSome false s (s.raiseCause c) := by
  unfold State.raiseCause
  dsimp only
  split
  · exact fun k b hb => cutsSome_leaveArmed _ k b hb
  · exact cutsSome_of_ring rfl false

/-- A final record stays as it is. -/
theorem raiseCause_final (c : Cause) {s : State} {k : Fin 64} {b : Blank} (hb : s.ring.at k = some b)
    (final : b.disposition.final = true) : (s.raiseCause c).ring.at k = some b := by
  rcases cutsSome_raiseCause c s k b hb with kept | cut
  · exact kept
  · rw [cut, cutShort_final final]

/-! ### What a raised cause leaves and changes (R155) -/

theorem raiseCause_batch (c : Cause) (s : State) : (s.raiseCause c).batch = s.batch := by
  by_cases armed : s.line.mode = .armed
  · obtain ⟨_, _, _, h⟩ := raiseCause_of_armed c armed
    rw [h]
  · rw [raiseCause_of_not_armed c armed]

theorem raiseCause_notices (c : Cause) (s : State) : (s.raiseCause c).notices = s.notices := by
  by_cases armed : s.line.mode = .armed
  · obtain ⟨_, _, _, h⟩ := raiseCause_of_armed c armed
    rw [h]
  · rw [raiseCause_of_not_armed c armed]

theorem raiseCause_nextSeq (c : Cause) (s : State) : (s.raiseCause c).ring.nextSeq = s.ring.nextSeq :=
  (settles_raiseCause c s).nextSeq

theorem raiseCause_mode (c : Cause) (s : State) :
    (s.raiseCause c).line.mode = if s.line.mode = .armed then .faulted else s.line.mode := by
  by_cases armed : s.line.mode = .armed
  · obtain ⟨_, _, _, h⟩ := raiseCause_of_armed c armed
    rw [h, if_pos armed]
  · rw [raiseCause_of_not_armed c armed, if_neg armed, withCause]

theorem raiseCause_causes (c : Cause) (s : State) : (s.raiseCause c).line.causes = addBit s.line.causes c.bit := by
  by_cases armed : s.line.mode = .armed
  · obtain ⟨_, _, _, h⟩ := raiseCause_of_armed c armed
    rw [h]
    rfl
  · rw [raiseCause_of_not_armed c armed, withCause]

theorem raiseCause_firstCause (c : Cause) (s : State) :
    (s.raiseCause c).line.firstCause = if s.line.causes = 0 then some c else s.line.firstCause := by
  by_cases armed : s.line.mode = .armed
  · obtain ⟨_, _, _, h⟩ := raiseCause_of_armed c armed
    rw [h]
    rfl
  · rw [raiseCause_of_not_armed c armed, withCause]

/-! ### The fired GUM windows (R92) -/

theorem mem_firedGum {s : State} {x : Fin 4 × Fin 16} : x ∈ s.firedGum
    ↔ (∃ e, s.entry x.1 x.2 = some e ∧ e.kind = .gum) ∧ (s.station x.1 x.2).windowOpen = true
      ∧ (s.station x.1 x.2).fired = true := by
  simp only [State.firedGum, List.mem_flatMap, List.mem_finRange, List.mem_map, List.mem_filter, true_and,
    Bool.and_eq_true, Option.any_eq_true, decide_eq_true_eq]
  constructor
  · rintro ⟨k, i, ⟨⟨entry, isOpen⟩, fired⟩, rfl⟩
    exact ⟨entry, isOpen, fired⟩
  · rintro ⟨entry, isOpen, fired⟩
    exact ⟨x.1, x.2, ⟨⟨entry, isOpen⟩, fired⟩, rfl⟩

theorem nodup_firedGum (s : State) : s.firedGum.Nodup := by
  refine List.nodup_flatMap.mpr ⟨fun k _ => ?_, ?_⟩
  · exact List.Nodup.map (fun i j h => (Prod.mk.inj h).2) ((List.nodup_finRange 16).filter _)
  · refine (List.nodup_finRange 4).imp fun {k k'} ne => ?_
    intro x hx hx'
    simp only [List.mem_map] at hx hx'
    obtain ⟨i, -, rfl⟩ := hx
    obtain ⟨j, -, h⟩ := hx'
    exact ne (Prod.mk.inj h).1.symm

theorem gumLatched_iff {s : State} {seq : Word} :
    GumLatched s seq ↔ ∃ x ∈ s.firedGum, (s.station x.1 x.2).latch = .blank seq := by
  constructor
  · rintro ⟨k, i, e, entry, gum, isOpen, fired, latch⟩
    exact ⟨(k, i), mem_firedGum.mpr ⟨⟨e, entry, gum⟩, isOpen, fired⟩, latch⟩
  · rintro ⟨x, mem, latch⟩
    obtain ⟨⟨e, entry, gum⟩, isOpen, fired⟩ := mem_firedGum.mp mem
    exact ⟨x.1, x.2, e, entry, gum, isOpen, fired, latch⟩

/-! ### Records cut short -/

/-- The records that the windows of `latched` have latched are cut short, and no other record changes. -/
def CutsRecords (expiry : Bool) (latched : Word → Prop) (s t : State) : Prop :=
  ∀ k, (s.presentAt k = none → t.presentAt k = none)
    ∧ ∀ b, s.presentAt k = some b →
      (latched b.seq → t.presentAt k = some (b.cutShort expiry)) ∧ (¬ latched b.seq → t.presentAt k = some b)

theorem cutsRecords_of_same {s t : State} (h : ∀ k, t.presentAt k = s.presentAt k) (expiry : Bool) :
    CutsRecords expiry (fun _ => False) s t :=
  fun k => ⟨fun gap => (h k).trans gap, fun _ hb => ⟨False.elim, fun _ => (h k).trans hb⟩⟩

theorem CutsRecords.congr {expiry : Bool} {p q : Word → Prop} {s t : State} (h : CutsRecords expiry p s t)
    (same : ∀ n, p n ↔ q n) : CutsRecords expiry q s t := (funext fun n => propext (same n) : p = q) ▸ h

theorem CutsRecords.trans {expiry : Bool} {p q : Word → Prop} {s t u : State} (h : CutsRecords expiry p s t)
    (g : CutsRecords expiry q t u) : CutsRecords expiry (fun n => p n ∨ q n) s u := by
  refine fun k => ⟨fun gap => (g k).1 ((h k).1 gap), fun b hb => ?_⟩
  by_cases first : p b.seq
  · refine ⟨fun _ => ?_, fun none => absurd (.inl first) none⟩
    have cut := ((h k).2 b hb).1 first
    by_cases second : q b.seq
    · rw [((g k).2 _ cut).1 (by rwa [cutShort_seq]), cutShort_cutShort]
    · exact ((g k).2 _ cut).2 (by rwa [cutShort_seq])
  · have kept := ((h k).2 b hb).2 first
    exact ⟨fun either => ((g k).2 b kept).1 (either.resolve_left first),
      fun none => ((g k).2 b kept).2 fun second => none (.inr second)⟩

theorem CutsRecords.seqs {expiry : Bool} {p : Word → Prop} {s t : State} (h : CutsRecords expiry p s t) (k : Fin 64) :
    (t.presentAt k).map (·.seq) = (s.presentAt k).map (·.seq) := by
  cases hs : s.presentAt k with
  | none => rw [(h k).1 hs]
  | some b =>
    by_cases latched : p b.seq
    · rw [((h k).2 b hs).1 latched, Option.map_some, Option.map_some, cutShort_seq]
    · rw [((h k).2 b hs).2 latched]

theorem seqsDistinct_of_seqs {s t : State} (h : ∀ k, (t.presentAt k).map (·.seq) = (s.presentAt k).map (·.seq))
    (distinct : SeqsDistinct s) : SeqsDistinct t := by
  have numbered {k : Fin 64} {b : Blank} (hb : t.presentAt k = some b) : ∃ a, s.presentAt k = some a ∧ a.seq = b.seq := by
    have := h k
    rw [hb, Option.map_some] at this
    exact Option.map_eq_some_iff.mp this.symm
  intro j k b b' hb hb' same
  obtain ⟨a, ha, hab⟩ := numbered hb
  obtain ⟨a', ha', hab'⟩ := numbered hb'
  exact distinct j k a a' ha ha' (by rw [hab, hab', same])

/-- In a ring of distinct numbers a present record is where its number is found. -/
theorem positionOf_of_distinct {s : State} (distinct : SeqsDistinct s) {k : Fin 64} {b : Blank}
    (present : s.presentAt k = some b) : s.positionOf b.seq = some k :=
  positionOf_eq_some present rfl fun j b' hb' same => distinct j k b' b hb' present same

theorem cutsRecords_update {s : State} (distinct : SeqsDistinct s) (expiry : Bool) (seq : Word) :
    CutsRecords expiry (· = seq) s (s.update seq (Blank.cutShort expiry)) := by
  refine fun k => ⟨fun gap => ?_, fun b hb => ⟨?_, fun other => ?_⟩⟩
  · rw [presentAt_update, gap]
    split <;> rfl
  · rintro rfl
    rw [presentAt_update, if_pos (positionOf_of_distinct distinct hb), hb, Option.map_some]
  · rw [presentAt_update, if_neg, hb]
    intro found
    obtain ⟨b', hb', same⟩ := positionOf_some found
    rw [hb] at hb'
    exact other (Option.some.inj hb' ▸ same)

theorem cutsRecords_cutWindow {s : State} (distinct : SeqsDistinct s) (expiry : Bool) (x : Fin 4 × Fin 16) :
    CutsRecords expiry (fun n => (s.station x.1 x.2).latch = .blank n) s (State.cutWindow expiry s x) := by
  have unlatched (none : ∀ n, (s.station x.1 x.2).latch ≠ .blank n) : CutsRecords expiry
      (fun n => (s.station x.1 x.2).latch = .blank n) s (s.updStation x.1 x.2 Station.close) :=
    (show CutsRecords expiry (fun _ => False) s (s.updStation x.1 x.2 Station.close) from
      cutsRecords_of_same (fun _ => rfl) expiry).congr fun n => (iff_of_false id (none n))
  unfold State.cutWindow
  split
  · next seq latch =>
    refine (show CutsRecords expiry (· = seq) s ((s.update seq (Blank.cutShort expiry)).updStation x.1 x.2
      Station.close) from cutsRecords_update distinct expiry seq).congr fun n => ?_
    rw [latch]
    exact ⟨fun h => h ▸ rfl, fun h => by injection h with h; exact h.symm⟩
  · next latch => exact unlatched fun n => by rw [latch]; exact nofun
  · next latch => exact unlatched fun n => by rw [latch]; exact nofun

theorem cutWindow_station (expiry : Bool) (s : State) (x : Fin 4 × Fin 16) (k : Fin 4) (i : Fin 16) :
    (State.cutWindow expiry s x).station k i = if (k, i) = x then (s.station k i).close else s.station k i := by
  have closed (t : State) (same : t.stations = s.stations) :
      (t.updStation x.1 x.2 Station.close).station k i
        = if (k, i) = x then (s.station k i).close else s.station k i := by
    have station (k' : Fin 4) (i' : Fin 16) : t.station k' i' = s.station k' i' := by
      simp only [State.station, same]
    rw [station_updStation, station, station]
    by_cases here : (k, i) = x
    · subst here; rw [if_pos ⟨rfl, rfl⟩, if_pos rfl]
    · rw [if_neg here, if_neg fun both => here (Prod.ext both.1.symm both.2.symm)]
  unfold State.cutWindow
  split
  · next seq _ =>
    obtain ⟨entries, h⟩ := update_eq s seq (Blank.cutShort expiry)
    exact closed _ (by rw [h])
  · exact closed s rfl
  · exact closed s rfl

theorem cutWindows_station (expiry : Bool) (l : List (Fin 4 × Fin 16)) (s : State) (k : Fin 4) (i : Fin 16) :
    (l.foldl (State.cutWindow expiry) s).station k i
      = if (k, i) ∈ l then (s.station k i).close else s.station k i := by
  induction l generalizing s with
  | nil => rfl
  | cons x l ih =>
    rw [List.foldl_cons, ih, cutWindow_station]
    by_cases here : (k, i) = x
    · simp [here]
    · simp [here]

theorem cutsRecords_cutWindows (expiry : Bool) {l : List (Fin 4 × Fin 16)} (nodup : l.Nodup) {s : State}
    (distinct : SeqsDistinct s) :
    CutsRecords expiry (fun n => ∃ x ∈ l, (s.station x.1 x.2).latch = .blank n) s
      (l.foldl (State.cutWindow expiry) s) := by
  induction l generalizing s with
  | nil => exact (cutsRecords_of_same (fun _ => rfl) expiry).congr fun n => by simp
  | cons x l ih =>
    have first := cutsRecords_cutWindow distinct expiry x
    have rest := ih (List.nodup_cons.mp nodup).2 (seqsDistinct_of_seqs first.seqs distinct)
    refine (first.trans rest).congr fun n => ?_
    rw [List.exists_mem_cons_iff]
    refine or_congr Iff.rfl (exists_congr fun y => and_congr_right fun mem => ?_)
    have other : (y.1, y.2) ≠ x := by rintro rfl; exact (List.nodup_cons.mp nodup).1 mem
    rw [cutWindow_station, if_neg other]

/-- A change of the gum state from READY or PRIMING to STANDBY or OFF cuts the latched records short (R92). -/
theorem cutsRecords_gumTo {s : State} {new : GumState} (running : s.gum.state = .ready ∨ s.gum.state = .priming)
    (stops : new = .standby ∨ new = .off) (distinct : SeqsDistinct s) (expiry : Bool) :
    CutsRecords expiry (GumLatched s) s (s.gumTo new expiry) := by
  have cuts : s.gumTo new expiry = (s.firedGum.foldl (State.cutWindow expiry)
      { s with gum := { state := new, standbyTimer := 0, primeTimer := none } }).prune := by
    rw [State.gumTo, if_pos (by simpa using ⟨running, stops⟩)]
  rw [cuts]
  exact CutsRecords.congr (cutsRecords_cutWindows (s := { s with
    gum := { state := new, standbyTimer := 0, primeTimer := none } }) expiry (nodup_firedGum s) distinct)
    fun n => gumLatched_iff.symm

theorem gumTo_presentAt_of_no_window {s : State} (new : GumState) (expiry : Bool) (h : s.firedGum = []) (k : Fin 64) :
    (s.gumTo new expiry).presentAt k = s.presentAt k := by
  obtain ⟨stations, eq⟩ := gumTo_of_no_window new expiry h
  rw [eq]
  rfl

/-! ### Windows closed -/

/-- The windows of `c` are closed, no other open window changes, and no station of an evaluated slot changes else. -/
structure Closes (c : Fin 4 → Fin 16 → Prop) (s t : State) : Prop where
  evaluated : ∀ k, t.evaluated k = true → s.evaluated k = true
  closed : ∀ k i, t.evaluated k = true → c k i → t.station k i = (s.station k i).close
  kept : ∀ k i, t.evaluated k = true → ¬ c k i → t.station k i = s.station k i
  shut : ∀ k i, c k i → (t.station k i).close = t.station k i
  staysShut : ∀ k i, (s.station k i).close = s.station k i → (t.station k i).close = t.station k i
  staysOpen : ∀ k i, ¬ c k i → (s.station k i).windowOpen = true → t.station k i = s.station k i

theorem Closes.congr {c d : Fin 4 → Fin 16 → Prop} {s t : State} (h : Closes c s t) (same : ∀ k i, c k i ↔ d k i) :
    Closes d s t := (funext fun k => funext fun i => propext (same k i) : c = d) ▸ h

theorem Closes.trans {c d : Fin 4 → Fin 16 → Prop} {s t u : State} (h : Closes c s t) (g : Closes d t u) :
    Closes (fun k i => c k i ∨ d k i) s u where
  evaluated k hk := h.evaluated k (g.evaluated k hk)
  closed k i hk either := by
    by_cases first : c k i
    · by_cases second : d k i
      · rw [g.closed k i hk second, h.closed k i (g.evaluated k hk) first, close_close]
      · rw [g.kept k i hk second, h.closed k i (g.evaluated k hk) first]
    · rw [g.closed k i hk (either.resolve_left first), h.kept k i (g.evaluated k hk) first]
  kept k i hk none := by
    rw [g.kept k i hk fun second => none (.inr second), h.kept k i (g.evaluated k hk) fun first => none (.inl first)]
  shut k i either := either.elim (fun first => g.staysShut k i (h.shut k i first)) (g.shut k i)
  staysShut k i shut := g.staysShut k i (h.staysShut k i shut)
  staysOpen k i none isOpen := by
    have kept := h.staysOpen k i (fun first => none (.inl first)) isOpen
    rw [g.staysOpen k i (fun second => none (.inr second)) (by rw [kept]; exact isOpen), kept]

/-- Stations changed by closing the windows of `c` and nothing else. -/
theorem closes_of_stations {c : Fin 4 → Fin 16 → Prop} {s t : State}
    (evaluated : ∀ k, t.evaluated k = true → s.evaluated k = true)
    (closed : ∀ k i, c k i → t.station k i = (s.station k i).close)
    (kept : ∀ k i, ¬ c k i → t.station k i = s.station k i) : Closes c s t where
  evaluated := evaluated
  closed k i _ := closed k i
  kept k i _ := kept k i
  shut k i h := by rw [closed k i h, close_close]
  staysShut k i shut := by
    by_cases h : c k i
    · rw [closed k i h, close_close]
    · rw [kept k i h, shut]
  staysOpen k i none _ := kept k i none

theorem closes_of_same {s t : State} (evaluated : ∀ k, t.evaluated k = true → s.evaluated k = true)
    (same : t.stations = s.stations) : Closes (fun _ _ => False) s t :=
  closes_of_stations evaluated (fun _ _ => False.elim) fun k i _ => by simp only [State.station, same]

theorem closes_prune (s : State) : Closes (fun _ _ => False) s s.prune where
  evaluated k hk := by rwa [prune_evaluated] at hk
  closed _ _ _ := False.elim
  kept k i hk _ := by rw [prune_station, if_pos (by rwa [prune_evaluated] at hk)]
  shut _ _ := False.elim
  staysShut k i shut := by
    rw [prune_station]
    split
    · exact shut
    · rfl
  staysOpen k i _ isOpen := by
    have : s.evaluated k = true := evaluated_iff.mpr (.inr (.inr (anyOpen_iff.mpr ⟨i, isOpen⟩)))
    rw [prune_station, if_pos this]

theorem closes_gumTo {s : State} {new : GumState} (running : s.gum.state = .ready ∨ s.gum.state = .priming)
    (stops : new = .standby ∨ new = .off) (expiry : Bool) :
    Closes (fun k i => (k, i) ∈ s.firedGum) s (s.gumTo new expiry) := by
  let s' : State := { s with gum := { state := new, standbyTimer := 0, primeTimer := none } }
  have cuts : s.gumTo new expiry = (s.firedGum.foldl (State.cutWindow expiry) s').prune := by
    rw [State.gumTo, if_pos (by simpa using ⟨running, stops⟩)]
  have settles : Settles s' (s.firedGum.foldl (State.cutWindow expiry) s') :=
    settles_cutWindows expiry s.firedGum fun x hx e he => firedGum_output hx he
  have folded : Closes (fun k i => (k, i) ∈ s.firedGum) s (s.firedGum.foldl (State.cutWindow expiry) s') :=
    closes_of_stations (fun k hk => settles.evaluated hk)
      (fun k i mem => by rw [cutWindows_station, if_pos mem]; rfl)
      fun k i out => by rw [cutWindows_station, if_neg out]; rfl
  rw [cuts]
  exact (folded.trans (closes_prune _)).congr fun _ _ => iff_of_eq (or_false _)

/-- An output station whose window is open and fired (R56). -/
def FiredOutput (s : State) (k : Fin 4) (i : Fin 16) : Prop :=
  (∃ e, s.entry k i = some e ∧ e.kind.isOutput = true) ∧ (s.station k i).windowOpen = true
    ∧ (s.station k i).fired = true

theorem closes_closeFired (s : State) : Closes (FiredOutput s) s s.closeFired := by
  have fired (k : Fin 4) (i : Fin 16) : (((s.entry k i).any fun e => e.kind.isOutput) && (s.station k i).windowOpen
      && (s.station k i).fired) = true ↔ FiredOutput s k i := by
    simp only [Bool.and_eq_true, Option.any_eq_true, and_assoc]
    rfl
  refine closes_of_stations (fun k hk => (settles_closeFired s).evaluated hk) (fun k i h => ?_) fun k i h => ?_
  · rw [closeFired_station, if_pos ((fired k i).mpr h)]
  · rw [closeFired_station, if_neg (mt (fired k i).mp h)]

theorem firedOutput_of_firedGum {s : State} {x : Fin 4 × Fin 16} (h : x ∈ s.firedGum) : FiredOutput s x.1 x.2 := by
  obtain ⟨⟨e, entry, gum⟩, isOpen, fired⟩ := mem_firedGum.mp h
  exact ⟨⟨e, entry, by rw [gum]; rfl⟩, isOpen, fired⟩

/-! ### Leaving ARMED -/

theorem closes_abortPrime {new : GumState} (stops : new = .standby ∨ new = .off) (s : State) :
    Closes (fun k i => s.gum.state = .priming ∧ (k, i) ∈ s.firedGum) s (s.abortPrime new) := by
  by_cases priming : s.gum.state = .priming
  · rw [State.abortPrime, if_pos priming]
    exact (show Closes _ s ((s.gumTo new false).setEvent .primeAborted) from
      { closes_gumTo (.inr priming) stops false with }).congr fun _ _ => (and_iff_right priming).symm
  · rw [abortPrime_of_not_priming new priming]
    exact (closes_of_same (fun _ => id) rfl).congr fun _ _ => iff_of_false id fun h => priming h.1

theorem firedGum_closeFired (s : State) : s.closeFired.firedGum = [] := by
  refine List.eq_nil_iff_forall_not_mem.mpr fun x mem => ?_
  obtain ⟨⟨e, entry, gum⟩, isOpen, fired⟩ := mem_firedGum.mp mem
  have still : FiredOutput s x.1 x.2 := by
    refine ⟨⟨e, entry, by rw [gum]; rfl⟩, (settles_closeFired s).opened _ _ isOpen, ?_⟩
    rw [closeFired_station] at fired
    split at fired
    · cases fired
    · exact fired
  have shut := (closes_closeFired s).shut _ _ still
  rw [← shut] at isOpen
  cases isOpen

/-- A prime aborted first leaves the same fired windows to close or to be found closed. -/
theorem firedOutput_abortPrime (s : State) (k : Fin 4) (i : Fin 16) :
    (s.gum.state = .priming ∧ (k, i) ∈ s.firedGum) ∨ FiredOutput (s.abortPrime .standby) k i ↔ FiredOutput s k i := by
  have closes := closes_abortPrime (.inl rfl) s
  have slots : ∀ k i, (s.abortPrime .standby).entry k i = s.entry k i := fun k i => by
    simp only [State.entry, (settles_abortPrime .standby s).slots]
  by_cases cut : s.gum.state = .priming ∧ (k, i) ∈ s.firedGum
  · exact iff_of_true (.inl cut) (firedOutput_of_firedGum cut.2)
  · rw [or_iff_right cut]
    constructor
    · rintro ⟨entry, isOpen, fired⟩
      have was := (settles_abortPrime .standby s).opened k i isOpen
      rw [slots] at entry
      rw [closes.staysOpen k i cut was] at fired
      exact ⟨entry, was, fired⟩
    · rintro ⟨entry, isOpen, fired⟩
      rw [FiredOutput, slots, closes.staysOpen k i cut isOpen]
      exact ⟨entry, isOpen, fired⟩

theorem Closes.of_choice {c : Fin 4 → Fin 16 → Prop} {s t : State} {n : Nat}
    (h : Closes c { s with choice := n } t) : Closes c s t := { h with }

theorem closes_leaveArmed (s : State) : Closes (FiredOutput s) s s.leaveArmed := by
  have order : Closes (FiredOutput s) s (eitherOrder (decide (s.gum.state = .priming) && !s.firedGum.isEmpty)
      State.closeFired (State.abortPrime .standby) s) := by
    obtain ⟨n, h | h⟩ := eitherOrder_eq (decide (s.gum.state = .priming) && !s.firedGum.isEmpty)
      State.closeFired (State.abortPrime .standby) s <;> rw [h]
    · refine (((closes_closeFired { s with choice := n }).trans (closes_abortPrime (.inl rfl) _)).congr
        fun k i => ?_).of_choice
      rw [firedGum_closeFired]
      exact or_iff_left fun none => nomatch none.2
    · exact (((closes_abortPrime (.inl rfl) { s with choice := n }).trans (closes_closeFired _)).congr fun k i =>
        firedOutput_abortPrime { s with choice := n } k i).of_choice
  exact (order.trans (closes_prune _)).congr fun _ _ => iff_of_eq (or_false _)

theorem prune_presentAt (s : State) (k : Fin 64) : s.prune.presentAt k = s.presentAt k := rfl

theorem closeFired_presentAt (s : State) (k : Fin 64) : s.closeFired.presentAt k = s.presentAt k := rfl

theorem setEvent_presentAt (e : LineEvent) (s : State) (k : Fin 64) :
    (s.setEvent e).presentAt k = s.presentAt k := rfl

/-- The end of a prime cuts the latched records short, and leaves every record where no prime runs or no fired window is
open. -/
theorem abortPrime_records {s : State} {new : GumState} (stops : new = .standby ∨ new = .off)
    (priming : s.gum.state = .priming) (distinct : SeqsDistinct s) :
    CutsRecords false (GumLatched s) s (s.abortPrime new) := by
  rw [State.abortPrime, if_pos priming]
  exact cutsRecords_gumTo (.inr priming) stops distinct false

theorem abortPrime_presentAt {s : State} (h : s.gum.state ≠ .priming ∨ s.firedGum = []) (new : GumState)
    (k : Fin 64) : (s.abortPrime new).presentAt k = s.presentAt k := by
  rcases h with h | h
  · rw [abortPrime_of_not_priming new h]
  · unfold State.abortPrime
    split
    · rw [setEvent_presentAt, gumTo_presentAt_of_no_window new false h]
    · rfl

theorem abortPrime_ring {s : State} (h : s.gum.state ≠ .priming ∨ s.firedGum = []) (new : GumState) :
    (s.abortPrime new).ring = s.ring ∧ (s.abortPrime new).choice = s.choice := by
  rcases h with h | h
  · rw [abortPrime_of_not_priming new h]
    exact ⟨rfl, rfl⟩
  · obtain ⟨stations, eq⟩ := gumTo_of_no_window new false h
    unfold State.abortPrime
    split
    · rw [eq]
      exact ⟨rfl, rfl⟩
    · exact ⟨rfl, rfl⟩

/-- Leaving ARMED leaves the records, or cuts the latched ones short where a prime is aborted first (log 5). -/
theorem leaveArmed_records (s : State) : (∀ k, s.leaveArmed.presentAt k = s.presentAt k)
    ∨ (SeqsDistinct s → CutsRecords false (GumLatched s) s s.leaveArmed) := by
  unfold State.leaveArmed
  obtain ⟨n, h | h⟩ := eitherOrder_eq (decide (s.gum.state = .priming) && !s.firedGum.isEmpty)
    State.closeFired (State.abortPrime .standby) s <;> rw [h]
  · refine .inl fun k => ?_
    rw [prune_presentAt, abortPrime_presentAt (.inr (firedGum_closeFired _)), closeFired_presentAt]
    rfl
  · by_cases priming : s.gum.state = .priming
    · refine .inr fun distinct k => ?_
      rw [prune_presentAt, closeFired_presentAt]
      exact abortPrime_records (s := { s with choice := n }) (.inl rfl) priming distinct k
    · refine .inl fun k => ?_
      rw [prune_presentAt, closeFired_presentAt,
        abortPrime_presentAt (s := { s with choice := n }) (.inl priming)]
      rfl

/-- Without a fired GUM window open in a prime, leaving ARMED leaves ring and choices. -/
theorem leaveArmed_of_no_window {s : State} (h : s.gum.state ≠ .priming ∨ s.firedGum = []) :
    s.leaveArmed.ring = s.ring ∧ s.leaveArmed.choice = s.choice := by
  have alone : (decide (s.gum.state = .priming) && !s.firedGum.isEmpty) = false := by
    rcases h with h | h <;> simp [h]
  have leaves : s.leaveArmed = (State.abortPrime .standby s.closeFired).prune := by
    rw [State.leaveArmed, alone]
    rfl
  rw [leaves]
  exact abortPrime_ring (.inr (firedGum_closeFired s)) .standby

end Sys2Proof.Proofs

/-!
PROOF. The causes of STOP and of a loss of track (R155, R156, R6), the standby expiry (R91, R92) and the gum circuit at a
changeover (R97), with CHANGEOVER's own table (R146).
-/

namespace Sys2Proof.Proofs

open Sys2Proof Sys2Proof.Machine Sys2Proof.Safety Sys2Proof.Laws

theorem Closes.event {c : Fin 4 → Fin 16 → Prop} {s t : State} (h : Closes c s t) (e : LineEvent) :
    Closes c s (t.setEvent e) := { h with }

theorem Closes.of_line {c : Fin 4 → Fin 16 → Prop} {s t : State} {l : LineControl}
    (h : Closes c { s with line := l } t) : Closes c s t := { h with }

theorem CutsRecords.event {expiry : Bool} {p : Word → Prop} {s t : State} (h : CutsRecords expiry p s t)
    (e : LineEvent) : CutsRecords expiry p s (t.setEvent e) := h

/-! ### STOP -/

/-- An ARMED line as a cause takes it to FAULTED, before the blocks leave ARMED. -/
def State.faultedBy (c : Cause) (s : State) : State :=
  { s with line := { withCause c s.line with mode := .faulted, chordTimer := s.line.chordTimer.map fun _ => 0 } }

theorem raiseCause_eq_leaveArmed (c : Cause) {s : State} (armed : s.line.mode = .armed) :
    s.raiseCause c = (State.faultedBy c s).leaveArmed := by
  rw [State.raiseCause, if_pos armed]
  rfl

theorem exec_stop {p : Port} {s : State} (takes : Takes s p) :
    exec (.stop p) s = .next ((s.raiseCause (stopCause p)).respond p (.bare .ok)) :=
  takeFrame_of_takes takes fun s => (s.raiseCause (stopCause p), .bare .ok)

/-- Settles O47. In ARMED the next state is that of `leaveArmed_spec`, its windows are those of `closes_leaveArmed` and its
records those of `leaveArmed_records`. -/
theorem stopRaisesThePortsCause : Obligations.StopRaisesThePortsCause := by
  intro p s takes cause latch
  have ofPort : cause = stopCause p := by cases p <;> rfl
  constructor
  · intro notArmed
    rw [exec_stop takes, raiseCause_of_not_armed _ notArmed, ← ofPort]
    rfl
  · intro armed closed
    have raised : s.raiseCause (stopCause p) = (State.faultedBy cause s).leaveArmed := by
      rw [raiseCause_eq_leaveArmed _ armed, ofPort]
    obtain ⟨stations, entries, choice, whole⟩ := leaveArmed_spec (State.faultedBy cause s)
    have closes : Closes closed s (State.faultedBy cause s).leaveArmed :=
      (closes_leaveArmed (State.faultedBy cause s)).of_line
    refine ⟨_, exec_stop takes, ?state, ?cells, fun k i => ?windows, ?ring, ?records⟩
    case state =>
      rw [raised, whole]
      by_cases priming : s.gum.state = .priming
      · rw [if_pos priming, if_pos priming, State.primeDropped,
          if_pos (show (State.faultedBy cause s).gum.state = .priming from priming)]
        rfl
      · rw [if_neg priming, if_neg priming, State.primeDropped,
          if_neg (show (State.faultedBy cause s).gum.state ≠ .priming from priming)]
        rfl
    case cells =>
      intro i
      rw [raised, whole]
      change (pulsesEnded s.cells)[i] = _
      rw [pulsesEnded, fin_getElem_mapTable]
    case windows =>
      rw [raised]
      generalize (State.faultedBy cause s).leaveArmed = u at closes
      refine ⟨fun h => ?_, fun isOpen other => ?_, fun evaluated => ?_⟩
      · have shut : (u.station k i).windowOpen = false ∧ (u.station k i).latch = .empty
            ∧ (u.station k i).fired = false := by
          rw [← closes.shut k i h]
          exact ⟨rfl, rfl, rfl⟩
        exact shut
      · have same := closes.staysOpen k i other isOpen
        have evaluated : u.evaluated k = true :=
          evaluated_iff.mpr (.inr (.inr (anyOpen_iff.mpr ⟨i, by rw [same]; exact isOpen⟩)))
        exact ⟨evaluated, same⟩
      · exact ⟨closes.closed k i evaluated, closes.kept k i evaluated⟩
    case ring =>
      intro none
      rw [raised]
      have same := leaveArmed_of_no_window (s := State.faultedBy cause s) none
      generalize (State.faultedBy cause s).leaveArmed = u at same
      exact same
    case records =>
      rw [raised]
      have records := leaveArmed_records (State.faultedBy cause s)
      generalize (State.faultedBy cause s).leaveArmed = u at records
      exact records

/-! ### The standby expiry -/

/-- A gummed, unfolded blank whose shot an expiry cuts short. -/
theorem cutShort_spoil (b : Blank) : b.spoil.cutShort true = (b.addFault .gumSkipped).addFault .gumSet := by
  simp only [Blank.cutShort, if_true, Blank.spoil]
  split
  · rw [addFault_comm b .gumSet .gumSkipped, addFault_addFault]
  · rfl

theorem spoil_eq (b : Blank) :
    b.spoil = if b.hasOp .gum = true ∧ b.hasOp .fold = false then b.addFault .gumSet else b := by
  simp only [Blank.spoil, Bool.and_eq_true, Bool.not_eq_true']

theorem spoil_seq (b : Blank) : b.spoil.seq = b.seq := by
  unfold Blank.spoil
  split
  · exact addFault_seq ..
  · rfl

theorem updateAll_station (f : Blank → Blank) (s : State) (k : Fin 4) (i : Fin 16) :
    (s.updateAll f).station k i = s.station k i := by
  simp only [State.station, updateAll_stations]

theorem firedGum_updateAll (f : Blank → Blank) (s : State) : (s.updateAll f).firedGum = s.firedGum := by
  obtain ⟨entries, h⟩ := updateAll_eq s f
  rw [h]
  rfl

theorem gumLatched_updateAll (f : Blank → Blank) (s : State) (n : Word) :
    GumLatched (s.updateAll f) n ↔ GumLatched s n := by
  obtain ⟨entries, h⟩ := updateAll_eq s f
  rw [h]
  exact Iff.rfl

theorem seqs_updateAll_spoil (s : State) (k : Fin 64) :
    ((s.updateAll Blank.spoil).presentAt k).map (·.seq) = (s.presentAt k).map (·.seq) := by
  rw [presentAt_updateAll, Option.map_map]
  exact congrArg (fun f => (s.presentAt k).map f) (funext spoil_seq)

section
variable {s : State} (ready : s.gum.state = .ready)
include ready

theorem standbyExpires_cutsRecords (distinct : SeqsDistinct s) :
    CutsRecords true (GumLatched s) (s.updateAll Blank.spoil) s.standbyExpires := by
  have ready' : (s.updateAll Blank.spoil).gum.state = .ready := by rw [updateAll_gum, ready]
  exact ((cutsRecords_gumTo (.inl ready') (.inl rfl)
    (seqsDistinct_of_seqs (seqs_updateAll_spoil s) distinct) true).congr (gumLatched_updateAll _ s)).event .gumStandby

theorem standbyExpires_closes :
    Closes (fun k i => (k, i) ∈ s.firedGum) (s.updateAll Blank.spoil) s.standbyExpires := by
  have ready' : (s.updateAll Blank.spoil).gum.state = .ready := by rw [updateAll_gum, ready]
  have closes := closes_gumTo (s := s.updateAll Blank.spoil) (.inl ready') (.inl rfl) true
  rw [firedGum_updateAll] at closes
  exact closes.event .gumStandby

end

/-- Settles O34. The expiry spoils every record, then the change to STANDBY cuts the fired windows short; number and window
of a record are the same before and after the spoiling. -/
theorem standbyExpirySpoilsGum : Obligations.StandbyExpirySpoilsGum := by
  intro s running ready halted distinct
  have runs : s.standbyRuns = true := by simp [State.standbyRuns, ready, halted]
  have expires : exec .standbyExpiry s = .next s.standbyExpires := by
    refine (takeEvent_running running _).trans ?_
    rw [if_pos runs]
  obtain ⟨stations, entries, whole⟩ := standbyExpires_spec s
  have cuts := standbyExpires_cutsRecords ready distinct
  have closes := standbyExpires_closes ready
  have setup := (works_standbyExpires s).toSameSetup
  generalize s.standbyExpires = t at *
  refine ⟨t, expires, by rw [whole], by rw [whole], by rw [whole], by rw [whole], by rw [whole], setup, by rw [whole],
    fun k gap => ?_, fun k b present => ?_, fun k i e entry => ?_⟩
  · exact (cuts k).1 (by rw [presentAt_updateAll, gap, Option.map_none])
  · have was : (s.updateAll Blank.spoil).presentAt k = some b.spoil := by
      rw [presentAt_updateAll, present, Option.map_some]
    refine ⟨fun free => ?_, fun latched => ?_⟩
    · rw [((cuts k).2 _ was).2 (by rwa [spoil_seq]), spoil_eq]
    · rw [((cuts k).2 _ was).1 (by rwa [spoil_seq]), cutShort_spoil]
  · refine ⟨fun gum isOpen fired => ?_, fun other isOpen => ?_⟩
    · rw [← closes.shut k i (mem_firedGum.mpr ⟨⟨e, entry, gum⟩, isOpen, fired⟩)]
      exact ⟨rfl, rfl, rfl⟩
    · refine (closes.staysOpen k i (fun mem => ?_) (by rwa [updateAll_station])).trans (updateAll_station ..)
      obtain ⟨⟨e', entry', gum⟩, -, fired⟩ := mem_firedGum.mp mem
      rw [entry] at entry'
      cases entry'
      rcases other with other | other
      · exact other gum
      · rw [other] at fired
        cases fired

/-! ### A loss of track -/

theorem notices_presentAt (s : State) (l : List Notice) (k : Fin 64) :
    State.presentAt { s with notices := l } k = s.presentAt k := rfl

theorem loseAll_presentAt (s : State) (k : Fin 64) :
    s.loseAll.presentAt k = (s.presentAt k).map (Blank.lose .trackLost) := by
  rw [State.loseAll, notices_presentAt, presentAt_updateAll]

theorem loseAll_line (s : State) : s.loseAll.line = s.line := by
  obtain ⟨entries, h⟩ := updateAll_eq s (Blank.lose .trackLost)
  rw [State.loseAll, h]

theorem loseAll_nextSeq (s : State) : s.loseAll.ring.nextSeq = s.ring.nextSeq := by
  obtain ⟨entries, h⟩ := updateAll_eq s (Blank.lose .trackLost)
  rw [State.loseAll, h]

/-- A gap stays one through work that creates no record. -/
theorem settles_presentAt_none {s t : State} (h : Settles s t) {k : Fin 64} (gap : s.presentAt k = none) :
    t.presentAt k = none := by
  unfold State.presentAt at gap ⊢
  rw [h.toWorks.lineLength]
  split at gap
  · next inLine =>
    rw [if_pos inLine]
    by_cases first : k = 0
    · subst first
      exact h.toFlows.gap_zero h.nextSeq gap
    · exact h.gaps k first gap
  · next beyond => rw [if_neg beyond]

/-- A record that is not final as a loss of track leaves it (R32, R33). -/
def LostFrom (b b' : Blank) : Prop :=
  b'.seq = b.seq ∧ b'.fmt = b.fmt ∧ b'.disposition = .lost ∧ b'.hasFault .trackLost = true
    ∧ b'.verdict = if b.verdict = .awaiting then .missing else b.verdict

theorem lostFrom_lose {b : Blank} (h : b.disposition.final = false) : LostFrom b (b.lose .trackLost) := by
  rw [Blank.lose, if_neg (by rw [h]; decide)]
  exact ⟨rfl, rfl, rfl, (addFault_set_mem b.faults _ _).trans (by simp), rfl⟩

theorem lostFrom_of_cutShort {b b' : Blank} (h : LostFrom (b.cutShort false) b') : LostFrom b b' := by
  have cut : b.cutShort false = b.addFault .gumSkipped := rfl
  obtain ⟨seq, fmt, lost, fault, verdict⟩ := h
  rw [cut] at seq fmt verdict
  exact ⟨by rw [seq, addFault_seq], by rw [fmt, addFault_fmt], lost, fault, by rw [verdict, addFault_verdict]⟩

/-- Every present record that is not final is lost, and no other record or gap changes. -/
def LosesAll (s t : State) : Prop :=
  ∀ k, (s.presentAt k = none → t.presentAt k = none)
    ∧ ∀ b, s.presentAt k = some b → (b.disposition.final = true → t.presentAt k = some b)
      ∧ (b.disposition.final = false → ∃ b', t.presentAt k = some b' ∧ LostFrom b b')

theorem losesAll_loseAll (s : State) : LosesAll s s.loseAll := by
  refine fun k => ⟨fun gap => ?_, fun b present => ⟨fun final => ?_, fun isOpen => ?_⟩⟩
  · rw [loseAll_presentAt, gap, Option.map_none]
  · rw [loseAll_presentAt, present, Option.map_some, lose_final final]
  · exact ⟨_, by rw [loseAll_presentAt, present, Option.map_some], lostFrom_lose isOpen⟩

/-- Work that cuts records short at most, and creates none. -/
structure CutsOnly (s t : State) : Prop extends Settles s t where
  cuts : CutsSome false s t

theorem CutsOnly.presentAt {s t : State} (h : CutsOnly s t) {k : Fin 64} {b : Blank} (present : s.presentAt k = some b) :
    t.presentAt k = some b ∨ t.presentAt k = some (b.cutShort false) := by
  obtain ⟨inLine, at'⟩ := presentAt_some.mp present
  have inLine' : k.val < t.lineLength := by rw [h.toSettles.toWorks.lineLength]; exact inLine
  exact (h.cuts k b at').imp (fun kept => presentAt_some.mpr ⟨inLine', kept⟩)
    fun cut => presentAt_some.mpr ⟨inLine', cut⟩

theorem LosesAll.after {s t u : State} (cuts : CutsOnly s t) (h : LosesAll t u) : LosesAll s u := by
  refine fun k => ⟨fun gap => (h k).1 (settles_presentAt_none cuts.toSettles gap), fun b present => ?_⟩
  rcases cuts.presentAt present with kept | cut
  · exact (h k).2 b kept
  · refine ⟨fun final => ?_, fun isOpen => ?_⟩
    · rw [cutShort_final final] at cut
      exact ((h k).2 b cut).1 final
    · obtain ⟨b', lost, from'⟩ := ((h k).2 _ cut).2 (addFault_open .gumSkipped isOpen)
      exact ⟨b', lost, lostFrom_of_cutShort from'⟩

theorem LosesAll.then {s t u : State} (h : LosesAll s t) (cuts : CutsOnly t u) : LosesAll s u := by
  have stays {k : Fin 64} {b : Blank} (present : t.presentAt k = some b) (final : b.disposition.final = true) :
      u.presentAt k = some b := by
    rcases cuts.presentAt present with kept | cut
    · exact kept
    · rw [cut, cutShort_final final]
  refine fun k => ⟨fun gap => settles_presentAt_none cuts.toSettles ((h k).1 gap), fun b present => ⟨fun final => ?_,
    fun isOpen => ?_⟩⟩
  · exact stays (((h k).2 b present).1 final) final
  · obtain ⟨b', lost, from'⟩ := ((h k).2 b present).2 isOpen
    have ⟨_, _, disposition, _, _⟩ := from'
    exact ⟨b', stays lost (by rw [disposition]; rfl), from'⟩

theorem cutsOnly_raiseCause (c : Cause) (s : State) : CutsOnly s (s.raiseCause c) :=
  ⟨settles_raiseCause c s, cutsSome_raiseCause c s⟩

theorem cutsOnly_gumLeavesHalt (s : State) : CutsOnly s s.gumLeavesHalt :=
  ⟨(settles_gum s _).trans (settles_abortPrime .standby _), fun k b hb =>
    cutsSome_abortPrime .standby { s with gum := { s.gum with standbyTimer := 0 } } k b hb⟩

/-- The fault latch after TRACK_LOST (R155), and the sequence counter. -/
structure TrackLatched (s t : State) : Prop where
  causes : t.line.causes = addBit s.line.causes Cause.trackLost.bit
  mode : t.line.mode = if s.line.mode = .armed then .faulted else s.line.mode
  firstCause : t.line.firstCause = if s.line.causes = 0 then some .trackLost else s.line.firstCause
  nextSeq : t.ring.nextSeq = s.ring.nextSeq

theorem trackLatched_trackLost (s : State) : TrackLatched s s.trackLost := by
  unfold State.trackLost
  obtain ⟨n, h | h⟩ := eitherOrder_eq (decide (s.gum.state = .priming) && !s.firedGum.isEmpty)
    State.loseAll (State.raiseCause .trackLost) s <;> rw [h]
  · exact ⟨by rw [raiseCause_causes, loseAll_line], by rw [raiseCause_mode, loseAll_line],
      by rw [raiseCause_firstCause, loseAll_line], by rw [raiseCause_nextSeq, loseAll_nextSeq]⟩
  · exact ⟨by rw [loseAll_line, raiseCause_causes], by rw [loseAll_line, raiseCause_mode],
      by rw [loseAll_line, raiseCause_firstCause], by rw [loseAll_nextSeq, raiseCause_nextSeq]⟩

theorem losesAll_trackLost (s : State) : LosesAll s s.trackLost := by
  unfold State.trackLost
  obtain ⟨n, h | h⟩ := eitherOrder_eq (decide (s.gum.state = .priming) && !s.firedGum.isEmpty)
    State.loseAll (State.raiseCause .trackLost) s <;> rw [h]
  · exact (losesAll_loseAll { s with choice := n }).then (cutsOnly_raiseCause _ _)
  · have lost := (losesAll_loseAll _).after (cutsOnly_raiseCause .trackLost { s with choice := n })
    exact lost

theorem backwardWork_trackLost {c : Constants} {s : State} (above : c.e < s.angle.debt + 1)
    (back : s.angle.debt ≠ 0 ∨ s.angle.p = 0) :
    s.backwardWork c = State.trackLost { s with angle := { s.angle with debt := 0 } } := by
  have stuck : (decide (s.angle.debt = 0) && decide (0 < s.angle.p)) = false := by
    rcases back with h | h <;> simp [h]
  simp only [State.backwardWork, stuck, Bool.false_eq_true, if_false, above, if_true]

theorem gumLeavesHalt_line (s : State) : ∃ events, s.gumLeavesHalt.line = { s.line with events := events } := by
  obtain ⟨a, b, h⟩ := abortPrime_spec { s with gum := { s.gum with standbyTimer := 0 } }
  exact ⟨_, by rw [State.gumLeavesHalt, h]⟩

/-- Settles O19. A count may hand the halted machine's start to the gum circuit before or after the loss of track, and the
loss itself comes before or after the cause: each cuts records short at most, which a lost record does not show. -/
theorem lossOfTrackLosesRecords : Obligations.LossOfTrackLosesRecords := by
  intro c s running constants above back
  have work (t : State) (angle : t.angle.debt = s.angle.debt ∧ t.angle.p = s.angle.p) :
      TrackLatched t (t.backwardWork c) ∧ LosesAll t (t.backwardWork c) := by
    rw [backwardWork_trackLost (by rw [angle.1]; exact above) (by rw [angle.1, angle.2]; exact back)]
    have latched := trackLatched_trackLost { t with angle := { t.angle with debt := 0 } }
    exact ⟨{ latched with }, losesAll_trackLost { t with angle := { t.angle with debt := 0 } }⟩
  let counted : State := (s.transition .backward).counted .backward
  have lost : TrackLatched counted ((s.transition .backward).takeCount .backward (State.backwardWork c))
      ∧ LosesAll counted ((s.transition .backward).takeCount .backward (State.backwardWork c)) := by
    unfold State.takeCount
    split
    · obtain ⟨n, h | h⟩ := eitherOrder_eq (decide ((s.transition .backward).gum.state = .priming)
        && !(s.transition .backward).firedGum.isEmpty) State.gumLeavesHalt (State.backwardWork c) counted
      all_goals rw [h]
      · have cuts := cutsOnly_gumLeavesHalt { counted with choice := n }
        obtain ⟨events, line⟩ := gumLeavesHalt_line { counted with choice := n }
        obtain ⟨latched, loses⟩ := work (State.gumLeavesHalt { counted with choice := n })
          (by rw [cuts.angle]; exact ⟨rfl, rfl⟩)
        have lost := loses.after cuts
        refine ⟨⟨?_, ?_, ?_, ?_⟩, lost⟩
        · rw [latched.causes, line]
        · rw [latched.mode, line]
        · rw [latched.firstCause, line]
        · rw [latched.nextSeq, cuts.nextSeq]
      · obtain ⟨latched, loses⟩ := work { counted with choice := n } ⟨rfl, rfl⟩
        have cuts := cutsOnly_gumLeavesHalt (State.backwardWork c { counted with choice := n })
        obtain ⟨events, line⟩ := gumLeavesHalt_line (State.backwardWork c { counted with choice := n })
        refine ⟨⟨?_, ?_, ?_, ?_⟩, loses.then cuts⟩
        · rw [line, latched.causes]
        · rw [line, latched.mode]
        · rw [line, latched.firstCause]
        · rw [cuts.nextSeq, latched.nextSeq]
    · exact work counted ⟨rfl, rfl⟩
  have counts : exec .backwardCount s
      = .next ((s.transition .backward).takeCount .backward (State.backwardWork c)) := by
    change execBackwardCount s = _
    rw [execBackwardCount, takeEvent_running running, constants]
  obtain ⟨latched, loses⟩ := lost
  refine ⟨_, counts, ?_, latched.mode, latched.firstCause, latched.nextSeq, loses⟩
  rw [latched.causes]
  exact (addCause_set_mem _ _ _).trans (by simp)

end Sys2Proof.Proofs

/-!
PROOF. CHANGEOVER by the line mode and the pending state (R146), and the gum circuit at a changeover (R90, R97).
-/

namespace Sys2Proof.Proofs

open Sys2Proof Sys2Proof.Machine Sys2Proof.Safety Sys2Proof.Laws

/-! ### CHANGEOVER (R146) -/

section
variable {s : State} {slot : Byte}

theorem exec_changeover (takes : Takes s .line) :
    exec (.changeover slot) s = .next ((s.changeover slot).1.respond .line (s.changeover slot).2) :=
  takeFrame_of_takes takes _

theorem changeover_of_le (h : 4 ≤ slot.toNat) : s.changeover slot = (s, .bare .range) := by
  simp only [State.changeover, indexOf_of_le h]

variable (h : slot.toNat < 4)
include h

theorem changeover_not_valid (invalid : s.slots[(⟨slot.toNat, h⟩ : Fin 4)].state ≠ .valid) :
    s.changeover slot = (s, .bare .notValid) := by
  simp only [State.changeover, indexOf_of_lt h]
  rw [if_pos invalid]

variable (valid : s.slots[(⟨slot.toNat, h⟩ : Fin 4)].state = .valid)
include valid

theorem changeover_locked (held : s.locks[boundLock ⟨slot.toNat, h⟩].held = true) :
    s.changeover slot = (s, .bare .locked) := by
  simp only [State.changeover, indexOf_of_lt h]
  rw [if_neg (not_not.mpr valid), if_pos held]

theorem changeover_accepted (free : s.locks[boundLock ⟨slot.toNat, h⟩].held = false) :
    s.changeover slot = s.acceptChangeover ⟨slot.toNat, h⟩ := by
  simp only [State.changeover, indexOf_of_lt h]
  rw [if_neg (not_not.mpr valid), if_neg (by rw [free]; decide)]

end

section
variable {s : State} {n : Fin 4}

theorem changeoverStatus_eq (s : State) : (if s.pendingSlot.isSome = true then Status.replaced else Status.ok)
    = if s.pendingSlot = none then .ok else .replaced := by
  cases s.pendingSlot <;> rfl

theorem acceptChangeover_active (active : s.active = some n) : s.acceptChangeover n
    = ({ s with pendingSlot := none }, .bare (if s.pendingSlot = none then .ok else .replaced)) := by
  rw [State.acceptChangeover, changeoverStatus_eq, if_pos active]

variable (other : s.active ≠ some n)
include other

theorem acceptChangeover_pending (mode : s.line.mode ≠ .offline) : s.acceptChangeover n
    = ({ s with pendingSlot := some n }, .bare (if s.pendingSlot = none then .ok else .replaced)) := by
  rw [State.acceptChangeover, changeoverStatus_eq, if_neg other]
  cases h : s.line.mode with
  | offline => exact absurd h mode
  | armed => rfl
  | faulted => rfl

theorem acceptChangeover_offline (mode : s.line.mode = .offline) : s.acceptChangeover n
    = (s.makeActive n s.theta, .bare (if s.pendingSlot = none then .ok else .replaced)) := by
  rw [State.acceptChangeover, changeoverStatus_eq, if_neg other]
  simp only [mode]

end

/-- Settles O43, by the branches of `State.changeover` and `State.acceptChangeover`; what a changeover taking effect leaves
is `makeActive_spec`. -/
theorem changeoverActsByTheTable : Obligations.ChangeoverActsByTheTable := by
  intro slot s takes
  refine ⟨fun high => ?_, fun h => ?_⟩
  · rw [exec_changeover takes, changeover_of_le high]
    rfl
  · intro n ok
    refine ⟨fun invalid => ?_, fun valid held => ?_, fun valid free => ⟨fun active => ?_, fun other mode => ?_,
      fun other mode => ?_⟩⟩
    · rw [exec_changeover takes, changeover_not_valid h invalid]
      rfl
    · rw [exec_changeover takes, changeover_locked h valid held]
      rfl
    · rw [exec_changeover takes, changeover_accepted h valid free, acceptChangeover_active active]
      rfl
    · rw [exec_changeover takes, changeover_accepted h valid free, acceptChangeover_pending other mode]
      rfl
    · obtain ⟨stations, entries, gum, events, made⟩ := makeActive_spec n s.theta s
      rw [exec_changeover takes, changeover_accepted h valid free, acceptChangeover_offline other mode, made]
      exact ⟨_, rfl, rfl, rfl, rfl, rfl, rfl, rfl, rfl, rfl, rfl, rfl, rfl, rfl, rfl, rfl, rfl⟩

/-! ### A slot joining the evaluated set -/

theorem join_station_other {k n : Fin 4} (other : k ≠ n) (theta : Nat) (s : State) (i : Fin 16) :
    (s.join n theta).station k i = s.station k i := by
  simp only [State.station, State.join, mapSlots_stations, fin_getElem_mapTable, other, if_false]

theorem join_station_some {n : Fin 4} {i : Fin 16} {e : Entry} {s : State} (entry : s.entry n i = some e)
    (theta : Nat) : (s.join n theta).station n i
      = Station.markedAt e theta { Station.cleared with lead := e.leadUnder s.leadScale } := by
  simp only [State.station, State.join, mapSlots_stations, fin_getElem_mapTable, if_true, entry]

theorem join_station_none {n : Fin 4} {i : Fin 16} {s : State} (entry : s.entry n i = none) (theta : Nat) :
    (s.join n theta).station n i = Station.cleared := by
  simp only [State.station, State.join, mapSlots_stations, fin_getElem_mapTable, if_true, entry]

theorem join_closed (n : Fin 4) (theta : Nat) (s : State) (i : Fin 16) :
    ((s.join n theta).station n i).windowOpen = false := by
  cases entry : s.entry n i with
  | some e => rw [join_station_some entry]; rfl
  | none => rw [join_station_none entry]; rfl

/-- A slot that joins with its windows closed leaves every open window. -/
theorem join_windowOpen {n : Fin 4} {s : State} (closed : ∀ i, (s.station n i).windowOpen = false) (theta : Nat)
    (k : Fin 4) (i : Fin 16) : (s.join n theta).station k i = s.station k i
      ∨ ((s.join n theta).station k i).windowOpen = false ∧ (s.station k i).windowOpen = false := by
  by_cases same : k = n
  · subst same
    exact .inr ⟨join_closed k theta s i, closed i⟩
  · exact .inl (join_station_other same theta s i)

/-- The state of a changeover before the gum circuit answers it. -/
def State.activated (n : Fin 4) (theta : Nat) (s : State) : State :=
  let s1 := { s with active := some n, pendingSlot := none, fresh := true }
  if s.evaluated n then s1 else s1.join n theta

theorem makeActive_eq (n : Fin 4) (theta : Nat) (s : State) :
    s.makeActive n theta = ((State.activated n theta s).gumChangeover n).prune := rfl

theorem activated_eq (n : Fin 4) (theta : Nat) (s : State) : ∃ stations, State.activated n theta s
    = { s with active := some n, pendingSlot := none, fresh := true, stations := stations } := by
  unfold State.activated
  dsimp only
  split
  · exact ⟨s.stations, rfl⟩
  · exact ⟨_, rfl⟩

theorem activated_windowOpen (n : Fin 4) (theta : Nat) (s : State) (k : Fin 4) (i : Fin 16) :
    (State.activated n theta s).station k i = s.station k i
      ∨ ((State.activated n theta s).station k i).windowOpen = false ∧ (s.station k i).windowOpen = false := by
  unfold State.activated
  dsimp only
  split
  · exact .inl rfl
  · next out =>
    refine join_windowOpen (s := { s with active := some n, pendingSlot := none, fresh := true }) (fun i => ?_) theta k i
    cases isOpen : (s.station n i).windowOpen with
    | false => exact isOpen
    | true => exact absurd (evaluated_iff.mpr (.inr (.inr (anyOpen_iff.mpr ⟨i, isOpen⟩)))) out

theorem activated_open (n : Fin 4) (theta : Nat) (s : State) (k : Fin 4) (i : Fin 16)
    (p : Station → Prop) : ((State.activated n theta s).station k i).windowOpen = true
      ∧ p ((State.activated n theta s).station k i) ↔ (s.station k i).windowOpen = true ∧ p (s.station k i) := by
  rcases activated_windowOpen n theta s k i with same | ⟨here, there⟩
  · rw [same]
  · rw [here, there]
    simp

theorem activated_entry (n : Fin 4) (theta : Nat) (s : State) (k : Fin 4) (i : Fin 16) :
    (State.activated n theta s).entry k i = s.entry k i := by
  obtain ⟨stations, eq⟩ := activated_eq n theta s
  rw [eq]
  rfl

theorem gumLatched_activated (n : Fin 4) (theta : Nat) (s : State) (seq : Word) :
    GumLatched (State.activated n theta s) seq ↔ GumLatched s seq := by
  refine exists_congr fun k => exists_congr fun i => exists_congr fun e => ?_
  rw [activated_entry]
  exact and_congr_right fun _ => and_congr_right fun _ =>
    activated_open n theta s k i fun st => st.fired = true ∧ st.latch = .blank seq

theorem firedGum_activated {n : Fin 4} {theta : Nat} {s : State} (none : s.firedGum = []) :
    (State.activated n theta s).firedGum = [] := by
  refine List.eq_nil_iff_forall_not_mem.mpr fun x mem => ?_
  obtain ⟨⟨e, entry, gum⟩, fired⟩ := mem_firedGum.mp mem
  rw [activated_entry] at entry
  have was : x ∈ s.firedGum :=
    mem_firedGum.mpr ⟨⟨e, entry, gum⟩, (activated_open n theta s x.1 x.2 (·.fired = true)).mp fired⟩
  rw [none] at was
  cases was

/-! ### The gum circuit's answer (R97) -/

/-- The gum state a changeover to slot `n` aims at. -/
def State.gumTarget (n : Fin 4) (s : State) : GumState := if s.slots[n].hasGum then .standby else .off

theorem gumTarget_stops (n : Fin 4) (s : State) :
    State.gumTarget n s = .standby ∨ State.gumTarget n s = .off := by
  unfold State.gumTarget
  split
  · exact .inl rfl
  · exact .inr rfl

theorem standbyDue_of_not_ready {s : State} (h : s.gum.state ≠ .ready) : s.standbyDue = false := by
  simp [State.standbyDue, State.standbyRuns, h]

theorem gumTo_state (new : GumState) (expiry : Bool) (s : State) :
    (s.gumTo new expiry).gum = { state := new, standbyTimer := 0, primeTimer := none } := by
  obtain ⟨_, _, h⟩ := gumTo_spec new expiry s
  rw [h]

theorem not_ready_of_stops {new : GumState} (stops : new = .standby ∨ new = .off) : new ≠ .ready := by
  rcases stops with rfl | rfl <;> decide

section
variable {n : Fin 4} {s : State}

theorem gumChangeover_of_priming (priming : s.gum.state = .priming) :
    s.gumChangeover n = s.abortPrime (State.gumTarget n s) := by
  have idle : (s.abortPrime (State.gumTarget n s)).standbyDue = false := by
    refine standbyDue_of_not_ready ?_
    obtain ⟨_, _, h⟩ := abortPrime_of_priming (State.gumTarget n s) priming
    rw [h]
    exact not_ready_of_stops (gumTarget_stops n s)
  have branch : s.gumChangeover n = if (s.abortPrime (State.gumTarget n s)).standbyDue
      then (s.abortPrime (State.gumTarget n s)).standbyExpires else s.abortPrime (State.gumTarget n s) := by
    simp only [State.gumChangeover, priming]
    rfl
  rw [branch, idle]
  rfl

theorem gumChangeover_of_idle (idle : s.gum.state = .off ∨ s.gum.state = .standby) :
    s.gumChangeover n = s.gumTo (State.gumTarget n s) false := by
  have still : (s.gumTo (State.gumTarget n s) false).standbyDue = false := by
    refine standbyDue_of_not_ready ?_
    rw [gumTo_state]
    exact not_ready_of_stops (gumTarget_stops n s)
  have branch : s.gumChangeover n = if (s.gumTo (State.gumTarget n s) false).standbyDue
      then (s.gumTo (State.gumTarget n s) false).standbyExpires else s.gumTo (State.gumTarget n s) false := by
    rcases idle with h | h <;> simp only [State.gumChangeover, h] <;> rfl
  rw [branch, still]
  rfl

theorem gumChangeover_of_ready_off (ready : s.gum.state = .ready) (noGum : s.slots[n].hasGum = false) :
    s.gumChangeover n = s.gumTo .off false := by
  have still : (s.gumTo .off false).standbyDue = false := by
    refine standbyDue_of_not_ready ?_
    rw [gumTo_state]
    decide
  simp only [State.gumChangeover, ready, noGum, Bool.false_eq_true, if_false, still]

theorem gumChangeover_of_ready_gum (ready : s.gum.state = .ready) (gum : s.slots[n].hasGum = true) :
    s.gumChangeover n = if s.standbyDue then s.standbyExpires else s := by
  simp only [State.gumChangeover, ready, gum, if_true]

end

/-! ### A changeover without a fired GUM window -/

theorem hasGum_cases {n : Fin 4} {s : State} :
    s.slots[n].hasGum = true ∧ State.gumTarget n s = .standby
      ∨ s.slots[n].hasGum = false ∧ State.gumTarget n s = .off := by
  unfold State.gumTarget
  cases h : s.slots[n].hasGum with
  | true => exact .inl ⟨rfl, rfl⟩
  | false => exact .inr ⟨rfl, rfl⟩

theorem standbyDue_iff {s : State} {n : Fin 4} (active : s.active = some n) : s.standbyDue = true
    ↔ s.gum.state = .ready ∧ s.motion = .halted ∧ standbyTimeout s.slots[n].header.standbyCode ≤ s.gum.standbyTimer := by
  simp [State.standbyDue, State.standbyRuns, active, and_assoc]

/-- The gum circuit, the events and the ring as a changeover leaves them that finds no expiry due. -/
structure Answered (n : Fin 4) (s t : State) : Prop where
  gum : t.gum = if s.slots[n].hasGum = false then { state := .off, standbyTimer := 0, primeTimer := none }
    else if s.gum.state = .ready then s.gum else { state := .standby, standbyTimer := 0, primeTimer := none }
  line : t.line = { s.line with
    events := if s.gum.state = .priming then addBit s.line.events LineEvent.primeAborted.bit else s.line.events }
  ring : t.ring = s.ring

theorem answered_gumChangeover {n : Fin 4} {s : State} (noWindow : s.firedGum = [])
    (notDue : s.gum.state = .ready → s.slots[n].hasGum = true → s.standbyDue = false) :
    Answered n s (s.gumChangeover n) := by
  obtain ⟨stations, cut⟩ := gumTo_of_no_window (State.gumTarget n s) false noWindow
  have target : ({ state := State.gumTarget n s, standbyTimer := 0, primeTimer := none } : Gum)
      = if s.slots[n].hasGum = false then { state := .off, standbyTimer := 0, primeTimer := none }
        else { state := .standby, standbyTimer := 0, primeTimer := none } := by
    rcases hasGum_cases (n := n) (s := s) with ⟨h, g⟩ | ⟨h, g⟩ <;> rw [h, g] <;> rfl
  cases gum : s.gum.state with
  | priming =>
    rw [gumChangeover_of_priming gum, State.abortPrime, if_pos gum, cut]
    exact ⟨target.trans (by simp [gum]), by simp [gum, State.setEvent], rfl⟩
  | off =>
    rw [gumChangeover_of_idle (.inl gum), cut]
    exact ⟨target.trans (by simp [gum]), by simp [gum], rfl⟩
  | standby =>
    rw [gumChangeover_of_idle (.inr gum), cut]
    exact ⟨target.trans (by simp [gum]), by simp [gum], rfl⟩
  | ready =>
    rcases hasGum_cases (n := n) (s := s) with ⟨h, g⟩ | ⟨h, g⟩
    · rw [gumChangeover_of_ready_gum gum h, notDue gum h, if_neg Bool.false_ne_true]
      exact ⟨by rw [if_neg (by rw [h]; decide), if_pos gum], by simp [gum], rfl⟩
    · rw [g] at cut
      rw [gumChangeover_of_ready_off gum h, cut]
      exact ⟨by rw [if_pos h], by simp [gum], rfl⟩

theorem standbyExpires_presentAt {s : State} (noWindow : s.firedGum = []) (k : Fin 64) :
    s.standbyExpires.presentAt k = (s.presentAt k).map Blank.spoil := by
  rw [State.standbyExpires, setEvent_presentAt,
    gumTo_presentAt_of_no_window .standby true (by rw [firedGum_updateAll, noWindow]), presentAt_updateAll]

/-- The records of a changeover that cuts windows short. -/
theorem cutsRecords_makeActive {n : Fin 4} {theta : Nat} {s : State} (distinct : SeqsDistinct s)
    (cuts : s.gum.state = .priming ∨ s.gum.state = .ready ∧ s.slots[n].hasGum = false) :
    CutsRecords false (GumLatched s) s (s.makeActive n theta) := by
  obtain ⟨stations, eq⟩ := activated_eq n theta s
  have gum : (State.activated n theta s).gum = s.gum := by rw [eq]
  have slots : (State.activated n theta s).slots = s.slots := by rw [eq]
  have records (k : Fin 64) : (State.activated n theta s).presentAt k = s.presentAt k := by
    rw [eq]
    rfl
  have distinct' : SeqsDistinct (State.activated n theta s) :=
    seqsDistinct_of_seqs (fun k => by rw [records]) distinct
  have done : CutsRecords false (GumLatched (State.activated n theta s)) (State.activated n theta s)
      ((State.activated n theta s).gumChangeover n) := by
    rcases cuts with priming | ⟨ready, noGum⟩
    · rw [gumChangeover_of_priming (by rw [gum, priming])]
      exact abortPrime_records (gumTarget_stops n _) (by rw [gum, priming]) distinct'
    · rw [gumChangeover_of_ready_off (by rw [gum, ready]) (by simp only [slots, noGum])]
      exact cutsRecords_gumTo (.inl (by rw [gum, ready])) (.inr rfl) distinct' false
  intro k
  rw [makeActive_eq, prune_presentAt]
  have at' := done k
  simp only [records, gumLatched_activated] at at'
  exact at'

/-- Settles O44, by the gum state that the changeover finds. -/
theorem gumFollowsChangeover : Obligations.GumFollowsChangeover := by
  refine ⟨fun n theta s noWindow => ?quiet, fun n theta s distinct cuts k b present => ?cut, ?accepted, ?creation⟩
  case quiet =>
    intro t timeout due
    obtain ⟨stations, eq⟩ := activated_eq n theta s
    obtain ⟨_, _, _, _, made⟩ := makeActive_spec n theta s
    have active : (State.activated n theta s).active = some n := by rw [eq]
    have noWindow' := firedGum_activated (n := n) (theta := theta) noWindow
    have dueIff : due ↔ s.slots[n].hasGum = true ∧ (State.activated n theta s).standbyDue = true := by
      rw [standbyDue_iff active, eq]
      exact ⟨fun ⟨ready, gum, halted, late⟩ => ⟨gum, ready, halted, late⟩,
        fun ⟨gum, ready, halted, late⟩ => ⟨ready, gum, halted, late⟩⟩
    have madeEq : t = ((State.activated n theta s).gumChangeover n).prune := rfl
    have activated : (State.activated n theta s).gum = s.gum ∧ (State.activated n theta s).slots = s.slots
        ∧ (State.activated n theta s).line = s.line ∧ (State.activated n theta s).ring = s.ring := by
      rw [eq]
      exact ⟨rfl, rfl, rfl, rfl⟩
    obtain ⟨gum, slots, line, ring⟩ := activated
    refine ⟨by rw [show t = _ from made], by rw [show t = _ from made], ?_⟩
    by_cases h : due
    · obtain ⟨hasGum, isDue⟩ := dueIff.mp h
      have ⟨ready, _⟩ := h
      obtain ⟨_, _, expired⟩ := standbyExpires_spec (State.activated n theta s)
      have expires : (State.activated n theta s).gumChangeover n = (State.activated n theta s).standbyExpires := by
        rw [gumChangeover_of_ready_gum (by rw [gum, ready]) (by simp only [slots, hasGum]), if_pos isDue]
      refine ⟨?_, ?_, fun none => absurd h none, fun _ k => ?_⟩
      · rw [madeEq, expires, prune_gum, expired]
        rw [if_neg (by rw [hasGum]; decide), if_neg fun stays => stays.2 h]
      · rw [madeEq, expires, prune_line, expired, line]
        rw [if_neg (by rw [ready]; decide), if_pos h]
      · rw [madeEq, expires, prune_presentAt, standbyExpires_presentAt noWindow',
          show (State.activated n theta s).presentAt k = s.presentAt k by rw [eq]; rfl]
        exact congrArg (fun f => (s.presentAt k).map f) (funext spoil_eq)
    · have answered := answered_gumChangeover (n := n) noWindow' fun _ hasGum => by
        rw [← Bool.not_eq_true]
        exact fun isDue => h (dueIff.mpr ⟨by simpa only [slots] using hasGum, isDue⟩)
      refine ⟨?_, ?_, fun _ => ?_, fun is => absurd is h⟩
      · rw [madeEq, prune_gum, answered.gum]
        simp only [gum, slots, h, not_false_eq_true, and_true]
      · rw [madeEq, prune_line, answered.line]
        simp only [gum, line, h, if_false]
      · rw [madeEq, prune_ring, answered.ring, ring]
  case cut => exact (cutsRecords_makeActive distinct cuts k).2 b present
  case accepted =>
    intro slot h s takes mode n valid free other
    rw [exec_changeover takes, changeover_accepted h valid free, acceptChangeover_offline other mode]
    rfl
  case creation =>
    intro k n theta s pending
    unfold State.createRecord
    simp only [pending]
    constructor
    · split <;> rfl
    · split <;> rfl

end Sys2Proof.Proofs

/-!
PROOF. Deliveries, lost blanks and passed defects at the count verification (R120 to R123), CLOSE BATCH (R130), TAKE BATCH
and PEEK BATCH (R131).
-/

namespace Sys2Proof.Proofs

open Sys2Proof Sys2Proof.Machine Sys2Proof.Safety Sys2Proof.Laws

theorem increase_of_lt {n : Word} (h : n ≠ BitVec.allOnes 32) (field : Config.CountField) :
    increase field n = n + 1 := if_neg h

section
variable {s : State}

/-- A closure reads and changes no entry of the ring. -/
theorem closeOpenBatch_with_entries (o : OpenBatch) (cause : CloseCause) (boundary : Option (Fin 4))
    (entries : Vector (Option Blank) 64) :
    State.closeOpenBatch o cause boundary { s with ring := { s.ring with entries := entries } }
      = { s.closeOpenBatch o cause boundary with ring := { s.ring with entries := entries } } := by
  classical
  rw [closeOpenBatch_eq, closeOpenBatch_eq]
  by_cases closes : BoxCloses s o cause boundary
  · rw [if_pos (show BoxCloses { s with ring := { s.ring with entries := entries } } o cause boundary from closes),
      if_pos closes]
    rfl
  · rw [if_neg (show ¬ BoxCloses { s with ring := { s.ring with entries := entries } } o cause boundary from closes),
      if_neg closes]
    rfl

/-- The full-size test reads and changes no entry of the ring. -/
theorem fullSizeTest_with_entries (entries : Vector (Option Blank) 64) :
    State.fullSizeTest { s with ring := { s.ring with entries := entries } }
      = { s.fullSizeTest with ring := { s.ring with entries := entries } } := by
  have full : State.logFull { s with ring := { s.ring with entries := entries } } = s.logFull := rfl
  unfold State.fullSizeTest
  dsimp only
  cases s.batch.openBatch with
  | none => rfl
  | some o =>
    dsimp only
    simp only [full, closeOpenBatch_with_entries]
    cases o.state <;> dsimp only <;> split_ifs <;> rfl

theorem fullSizeTest_missRun : s.fullSizeTest.batch.missRun = s.batch.missRun := by
  unfold State.fullSizeTest
  cases s.batch.openBatch with
  | none => rfl
  | some o =>
    dsimp only
    cases o.state <;> dsimp only
    · split
      · split
        · rfl
        · exact (closedAs_closeOpenBatch ..).missRun
      · rfl
    · split
      · rfl
      · split
        · rfl
        · split <;> exact (closedAs_closeOpenBatch ..).missRun

/-! ### Which hand-over is which (R120) -/

section
variable {b : Blank} (on : s.line.mode ≠ .offline)
include on

theorem countVerification_gap (seen : Bool) :
    s.countVerification none seen = if seen then s.unexpectedEdge else s := by
  simp only [State.countVerification, on, if_false]

theorem countVerification_good (good : b.disposition = .inLine ∨ b.disposition = .cleared) (seen : Bool) :
    s.countVerification (some b) seen = if seen then s.deliver b.seq b.fmt else s.loseBlank b.seq := by
  rcases good with h | h <;> simp only [State.countVerification, on, if_false, h]

theorem countVerification_bad (bad : b.disposition = .toReject ∨ b.disposition = .flagged) (seen : Bool) :
    s.countVerification (some b) seen = if seen then s.passDefect b.seq else s := by
  rcases bad with h | h <;> simp only [State.countVerification, on, if_false, h]

theorem countVerification_gone (gone : b.disposition = .rejected ∨ b.disposition = .lost) (seen : Bool) :
    s.countVerification (some b) seen = if seen then s.unexpectedEdge else s := by
  rcases gone with h | h <;> simp only [State.countVerification, on, if_false, h]

theorem countVerification_delivered (delivered : b.disposition = .delivered) (seen : Bool) :
    s.countVerification (some b) seen = s := by
  simp only [State.countVerification, on, if_false, delivered]

end

theorem countVerification_offline (off : s.line.mode = .offline) (handed : Option Blank) (seen : Bool) :
    s.countVerification handed seen = s := by
  simp only [State.countVerification, off, if_true]

/-! ### A delivery (R121) -/

/-- The fields of a batch that has taken one record more. -/
def BatchFields.filled (seq : Word) (f : BatchFields) : BatchFields :=
  { f with
    count := f.count + 1, lastSeq := some seq, firstSeq := if f.count = 0 then some seq else f.firstSeq }

theorem delivered_eq_filled {f : BatchFields} (h : f.count ≠ BitVec.allOnes 32) (seq : Word) :
    f.delivered seq = BatchFields.filled seq f := by
  rw [BatchFields.delivered, increase_of_lt h, BatchFields.filled]

theorem toNat_count_filled {f : BatchFields} (h : f.count ≠ BitVec.allOnes 32) (seq : Word) :
    (BatchFields.filled seq f).count.toNat = f.count.toNat + 1 := by
  have : f.count.toNat ≠ 4294967295 := fun g => h (BitVec.eq_of_toNat_eq g)
  have := f.count.isLt
  have one : (1 : Word).toNat = 1 := rfl
  simp only [BatchFields.filled, BitVec.toNat_add, one]
  omega

/-- A record as a delivery leaves it (R31). -/
def Blank.asDelivered (number : Word) (b : Blank) : Blank :=
  { b with disposition := .delivered, batch := some number, ops := addBit b.ops Op.count.bit }

theorem deliver_good {b : Blank} (good : b.disposition = .inLine ∨ b.disposition = .cleared) (number : Word) :
    b.deliver number = Blank.asDelivered number b := by
  rcases good with h | h <;> simp only [Blank.deliver, h, Blank.asDelivered]

/-- The batch that has taken a record, before its full-size test. -/
def State.taken (s : State) (o : OpenBatch) (seq : Word) : State :=
  { s with batch := { s.batch with
      openBatch := some { o with fields := BatchFields.filled seq o.fields }, missRun := 0 } }

section
variable {o : OpenBatch} {b : Blank} {k : Fin 64} (opened : s.batch.openBatch = some o)
  (good : b.disposition = .inLine ∨ b.disposition = .cleared) (present : s.presentAt k = some b)
  (found : s.positionOf b.seq = some k) (counts : o.fields.count ≠ BitVec.allOnes 32)
include opened good present found counts

/-- A record handed over with no boundary left to take: the record delivered at its place, the batch filled and
tested. -/
theorem deliver_of_boundary (met : s.formatBoundary b.fmt = s) :
    s.deliver b.seq b.fmt = { (State.taken s o b.seq).fullSizeTest with
      ring := { s.ring with
        entries := setAt s.ring.entries (s.ring.head + k) (some (Blank.asDelivered o.fields.number b)) } } := by
  unfold State.deliver
  simp only [met, opened, update_of_some found present, deliver_good good]
  let put := s.putAt k (some (Blank.asDelivered o.fields.number b))
  have filled : put.updBatch (BatchFields.delivered b.seq) = { put with batch := { put.batch with
      openBatch := some { o with fields := BatchFields.filled b.seq o.fields } } } := by
    rw [updBatch_of_open (s := put) (o := o) opened, delivered_eq_filled counts]
  have taken : { put.updBatch (BatchFields.delivered b.seq) with
      batch := { (put.updBatch (BatchFields.delivered b.seq)).batch with missRun := 0 } }
      = { State.taken s o b.seq with ring := { s.ring with
        entries := setAt s.ring.entries (s.ring.head + k) (some (Blank.asDelivered o.fields.number b)) } } := by
    rw [filled]
    rfl
  exact (congrArg State.fullSizeTest taken).trans (fullSizeTest_with_entries (s := State.taken s o b.seq) _)

end

/-! ### The boundary is met once -/

theorem formatBoundary_formatBoundary {o : OpenBatch} {fmt : Fin 4} (opened : s.batch.openBatch = some o) :
    (s.formatBoundary fmt).formatBoundary fmt = s.formatBoundary fmt := by
  by_cases same : o.fields.fmt = fmt
  · rw [formatBoundary_same opened same, formatBoundary_same opened same]
  · have closed (cause : CloseCause) : (s.closeOpenBatch o cause (some fmt)).formatBoundary fmt
        = s.closeOpenBatch o cause (some fmt) :=
      formatBoundary_same (closedAs_closeOpenBatch o cause (some fmt) s).next rfl
    by_cases empty : o.state = .open ∧ o.fields.count = 0
    · by_cases noBatch : s.batch.inBox = 0
      · rw [formatBoundary_empty_same_box opened same empty.1 empty.2 noBatch, updBatch_of_open opened]
        exact formatBoundary_same rfl rfl
      · rw [formatBoundary_empty_new_box opened same empty.1 empty.2 noBatch,
          updBatch_of_open (s := s.closeBox) (o := o) opened]
        exact formatBoundary_same rfl rfl
    · have waits : o.state = .held ∨ o.fields.count ≠ 0 := by
        cases h : o.state
        · exact .inr fun zero => empty ⟨h, zero⟩
        · exact .inl rfl
      by_cases room : s.batch.log.length < 32
      · match h : o.state with
        | .open =>
          rw [formatBoundary_open_room opened same h (waits.resolve_left (by simp [h])) room, closed]
        | .held => rw [formatBoundary_held_room opened same h room, closed]
      · rw [formatBoundary_full opened same waits (not_lt.mp room)]
        exact formatBoundary_full (o := { state := .held, fields := { o.fields with mixed := true } }) rfl same (.inl rfl)
          (not_lt.mp room)

end

/-- Settles O25. A hand-over meets the boundary, fills the batch and takes the full-size test; test and boundary go by
their branches, and a closure is what `closedAs_closeOpenBatch` says. -/
theorem deliveryFillsBatch : Obligations.DeliveryFillsBatch := by
  refine ⟨?delivery, ?sizeTest, ?boundary, ?handedOver⟩
  case delivery =>
    intro b o k s on opened sameFormat good present found counts t filled u
    have inLine : k.val < s.lineLength := (presentAt_some.mp present).1
    have full : filled.count.toNat = o.fields.count.toNat + 1 := toNat_count_filled counts b.seq
    have delivered : t = { u.fullSizeTest with
        ring := { s.ring with
          entries := setAt s.ring.entries (s.ring.head + k) (some (Blank.asDelivered o.fields.number b)) } } := by
      simp only [t, countVerification_good on good, if_true]
      exact deliver_of_boundary opened good present found counts (formatBoundary_same opened sameFormat)
    have line : t.lineLength = s.lineLength := by
      rw [delivered]
      exact (works_fullSizeTest u).lineLength
    have records (j : Fin 64) : t.presentAt j
        = if k = j then some (Blank.asDelivered o.fields.number b) else s.presentAt j := by
      have placed := presentAt_putAt s k j (some (Blank.asDelivered o.fields.number b))
      rw [if_pos inLine] at placed
      rw [← placed, State.presentAt, line, delivered]
      rfl
    have batch : t.batch = u.fullSizeTest.batch := by rw [delivered]
    have lineControl : t.line = u.fullSizeTest.line := by rw [delivered]
    refine ⟨by rw [records, if_pos rfl]; rfl, fun j other => by rw [records, if_neg other.symm], ?_, ?_, ?below, ?closes,
      ?holds⟩
    · rw [batch, fullSizeTest_missRun]
    · rw [delivered]
    case below =>
      intro isOpen below
      have waits : u.fullSizeTest = u := fullSizeTest_open_below rfl isOpen (by rw [full]; exact below)
      rw [batch, lineControl, waits]
      exact ⟨by rw [← isOpen], rfl, rfl, rfl⟩
    case closes =>
      intro isOpen reaches room
      have closed : ClosedAs u u.fullSizeTest _ .full _ _ :=
        fullSizeTest_closedAs (o := { o with fields := filled }) rfl room (by rw [full]; exact reaches)
      rw [batch, lineControl]
      refine ⟨closed.log, closed.kick, fun high => (closed.events _).mpr (.inr (.inr ⟨rfl, high⟩)), _, closed.next, rfl,
        rfl, rfl, sameFormat, ?_⟩
      exact congrArg (fun fmt : Fin 4 => s.slots[fmt].header.batchSize) sameFormat
    case holds =>
      intro isOpen reaches noRoom
      have held : u.fullSizeTest = u.setBatchState .held :=
        fullSizeTest_open_full (o := { o with fields := filled }) rfl isOpen (by rw [full]; exact reaches) noRoom
      rw [batch, held]
      exact ⟨rfl, rfl⟩
  case sizeTest =>
    intro o s opened n room becomes boxFull
    refine ⟨fullSizeTest_open_below opened, fun isOpen full noRoom => ?_, fun held noRoom => ?_,
      fun held room below => ?_, fun room full => fullSizeTest_closedAs opened room full,
      fun held room above => fullSizeTest_closedAs_oversize opened held room above⟩
    · rw [fullSizeTest_open_full opened isOpen full (not_lt.mp noRoom), setBatchState_of_open opened]
    · exact fullSizeTest_held_waits opened held (not_lt.mp noRoom)
    · rw [fullSizeTest_held_below opened held room below, setBatchState_of_open opened]
  case boundary =>
    intro o fmt s opened other t n room taken
    have isEmpty : n = 0 ↔ o.fields.count = 0 :=
      ⟨fun zero => BitVec.eq_of_toNat_eq zero, fun zero => congrArg BitVec.toNat zero⟩
    refine ⟨fun isOpen empty noBatch => ?_, fun isOpen empty batches => ?_, fun isOpen filled room => ?_,
      fun held room => ?_, fun waits noRoom => ?_⟩
    · rw [show t = _ from formatBoundary_empty_same_box opened other isOpen (isEmpty.mp empty) noBatch,
        updBatch_of_open opened]
    · rw [show t = _ from formatBoundary_empty_new_box opened other isOpen (isEmpty.mp empty) batches,
        updBatch_of_open (s := s.closeBox) (o := o) opened]
      rfl
    · rw [show t = _ from formatBoundary_open_room opened other isOpen (mt isEmpty.mpr filled) room]
      exact closedAs_of_iff (closedAs_closeOpenBatch o _ (some fmt) s) (by simp [BoxCloses])
    · rw [show t = _ from formatBoundary_held_room opened other held room]
      exact closedAs_of_iff (closedAs_closeOpenBatch o _ (some fmt) s) (by simp [BoxCloses])
    · exact formatBoundary_full opened other (waits.imp_right (mt isEmpty.mpr)) (not_lt.mp noRoom)
  case handedOver =>
    intro b o s on opened good _
    have boundaryOn : (s.formatBoundary b.fmt).line.mode ≠ .offline := fun off =>
      on ((flows_formatBoundary b.fmt s).mode.mp off)
    refine ⟨?_, fun k other waits noRoom present found counts => ?_⟩
    · rw [countVerification_good on good, countVerification_good boundaryOn good]
      simp only [if_true, State.deliver, formatBoundary_formatBoundary opened]
    · have full := formatBoundary_full opened other waits noRoom
      rw [countVerification_good on good, if_pos rfl]
      have once : s.deliver b.seq b.fmt = (s.formatBoundary b.fmt).deliver b.seq b.fmt := by
        simp only [State.deliver, formatBoundary_formatBoundary opened]
      rw [once, full, deliver_of_boundary (o := { state := .held, fields := { o.fields with mixed := true } }) rfl good
        (by exact present) (by exact found) counts
        (by rw [← full, formatBoundary_formatBoundary opened])]
      exact congrArg (fun u : State => { u with ring := { s.ring with
          entries := setAt s.ring.entries (s.ring.head + k) (some (Blank.asDelivered o.fields.number b)) } })
        (fullSizeTest_held_waits
          (s := State.taken { s with batch := { s.batch with
              openBatch := some { state := .held, fields := { o.fields with mixed := true } } } }
            { state := .held, fields := { o.fields with mixed := true } } b.seq)
          (o := { state := .held, fields := BatchFields.filled b.seq { o.fields with mixed := true } }) rfl rfl noRoom)

/-! ### Lost blanks, passed defects and unexpected edges (R122, R123) -/

section
variable {s : State} {o : OpenBatch} {b : Blank} {k : Fin 64} (opened : s.batch.openBatch = some o)
include opened

theorem unexpectedEdge_of_open : s.unexpectedEdge = { s with batch := { s.batch with
    openBatch := some { o with fields := { o.fields with
      unexpected := increase .unexpected o.fields.unexpected, suspect := true } } } } :=
  updBatch_of_open opened _

variable (present : s.presentAt k = some b) (found : s.positionOf b.seq = some k)
include present found

theorem passDefect_of_open (bad : b.disposition = .toReject ∨ b.disposition = .flagged) :
    s.passDefect b.seq = { s with
      ring := { s.ring with
        entries := setAt s.ring.entries (s.ring.head + k)
          (some { b with disposition := .flagged, ops := addBit b.ops Op.count.bit }) }
      batch := { s.batch with
        missRun := 0
        openBatch := some { o with fields := { o.fields with
          passedDefects := increase .passedDefects o.fields.passedDefects, suspect := true } } } } := by
  have passed : b.passDefect = { b with disposition := .flagged, ops := addBit b.ops Op.count.bit } := by
    rcases bad with h | h <;> simp only [Blank.passDefect, h]
  unfold State.passDefect
  rw [update_of_some found present, passed]
  simp only [State.updBatch, putAt_batch, opened, Option.map_some]
  rfl

/-- The line after a lost blank, before the count miss run is looked at. -/
theorem loseBlank_of_open :
    let u : State := { s with
      ring := { s.ring with
        entries := setAt s.ring.entries (s.ring.head + k) (some (b.lose .countMissing)) }
      notices := s.notices.filter fun n => n.seq ≠ b.seq
      batch := { s.batch with openBatch := some { o with fields := { o.fields with suspect := true } } } }
    s.loseBlank b.seq = if s.batch.missRun + 1 < 2
      then { u with batch := { u.batch with missRun := s.batch.missRun + 1 } }
      else State.raiseCause .jamCount { u with batch := { u.batch with missRun := 0 } } := by
  unfold State.loseBlank
  rw [update_of_some found present]
  simp only [State.updBatch, withdraw_batch, putAt_batch, opened, Option.map_some]
  rfl

end

theorem lose_of_open {b : Blank} (h : b.disposition.final = false) (f : BlankFault) :
    b.lose f = { b with
      disposition := .lost, faults := addBit b.faults f.bit
      verdict := if b.verdict = .awaiting then .missing else b.verdict } :=
  if_neg (by rw [h]; decide)

/-- Settles O26, by the disposition of the record handed over; the second count miss in a row raises the cause on a line
that is not OFFLINE, and the lost record is final. -/
theorem lostBlankMakesBatchSuspect : Obligations.LostBlankMakesBatchSuspect := by
  refine ⟨?lost, ?seen, fun handed seen s off => countVerification_offline off handed seen⟩
  case lost =>
    intro b o k s on opened runs good present found t
    have isOpen : b.disposition.final = false := by rcases good with h | h <;> rw [h] <;> rfl
    have inLine : k.val < s.lineLength := (presentAt_some.mp present).1
    let u : State := { s with
      ring := { s.ring with entries := setAt s.ring.entries (s.ring.head + k) (some (b.lose .countMissing)) }
      notices := s.notices.filter fun n => n.seq ≠ b.seq
      batch := { s.batch with openBatch := some { o with fields := { o.fields with suspect := true } } } }
    have lost : u.ring.at k = some (b.lose .countMissing) := by
      have placed := at_putAt s k k (some (b.lose .countMissing))
      rw [if_pos rfl] at placed
      exact placed
    have withdrawn : ∀ n ∈ u.notices, n.seq ≠ b.seq := fun n mem => by simpa using (List.mem_filter.mp mem).2
    have loses := loseBlank_of_open opened present found
    rw [lose_of_open isOpen] at lost
    have hands : t = s.loseBlank b.seq := by
      simp only [t, countVerification_good on good, Bool.false_eq_true, if_false]
    rcases Nat.le_one_iff_eq_zero_or_eq_one.mp runs with first | second
    · have waits : t = { u with batch := { u.batch with missRun := s.batch.missRun + 1 } } := by
        rw [hands, loses, if_pos (by omega)]
      refine ⟨?_, ?_, ?_, fun _ => ?_, fun second => by omega⟩
      · rw [waits]
        exact presentAt_some.mpr ⟨inLine, lost⟩
      · rw [waits]
        exact withdrawn
      · rw [waits]
      · rw [waits, first]
        exact ⟨rfl, rfl⟩
    · have raises : t = State.raiseCause .jamCount { u with batch := { u.batch with missRun := 0 } } := by
        rw [hands, loses, if_neg (by omega)]
      refine ⟨?_, ?_, ?_, fun first => by omega, fun _ => ?_⟩
      · rw [raises]
        refine presentAt_some.mpr ⟨?_, raiseCause_final .jamCount
          (s := { u with batch := { u.batch with missRun := 0 } }) lost rfl⟩
        rw [(works_raiseCause .jamCount { u with batch := { u.batch with missRun := 0 } }).lineLength]
        exact inLine
      · rw [raises, raiseCause_notices]
        exact withdrawn
      · rw [raises, raiseCause_batch]
      · rw [raises, raiseCause_batch, raiseCause_causes, raiseCause_mode]
        refine ⟨rfl, (addCause_set_mem _ _ _).trans (by simp), ?_⟩
        cases mode : s.line.mode with
        | offline => exact absurd mode on
        | armed => rfl
        | faulted => rfl
  case seen =>
    intro b o k s on opened present found unexpected
    refine ⟨fun bad => ⟨?_, ?_⟩, fun gone => ⟨?_, ?_⟩, fun delivered seen => ?_, ?_, ?_⟩
    · rw [countVerification_bad on bad]
      rfl
    · rw [countVerification_bad on bad]
      exact passDefect_of_open opened present found bad
    · rw [countVerification_gone on gone]
      rfl
    · rw [countVerification_gone on gone]
      exact unexpectedEdge_of_open opened
    · exact countVerification_delivered on delivered seen
    · rw [countVerification_gap on]
      exact unexpectedEdge_of_open opened
    · rw [countVerification_gap on]
      rfl

/-! ### TAKE BATCH, PEEK BATCH and CLOSE BATCH -/

theorem closeCause_codedFrom0 : CodedFrom0 CloseCause.value [.full, .oversize, .short, .changeover] := by
  constructor
  · decide
  · intro x; cases x <;> decide

theorem flags_of_two (a b : Bool) : (flagByte a ||| (flagByte b <<< 1)).toNat < 4
    ∧ (flagByte a ||| (flagByte b <<< 1)).getLsbD 0 = a ∧ (flagByte a ||| (flagByte b <<< 1)).getLsbD 1 = b := by
  cases a <;> cases b <;> decide

section
variable {s : State} (takes : Takes s .line)
include takes

theorem exec_takeBatch : exec .takeBatch s = .next (s.takeBatch.1.respond .line s.takeBatch.2) :=
  takeFrame_of_takes takes _

theorem exec_peekBatch : exec .peekBatch s = .next (s.peekBatch.1.respond .line s.peekBatch.2) :=
  takeFrame_of_takes takes _

theorem exec_closeBatch : exec .closeBatch s = .next (s.closeBatch.1.respond .line s.closeBatch.2) :=
  takeFrame_of_takes takes _

end

/-- A batch record byte by byte, in the order of section 10.5. -/
theorem batchLayout_eq (r : BatchRecord) :
    r.layout =
      [byteOf r.fields.number 0, byteOf r.fields.number 1, byteOf r.fields.number 2, byteOf r.fields.number 3,
        BitVec.ofNat 8 r.fields.fmt.val, r.cause.value, flagByte r.fields.suspect ||| (flagByte r.fields.mixed <<< 1),
        byteOf r.fields.count 0, byteOf r.fields.count 1, byteOf r.fields.count 2, byteOf r.fields.count 3,
        byteOf (r.fields.firstSeq.getD 0) 0, byteOf (r.fields.firstSeq.getD 0) 1, byteOf (r.fields.firstSeq.getD 0) 2,
        byteOf (r.fields.firstSeq.getD 0) 3, byteOf (r.fields.lastSeq.getD 0) 0, byteOf (r.fields.lastSeq.getD 0) 1,
        byteOf (r.fields.lastSeq.getD 0) 2, byteOf (r.fields.lastSeq.getD 0) 3,
        byteOf r.fields.rejects 0, byteOf r.fields.rejects 1, byteOf r.fields.rejects 2, byteOf r.fields.rejects 3,
        byteOf r.fields.passedDefects 0, byteOf r.fields.passedDefects 1, byteOf r.fields.passedDefects 2,
        byteOf r.fields.passedDefects 3,
        byteOf r.fields.unexpected 0, byteOf r.fields.unexpected 1, byteOf r.fields.unexpected 2,
        byteOf r.fields.unexpected 3,
        byteOf r.fields.indexInBox 0, byteOf r.fields.indexInBox 1, byteOf r.fields.indexInBox 2,
        byteOf r.fields.indexInBox 3,
        byteOf r.fields.boxNumber 0, byteOf r.fields.boxNumber 1, byteOf r.fields.boxNumber 2,
        byteOf r.fields.boxNumber 3,
        byteOf (BitVec.ofNat 16 r.fields.heldSize) 0, byteOf (BitVec.ofNat 16 r.fields.heldSize) 1,
        BitVec.ofNat 8 r.fields.heldPerBox] := rfl

/-- Settles O27: the log's head is the answer, and its layout is read off byte by byte. -/
theorem takeAndPeekBatch : Obligations.TakeAndPeekBatch := by
  intro s takes
  refine ⟨fun empty => ⟨?_, ?_⟩, fun r rest first => ?_⟩
  · rw [exec_takeBatch takes]
    simp only [State.takeBatch, empty, Response.bare]
  · rw [exec_peekBatch takes]
    simp only [State.peekBatch, empty, Response.bare]
  · intro l f
    have layout : l = _ := batchLayout_eq r
    refine ⟨?length, ?number, ?fmt, ?cause, closeCause_codedFrom0, fun x at6 => ?flags, ?count, ?firstSeq, ?lastSeq,
      ?rejects, ?passedDefects, ?unexpected, ?indexInBox, ?boxNumber, ?heldSize, ?heldPerBox, ?take, ?peek⟩
    case flags =>
      rw [layout] at at6
      have byte : x = flagByte f.suspect ||| (flagByte f.mixed <<< 1) := (Option.some.inj at6).symm
      rw [byte]
      exact flags_of_two f.suspect f.mixed
    case take =>
      rw [exec_takeBatch takes]
      simp only [State.takeBatch, first]
    case peek =>
      rw [exec_peekBatch takes]
      simp only [State.peekBatch, first]
    all_goals rw [layout]; rfl

/-- Settles O28. A closure by command is one of `closedAs_closeOpenBatch`, and a SHORT one leaves the box. -/
theorem closeBatchCloses : Obligations.CloseBatchCloses := by
  intro s takes
  refine ⟨?_, fun o opened filled => ⟨fun noRoom => ?_, fun room => ?_⟩⟩
  · rintro (none | ⟨o, opened, empty⟩) <;> rw [exec_closeBatch takes]
    · simp only [State.closeBatch, none, Response.bare]
    · simp only [State.closeBatch, opened, empty, if_true, Response.bare]
  · rw [exec_closeBatch takes]
    simp only [State.closeBatch, opened, filled, if_false, logFull_of_le noRoom, if_true, Response.bare]
  · intro cause
    have closes : s.closeBatch = (s.closeOpenBatch o cause none, .bare .ok) := by
      simp only [State.closeBatch, opened, filled, if_false, logFull_of_lt room, Bool.false_eq_true]
      rfl
    have closed := closedAs_closeOpenBatch o cause none s
    generalize s.closeOpenBatch o cause none = u at closes closed
    obtain ⟨batch, events, whole⟩ : ∃ batch events, u = { s with
        batch := batch, line := { s.line with events := events } } := ⟨_, _, closed.rest⟩
    subst whole
    have runs := exec_closeBatch takes
    rw [closes] at runs
    refine ⟨_, _, runs, rfl, rfl, rfl, closed.log, closed.kick, closed.next, rfl, rfl, rfl, rfl, closed.nextNumber,
      fun short => ?_⟩
    have stays : ¬ BoxCloses s o cause none := by simp [BoxCloses, short]
    obtain ⟨box, boxNumber, inBox⟩ := closed.sameBox stays
    exact ⟨boxNumber, box, inBox⟩

end Sys2Proof.Proofs

/-!
PROOF. The step and its queue, frames that are disregarded, the motion report, the motion timers, and the state after
power-on.
-/

namespace Sys2Proof.Proofs

open Sys2Proof Sys2Proof.Machine Sys2Proof.Safety Sys2Proof.Laws

/-- Settles O1, by the two branches of the step. -/
theorem stepRunsFrontCommand : Obligations.StepRunsFrontCommand :=
  ⟨fun _ _ _ => rfl, fun s empty => by rw [step, empty]⟩

/-! ### Every command completes and keeps the queue -/

theorem takeFrame_total (p : Port) (f : State → State × Response) (s : State) : ∃ t, takeFrame p f s = .next t := by
  unfold takeFrame
  exact ⟨_, rfl⟩

theorem execSoftReset_total (s : State) : ∃ t, execSoftReset s = .next t := by
  unfold execSoftReset
  split
  · exact takeFrame_total ..
  · exact ⟨_, rfl⟩

theorem exec_total (c : Instr) (s : State) : ∃ t, exec c s = .next t := by
  cases c with
  | softReset => exact execSoftReset_total s
  | _ => exact ⟨_, rfl⟩

/-- The queue of commands stays. -/
def KeepsQueue (s t : State) : Prop := t.pending = s.pending

theorem keepsQueue_answerable : Answerable KeepsQueue := ⟨fun _ => rfl, fun _ _ h => h⟩

theorem keepsQueue_of_works {s t : State} (h : Works s t) : KeepsQueue s t := h.pending

theorem commonReset_pending (cause : ResetCause) (first : Option Cause) (s : State) :
    (s.commonReset cause first).pending = s.pending := rfl

theorem softReset_pending (s : State) : s.softReset.pending = s.pending := by
  rw [State.softReset, stationsSoft_pending, commonReset_pending]

theorem rstnReset_pending (s : State) : s.rstnReset.pending = s.pending := by
  simp only [State.rstnReset, commonReset_pending]

theorem powerOn_pending (rstnLow : Bool) (s : State) : (s.powerOn rstnLow).pending = s.pending := rfl

theorem portReset_pending (p : Port) (s : State) : (s.portReset p).pending = s.pending := by
  unfold State.portReset
  dsimp only
  split <;> exact releaseLocksOf_pending s p

theorem sameSetup_correctIndex (c : Constants) (z0 : Nat) (s : State) : SameSetup s (s.correctIndex c z0) := by
  unfold State.correctIndex
  dsimp only
  split
  · exact sameSetup_refl s
  · split
    · split
      · exact (stepForward_spec z0 s).1
      · exact (wrap_spec z0 s).1
    · split <;> exact sameSetup_angle ..

/-- Every command keeps the queue. -/
theorem keepsQueue_exec {s t : State} {i : Instr} (next : exec i s = .next t) : KeepsQueue s t := by
  have answers := keepsQueue_answerable
  cases i with
  | nop | status | readMotion | shortFrame | unknownCommand | notOnPort | parameterLengthMismatch =>
    exact answers.frame_same (f := fun s => (s, _)) next rfl
  | statusWithAcknowledge => exact answers.frame next rfl
  | setWindow p first last =>
    rcases setWindow_state s p first last with h | ⟨-, -, h⟩
    · exact answers.frame_same next h
    · exact answers.frame next (h ▸ rfl)
  | readNext p => exact answers.frame next rfl
  | readSeq p seq => exact answers.frame_same next (readSeq_state s seq)
  | peekCell p cell => exact answers.frame_same next (peekCell_state s cell)
  | takeCell cell =>
    obtain ⟨_, h⟩ := takeCell_state s cell
    exact answers.frame next (h ▸ rfl)
  | stop port =>
    exact answers.frame (f := fun s => (s.raiseCause (stopCause port), .bare .ok)) next
      (keepsQueue_of_works (works_raiseCause _ s))
  | lockNew =>
    rcases lockNew_state s with ⟨_, -, h⟩ | ⟨_, h⟩ <;> exact answers.frame next (h ▸ rfl)
  | lockReturn p n | lockTake p n | lockRelease p n | lockQuery p n =>
    rcases lockCommand_state s n _ with ⟨_, -, h⟩ | ⟨_, h⟩ <;> exact answers.frame next (h ▸ rfl)
  | writeFormat p slot g =>
    rcases writeFormat_state s p slot g with h | ⟨_, _, -, -, h⟩
    · exact answers.frame_same next h
    · exact answers.frame next (h ▸ rfl)
  | readFormat p slot group => exact answers.frame_same next (readFormat_state s slot group)
  | commitFormat p slot =>
    rcases commitFormat_state s p slot with h | ⟨_, -, h⟩
    · exact answers.frame_same next h
    · exact answers.frame next (h ▸ rfl)
  | arm =>
    rcases arms_state s with h | ⟨k, -, -, h⟩
    · exact answers.frame_same next h
    · refine answers.frame next (h ▸ ?_)
      unfold State.openBatchAtArm
      split <;> rfl
  | disarm =>
    rcases disarm_state s with h | ⟨-, -, h⟩
    · exact answers.frame_same next h
    · exact answers.frame next (h ▸ (works_abortPrime .standby s).pending)
  | clear =>
    rcases clear_state s with h | ⟨-, h⟩
    · exact answers.frame_same next h
    · exact answers.frame next (h ▸ rfl)
  | softReset => exact answers.softReset next fun _ => softReset_pending s
  | setConstants r =>
    rcases setConstants_state s r with h | ⟨_, -, -, h⟩
    · exact answers.frame_same next h
    · exact answers.frame next (by rw [h]; rfl)
  | setCell r =>
    obtain ⟨_, h⟩ := setCell_state s r
    exact answers.frame next (h ▸ rfl)
  | changeover slot =>
    rcases changeover_state s slot with h | h | ⟨n, -, -, ⟨-, h⟩ | ⟨-, h⟩⟩
    · exact answers.frame_same next h
    · exact answers.frame next (h ▸ rfl)
    · exact answers.frame next (h ▸ keepsQueue_of_works (works_makeActive n _ s))
    · exact answers.frame next (h ▸ rfl)
  | takeBatch =>
    rcases takeBatch_state s with h | ⟨_, _, -, h⟩
    · exact answers.frame_same next h
    · exact answers.frame next (h ▸ rfl)
  | peekBatch => exact answers.frame_same next (peekBatch_state s)
  | closeBatch =>
    rcases closeBatch_state s with h | ⟨_, _, -, -, h⟩
    · exact answers.frame_same next h
    · exact answers.frame next (h ▸ keepsQueue_of_works (works_closeOpenBatch ..))
  | markReject seq =>
    rcases markReject_state s seq with h | h
    · exact answers.frame_same next h
    · exact answers.frame next (h ▸ keepsQueue_of_works (works_update ..))
  | primeGum =>
    obtain ⟨_, h⟩ := primeGum_state s
    exact answers.frame next (h ▸ rfl)
  | nudge v =>
    rcases nudge_state s v with h | h
    · exact answers.frame_same next h
    · exact answers.frame next (h ▸ keepsQueue_of_works (works_applyCorrection _ s))
  | setCym mode =>
    obtain ⟨_, h⟩ := setCym_state s mode
    exact answers.frame next (h ▸ rfl)
  | takeNotice =>
    rcases takeNotice_state s with h | ⟨_, _, -, h⟩
    · exact answers.frame_same next h
    · exact answers.frame next (h ▸ rfl)
  | verdict seq outcome code =>
    rcases takeVerdict_state s seq outcome code with h | ⟨_, _, -, -, -, h⟩
    · exact answers.frame_same next h
    · exact answers.frame next (h ▸ keepsQueue_of_works ((works_update ..).trans (works_withdraw ..)))
  | takeTrim =>
    obtain ⟨_, h⟩ := takeTrim_state s
    exact answers.frame next (h ▸ rfl)
  | forwardCount =>
    refine answers.count next (fun _ => rfl) fun c _ => ?_
    obtain ⟨u, before, after⟩ := takeCount_spec .forward (State.forwardWork c) (s.transition .forward)
    exact after.pending.trans ((forwardWork_spec c u).1.pending.trans before.pending)
  | backwardCount =>
    refine answers.count next (fun _ => rfl) fun c _ => ?_
    obtain ⟨u, before, after⟩ := takeCount_spec .backward (State.backwardWork c) (s.transition .backward)
    exact after.pending.trans ((backwardWork_spec c u).1.pending.trans before.pending)
  | indexCorrection =>
    have corrects (c : Constants) (z0 : Nat) (u : State) : KeepsQueue u (u.correctIndex c z0) :=
      (sameSetup_correctIndex c z0 u).pending
    exact answers.indexCorrection next (fun c z0 _ _ _ => corrects c z0 s) fun c z0 n _ _ _ =>
      ⟨(corrects c z0 _).trans (works_raiseCause .indexSlip { s with choice := n }).pending,
        (works_raiseCause .indexSlip _).pending.trans (corrects c z0 { s with choice := n })⟩
  | discardedSample | haltTimerExpiry | crawlThreshold =>
    exact answers.event (f := fun s => { s with angle := _ }) next rfl
  | cymPulseEnd => exact answers.event next rfl
  | pulseEnd cell => exact answers.event (f := fun s => s.updCell cell _) next rfl
  | filterExpiry cell =>
    exact answers.event_if (c := fun s => s.cells[cell].filterTimer.isSome) next
      fun _ => keepsQueue_of_works (works_qualify cell s)
  | standbyExpiry =>
    exact answers.event_if (c := fun s => s.standbyRuns) next fun _ => keepsQueue_of_works (works_standbyExpires s)
  | primeComplete =>
    exact answers.event_if (c := fun s => s.gum.state = .priming) next
      fun _ => keepsQueue_of_works (works_primeCompletes s)
  | chordTaken =>
    exact answers.event_if (c := fun s => s.line.chordTimer.isSome) next fun _ => keepsQueue_of_works (works_takeChord s)
  | pinChange cell high | levelInputChange cell high =>
    obtain ⟨_, h | ⟨angle, h⟩⟩ := pinGoes_state s cell high <;> exact Answerable.next next (h ▸ rfl)
  | operatorLineChange a b =>
    obtain ⟨_, _, _, -, h⟩ := operatorLines_state s a b
    exact Answerable.next next (h ▸ rfl)
  | portReset p => exact Answerable.next next (portReset_pending p s)
  | rstnReset => exact Answerable.next next (rstnReset_pending s)
  | powerOn rstnLow => exact Answerable.next next (powerOn_pending rstnLow s)
  | emptyFrame | rstnRelease | portResetRelease => exact Answerable.next next rfl

/-- Settles O2, by `exec_total` and `keepsQueue_exec`. -/
theorem commandsCompleteAndKeepQueue : Obligations.CommandsCompleteAndKeepQueue := fun c s => by
  obtain ⟨t, next⟩ := exec_total c s
  exact ⟨t, next, keepsQueue_exec next⟩

/-! ### Disregarded frames -/

theorem disregards_iff {s : State} {p : Port} :
    s.disregards p = true ↔ s.heldInReset = true ∨ (s.ports.get p).prstLow = true := by
  simp [State.disregards]

/-- Settles O6: every command that comes by a frame acts through `takeFrame` of its port, or not at all. -/
theorem disregardedFramesChangeNothing : Obligations.DisregardedFramesChangeNothing := by
  intro i p bytes s spelt reset
  have disregards : s.disregards p = true := disregards_iff.mpr reset
  cases i with
  | softReset =>
    obtain ⟨rfl, -⟩ := Prod.mk.inj (Option.some.inj spelt)
    change execSoftReset s = _
    rw [execSoftReset, takeFrame_of_disregards disregards, disregards]
    split <;> rfl
  | emptyFrame => rfl
  | forwardCount | backwardCount | discardedSample | indexCorrection | cymPulseEnd | haltTimerExpiry | crawlThreshold
    | pinChange | filterExpiry | levelInputChange | pulseEnd | standbyExpiry | primeComplete | operatorLineChange
    | chordTaken | powerOn | rstnReset | rstnRelease | portReset | portResetRelease => cases spelt
  | nop | status | readMotion | shortFrame | unknownCommand | notOnPort | parameterLengthMismatch =>
    obtain ⟨rfl, -⟩ := Prod.mk.inj (Option.some.inj spelt)
    exact takeFrame_of_disregards disregards fun s => (s, _)
  | stop =>
    obtain ⟨rfl, -⟩ := Prod.mk.inj (Option.some.inj spelt)
    exact takeFrame_of_disregards disregards fun s => (s.raiseCause _, _)
  | _ =>
    obtain ⟨rfl, -⟩ := Prod.mk.inj (Option.some.inj spelt)
    exact takeFrame_of_disregards disregards _

/-! ### The motion report and the motion timers -/

theorem motion_codedFrom0 : CodedFrom0 Motion.value [.halted, .reverse, .crawl, .running] := by
  constructor
  · decide
  · intro x; cases x <;> decide

/-- Settles O9: the report is read off field by field. -/
theorem motionReport : Obligations.MotionReport := by
  intro p s takes
  refine ⟨takeFrame_of_takes takes fun s => (s, { status := .ok, payload := s.motionLayout }), rfl, rfl, rfl, rfl, rfl, rfl,
    motion_codedFrom0, rfl, rfl, fun none => ⟨?_, ?_⟩,
    fun c written => ?_⟩
  · rw [State.theta, none]
  · simp [State.motion, none]
  · rw [State.theta, written]

/-- Settles O21. A current-cycle timer past the limit leaves every motion state but RUNNING. -/
theorem motionTimersAndDiscardedSamples : Obligations.MotionTimersAndDiscardedSamples := by
  intro s running
  have angle (f : AngleUnit → AngleUnit) := takeEvent_running running fun s => { s with angle := f s.angle }
  refine ⟨angle fun a => { a with qa := !a.qa, qb := !a.qb },
    ⟨_, angle fun a => { a with haltTimer := haltExpiry }, rfl, ?_⟩,
    ⟨_, angle fun a => { a with cycleTimer := max a.cycleTimer (crawlLimit + 1) }, rfl, ?_, ?_, ?_⟩⟩
  · simp [State.motion]
  · have : crawlLimit = 2000000 := rfl
    dsimp only
    omega
  · exact Nat.le_max_left ..
  · have past : crawlLimit < max s.angle.cycleTimer (crawlLimit + 1) := by omega
    simp only [State.motion, past, decide_true, Bool.or_true, if_true]
    split
    · simp
    · split
      · simp
      · split <;> simp

/-! ### The state after power-on -/

theorem reset_at (k : Fin 64) : State.reset.ring.at k = none := by
  simp [Ring.at, State.reset, Ring.reset]

theorem reset_presentAt (k : Fin 64) : State.reset.presentAt k = none := by
  unfold State.presentAt
  split
  · exact reset_at k
  · rfl

theorem reset_slots (k : Fin 4) : State.reset.slots[k] = .reset := by
  simp [State.reset]

/-- Settles O55: the ring, the queues and the slots are empty. -/
theorem resetStateIsSound : Obligations.ResetStateIsSound where
  constants := nofun
  angle := ⟨rfl, rfl⟩
  timers := by unfold TimersInRange; decide
  windows p := by unfold WindowLegal; cases p <;> decide
  buffers := by unfold BuffersInRoom; decide
  registration := by unfold RegistrationInRange; decide
  locks := by
    intro i
    unfold LockLegal
    revert i
    decide
  offline _ := ⟨reset_at, rfl⟩
  outside k _ := reset_at k
  seqs := by
    have none : presentSeqs State.reset = [] := by
      unfold presentSeqs
      simp only [reset_at, Option.map_none, List.filterMap_none]
    refine ⟨by decide, ?_⟩
    rw [none]
    rfl
  clean k b hb := by rw [reset_at] at hb; cases hb
  batches := rfl
  inUse k hk := by
    rcases inUse_iff.mp hk with h | h | h | h
    · cases h
    · cases h
    · obtain ⟨j, b, hb, -⟩ := carried_iff.mp h
      rw [reset_presentAt] at hb
      cases hb
    · obtain ⟨i, hi⟩ := anyOpen_iff.mp h
      simp [State.station, State.reset, Station.cleared] at hi
  inspect k i j e e' valid := by
    rw [reset_slots] at valid
    cases valid
  notices := ⟨nofun, .nil, nofun⟩

end Sys2Proof.Proofs

/-!
PROOF. The registration error and correction (R73, R75), VERDICT (R105 to R107), and ARM, CLEAR and DISARM (R153, R154,
R157).
-/

namespace Sys2Proof.Proofs

open Sys2Proof Sys2Proof.Machine Sys2Proof.Safety Sys2Proof.Laws

/-! ### Error and correction -/

theorem registrationError_spec {target angle : Nat} (ht : target < 65536) (ha : angle < 65536) :
    -32768 ≤ registrationError target angle ∧ registrationError target angle ≤ 32767
      ∧ ((angle : Int) - target) - registrationError target angle ∈ ({0, 65536, -65536} : Set Int) := by
  unfold registrationError
  dsimp only
  simp only [Set.mem_insert_iff, Set.mem_singleton_iff]
  split
  · omega
  · split <;> omega

/-- The correction beyond the deadband is the product's magnitude rounded, with the sign of the error. -/
theorem correctionOf_natAbs {h : Header} {e : Int} (beyond : h.deadband < e.natAbs) :
    (256 * correctionOf h e - e * h.gain).natAbs
        = (256 * (((e.natAbs * h.gain + 128) / 256 : Nat) : Int) - (e.natAbs * h.gain : Nat)).natAbs
      ∧ (correctionOf h e).natAbs = (e.natAbs * h.gain + 128) / 256 := by
  have ne : e ≠ 0 := by rintro rfl; simp at beyond
  have unit : e.sign.natAbs = 1 := Int.natAbs_sign_of_ne_zero ne
  have correction : correctionOf h e = e.sign * ((e.natAbs * h.gain + 128) / 256 : Nat) := by
    rw [correctionOf, if_neg (by omega)]
  generalize (e.natAbs * h.gain + 128) / 256 = q at correction ⊢
  constructor
  · have product : e * h.gain = e.sign * ((e.natAbs * h.gain : Nat) : Int) := by
      conv_lhs => rw [← Int.sign_mul_natAbs e]
      push_cast
      ring
    have factor : 256 * correctionOf h e - e * h.gain
        = e.sign * (256 * (q : Int) - (e.natAbs * h.gain : Nat)) := by
      rw [correction, product]
      ring
    rw [factor, Int.natAbs_mul, unit, one_mul]
  · rw [correction, Int.natAbs_mul, unit, one_mul, Int.natAbs_natCast]

/-- Settles O30, by `registrationError_spec` and the size of the correction (`correctionOf_natAbs`). -/
theorem errorAndCorrectionAreExact : Obligations.ErrorAndCorrectionAreExact := by
  constructor
  · intro target angle ht ha
    obtain ⟨least, most, d⟩ := registrationError_spec ht ha
    refine ⟨least, most, ?_⟩
    rcases d with d | d | d <;> rw [d] <;> decide
  · intro h e
    refine ⟨fun within => if_pos within, fun beyond => ?_⟩
    obtain ⟨distance, size⟩ := correctionOf_natAbs beyond
    have product : (e * h.gain).natAbs = e.natAbs * h.gain := by rw [Int.natAbs_mul, Int.natAbs_natCast]
    have scaled : (256 * correctionOf h e).natAbs = 256 * ((e.natAbs * h.gain + 128) / 256) := by
      rw [Int.natAbs_mul, size]
      rfl
    rw [distance, product, scaled]
    generalize e.natAbs * h.gain = x
    omega

/-! ### VERDICT -/

theorem outcomeOf_other {outcome : Byte} (pass : outcome ≠ 1) (fail : outcome ≠ 2) : outcomeOf outcome = none := by
  unfold outcomeOf
  split
  · next h => exact absurd (BitVec.eq_of_toNat_eq h) pass
  · next h => exact absurd (BitVec.eq_of_toNat_eq h) fail
  · rfl

theorem exec_verdict {s : State} (takes : Takes s .inspection) (seq : Word) (outcome code : Byte) :
    exec (.verdict seq outcome code) s
      = .next ((s.takeVerdict seq outcome code).1.respond .inspection (s.takeVerdict seq outcome code).2) :=
  takeFrame_of_takes takes _

/-- An outcome byte and a code that VERDICT does not refuse with RANGE, and the outcome they spell. -/
inductive Spells : Byte → Byte → VerdictOutcome → Prop where
  | pass (code : Byte) : Spells 1 code .pass
  | fail {code : Byte} : code ≠ 0 → Spells 2 code .fail

/-- VERDICT's answer to an outcome that it does not refuse, by the record of the number (R106). -/
def State.answerVerdict (seq : Word) (o : VerdictOutcome) (code : Byte) (s : State) : State × Response :=
  match s.record seq with
  | none => (s, .bare .notTracked)
  | some b =>
    match b.verdict with
    | .awaiting =>
      if b.disposition.final then (s, .bare .tooLate)
      else ((s.update seq (Blank.judge o code)).withdraw seq, .bare .ok)
    | .pass | .fail => (s, .bare .duplicate)
    | .missing => (s, .bare .tooLate)
    | .skipped | .noneDue => (s, .bare .notAwaiting)

theorem takeVerdict_of_spells {outcome code : Byte} {o : VerdictOutcome} (spells : Spells outcome code o) (seq : Word)
    (s : State) : s.takeVerdict seq outcome code = State.answerVerdict seq o code s := by
  cases spells with
  | pass => rfl
  | fail coded => exact if_neg (by simpa using coded)

section
variable {s : State} {seq : Word} {o : VerdictOutcome} {code : Byte}

theorem answerVerdict_absent (absent : s.record seq = none) :
    State.answerVerdict seq o code s = (s, .bare .notTracked) := by
  simp only [State.answerVerdict, absent]

variable {b : Blank} (record : s.record seq = some b)
include record

theorem answerVerdict_accepted (awaiting : b.verdict = .awaiting) (isOpen : b.disposition.final = false) :
    State.answerVerdict seq o code s = ((s.update seq (Blank.judge o code)).withdraw seq, .bare .ok) := by
  simp only [State.answerVerdict, record, awaiting, isOpen, Bool.false_eq_true, if_false]

theorem answerVerdict_late (late : b.verdict = .missing ∨ (b.verdict = .awaiting ∧ b.disposition.final = true)) :
    State.answerVerdict seq o code s = (s, .bare .tooLate) := by
  rcases late with missing | ⟨awaiting, final⟩
  · simp only [State.answerVerdict, record, missing]
  · simp only [State.answerVerdict, record, awaiting, final, if_true]

theorem answerVerdict_twice (twice : b.verdict = .pass ∨ b.verdict = .fail) :
    State.answerVerdict seq o code s = (s, .bare .duplicate) := by
  rcases twice with h | h <;> simp only [State.answerVerdict, record, h]

theorem answerVerdict_undue (undue : b.verdict = .skipped ∨ b.verdict = .noneDue) :
    State.answerVerdict seq o code s = (s, .bare .notAwaiting) := by
  rcases undue with h | h <;> simp only [State.answerVerdict, record, h]

end

theorem takeVerdict_range {outcome code : Byte} (h : (outcome ≠ 1 ∧ outcome ≠ 2) ∨ (outcome = 2 ∧ code = 0))
    (seq : Word) (s : State) : s.takeVerdict seq outcome code = (s, .bare .range) := by
  rcases h with ⟨pass, fail⟩ | ⟨rfl, rfl⟩
  · simp only [State.takeVerdict, outcomeOf_other pass fail]
  · rfl

/-- A FAIL recorded in a record that is open. -/
theorem judge_fail {b : Blank} (isOpen : b.disposition.final = false) (code : Byte) : b.judge .fail code = { b with
    verdict := .fail, failCode := some code, faults := addBit b.faults BlankFault.verdictFail.bit
    disposition := if b.disposition = .inLine ∨ b.disposition = .toReject then .toReject else .flagged } := by
  simp only [Blank.judge, addFault_of_open isOpen, faulted_of_open isOpen]

/-- Settles O37, by R106's table. -/
theorem verdictsAreAnsweredByTheTable : Obligations.VerdictsAreAnsweredByTheTable := by
  intro seq outcome code s takes
  refine ⟨fun refused => ?_, fun accepted => ?_⟩
  · rw [exec_verdict takes, takeVerdict_range refused, Response.bare]
  · obtain ⟨o, spells⟩ : ∃ o, Spells outcome code o := by
      rcases accepted with rfl | ⟨rfl, coded⟩
      · exact ⟨_, .pass code⟩
      · exact ⟨_, .fail coded⟩
    refine ⟨fun absent => ?_, fun k b found present => ?_⟩
    · rw [exec_verdict takes, takeVerdict_of_spells spells, answerVerdict_absent (record_none.mpr absent), Response.bare]
    · have record : s.record seq = some b := by rw [record_of_positionOf found, present]
      rw [exec_verdict takes, takeVerdict_of_spells spells]
      refine ⟨fun awaiting isOpen => ⟨b.judge o code, ?_, ?_, ?_⟩, fun late => ?_, fun twice => ?_, fun undue => ?_⟩
      · rintro rfl
        cases spells
        rfl
      · rintro rfl
        cases spells
        exact judge_fail isOpen code
      · rw [answerVerdict_accepted record awaiting isOpen, update_of_some found present]
        rfl
      · rw [answerVerdict_late record late, Response.bare]
      · rw [answerVerdict_twice record twice, Response.bare]
      · rw [answerVerdict_undue record undue, Response.bare]

/-! ### ARM and CLEAR -/

section
variable {s : State} (takes : Takes s .line)
include takes

theorem exec_arm : exec .arm s = .next (s.arm.1.respond .line s.arm.2) := takeFrame_of_takes takes _

theorem exec_clear : exec .clear s = .next (s.clear.1.respond .line s.clear.2) := takeFrame_of_takes takes _

theorem exec_disarm : exec .disarm s = .next (s.disarm.1.respond .line s.disarm.2) := takeFrame_of_takes takes _

end

theorem arm_accepted {s : State} {k : Fin 4} (off : s.line.mode = .offline) (written : s.constants ≠ none)
    (active : s.active = some k) : s.arm = ((s.enterMode .armed).openBatchAtArm k, .bare .ok) := by
  have isSome : s.constants.isNone = false := by cases h : s.constants <;> simp_all
  simp only [State.arm, off, isSome, active]
  rfl

theorem openBatchAtArm_of_open {s : State} {o : OpenBatch} (opened : s.batch.openBatch = some o) (k : Fin 4) :
    s.openBatchAtArm k = s := by
  simp only [State.openBatchAtArm, opened]

theorem openBatchAtArm_of_none {s : State} (none : s.batch.openBatch = none) (k : Fin 4) :
    s.openBatchAtArm k = s.openBatchFor k := by
  simp only [State.openBatchAtArm, none]

/-- Settles O48, by the tests of R153 in order and the mode that CLEAR finds. -/
theorem armAndClear : Obligations.ArmAndClear := by
  intro s takes
  refine ⟨fun on => ?_, fun off unwritten => ?_, fun off written idle => ?_, fun off written k active => ?_,
    fun faulted => ?_, fun other => ?_⟩
  · rw [exec_arm takes, State.arm, if_pos on]
    rfl
  · rw [exec_arm takes, State.arm, if_neg (not_not.mpr off), if_pos (by rw [unwritten]; rfl)]
    rfl
  · have isSome : s.constants.isNone = false := by cases h : s.constants <;> simp_all
    rw [exec_arm takes]
    simp only [State.arm, off, isSome, idle]
    rfl
  · refine ⟨_, exec_arm takes, ?_⟩
    rw [arm_accepted off written active]
    cases opened : s.batch.openBatch with
    | some o =>
      rw [openBatchAtArm_of_open (s := s.enterMode .armed) opened]
      exact ⟨rfl, fun _ => rfl, nofun⟩
    | none =>
      rw [openBatchAtArm_of_none (s := s.enterMode .armed) opened]
      exact ⟨rfl, fun h => absurd rfl h, fun _ => ⟨rfl, rfl⟩⟩
  · rw [exec_clear takes]
    simp only [State.clear, faulted]
    rfl
  · rw [exec_clear takes]
    cases mode : s.line.mode with
    | faulted => exact absurd mode other
    | offline | armed => simp only [State.clear, mode, Response.bare]

/-! ### DISARM -/

theorem station_disarmed (s : State) (k : Fin 4) (i : Fin 16) :
    s.disarmed.station k i = ((s.abortPrime .standby).station k i).disarm
      ∨ s.active ≠ some k ∧ s.disarmed.station k i = (((s.abortPrime .standby).station k i).disarm).lose := by
  unfold State.disarmed
  dsimp only
  rw [prune_station]
  have mapped (t : State) : (t.mapStations fun _ _ st => st.disarm).station k i = (t.station k i).disarm := by
    simp only [State.station, mapStations_stations, fin_getElem_mapTable]
  split
  · exact .inl (mapped ((s.abortPrime .standby).enterMode .offline))
  · next left =>
    refine .inr ⟨fun active => left (evaluated_iff.mpr (.inl ?_)), ?_⟩
    · exact (settles_abortPrime .standby s).active.trans active
    · exact congrArg Station.lose (mapped ((s.abortPrime .standby).enterMode .offline))

/-- The whole next state of an accepted DISARM but for the stations. -/
theorem disarmed_eq (s : State) : ∃ stations, s.disarmed = { s with
    gum := (State.primeDropped s).1
    line := { s.line with mode := .offline, causes := 0, events := (State.primeDropped s).2 }
    ring := { s.ring with entries := Vector.replicate 64 none }, notices := []
    registration := s.registration.enterOff, batch := { s.batch with missRun := 0 }
    cells := pulsesEnded s.cells, stations := stations } := by
  obtain ⟨_, _, h⟩ := abortPrime_spec s
  unfold State.disarmed
  rw [h]
  exact ⟨_, rfl⟩

/-- The end of a prime keeps marks and lead of the active slot's stations. -/
theorem abortPrime_marks {s : State} {k : Fin 4} (active : s.active = some k) (new : GumState)
    (stops : new = .standby ∨ new = .off) (i : Fin 16) : ((s.abortPrime new).station k i).onMark = (s.station k i).onMark
      ∧ ((s.abortPrime new).station k i).offMark = (s.station k i).offMark
      ∧ ((s.abortPrime new).station k i).lead = (s.station k i).lead := by
  have closes := closes_abortPrime stops s
  have evaluated : (s.abortPrime new).evaluated k = true :=
    evaluated_iff.mpr (.inl ((settles_abortPrime new s).active.trans active))
  by_cases cut : s.gum.state = .priming ∧ (k, i) ∈ s.firedGum
  · rw [closes.closed k i evaluated cut]
    exact ⟨rfl, rfl, rfl⟩
  · rw [closes.kept k i evaluated cut]
    exact ⟨rfl, rfl, rfl⟩

theorem disarmed_keeps (s : State) : s.disarmed.constants = s.constants ∧ s.disarmed.angle = s.angle
    ∧ s.disarmed.slots = s.slots ∧ s.disarmed.active = s.active ∧ s.disarmed.pendingSlot = s.pendingSlot
    ∧ s.disarmed.fresh = s.fresh ∧ s.disarmed.cym = s.cym ∧ s.disarmed.locks = s.locks
    ∧ s.disarmed.ports = s.ports := by
  obtain ⟨stations, h⟩ := disarmed_eq s
  rw [h]
  exact ⟨rfl, rfl, rfl, rfl, rfl, rfl, rfl, rfl, rfl⟩

/-- A disarmed station, in a slot that stays evaluated or not, is closed with its latches and runs cleared. -/
theorem disarmed_shut (s : State) (k : Fin 4) (i : Fin 16) : (s.disarmed.station k i).windowOpen = false
    ∧ (s.disarmed.station k i).latch = .empty ∧ (s.disarmed.station k i).fired = false
    ∧ (s.disarmed.station k i).seen = false ∧ (s.disarmed.station k i).firstEdge = none
    ∧ (s.disarmed.station k i).missRun = 0 := by
  rcases station_disarmed s k i with same | ⟨-, left⟩
  · rw [same]
    exact ⟨rfl, rfl, rfl, rfl, rfl, rfl⟩
  · rw [left]
    exact ⟨rfl, rfl, rfl, rfl, rfl, rfl⟩

theorem disarmed_marks {s : State} {k : Fin 4} (active : s.active = some k) (i : Fin 16) :
    (s.disarmed.station k i).onMark = (s.station k i).onMark ∧ (s.disarmed.station k i).offMark = (s.station k i).offMark
      ∧ (s.disarmed.station k i).lead = (s.station k i).lead := by
  rw [(station_disarmed s k i).resolve_right fun left => left.1 active]
  exact abortPrime_marks active .standby (.inl rfl) i

/-- Settles O49, by the tests of R154 in order and the shape of the emptied line (`disarmed_eq`). -/
theorem disarmEmptiesTheLine : Obligations.DisarmEmptiesTheLine := by
  intro s takes
  refine ⟨fun off => ?_, fun on turns => ?_, fun on halted => ?_⟩
  · rw [exec_disarm takes, State.disarm, if_pos off, Response.bare]
  · rw [exec_disarm takes, State.disarm, if_neg on, if_pos turns, Response.bare]
  · have runs : exec .disarm s = .next (s.disarmed.respond .line (.bare .ok)) := by
      rw [exec_disarm takes, State.disarm, if_neg on, if_neg (not_not.mpr halted)]
    have shut := disarmed_shut s
    have marks := fun k i (active : s.active = some k) => disarmed_marks active i
    obtain ⟨constants, angle, slots, active, pendingSlot, fresh, cym, locks, ports⟩ := disarmed_keeps s
    obtain ⟨stations, whole⟩ := disarmed_eq s
    have dropped : State.primeDropped s = if s.gum.state = .priming then
        ({ state := .standby, standbyTimer := 0, primeTimer := none }, addBit s.line.events LineEvent.primeAborted.bit)
      else (s.gum, s.line.events) := rfl
    generalize s.disarmed = t at *
    refine ⟨_, runs, ?ports, ?line, ?ring, ?notices, shut, marks, ?registration, fun other => ?gum,
      fun priming => ?primed, ?batch, fun i => ?cells, constants, angle, slots, active, pendingSlot, fresh, cym, locks⟩
    case ports =>
      change t.ports.set .line { t.ports.get .line with response := .bare .ok } = _
      rw [ports]
      rfl
    case line =>
      rw [whole, dropped]
      by_cases priming : s.gum.state = .priming
      · rw [if_pos priming, if_pos priming]
        rfl
      · rw [if_neg priming, if_neg priming]
        rfl
    case gum =>
      rw [whole, dropped, if_neg other]
      rfl
    case primed =>
      rw [whole, dropped, if_pos priming]
      rfl
    case cells =>
      rw [whole]
      change (pulsesEnded s.cells)[i] = _
      rw [pulsesEnded, fin_getElem_mapTable]
    all_goals rw [whole]; rfl

end Sys2Proof.Proofs

/-!
PROOF. CYM (R149, R150), the clear chord (R158), port resets (R166), SET CONSTANTS (R2, R3), and the resets (R161, R162).
-/

namespace Sys2Proof.Proofs

open Sys2Proof Sys2Proof.Machine Sys2Proof.Safety Sys2Proof.Laws

/-! ### CYM -/

theorem exec_setCym {s : State} (takes : Takes s .line) (mode : Byte) :
    exec (.setCym mode) s = .next ((s.setCym mode).1.respond .line (s.setCym mode).2) := takeFrame_of_takes takes _

theorem cymModeOf_high {mode : Byte} (h : 2 < mode.toNat) : cymModeOf mode = none := by
  unfold cymModeOf
  split
  · omega
  · omega
  · omega
  · rfl

/-- The advance of the ring reaches its entries, its head and the notice queue. -/
theorem ringAdvance_eq (s : State) :
    s.ringAdvance = { s with ring := s.ringAdvance.ring, notices := s.ringAdvance.notices } := by
  unfold State.ringAdvance
  dsimp only
  split <;> rfl

theorem headAdvance_cym (s : State) : s.headAdvance.cym = s.cym.headAdvance := by
  have advanced : s.ringAdvance.cym = s.cym := by rw [ringAdvance_eq]
  simp only [State.headAdvance, stationsAdvance_cym, prune_cym, advanced]

/-- Settles O45, by the mode byte's range and the CYM mode at a head advance. -/
theorem cymModesAndPulses : Obligations.CymModesAndPulses := by
  refine ⟨fun mode s takes => ⟨fun high => ?_, fun low => ?_⟩, fun s running => takeEvent_running running _, fun s => ?_⟩
  · rw [exec_setCym takes, State.setCym, cymModeOf_high high, Response.bare]
  · rw [exec_setCym takes]
    have cases : mode = 0 ∨ mode = 1 ∨ mode = 2 := by
      have h : mode.toNat = 0 ∨ mode.toNat = 1 ∨ mode.toNat = 2 := by omega
      exact h.imp (fun h => BitVec.eq_of_toNat_eq h) (.imp (fun h => BitVec.eq_of_toNat_eq h) fun h =>
        BitVec.eq_of_toNat_eq h)
    rcases cases with rfl | rfl | rfl <;> rfl
  · rw [headAdvance_cym, Cym.headAdvance]
    rfl

/-! ### The clear chord -/

theorem operatorLines_of_same (s : State) : s.operatorLines s.opaHigh s.opbHigh = s := by
  simp [State.operatorLines]

theorem operatorLines_of_change {s : State} {a b : Bool} (running : s.heldInReset = false)
    (change : s.opaHigh ≠ a ∨ s.opbHigh ≠ b) :
    s.operatorLines a b = State.chordLines { s with opaHigh := a, opbHigh := b } := by
  have moved : (decide (s.opaHigh = a) && decide (s.opbHigh = b)) = false := by
    rcases change with h | h <;> simp [h]
  simp only [State.operatorLines, moved, Bool.false_eq_true, if_false, running]

/-- Settles O50, by the levels the lines go to. -/
theorem clearChordWorks : Obligations.ClearChordWorks := by
  refine ⟨fun s running off a b change => ?disabled, fun s => ⟨?same, fun idle => ?idle⟩,
    fun c s running written enabled => ⟨fun was ready => ?starts, fun was spent => ?spent, fun was => ?released,
      fun a b split change => ?stops, fun runs => ?taken⟩⟩
  case disabled =>
    have noChord : s.chordEnabled = false := by
      cases written : s.constants with
      | none => simp [State.chordEnabled, written]
      | some c => simp [State.chordEnabled, written, off c written]
    change Host.Outcome.next (s.operatorLines a b) = _
    rw [operatorLines_of_change running change]
    have still : State.chordEnabled { s with opaHigh := a, opbHigh := b } = false := noChord
    simp only [State.chordLines, still, Bool.and_false, Bool.false_eq_true, if_false, Bool.and_eq_true]
    by_cases both : a = true ∧ b = true
    · rw [if_pos both, if_pos both]
    · rw [if_neg both, if_neg both]
  case same => exact congrArg Host.Outcome.next (operatorLines_of_same s)
  case idle =>
    change takeEvent _ s = _
    cases held : s.heldInReset with
    | true => exact takeEvent_held held _
    | false =>
      rw [takeEvent_running held, idle]
      rfl
  case starts =>
    change Host.Outcome.next (s.operatorLines false false) = _
    rw [operatorLines_of_change running (by simpa using was)]
    have on : State.chordEnabled { s with opaHigh := false, opbHigh := false } = true := by
      simp [State.chordEnabled, written, enabled]
    simp only [State.chordLines, on, ready]
    rfl
  case spent =>
    change Host.Outcome.next (s.operatorLines false false) = _
    rw [operatorLines_of_change running (by simpa using was)]
    simp only [State.chordLines, spent]
    rfl
  case released =>
    change Host.Outcome.next (s.operatorLines true true) = _
    rw [operatorLines_of_change running (by simpa using was)]
    rfl
  case stops =>
    change Host.Outcome.next (s.operatorLines a b) = _
    rw [operatorLines_of_change running change]
    have mixed : (a && b) = false ∧ (!a && !b) = false := by
      revert split
      cases a <;> cases b <;> decide
    obtain ⟨notBoth, notNone⟩ := mixed
    simp only [State.chordLines, notBoth, Bool.false_eq_true, if_false, Bool.and_assoc]
    simp [← Bool.and_assoc, notNone]
  case taken =>
    change takeEvent _ s = _
    rw [takeEvent_running running, if_pos (Option.isSome_iff_ne_none.mpr runs), State.takeChord]
    by_cases faulted : s.line.mode = .faulted
    · simp only [faulted, if_true]
      rfl
    · simp only [faulted, if_false]

/-! ### Port resets -/

theorem abandon_eq (f : Framing) : f.abandon = if f = .idle then .idle else .abandoned := by
  cases f <;> rfl

theorem whole_eq (length : Nat) : ReadWindow.whole length = { first := 0, last := length - 1, pointer := 0 } := rfl

/-- Settles O53, port by port; only the inspection port's reset reaches the notice queue. -/
theorem portResetTouchesItsPort : Obligations.PortResetTouchesItsPort := by
  refine ⟨fun p s => ⟨s.portReset p, rfl, ?_, fun l => ?_⟩, fun _ _ => rfl⟩
  · have reset : s.portReset p = { s with
        ports := s.ports.set p { response := .mark, prstLow := true }, frames := s.frames.set p (s.frames.get p).abandon
        ring := { s.ring with windows := s.ring.windows.set p (.whole s.lineLength) }
        locks := (s.releaseLocksOf p).locks, notices := if p = .inspection then [] else s.notices } := by
      unfold State.portReset
      dsimp only
      by_cases h : p = .inspection
      · rw [if_pos h, if_pos h]
        rfl
      · rw [if_neg h, if_neg h]
        rfl
    have locks : (s.portReset p).locks = (s.releaseLocksOf p).locks := by rw [reset]
    rw [locks, reset, abandon_eq]
    rfl
  · have locks : (s.portReset p).locks = (s.releaseLocksOf p).locks := by
      unfold State.portReset
      dsimp only
      split <;> rfl
    rw [locks]
    simp only [State.releaseLocksOf, fin_getElem_mapTable, heldBy_iff]

/-! ### SET CONSTANTS -/

section
variable {b : Byte}

theorem directionOf_eq : directionOf b = if b.toNat ≤ 1 then some (if b = 1 then .inverted else .normal) else none := by
  unfold directionOf
  split
  · next zero => rw [BitVec.eq_of_toNat_eq (y := 0#8) zero]; rfl
  · next one => rw [BitVec.eq_of_toNat_eq (y := 1#8) one]; rfl
  · next notZero notOne => rw [if_neg fun small => (Nat.le_one_iff_eq_zero_or_eq_one.mp small).elim notZero notOne]

theorem purgeOf_isSome : (purgeOf b).isSome = true ↔ b.toNat ≤ 15 ∨ b.toNat = 0xFF := by
  unfold purgeOf
  split
  · next none => rw [none]; decide
  · next some =>
    have other : b.toNat ≠ 0xFF := fun h => some (BitVec.eq_of_toNat_eq h)
    rw [Option.isSome_map, isSome_indexOf_iff]
    omega

theorem purgeOf_cell {c : Option (Fin 16)} (h : purgeOf b = some c) (i : Fin 16) : c = some i ↔ b.toNat = i.val := by
  unfold purgeOf at h
  split at h
  · next none =>
    obtain rfl := Option.some.inj h
    rw [none]
    exact iff_of_false nofun fun same => absurd i.isLt (by rw [← same]; decide)
  · next some =>
    obtain ⟨j, index, rfl⟩ := Option.map_eq_some_iff.mp h
    rw [Option.some.injEq, ← val_of_indexOf index, Fin.val_inj]

end

theorem indexPositionOf_isSome {e : Nat} {z : Half} :
    (indexPositionOf e z).isSome = true ↔ z.toNat = 0xFFFF ∨ z.toNat < e := by
  unfold indexPositionOf
  split
  · next none => rw [none]; simp
  · next some =>
    have other : z.toNat ≠ 0xFFFF := fun h => some (BitVec.eq_of_toNat_eq h)
    split
    · next below => simp [below]
    · next above => simp [above, other]

theorem constantsOf_eq_some {r : RawConstants} {c : Constants} : constantsOf r = some c
    ↔ directionOf r.direction = some c.direction ∧ indexPositionOf r.e.toNat r.z0 = some c.z0
      ∧ flagOf r.chordEnable = some c.chordEnable ∧ purgeOf r.purgeCell = some c.purgeCell
      ∧ (2000 ≤ r.e.toNat ∧ r.e.toNat ≤ 40000) ∧ (4 ≤ r.p.toNat ∧ r.p.toNat ≤ 64)
      ∧ c.e = r.e.toNat ∧ c.p = r.p.toNat := by
  simp only [constantsOf, Option.bind_eq_bind, Option.bind_eq_some_iff, Option.ite_none_right_eq_some, Bool.and_eq_true,
    inRange_iff, Option.some.injEq]
  constructor
  · rintro ⟨direction, hd, z0, hz, chord, hc, purge, hp, ⟨he, hp'⟩, rfl⟩
    exact ⟨hd, hz, hc, hp, he, hp', rfl, rfl⟩
  · rintro ⟨hd, hz, hc, hp, he, hp', e, p⟩
    refine ⟨_, hd, _, hz, _, hc, _, hp, ⟨he, hp'⟩, ?_⟩
    rw [← e, ← p]

/-- Parameters that SET CONSTANTS refuses for a value outside its range (R2). -/
def OutsideRange (r : RawConstants) : Prop :=
  r.e.toNat < 2000 ∨ 40000 < r.e.toNat ∨ 1 < r.direction.toNat
    ∨ (r.z0.toNat ≠ 0xFFFF ∧ r.e.toNat ≤ r.z0.toNat) ∨ r.p.toNat < 4 ∨ 64 < r.p.toNat
    ∨ 1 < r.chordEnable.toNat ∨ (15 < r.purgeCell.toNat ∧ r.purgeCell.toNat ≠ 0xFF)

theorem exists_constantsOf_iff {r : RawConstants} : (∃ c, constantsOf r = some c) ↔ ¬ OutsideRange r := by
  have direction : (directionOf r.direction).isSome = true ↔ r.direction.toNat ≤ 1 := by
    rw [directionOf_eq]
    split <;> simp_all
  have chord : (flagOf r.chordEnable).isSome = true ↔ r.chordEnable.toNat ≤ 1 := by
    rw [flagOf_eq]
    split <;> simp_all
  have parts : (∃ c, constantsOf r = some c) ↔ (directionOf r.direction).isSome = true
      ∧ (indexPositionOf r.e.toNat r.z0).isSome = true ∧ (flagOf r.chordEnable).isSome = true
      ∧ (purgeOf r.purgeCell).isSome = true ∧ (2000 ≤ r.e.toNat ∧ r.e.toNat ≤ 40000)
      ∧ (4 ≤ r.p.toNat ∧ r.p.toNat ≤ 64) := by
    simp only [constantsOf_eq_some, Option.isSome_iff_exists]
    constructor
    · rintro ⟨c, hd, hz, hc, hp, he, hp', -, -⟩
      exact ⟨⟨_, hd⟩, ⟨_, hz⟩, ⟨_, hc⟩, ⟨_, hp⟩, he, hp'⟩
    · rintro ⟨⟨d, hd⟩, ⟨z, hz⟩, ⟨ch, hc⟩, ⟨pu, hp⟩, he, hp'⟩
      exact ⟨{ e := r.e.toNat, direction := d, z0 := z, p := r.p.toNat, chordEnable := ch, purgeCell := pu }, hd, hz, hc,
        hp, he, hp', rfl, rfl⟩
  rw [parts, direction, indexPositionOf_isSome, chord, purgeOf_isSome]
  unfold OutsideRange
  omega

theorem mem_entries {f : Format} {e : Entry} : e ∈ f.entries ↔ ∃ i : Fin 16, f.table[i] = some e := by
  simp only [Format.entries, List.mem_filterMap, id_eq, exists_eq_right, Vector.mem_toList_iff, Vector.mem_iff_getElem]
  constructor
  · rintro ⟨i, hi, h⟩
    exact ⟨⟨i, hi⟩, h⟩
  · rintro ⟨i, h⟩
    exact ⟨i.val, i.isLt, h⟩

theorem positionsFit_iff {s : State} {p : Nat} : s.positionsFit p = true
    ↔ ∀ (k : Fin 4) (i : Fin 16) (e : Entry), s.slots[k].state = .valid → s.slots[k].table[i] = some e →
      e.position.val < p := by
  simp only [State.positionsFit, List.all_eq_true, List.mem_finRange, forall_const, Bool.or_eq_true, decide_eq_true_eq,
    mem_entries]
  constructor
  · intro h k i e valid entry
    rcases h k with invalid | fits
    · exact absurd valid invalid
    · exact fits e ⟨i, entry⟩
  · intro h k
    by_cases valid : s.slots[k].state = .valid
    · exact .inr fun e ⟨i, entry⟩ => h k i e valid entry
    · exact .inl valid

theorem exec_setConstants {s : State} (takes : Takes s .line) (r : RawConstants) :
    exec (.setConstants r) s = .next ((s.setConstants r).1.respond .line (s.setConstants r).2) :=
  takeFrame_of_takes takes _

theorem setConstants_refused {r : RawConstants} {s : State} (off : s.line.mode = .offline)
    (refused : ∀ c, constantsOf r = some c → s.positionsFit c.p = false) :
    s.setConstants r = (s, .bare .range) := by
  rw [State.setConstants, if_neg (not_not.mpr off)]
  cases spelt : constantsOf r with
  | none => rfl
  | some c => exact if_neg (by rw [refused c spelt]; decide)

theorem setConstants_accepted {r : RawConstants} {c : Constants} {s : State} (off : s.line.mode = .offline)
    (spelt : constantsOf r = some c) (fits : s.positionsFit c.p = true) :
    s.setConstants r = (s.installConstants c, .bare .ok) := by
  rw [State.setConstants, if_neg (not_not.mpr off), spelt]
  exact if_pos fits

/-- Settles O54, by the tests of R2 in order; what installs the set is `State.installConstants`. -/
theorem setConstantsRestarts : Obligations.SetConstantsRestarts := by
  intro r s takes
  refine ⟨fun on => ?_, fun off => ?_⟩
  · rw [exec_setConstants takes, State.setConstants, if_pos on, Response.bare]
  intro outside beyond
  refine ⟨fun refused => ?_, fun inside within => ?_⟩
  · rw [exec_setConstants takes, setConstants_refused off, Response.bare]
    intro c spelt
    rcases refused with outside | ⟨k, i, e, valid, entry, past⟩
    · exact absurd outside (exists_constantsOf_iff.mp ⟨c, spelt⟩)
    · obtain ⟨-, -, -, -, -, -, -, p⟩ := constantsOf_eq_some.mp spelt
      rw [← Bool.not_eq_true, positionsFit_iff]
      intro fits
      have := fits k i e valid entry
      omega
  · obtain ⟨c, spelt⟩ := exists_constantsOf_iff.mpr inside
    obtain ⟨direction, z0, chord, purge, -, -, e, p⟩ := constantsOf_eq_some.mp spelt
    have fits : s.positionsFit c.p = true := positionsFit_iff.mpr fun k i entry valid at' =>
      Nat.lt_of_not_le fun past => within ⟨k, i, entry, valid, at', p ▸ past⟩
    have runs := exec_setConstants takes r
    rw [setConstants_accepted off spelt fits] at runs
    refine ⟨_, c, runs, rfl, e, p, ?chord, ?direction, ?z0, purgeOf_cell purge, rfl, rfl, fun k i => ?station, rfl,
      fun q => ?windows, rfl⟩
    case chord =>
      rw [flagOf_eq] at chord
      split at chord
      · exact (Option.some.inj chord).symm
      · cases chord
    case direction =>
      rw [directionOf_eq] at direction
      split at direction
      · rw [← Option.some.inj direction]
        split <;> simp_all
      · cases direction
    case z0 =>
      unfold indexPositionOf at z0
      split at z0
      · next none => rw [if_pos none, ← Option.some.inj z0]
      · next some =>
        rw [if_neg some]
        split at z0
        · exact (Option.some.inj z0).symm
        · cases z0
    case station =>
      change (mapTable (fun _ t => mapTable (fun _ _ => Station.cleared) t) s.stations)[k][i] = _
      rw [fin_getElem_mapTable, fin_getElem_mapTable]
    case windows =>
      rw [← p]
      cases q <;> rfl

end Sys2Proof.Proofs

/-!
PROOF. Power-on, RSTN and SOFT RESET (R161, R162): the whole state each leaves, and the cells, stations, ports and frames
in it.
-/

namespace Sys2Proof.Proofs

open Sys2Proof Sys2Proof.Machine Sys2Proof.Safety Sys2Proof.Laws

/-- The whole state that both resets leave. -/
theorem commonReset_eq (cause : ResetCause) (first : Option Cause) (s : State) : s.commonReset cause first = { s with
    cells := mapTable (fun _ (c : Cell) => c.afterReset) s.cells
    ring := { entries := Vector.replicate 64 none, head := 0, nextSeq := s.ring.nextSeq
              windows := { line := .whole s.lineLength, inspection := .whole s.lineLength, drive := .whole s.lineLength } }
    registration := .reset, gum := s.gumAfterReset, notices := [], pendingSlot := none, fresh := false
    cym := { mode := .off, pulse := none, hold := false }, locks := resetLocks
    line := { mode := .offline, firstCause := first, causes := 0, events := 0, resetCause := cause
              chordTimer := none, chordState := chordAfterReset s.opaHigh s.opbHigh }
    ports := s.ports.map fun (p : PortState) => { p with response := .mark }
    frames := s.frames.map Framing.abandon } := rfl

theorem chordAfterReset_spent {a b : Bool} (h : a = false ∨ b = false) : chordAfterReset a b = .spent := by
  rcases h with rfl | rfl
  · rfl
  · cases a <;> rfl

theorem gumAfterReset_eq (s : State) [Decidable (∃ k, s.active = some k ∧ s.slots[k].hasGum = true)] :
    s.gumAfterReset = { state := if ∃ k, s.active = some k ∧ s.slots[k].hasGum = true then .standby else .off
                        standbyTimer := 0, primeTimer := none } := by
  simp only [State.gumAfterReset, Option.any_eq_true]

theorem get_abandon (x : PerPort Framing) (p : Port) :
    (x.map Framing.abandon).get p = if x.get p = .idle then .idle else .abandoned := by
  rw [perPort_get_map, abandon_eq]

theorem get_mark (x : PerPort PortState) (p : Port) : (x.map fun (q : PortState) => { q with response := .mark }).get p
    = { x.get p with response := { status := .noResponse, payload := [] } } := perPort_get_map _ _ _

/-- A cell after a reset (R22): its configuration and its pin stay, the level of an edge input is the pin's. -/
theorem afterReset_eq (c : Cell) : c.afterReset = { c with
    z := { stamp := 0, angle := 0 }, event := false, overrun := false, filterTimer := none, pulseTimer := none
    level := decide (c.config.mode = .edgeIn) && c.config.polarity.logical c.pinHigh } := rfl

/-- What a reset keeps and clears of a cell (R22). -/
structure CellIsReset (c c' : Cell) : Prop where
  config : c'.config = c.config
  z : c'.z = { stamp := 0, angle := 0 }
  event : c'.event = false
  overrun : c'.overrun = false
  filterTimer : c'.filterTimer = none
  pulseTimer : c'.pulseTimer = none
  pinHigh : c'.pinHigh = c.pinHigh
  level : c.config.mode = .edgeIn → c'.level = c.config.polarity.logical c.pinHigh

theorem cellIsReset_afterReset (c : Cell) : CellIsReset c c.afterReset :=
  ⟨rfl, rfl, rfl, rfl, rfl, rfl, rfl, fun edgeIn => by rw [afterReset_eq, decide_eq_true edgeIn, Bool.true_and]⟩

/-! ### SOFT RESET -/

section
variable {s : State} (takes : Takes s .line)
include takes

theorem exec_softReset_armed (armed : s.line.mode = .armed) :
    exec .softReset s = .next (s.respond .line (.bare .wrongMode)) := by
  change execSoftReset s = _
  rw [execSoftReset, if_pos armed, takeFrame_of_takes takes]

theorem exec_softReset (other : s.line.mode ≠ .armed) : exec .softReset s = .next s.softReset := by
  change execSoftReset s = _
  rw [execSoftReset, if_neg other, takes_iff.mp takes]
  rfl

end

theorem softReset_eq (s : State) : ∃ stations, s.softReset
    = { s.commonReset .soft s.line.firstCause with
        stations := stations, batch := { s.batch with missRun := 0 } } := by
  unfold State.softReset State.stationsSoft
  exact ⟨_, rfl⟩

theorem softReset_station_other {s : State} {k : Fin 4} (other : s.active ≠ some k) (i : Fin 16) :
    s.softReset.station k i = (s.station k i).lose := by
  unfold State.softReset State.stationsSoft
  generalize h : s.commonReset .soft s.line.firstCause = t
  have active : t.active = s.active := by rw [← h]; rfl
  have stations : t.stations = s.stations := by rw [← h]; rfl
  simp only [State.station, mapStations_stations, fin_getElem_mapTable, active, stations, other, if_false]

theorem softReset_station_some {s : State} {k : Fin 4} {i : Fin 16} {e : Entry} (active : s.active = some k)
    (entry : s.entry k i = some e) : s.softReset.station k i = Station.markedAt e s.theta (s.station k i).lose := by
  unfold State.softReset State.stationsSoft
  generalize h : s.commonReset .soft s.line.firstCause = t
  have active' : t.active = s.active := by rw [← h]; rfl
  have stations : t.stations = s.stations := by rw [← h]; rfl
  have entry' : t.entry k i = some e := by rw [← h]; exact entry
  have theta : t.theta = s.theta := by rw [← h]; rfl
  simp only [State.station, mapStations_stations, fin_getElem_mapTable, active', stations, active, if_true, entry', theta]

theorem softReset_station_none {s : State} {k : Fin 4} {i : Fin 16} (active : s.active = some k)
    (entry : s.entry k i = none) : s.softReset.station k i = (s.station k i).lose := by
  unfold State.softReset State.stationsSoft
  generalize h : s.commonReset .soft s.line.firstCause = t
  have active' : t.active = s.active := by rw [← h]; rfl
  have stations : t.stations = s.stations := by rw [← h]; rfl
  have entry' : t.entry k i = none := by rw [← h]; exact entry
  simp only [State.station, mapStations_stations, fin_getElem_mapTable, active', stations, active, if_true, entry']

/-- Nothing of a station's evaluation but its marks and its lead is left. -/
def Station.Quiet (st : Station) : Prop :=
  st.windowOpen = false ∧ st.latch = .empty ∧ st.fired = false ∧ st.seen = false ∧ st.firstEdge = none ∧ st.missRun = 0

theorem softReset_quiet (s : State) (k : Fin 4) (i : Fin 16) : Station.Quiet (s.softReset.station k i) := by
  by_cases active : s.active = some k
  · cases entry : s.entry k i with
    | some e => rw [softReset_station_some active entry]; exact ⟨rfl, rfl, rfl, rfl, rfl, rfl⟩
    | none => rw [softReset_station_none active entry]; exact ⟨rfl, rfl, rfl, rfl, rfl, rfl⟩
  · rw [softReset_station_other active]
    exact ⟨rfl, rfl, rfl, rfl, rfl, rfl⟩

/-- Settles O51, by the shape of the soft reset (`softReset_eq`). -/
theorem softResetKeepsAndClears : Obligations.SoftResetKeepsAndClears := by
  classical
  intro s takes
  refine ⟨fun armed => exec_softReset_armed takes armed, fun other => ⟨_, exec_softReset takes other, ?_⟩⟩
  have quiet := softReset_quiet s
  have marked := fun k i e active entry => softReset_station_some (s := s) (k := k) (i := i) (e := e) active entry
  obtain ⟨stations, whole⟩ := softReset_eq s
  rw [commonReset_eq] at whole
  generalize s.softReset = t at *
  subst whole
  refine ⟨rfl, rfl, rfl, rfl, rfl, rfl, rfl, rfl, fun p => ?windows, rfl, rfl, rfl, rfl, rfl, rfl, ?gum, rfl,
    chordAfterReset_spent, get_mark s.ports, get_abandon s.frames, fun i => ?cells, fun k i => ?stations⟩
  case windows => cases p <;> rfl
  case gum => exact (gumAfterReset_eq s).trans (by congr)
  case cells =>
    have cell : CellIsReset s.cells[i] (mapTable (fun _ (c : Cell) => c.afterReset) s.cells)[i] := by
      rw [fin_getElem_mapTable]
      exact cellIsReset_afterReset _
    exact ⟨cell.config, cell.z, cell.event, cell.overrun, cell.filterTimer, cell.pulseTimer, cell.pinHigh, cell.level⟩
  case stations =>
    obtain ⟨windowOpen, latch, fired, seen, firstEdge, missRun⟩ := quiet k i
    refine ⟨windowOpen, latch, fired, seen, firstEdge, missRun, fun e active entry => ?_⟩
    rw [marked k i e active entry]
    exact ⟨rfl, rfl, rfl⟩

/-! ### Power-on and RSTN -/

theorem rstnReset_eq (s : State) : s.rstnReset = { s.commonReset .resetLine none with
    angle := { AngleUnit.reset with qa := s.angle.qa, qb := s.angle.qb }
    ring := { (s.commonReset .resetLine none).ring with nextSeq := 1 }
    stations := Vector.replicate 4 (Vector.replicate 16 Station.cleared)
    batch := BatchCounter.reset, heldInReset := true } := rfl

/-- Settles O52, by the shapes of the power-on state and of the RSTN reset (`rstnReset_eq`). -/
theorem powerOnAndRstnReset : Obligations.PowerOnAndRstnReset := by
  classical
  refine ⟨fun low s => ⟨_, rfl, rfl, fun i => ?_, get_mark s.ports, get_abandon s.frames, chordAfterReset_spent⟩,
    fun s => ⟨_, rfl, ?_⟩, fun s => rfl⟩
  · exact (fin_getElem_mapTable ..).trans rfl
  · have whole := rstnReset_eq s
    rw [commonReset_eq] at whole
    generalize s.rstnReset = t at *
    subst whole
    refine ⟨?state, fun p => ?windows, chordAfterReset_spent, get_mark s.ports, get_abandon s.frames, fun i => ?cells⟩
    case state =>
      rw [gumAfterReset_eq s]
    case windows => cases p <;> rfl
    case cells =>
      have cell : (mapTable (fun _ (c : Cell) => c.afterReset) s.cells)[i] = s.cells[i].afterReset :=
        fin_getElem_mapTable ..
      exact cell.trans (afterReset_eq _)

end Sys2Proof.Proofs

/-!
PROOF. What the work inside a step keeps, besides the ring and the changeover: the room of the log, the numbers of the
batches, the bounds of the trim total, the notices of records that still wait for their verdict, the marks of the slots
that carry records, and a gum circuit at rest. One relation holds them, and each operation says once that it has it.
-/

namespace Sys2Proof.Proofs

open Sys2Proof Sys2Proof.Machine Sys2Proof.Safety Sys2Proof.Laws

/-! ### The trim total (R77) -/

/-- The held Amax is that of the last-computed slot's header (R70). -/
def Agrees (s : State) : Prop :=
  ∀ k, s.registration.lastSlot = some k → s.registration.heldAmax = s.slots[k].header.amax

/-- The trim total lies within the held Amax, which is the last-computed slot's. -/
def TotalBound (s : State) : Prop := s.registration.total.natAbs ≤ s.registration.heldAmax ∧ Agrees s

/-- The trim total stays; the held Amax stays or is copied from the last-computed slot's header (R70). -/
structure TotalKept (s t : State) : Prop where
  total : t.registration.total = s.registration.total
  lastSlot : t.registration.lastSlot = s.registration.lastSlot
  heldAmax : t.registration.heldAmax = s.registration.heldAmax ∨ Agrees t ∧ t.registration.lastSlot ≠ none

/-- What the work of a step does to the trim total. -/
def TotalGoes (s t : State) : Prop := TotalKept s t ∨ TotalBound t

theorem agrees_of_same {s t : State} (slots : t.slots = s.slots)
    (lastSlot : t.registration.lastSlot = s.registration.lastSlot)
    (heldAmax : t.registration.heldAmax = s.registration.heldAmax) (h : Agrees s) : Agrees t := fun k hk => by
  rw [heldAmax, slots]
  exact h k (lastSlot ▸ hk)

theorem totalGoes_of_eq {s t : State} (h : t.registration = s.registration) : TotalGoes s t :=
  .inl ⟨by rw [h], by rw [h], .inl (by rw [h])⟩

theorem TotalGoes.trans {s t u : State} (slots : u.slots = t.slots) (h : TotalGoes s t) (g : TotalGoes t u) :
    TotalGoes s u := by
  rcases g with g | g
  · rcases h with h | ⟨bound, agrees⟩
    · refine .inl ⟨g.total.trans h.total, g.lastSlot.trans h.lastSlot, ?_⟩
      rcases g.heldAmax with same | copied
      · rcases h.heldAmax with same' | ⟨agrees, named⟩
        · exact .inl (same.trans same')
        · exact .inr ⟨agrees_of_same slots g.lastSlot same agrees, g.lastSlot ▸ named⟩
      · exact .inr copied
    · refine .inr ?_
      rcases g.heldAmax with same | ⟨agrees', named⟩
      · exact ⟨by rw [g.total, same]; exact bound, agrees_of_same slots g.lastSlot same agrees⟩
      · obtain ⟨k, hk⟩ := Option.ne_none_iff_exists'.mp named
        have limit : u.registration.heldAmax = t.registration.heldAmax := by
          rw [agrees' k hk, agrees k (g.lastSlot ▸ hk), slots]
        exact ⟨by rw [g.total, limit]; exact bound, agrees'⟩
  · exact .inr g

theorem totalGoes_formatCheck (k : Fin 4) (s : State) :
    TotalGoes s { s with registration := s.registration.formatCheck k s.slots[k].header }
    ∧ Agrees { s with registration := s.registration.formatCheck k s.slots[k].header } := by
  have named : (s.registration.formatCheck k s.slots[k].header).lastSlot = some k := by
    unfold Registration.formatCheck
    dsimp only
    split
    · exact ‹_›
    · rfl
  have agrees : Agrees { s with registration := s.registration.formatCheck k s.slots[k].header } := fun j hj => by
    cases named.symm.trans hj
    rfl
  refine ⟨?_, agrees⟩
  by_cases same : s.registration.lastSlot = some k
  · have unit : s.registration.formatCheck k s.slots[k].header
        = { s.registration with heldCmax := s.slots[k].header.cmax, heldAmax := s.slots[k].header.amax } := by
      simp only [Registration.formatCheck, if_pos same]
    exact .inl ⟨by rw [unit], by rw [unit], .inr ⟨agrees, by rw [named]; simp⟩⟩
  · have restarts : (s.registration.formatCheck k s.slots[k].header).total = 0 := by
      simp only [Registration.formatCheck, if_neg same]
    exact .inr ⟨by rw [restarts]; exact Nat.zero_le _, agrees⟩

theorem natAbs_clampTo (n : Nat) (x : Int) : (clampTo n x).natAbs ≤ n := by
  unfold clampTo
  omega

theorem applyCorrection_total (v : Int) (s : State) :
    (s.applyCorrection v).registration.total.natAbs ≤ (s.applyCorrection v).registration.heldAmax := by
  obtain ⟨e, h⟩ := applyCorrection_registration v s
  rw [h]
  exact natAbs_clampTo ..

theorem applyCorrection_agrees (v : Int) {s : State} (h : Agrees s) : Agrees (s.applyCorrection v) := by
  obtain ⟨e, unit⟩ := applyCorrection_registration v s
  exact agrees_of_same (works_applyCorrection v s).slots (by rw [unit]; rfl) (by rw [unit]; rfl) h

theorem totalGoes_enterOff (s : State) : TotalGoes s { s with registration := s.registration.enterOff } :=
  .inr ⟨Nat.zero_le _, fun _ h => by cases h⟩

/-! ### Batch numbers (R119, R131) -/

theorem batchNumbers_none {s : State} (h : s.batch.openBatch = none) :
    BatchNumbersSuccessive s ↔ s.batch.log = [] := by
  rw [BatchNumbersSuccessive, h]

theorem batchNumbers_some {s : State} {o : OpenBatch} (h : s.batch.openBatch = some o) : BatchNumbersSuccessive s
    ↔ Successive s.batch.nextNumber (s.batch.log.map (fun r => r.fields.number) ++ [o.fields.number]) := by
  rw [BatchNumbersSuccessive, h]

/-- A number more at the end of successive numbers. -/
theorem successive_append {next n : Word} {l : List Word} (h : Successive next (l ++ [n])) :
    Successive (successor next) (l ++ [n] ++ [next]) := by
  induction l with
  | nil => exact ⟨h, rfl⟩
  | cons m l ih =>
    cases l with
    | nil => exact ⟨h.1, ih h.2⟩
    | cons m' l => exact ⟨h.1, ih h.2⟩

theorem successive_tail {next m n : Word} {l : List Word} (h : Successive next (m :: (l ++ [n]))) :
    Successive next (l ++ [n]) := by
  cases l with
  | nil => exact h.2
  | cons m' l => exact h.2

/-- The numbers of the batches depend on the log's and the open batch's numbers and the next one alone. -/
theorem batchNumbers_of_same {s t : State} (log : t.batch.log = s.batch.log)
    (number : t.batch.openBatch.map (·.fields.number) = s.batch.openBatch.map (·.fields.number))
    (next : t.batch.nextNumber = s.batch.nextNumber) (h : BatchNumbersSuccessive s) : BatchNumbersSuccessive t := by
  cases hs : s.batch.openBatch with
  | none =>
    have ht : t.batch.openBatch = none := by simpa [hs] using number
    rw [batchNumbers_none ht, log]
    exact (batchNumbers_none hs).mp h
  | some o =>
    obtain ⟨o', ht, same⟩ : ∃ o', t.batch.openBatch = some o' ∧ o'.fields.number = o.fields.number := by
      simpa [hs] using number
    rw [batchNumbers_some ht, log, next, same]
    exact (batchNumbers_some hs).mp h

theorem batchNumbers_closedAs {s t : State} {o : OpenBatch} {cause : CloseCause} {fmt : Fin 4} {box : Prop}
    (opened : s.batch.openBatch = some o) (closed : ClosedAs s t o cause fmt box) (h : BatchNumbersSuccessive s) :
    BatchNumbersSuccessive t := by
  rw [batchNumbers_some closed.next, closed.log, closed.nextNumber, List.map_append]
  exact successive_append ((batchNumbers_some opened).mp h)

/-! ### A record with a notice -/

/-- What a record with a notice is: AWAITING, not decided and not lost (R100). -/
def Waits (b : Blank) : Prop := b.verdict = .awaiting ∧ b.disposition ≠ .rejected ∧ b.disposition ≠ .lost

/-- A change that a waiting record outlives. -/
structure Mild (b b' : Blank) : Prop where
  evolves : Evolves b b'
  waits : Waits b → Waits b'

theorem mild_refl (b : Blank) : Mild b b := ⟨evolves_refl b, id⟩

theorem Mild.trans {a b c : Blank} (h : Mild a b) (g : Mild b c) : Mild a c :=
  ⟨h.evolves.trans g.evolves, fun w => g.waits (h.waits w)⟩

theorem faulted_waits {d : Disposition} (h : d ≠ .rejected) (g : d ≠ .lost) :
    d.faulted ≠ .rejected ∧ d.faulted ≠ .lost := by
  cases d <;> simp_all [Disposition.faulted]

theorem mild_addFault (f : BlankFault) (b : Blank) : Mild b (b.addFault f) := by
  refine ⟨evolves_addFault f b, fun ⟨awaiting, decided, lost⟩ => ⟨by rw [addFault_verdict]; exact awaiting, ?_⟩⟩
  unfold Blank.addFault
  split
  · exact ⟨decided, lost⟩
  · exact faulted_waits decided lost

theorem mild_of_same {b b' : Blank} (h : Evolves b b') (verdict : b'.verdict = b.verdict)
    (disposition : b'.disposition = b.disposition) : Mild b b' :=
  ⟨h, fun ⟨awaiting, decided, lost⟩ => ⟨verdict ▸ awaiting, disposition ▸ decided, disposition ▸ lost⟩⟩

theorem mild_addOp (o : Op) (b : Blank) : Mild b (b.addOp o) := by
  refine mild_of_same (evolves_addOp o b) ?_ ?_ <;> unfold Blank.addOp <;> split <;> rfl

theorem mild_regErr (e : Option Int) (b : Blank) : Mild b { b with regErr := e } :=
  mild_of_same (evolves_regErr e b) rfl rfl

theorem mild_cutShort (expiry : Bool) (b : Blank) : Mild b (b.cutShort expiry) := by
  unfold Blank.cutShort
  dsimp only
  split
  · exact (mild_addFault ..).trans (mild_addFault ..)
  · exact mild_addFault ..

theorem mild_spoil (b : Blank) : Mild b b.spoil := by
  unfold Blank.spoil
  split
  · exact mild_addFault ..
  · exact mild_refl b

/-- A delivery keeps the verdict (log 36). -/
theorem mild_deliver (n : Word) (b : Blank) : Mild b (b.deliver n) := by
  refine ⟨evolves_deliver n b, fun ⟨awaiting, decided, lost⟩ => ?_⟩
  unfold Blank.deliver
  split
  · exact ⟨awaiting, by simp, by simp⟩
  · exact ⟨awaiting, by simp, by simp⟩
  · exact ⟨awaiting, decided, lost⟩

theorem mild_passDefect (b : Blank) : Mild b b.passDefect := by
  refine ⟨evolves_passDefect b, fun ⟨awaiting, decided, lost⟩ => ?_⟩
  unfold Blank.passDefect
  split
  · exact ⟨awaiting, by simp, by simp⟩
  · exact ⟨awaiting, by simp, by simp⟩
  · exact ⟨awaiting, decided, lost⟩

/-! ### A gum circuit at rest (R89, R96) -/

/-- The gum circuit is in STANDBY or OFF with both timers stopped. -/
def Rested (g : Gum) : Prop := (g.state = .standby ∨ g.state = .off) ∧ g.standbyTimer = 0 ∧ g.primeTimer = none

/-- What the work of a step does to line mode control: no event and no cause is taken back, and ARMED is not entered
(R153, R155, R159). -/
structure LineGoes (l m : LineControl) : Prop where
  events : ∀ x : LineEvent, hasBit l.events x.bit = true → hasBit m.events x.bit = true
  causes : ∀ x : Cause, hasBit l.causes x.bit = true → hasBit m.causes x.bit = true
  unarmed : l.mode ≠ .armed → m.mode ≠ .armed

theorem lineGoes_refl (l : LineControl) : LineGoes l l := ⟨fun _ h => h, fun _ h => h, id⟩

theorem lineGoes_of_eq {l m : LineControl} (h : m = l) : LineGoes l m := h ▸ lineGoes_refl l

theorem LineGoes.trans {l m n : LineControl} (h : LineGoes l m) (g : LineGoes m n) : LineGoes l n :=
  ⟨fun x e => g.events x (h.events x e), fun x e => g.causes x (h.causes x e), fun off => g.unarmed (h.unarmed off)⟩

/-- The events alone grow. -/
theorem lineGoes_events {l : LineControl} {events : EventSet}
    (grow : ∀ x : LineEvent, hasBit l.events x.bit = true → hasBit events x.bit = true) :
    LineGoes l { l with events := events } := ⟨grow, fun _ h => h, id⟩

/-- What the work of a step does to the gum circuit and to line mode control: at rest the circuit stays at rest, and a
prime goes on or is aborted. -/
structure GumGoes (s t : State) : Prop where
  rested : Rested s.gum → Rested t.gum
  priming : s.gum.state = .priming →
    t.gum.state = .priming ∨ Rested t.gum ∧ hasBit t.line.events LineEvent.primeAborted.bit = true
  line : LineGoes s.line t.line

theorem gumGoes_of_eq {s t : State} (gum : t.gum = s.gum) (line : LineGoes s.line t.line) : GumGoes s t :=
  ⟨fun h => gum ▸ h, fun h => .inl (gum ▸ h), line⟩

theorem GumGoes.trans {s t u : State} (h : GumGoes s t) (g : GumGoes t u) : GumGoes s u where
  rested r := g.rested (h.rested r)
  priming p := by
    rcases h.priming p with p' | ⟨r, e⟩
    · exact g.priming p'
    · exact .inr ⟨g.rested r, g.line.events _ e⟩
  line := h.line.trans g.line

/-! ### The relation -/

/-- What the work inside a step keeps. -/
structure Tends (s t : State) : Prop where
  flows : Flows s t
  marks : ∀ k i, s.carried k = true → (s.station k i).onMark = true → (t.station k i).onMark = true
  log : s.batch.log.length ≤ logRoom → t.batch.log.length ≤ logRoom
  numbers : BatchNumbersSuccessive s → BatchNumbersSuccessive t
  total : TotalGoes s t
  notices : t.notices.Sublist s.notices
  waits : ∀ k b b', s.ring.at k = some b → t.ring.at k = some b' → (∃ n ∈ t.notices, n.seq = b.seq) → Waits b → Waits b'
  gum : GumGoes s t

/-- A slot that carries a record goes on carrying it (R25). -/
theorem carried_of_flows {s t : State} (h : Flows s t) {k : Fin 4} (carried : s.carried k = true) :
    t.carried k = true := by
  obtain ⟨j, b, present, fmt⟩ := carried_iff.mp carried
  obtain ⟨within, placed⟩ := presentAt_some.mp present
  obtain ⟨b', placed', evolved⟩ := h.records j b placed
  exact carried_iff.mpr ⟨j, b', presentAt_some.mpr ⟨h.toWorks.lineLength ▸ within, placed'⟩, evolved.fmt.trans fmt⟩

theorem Tends.trans {s t u : State} (h : Tends s t) (g : Tends t u) : Tends s u where
  flows := h.flows.trans g.flows
  marks k i carried mark := g.marks k i (carried_of_flows h.flows carried) (h.marks k i carried mark)
  log room := g.log (h.log room)
  numbers successive := g.numbers (h.numbers successive)
  total := h.total.trans g.flows.slots g.total
  notices := g.notices.trans h.notices
  waits k b c placed placed' queued waits := by
    obtain ⟨b', between, evolved⟩ := h.flows.records k b placed
    obtain ⟨n, queued, seq⟩ := queued
    exact g.waits k b' c between placed' ⟨n, queued, seq.trans evolved.seq.symm⟩
      (h.waits k b b' placed between ⟨n, g.notices.subset queued, seq⟩ waits)
  gum := h.gum.trans g.gum

/-! ### The kinds of change -/

/-- Ring, batch counter, registration, queue and gum circuit stay, no event is taken back, and no mark of a slot that
carries a record is. -/
theorem tends_of_parts {s t : State} (h : Flows s t)
    (marks : ∀ k i, s.carried k = true → (s.station k i).onMark = true → (t.station k i).onMark = true)
    (ring : t.ring = s.ring) (batch : t.batch = s.batch) (registration : t.registration = s.registration)
    (notices : t.notices = s.notices) (gum : GumGoes s t) : Tends s t where
  flows := h
  marks := marks
  log room := batch ▸ room
  numbers := batchNumbers_of_same (by rw [batch]) (by rw [batch]) (by rw [batch])
  total := totalGoes_of_eq registration
  notices := by rw [notices]
  waits k b b' placed placed' _ waits := by
    rw [ring, placed] at placed'
    cases placed'
    exact waits
  gum := gum

/-- The batch counter alone changes. -/
theorem tends_batch {s : State} (b : BatchCounter) (log : s.batch.log.length ≤ logRoom → b.log.length ≤ logRoom)
    (numbers : BatchNumbersSuccessive s → BatchNumbersSuccessive { s with batch := b }) :
    Tends s { s with batch := b } where
  flows := flows_batch s b
  marks _ _ _ mark := mark
  log := log
  numbers := numbers
  total := totalGoes_of_eq rfl
  notices := List.Sublist.refl _
  waits _ _ _ placed placed' _ waits := by cases placed.symm.trans placed'; exact waits
  gum := gumGoes_of_eq rfl (lineGoes_refl _)

theorem tends_registration {s : State} {r : Registration} (h : TotalGoes s { s with registration := r }) :
    Tends s { s with registration := r } where
  flows := flows_registration s r
  marks _ _ _ mark := mark
  log := id
  numbers := id
  total := h
  notices := List.Sublist.refl _
  waits _ _ _ placed placed' _ waits := by cases placed.symm.trans placed'; exact waits
  gum := gumGoes_of_eq rfl (lineGoes_refl _)

/-- Records change as records with a notice may, and the rest stays. -/
theorem tends_entries {s : State} {entries : Vector (Option Blank) 64}
    (h : ∀ k o, ({ s.ring with entries := entries } : Machine.Ring).at k = o →
      (∀ b, s.ring.at k = some b → ∃ b', o = some b' ∧ Mild b b') ∧ (s.ring.at k = none → o = none)) :
    Tends s { s with ring := { s.ring with entries := entries } } where
  flows := flows_entries entries fun k o placed =>
    ⟨fun b hb => by
      obtain ⟨b', ho, mild⟩ := (h k o placed).1 b hb
      exact ⟨b', ho, mild.evolves⟩, (h k o placed).2⟩
  marks _ _ _ mark := mark
  log := id
  numbers := id
  total := totalGoes_of_eq rfl
  notices := List.Sublist.refl _
  waits k b b' placed placed' _ waits := by
    obtain ⟨c, hc, mild⟩ := (h k _ placed').1 b placed
    cases hc
    exact mild.waits waits
  gum := gumGoes_of_eq rfl (lineGoes_refl _)

theorem tends_of_eq {s t : State} (h : t = s) : Tends s t := by
  subst h
  exact tends_of_parts (flows_refl t) (fun _ _ _ mark => mark) rfl rfl rfl rfl (gumGoes_of_eq rfl (lineGoes_refl _))

theorem tends_refl (s : State) : Tends s s := tends_of_eq rfl

theorem tends_ite {c : Prop} [Decidable c] {s t u : State} (h : Tends s t) (g : Tends s u) :
    Tends s (if c then t else u) := by split <;> assumption

theorem tends_choice (s : State) (n : Nat) : Tends s { s with choice := n } :=
  tends_of_parts (flows_choice s n) (fun _ _ _ mark => mark) rfl rfl rfl rfl (gumGoes_of_eq rfl (lineGoes_refl _))

theorem tends_setEvent (s : State) (e : LineEvent) : Tends s (s.setEvent e) :=
  tends_of_parts (flows_setEvent s e) (fun _ _ _ mark => mark) rfl rfl rfl rfl
    (gumGoes_of_eq rfl (lineGoes_events fun _ h => hasBit_addBit_of h))

/-- One station changed with its marks kept, its window not opened, or opened in a slot in use. -/
theorem tends_updStation {s : State} {k : Fin 4} {i : Fin 16} {f : Station → Station}
    (opened : (f (s.station k i)).windowOpen = true → (s.station k i).windowOpen = true ∨ s.inUse k = true)
    (marks : ∀ st, st.onMark = true → (f st).onMark = true) : Tends s (s.updStation k i f) := by
  refine tends_of_parts (flows_updStation i opened) (fun k' i' _ mark => ?_) rfl rfl rfl rfl
    (gumGoes_of_eq rfl (lineGoes_refl _))
  rw [station_updStation]
  split
  · next same => obtain ⟨rfl, rfl⟩ := same; exact marks _ mark
  · exact mark

theorem tends_prune (s : State) : Tends s s.prune := by
  refine tends_of_parts (flows_prune s) (fun k i carried mark => ?_) rfl rfl rfl rfl (gumGoes_of_eq rfl (lineGoes_refl _))
  rw [prune_station, if_pos (evaluated_iff.mpr (.inr (.inl carried)))]
  exact mark

/-- The record of a number changed as a record with a notice may. -/
theorem tends_update {s : State} (seq : Word) (f : Blank → Blank) (h : ∀ b, s.record seq = some b → Mild b (f b)) :
    Tends s (s.update seq f) := by
  cases found : s.positionOf seq with
  | none => exact tends_of_eq (update_of_none found f)
  | some k =>
    obtain ⟨b, present, -⟩ := positionOf_some found
    obtain ⟨-, placed⟩ := presentAt_some.mp present
    rw [update_of_some found present]
    refine tends_entries fun j o at' => ?_
    replace at' : (s.putAt k (some (f b))).ring.at j = o := at'
    rw [at_putAt] at at'
    split at at'
    · next same =>
      subst same
      rw [placed, ← at']
      exact ⟨fun c hc => by cases hc; exact ⟨f b, rfl, h b (by rw [record_of_positionOf found, present])⟩,
        fun absent => by cases absent⟩
    · rw [at']
      exact ⟨fun c hc => ⟨c, hc, mild_refl c⟩, id⟩

theorem tends_updateAll (s : State) {f : Blank → Blank} (h : ∀ b, Mild b (f b)) : Tends s (s.updateAll f) := by
  obtain ⟨entries, whole⟩ := updateAll_eq s f
  have each := at_updateAll s f
  rw [whole] at each ⊢
  refine tends_entries fun k o placed => ?_
  replace placed := (each k).symm.trans placed
  split at placed
  · exact ⟨fun b hb => ⟨f b, by rw [← placed, hb]; rfl, h b⟩, fun hn => by rw [← placed, hn]; rfl⟩
  · exact ⟨fun b hb => ⟨b, by rw [← placed, hb], mild_refl b⟩, fun hn => by rw [← placed, hn]⟩

/-- The notices of a number withdrawn (R103). -/
theorem tends_withdraw (s : State) (seq : Word) : Tends s (s.withdraw seq) where
  flows := flows_withdraw s seq
  marks _ _ _ mark := mark
  log := id
  numbers := id
  total := totalGoes_of_eq rfl
  notices := withdraw_sublist s seq
  waits _ _ _ placed placed' _ waits := by cases placed.symm.trans placed'; exact waits
  gum := gumGoes_of_eq rfl (lineGoes_refl _)

/-- The record of a number changed in any way it may, where no notice is for it. -/
theorem tends_unheard {s : State} {seq : Word} {f : Blank → Blank} (unheard : ∀ n ∈ s.notices, n.seq ≠ seq)
    (h : ∀ b, s.record seq = some b → Evolves b (f b)) : Tends s (s.update seq f) := by
  have flows := flows_update seq f h
  have waits (k : Fin 64) (b b' : Blank) (placed : s.ring.at k = some b)
      (placed' : (s.update seq f).ring.at k = some b') (queued : ∃ n ∈ s.notices, n.seq = b.seq) (waits : Waits b) :
      Waits b' := by
    obtain ⟨n, queued, ofBlank⟩ := queued
    cases found : s.positionOf seq with
    | none =>
      rw [update_of_none found] at placed'
      cases placed.symm.trans placed'
      exact waits
    | some j =>
      obtain ⟨c, present, ofSeq⟩ := positionOf_some found
      rw [update_of_some found present, at_putAt] at placed'
      split at placed'
      · next same =>
        subst same
        cases placed.symm.trans (presentAt_some.mp present).2
        exact absurd (ofBlank.trans ofSeq) (unheard n queued)
      · cases placed.symm.trans placed'
        exact waits
  obtain ⟨entries, whole⟩ := update_eq s seq f
  rw [whole] at flows waits ⊢
  exact { flows := flows, marks := fun _ _ _ mark => mark, log := id, numbers := id, total := totalGoes_of_eq rfl
          notices := List.Sublist.refl _, waits := waits, gum := gumGoes_of_eq rfl (lineGoes_refl _) }

theorem withdraw_update (s : State) (seq n : Word) (f : Blank → Blank) :
    (s.update seq f).withdraw n = (s.withdraw n).update seq f := by
  cases found : s.positionOf seq with
  | none => rw [update_of_none found, update_of_none (show (s.withdraw n).positionOf seq = none from found)]
  | some k =>
    obtain ⟨b, present, -⟩ := positionOf_some found
    rw [update_of_some found present, update_of_some (show (s.withdraw n).positionOf seq = some k from found)
      (show (s.withdraw n).presentAt k = some b from present)]
    rfl

/-- The record of a number changed in any way it may, and its notices withdrawn with it (R103). -/
theorem tends_settled {s : State} (seq : Word) (f : Blank → Blank) (h : ∀ b, s.record seq = some b → Evolves b (f b)) :
    Tends s ((s.update seq f).withdraw seq) := by
  rw [withdraw_update]
  refine (tends_withdraw s seq).trans (tends_unheard (fun n queued => ?_) h)
  simpa using (List.mem_filter.mp queued).2

theorem tends_eitherOrder {a b : State → State} {matters : Bool} (ha : ∀ s, Tends s (a s)) (hb : ∀ s, Tends s (b s))
    (s : State) : Tends s (eitherOrder matters a b s) := by
  obtain ⟨n, h | h⟩ := eitherOrder_eq matters a b s
  · exact h ▸ (tends_choice s n).trans ((ha _).trans (hb _))
  · exact h ▸ (tends_choice s n).trans ((hb _).trans (ha _))

end Sys2Proof.Proofs

/-!
PROOF. Each operation inside a step keeps what `Tends` says: the gum circuit, the fault latch, the changeover, the
registration unit, the batch counter, the verdict unit, and the stations as their windows close.
-/

namespace Sys2Proof.Proofs

open Sys2Proof Sys2Proof.Machine Sys2Proof.Safety Sys2Proof.Laws

/-! ### The gum circuit -/

/-- What follows a change of the gum circuit keeps what it keeps of the state before that change. -/
theorem Tends.from_gum {s t : State} {g : Gum} (h : Tends { s with gum := g } t) (gum : GumGoes s t) : Tends s t where
  flows := (flows_gum s g).trans h.flows
  marks := h.marks
  log := h.log
  numbers := h.numbers
  total := TotalGoes.trans h.flows.slots (totalGoes_of_eq (t := { s with gum := g }) rfl) h.total
  notices := h.notices
  waits := h.waits
  gum := gum

theorem tends_cutWindow (expiry : Bool) (s : State) (x : Fin 4 × Fin 16) : Tends s (State.cutWindow expiry s x) := by
  unfold State.cutWindow
  refine Tends.trans ?_ (tends_updStation (fun h => by cases h) fun _ mark => mark)
  split
  · exact tends_update _ _ fun b _ => mild_cutShort expiry b
  · exact tends_refl s
  · exact tends_refl s

theorem tends_foldl {α : Type} {f : State → α → State} (h : ∀ s x, Tends s (f s x)) (l : List α) (s : State) :
    Tends s (l.foldl f s) := by
  induction l generalizing s with
  | nil => exact tends_refl s
  | cons x l ih => exact (h s x).trans (ih _)

/-- After the new gum state is entered, the fired windows cut short. -/
theorem tends_gumTo_after (new : GumState) (expiry : Bool) (s : State) :
    Tends { s with gum := { state := new, standbyTimer := 0, primeTimer := none } } (s.gumTo new expiry) := by
  unfold State.gumTo
  dsimp only
  split
  · exact (tends_foldl (tends_cutWindow expiry) _ _).trans (tends_prune _)
  · exact tends_refl _

theorem gumTo_line (new : GumState) (expiry : Bool) (s : State) : (s.gumTo new expiry).line = s.line := by
  obtain ⟨_, _, h⟩ := gumTo_spec new expiry s
  rw [h]

theorem rested_gumTo {new : GumState} (stops : new = .standby ∨ new = .off) (expiry : Bool) (s : State) :
    Rested (s.gumTo new expiry).gum := by
  rw [gumTo_state]
  exact ⟨stops, rfl, rfl⟩

/-- Outside a prime the gum circuit goes to rest. -/
theorem tends_gumTo {new : GumState} (stops : new = .standby ∨ new = .off) (expiry : Bool) {s : State}
    (idle : s.gum.state ≠ .priming) : Tends s (s.gumTo new expiry) :=
  (tends_gumTo_after new expiry s).from_gum
    { rested := fun _ => rested_gumTo stops expiry s
      priming := fun priming => absurd priming idle
      line := lineGoes_of_eq (gumTo_line ..) }

theorem tends_abortPrime {new : GumState} (stops : new = .standby ∨ new = .off) (s : State) :
    Tends s (s.abortPrime new) := by
  unfold State.abortPrime
  split
  · refine ((tends_gumTo_after new false s).trans (tends_setEvent _ .primeAborted)).from_gum ?_
    have rested : Rested ((s.gumTo new false).setEvent .primeAborted).gum := rested_gumTo stops false s
    have event : hasBit ((s.gumTo new false).setEvent .primeAborted).line.events LineEvent.primeAborted.bit = true := by
      simp
    exact { rested := fun _ => rested, priming := fun _ => .inr ⟨rested, event⟩
            line := (lineGoes_of_eq (gumTo_line ..)).trans (lineGoes_events fun _ h => hasBit_addBit_of h) }
  · exact tends_refl s

theorem tends_gumLeavesHalt (s : State) : Tends s s.gumLeavesHalt := by
  have after := tends_abortPrime (.inl rfl : GumState.standby = .standby ∨ _) { s with gum := { s.gum with standbyTimer := 0 } }
  exact after.from_gum
    { rested := fun ⟨state, _, prime⟩ => after.gum.rested ⟨state, rfl, prime⟩
      priming := fun priming => after.gum.priming priming
      line := after.gum.line }

/-- A machine that starts to turn ends a prime (R96). -/
theorem gumLeavesHalt_ends {s : State} (running : s.gum.state = .priming ∨ Rested s.gum)
    (aborted : s.gum.state ≠ .priming → hasBit s.line.events LineEvent.primeAborted.bit = true) :
    Rested s.gumLeavesHalt.gum ∧ hasBit s.gumLeavesHalt.line.events LineEvent.primeAborted.bit = true := by
  rcases running with priming | rested
  · have ends : s.gumLeavesHalt
        = (State.gumTo .standby false { s with gum := { s.gum with standbyTimer := 0 } }).setEvent .primeAborted :=
      if_pos priming
    rw [ends]
    exact ⟨rested_gumTo (.inl rfl) false _, by simp⟩
  · have tends := tends_gumLeavesHalt s
    exact ⟨tends.gum.rested rested, tends.gum.line.events _ (aborted fun priming => by
      obtain ⟨state | state, -⟩ := rested <;> rw [priming] at state <;> cases state)⟩

theorem tends_standbyExpires {s : State} (idle : s.gum.state ≠ .priming) : Tends s s.standbyExpires := by
  have all := tends_updateAll s mild_spoil
  have still : (s.updateAll Blank.spoil).gum.state ≠ .priming := by
    obtain ⟨_, h⟩ := updateAll_eq s Blank.spoil
    rw [h]
    exact idle
  exact (all.trans (tends_gumTo (.inl rfl) true still)).trans (tends_setEvent ..)

theorem standbyDue_ready {s : State} (h : s.standbyDue = true) : s.gum.state = .ready := by
  by_contra other
  rw [standbyDue_of_not_ready other] at h
  cases h

theorem tends_gumChangeover (n : Fin 4) (s : State) : Tends s (s.gumChangeover n) := by
  cases state : s.gum.state with
  | priming =>
    rw [gumChangeover_of_priming state]
    exact tends_abortPrime (gumTarget_stops n s) s
  | off =>
    rw [gumChangeover_of_idle (.inl state)]
    exact tends_gumTo (gumTarget_stops n s) false (by simp [state])
  | standby =>
    rw [gumChangeover_of_idle (.inr state)]
    exact tends_gumTo (gumTarget_stops n s) false (by simp [state])
  | ready =>
    have idle : s.gum.state ≠ .priming := by simp [state]
    rcases hasGum_cases (n := n) (s := s) with ⟨gum, -⟩ | ⟨noGum, -⟩
    · rw [gumChangeover_of_ready_gum state gum]
      exact tends_ite (tends_standbyExpires idle) (tends_refl s)
    · rw [gumChangeover_of_ready_off state noGum]
      exact tends_gumTo (.inr rfl) false idle

/-! ### The fault latch -/

theorem closeFired_eq (s : State) :
    ∃ stations cells, s.closeFired = { s with stations := stations, cells := cells } := ⟨_, _, rfl⟩

theorem tends_closeFired (s : State) : Tends s s.closeFired := by
  have flows := flows_closeFired s
  have stations (k : Fin 4) (i : Fin 16) : (s.closeFired.station k i).onMark = (s.station k i).onMark := by
    rw [closeFired_station]
    split <;> rfl
  obtain ⟨_, _, whole⟩ := closeFired_eq s
  rw [whole] at flows stations ⊢
  exact tends_of_parts flows (fun k i _ mark => (stations k i).trans mark) rfl rfl rfl rfl
    (gumGoes_of_eq rfl (lineGoes_refl _))

theorem tends_leaveArmed (s : State) : Tends s s.leaveArmed :=
  (tends_eitherOrder tends_closeFired (tends_abortPrime (.inl rfl)) s).trans (tends_prune _)

/-- Line mode control changes. -/
theorem tends_line {s : State} {l : LineControl} (mode : l.mode = .offline ↔ s.line.mode = .offline)
    (goes : LineGoes s.line l) : Tends s { s with line := l } :=
  tends_of_parts (flows_line s l mode) (fun _ _ _ mark => mark) rfl rfl rfl rfl (gumGoes_of_eq rfl goes)

theorem tends_raiseCause (c : Cause) (s : State) : Tends s (s.raiseCause c) := by
  unfold State.raiseCause
  dsimp only
  split
  · refine Tends.trans ?_ (tends_leaveArmed _)
    exact tends_line (by simp [*]) ⟨fun _ h => h, fun _ h => hasBit_addBit_of h, fun _ => nofun⟩
  · exact tends_line Iff.rfl ⟨fun _ h => h, fun _ h => hasBit_addBit_of h, id⟩

/-! ### The changeover -/

/-- A slot that becomes active takes its stations afresh only if no record of it is there (R47, R48). -/
theorem activated_marks (n : Fin 4) (theta : Nat) (s : State) (k : Fin 4) (i : Fin 16) (carried : s.carried k = true)
    (mark : (s.station k i).onMark = true) : ((State.activated n theta s).station k i).onMark = true := by
  unfold State.activated
  dsimp only
  split
  · exact mark
  · next out =>
    by_cases same : k = n
    · subst same
      exact absurd (evaluated_iff.mpr (.inr (.inl carried))) out
    · rw [join_station_other same]
      exact mark

theorem tends_makeActive {n : Fin 4} (theta : Nat) {s : State} (used : s.inUse n = true) :
    Tends s (s.makeActive n theta) := by
  have after := (tends_gumChangeover n (State.activated n theta s)).trans (tends_prune _)
  rw [← makeActive_eq] at after
  have flows := flows_makeActive theta used
  have marks := activated_marks n theta s
  have carried : ∀ k, (State.activated n theta s).carried k = s.carried k := fun k => by
    obtain ⟨_, whole⟩ := activated_eq n theta s
    rw [whole]
    rfl
  obtain ⟨stations, whole⟩ := activated_eq n theta s
  have total : TotalGoes s (State.activated n theta s) := totalGoes_of_eq (by rw [whole])
  have gum : GumGoes s (State.activated n theta s) := gumGoes_of_eq (by rw [whole]) (by rw [whole]; exact lineGoes_refl _)
  rw [whole] at after marks carried total gum
  exact { flows := flows
          marks := fun k i h mark => after.marks k i (carried k ▸ h) (marks k i h mark)
          log := after.log, numbers := after.numbers
          total := total.trans after.flows.slots after.total
          notices := after.notices, waits := after.waits
          gum := gum.trans after.gum }

/-! ### The registration unit -/

theorem applyCorrection_events (v : Int) (s : State) :
    s.applyCorrection v = { s with registration := (s.applyCorrection v).registration }
    ∨ s.applyCorrection v
      = State.setEvent { s with registration := (s.applyCorrection v).registration } .regLimit := by
  unfold State.applyCorrection
  dsimp only
  split
  · exact .inr rfl
  · exact .inl rfl

/-- The held Amax agreeing with the last-computed slot's header, the correction bounds the total (R77). -/
theorem tends_applyCorrection (v : Int) {s : State} (h : Agrees s) : Tends s (s.applyCorrection v) := by
  have bound := applyCorrection_total v s
  have agrees := applyCorrection_agrees v h
  have corrects : Tends s { s with registration := (s.applyCorrection v).registration } :=
    tends_registration (.inr ⟨bound, fun k hk => (agrees k hk).trans
      (congrArg (fun slots : Vector Format 4 => slots[k].header.amax) (works_applyCorrection v s).slots)⟩)
  rcases applyCorrection_events v s with whole | whole
  · rw [whole]; exact corrects
  · rw [whole]; exact corrects.trans (tends_setEvent _ .regLimit)

theorem tends_markMissed (seq : Word) (h : Header) (s : State) : Tends s (s.markMissed seq h) := by
  have missed : Tends s (State.update { s with registration := s.registration.miss h.missLimit } seq
      (Blank.addFault .noMark)) := by
    refine Tends.trans (tends_registration ?_) (tends_update seq (Blank.addFault .noMark) fun b _ => mild_addFault _ b)
    exact .inl ⟨rfl, rfl, .inl rfl⟩
  exact tends_ite (missed.trans (tends_setEvent ..)) missed

theorem tends_markSeen (seq : Word) (h : Header) (angle : Half) {s : State} (agrees : Agrees s) :
    Tends s (s.markSeen seq h angle) := by
  rw [markSeen_stages]
  have tracking : Tends s { s with registration := { s.registration with missCount := 0, state := .tracking } } :=
    tends_registration (.inl ⟨rfl, rfl, .inl rfl⟩)
  have measured : ∀ u : State, Tends u (u.update seq (measured h (registrationError h.target angle.toNat))) :=
    fun u => tends_update _ _ fun b _ => by
      unfold Proofs.measured
      split
      · exact (mild_regErr _ b).trans (mild_addFault ..)
      · exact mild_regErr _ b
  refine (tracking.trans (measured _)).trans (tends_applyCorrection _ ?_)
  obtain ⟨_, whole⟩ := update_eq { s with registration := { s.registration with missCount := 0, state := .tracking } }
    seq (Proofs.measured h (registrationError h.target angle.toNat))
  rw [whole]
  exact agrees

theorem tends_markEvaluation (seq : Word) (k : Fin 4) (seen : Bool) (first : Option Half) (s : State) :
    Tends s (s.markEvaluation seq k seen first) := by
  obtain ⟨total, agrees⟩ := totalGoes_formatCheck k s
  have checked := tends_registration total
  unfold State.markEvaluation
  dsimp only
  split
  · exact checked.trans (tends_markSeen _ _ _ agrees)
  · exact checked.trans (tends_markMissed ..)

/-! ### The batch counter -/

/-- The batch counter changes in neither its log nor its numbers. -/
theorem tends_tally {s : State} (b : BatchCounter) (log : b.log = s.batch.log)
    (number : b.openBatch.map (·.fields.number) = s.batch.openBatch.map (·.fields.number))
    (next : b.nextNumber = s.batch.nextNumber) : Tends s { s with batch := b } :=
  tends_batch b (fun room => log ▸ room) (batchNumbers_of_same log number next)

theorem tends_updBatch {s : State} {f : BatchFields → BatchFields} (h : ∀ b, (f b).number = b.number) :
    Tends s (s.updBatch f) :=
  tends_tally _ rfl (by simp [Function.comp_def, h]) rfl

theorem tends_setBatchState (st : BatchState) (s : State) : Tends s (s.setBatchState st) :=
  tends_tally _ rfl (by simp [Function.comp_def]) rfl

theorem tends_missRun (n : Nat) (s : State) : Tends s { s with batch := { s.batch with missRun := n } } :=
  tends_tally _ rfl rfl rfl

theorem tends_closeBox (s : State) : Tends s s.closeBox := by
  refine Tends.trans ?_ (tends_setEvent _ .boxClosed)
  exact tends_tally _ rfl rfl rfl

theorem tends_countReject (s : State) : Tends s s.countReject := tends_updBatch fun _ => rfl

/-- A closure where the log has room (R127, R131). -/
theorem tends_closeOpenBatch {s : State} {o : OpenBatch} (opened : s.batch.openBatch = some o)
    (room : s.logFull = false) (cause : CloseCause) (boundary : Option (Fin 4)) :
    Tends s (s.closeOpenBatch o cause boundary) := by
  have closed := closedAs_closeOpenBatch o cause boundary s
  have numbers := batchNumbers_closedAs opened closed
  have whole := closed.rest
  have log := closed.log
  have events := closed.events
  generalize s.closeOpenBatch o cause boundary = t at whole numbers log events ⊢
  have short : t.batch.log.length ≤ logRoom := by
    have : s.batch.log.length < logRoom := by simpa [State.logFull] using room
    rw [log, List.length_append]
    exact this
  have counted := tends_batch t.batch (fun _ => short) numbers
  have told : Tends { s with batch := t.batch } t := by
    rw [whole]
    exact tends_of_parts (flows_line _ _ Iff.rfl) (fun _ _ _ mark => mark) rfl rfl rfl rfl
      (gumGoes_of_eq rfl (lineGoes_events fun x h => (events x).mpr (.inl h)))
  exact counted.trans told

theorem tends_formatBoundary (fmt : Fin 4) (s : State) : Tends s (s.formatBoundary fmt) := by
  unfold State.formatBoundary
  split
  · exact tends_refl s
  · next o opened =>
    split
    · exact tends_refl s
    · split
      · split
        · dsimp only
          exact (tends_ite (tends_closeBox s) (tends_refl s)).trans (tends_updBatch fun _ => rfl)
        · split
          · exact (tends_setBatchState ..).trans (tends_updBatch fun _ => rfl)
          · exact tends_closeOpenBatch opened (by simpa using ‹¬ s.logFull = true›) _ _
      · split
        · exact tends_updBatch fun _ => rfl
        · exact tends_closeOpenBatch opened (by simpa using ‹¬ s.logFull = true›) _ _

theorem tends_fullSizeTest (s : State) : Tends s s.fullSizeTest := by
  unfold State.fullSizeTest
  split
  · exact tends_refl s
  · next o opened =>
    dsimp only
    split
    · split
      · split
        · exact tends_setBatchState ..
        · exact tends_closeOpenBatch opened (by simpa using ‹¬ s.logFull = true›) _ _
      · exact tends_refl s
    · split
      · exact tends_refl s
      · have room : s.logFull = false := by simpa using ‹¬ s.logFull = true›
        split
        · exact tends_setBatchState ..
        · split
          · exact tends_closeOpenBatch opened room _ _
          · exact tends_closeOpenBatch opened room _ _

theorem tends_deliver (seq : Word) (fmt : Fin 4) (s : State) : Tends s (s.deliver seq fmt) := by
  have bounded := tends_formatBoundary fmt s
  unfold State.deliver
  dsimp only
  split
  · exact bounded
  · next o _ =>
    have delivered := (bounded.trans (tends_update seq (Blank.deliver o.fields.number) fun b _ => mild_deliver _ b)).trans
      (tends_updBatch (f := BatchFields.delivered seq) fun _ => rfl)
    exact (delivered.trans (tends_missRun 0 _)).trans (tends_fullSizeTest _)

theorem tends_loseBlank (seq : Word) (s : State) : Tends s (s.loseBlank seq) := by
  have lost := (tends_settled (s := s) seq (Blank.lose .countMissing) fun b _ => evolves_lose _ b).trans
    (tends_updBatch (f := fun f => { f with suspect := true }) fun _ => rfl)
  unfold State.loseBlank
  dsimp only
  split
  · exact lost.trans (tends_missRun _ _)
  · exact (lost.trans (tends_missRun _ _)).trans (tends_raiseCause ..)

theorem tends_passDefect (seq : Word) (s : State) : Tends s (s.passDefect seq) := by
  unfold State.passDefect
  dsimp only
  refine Tends.trans ?_ (tends_missRun 0 _)
  exact (tends_update seq Blank.passDefect fun b _ => mild_passDefect b).trans (tends_updBatch fun _ => rfl)

theorem tends_unexpectedEdge (s : State) : Tends s s.unexpectedEdge := tends_updBatch fun _ => rfl

theorem tends_countVerification (handed : Option Blank) (seen : Bool) (s : State) :
    Tends s (s.countVerification handed seen) := by
  have unexpected := tends_ite (c := seen = true) (tends_unexpectedEdge s) (tends_refl s)
  unfold State.countVerification
  split
  · exact tends_refl s
  · split
    · exact unexpected
    · next b =>
      split
      · exact tends_ite (tends_deliver ..) (tends_loseBlank ..)
      · exact tends_ite (tends_deliver ..) (tends_loseBlank ..)
      · exact tends_ite (tends_passDefect ..) (tends_refl s)
      · exact tends_ite (tends_passDefect ..) (tends_refl s)
      · exact unexpected
      · exact unexpected
      · exact tends_refl s

/-! ### The verdict unit -/

theorem tends_rejectDecision (b : Blank) (s : State) : Tends s (s.rejectDecision b).1 := by
  have decided := tends_settled (s := s) b.seq
    (fun b' => (b'.settleVerdict s.slots[b'.fmt].header.policy).decide)
    fun b' _ => (evolves_settleVerdict _ b').trans (evolves_decide _)
  exact tends_ite (decided.trans (tends_countReject _)) decided

theorem tends_rejectDecisionFaulted (b : Blank) (s : State) : Tends s (s.rejectDecisionFaulted b) :=
  tends_ite (tends_refl s) ((tends_settled (s := s) b.seq
    (fun b' => (b'.settleVerdict s.slots[b'.fmt].header.policy).decideFaulted)
    fun b' _ => (evolves_settleVerdict _ b').trans (evolves_decideFaulted _)).trans (tends_countReject _))

/-! ### Stations -/

theorem fire_eq (k : Fin 4) (i : Fin 16) (e : Entry) (s : State) :
    ∃ cells, s.fire k i e = { s.updStation k i (fun st => { st with fired := true }) with cells := cells } := by
  unfold State.fire
  dsimp only
  split
  · exact ⟨_, rfl⟩
  · exact ⟨s.cells, rfl⟩

theorem tends_fire (k : Fin 4) (i : Fin 16) (e : Entry) (s : State) : Tends s (s.fire k i e) := by
  have flows := flows_fire k i e s
  have fired : Tends s (s.updStation k i fun st => { st with fired := true }) :=
    tends_updStation (fun h => .inl h) fun _ mark => mark
  obtain ⟨cells, whole⟩ := fire_eq k i e s
  rw [whole] at flows ⊢
  exact tends_of_parts flows fired.marks rfl rfl rfl rfl (gumGoes_of_eq rfl (lineGoes_refl _))

/-- Every output station but INSPECT acts so. -/
theorem tends_outputAction (k : Fin 4) (i : Fin 16) {e : Entry} (other : e.kind ≠ .inspect) (b : Option Blank)
    (s : State) : Tends s (s.outputAction k i e b) := by
  unfold State.outputAction
  split
  · exact tends_ite ((tends_tally { s.batch with kick := false } rfl rfl rfl).trans (tends_fire ..)) (tends_refl s)
  · exact tends_ite ((tends_tally { s.batch with box := false } rfl rfl rfl).trans (tends_fire ..)) (tends_refl s)
  · exact tends_ite (tends_fire ..) (tends_refl s)
  · exact tends_ite (tends_fire ..) (tends_refl s)
  · exact tends_ite (tends_ite (tends_fire ..) (tends_update _ _ fun b _ => mild_addFault _ b)) (tends_refl s)
  · exact absurd ‹e.kind = .inspect› other
  · exact tends_ite ((tends_rejectDecision ..).trans (tends_fire ..)) (tends_rejectDecision ..)
  · exact tends_rejectDecisionFaulted ..
  · exact tends_refl s

theorem tends_sendOperation (e : Entry) (st : Station) (s : State) : Tends s (s.sendOperation e st) := by
  unfold State.sendOperation
  split
  · exact tends_ite (tends_update _ _ fun b _ => mild_addOp _ b) (tends_refl s)
  · exact tends_refl s

theorem tends_run (k : Fin 4) (i : Fin 16) (n : Nat) (s : State) :
    Tends s (s.updStation k i fun st => { st with missRun := n }) :=
  tends_updStation (fun h => .inl h) fun _ mark => mark

theorem tends_foldMiss (k : Fin 4) (i : Fin 16) (st : Station) (s : State) : Tends s (s.foldMiss k i st) :=
  tends_ite (tends_updStation (fun h => .inl h) fun _ mark => mark) ((tends_run ..).trans (tends_raiseCause ..))

theorem tends_foldCheck (k : Fin 4) (i : Fin 16) (st : Station) (s : State) : Tends s (s.foldCheck k i st) := by
  unfold State.foldCheck
  split
  · exact tends_refl s
  · next b _ =>
    have missed := (tends_update (s := s) b.seq (Blank.addFault .foldMissing) fun b _ => mild_addFault _ b).trans
      (tends_foldMiss k i st _)
    split
    · exact tends_run ..
    · exact tends_run ..
    · exact tends_run ..
    · exact (tends_update _ _ fun b _ => mild_addOp _ b).trans (tends_run ..)
    · exact missed
    · exact missed
    · exact tends_foldMiss ..
    · exact tends_foldMiss ..
    · exact tends_refl s

theorem tends_countStation (k : Fin 4) (st : Station) (s : State) : Tends s (s.countStation k st) := by
  unfold State.countStation
  split
  · split
    · exact tends_countVerification ..
    · exact tends_refl s
  · exact tends_ite (tends_countVerification ..) (tends_refl s)
  · exact tends_refl s

theorem tends_patchCheck (k : Fin 4) (st : Station) (s : State) : Tends s (s.patchCheck k st) := by
  unfold State.patchCheck
  split
  · exact tends_ite (tends_update _ _ fun b _ => mild_addFault _ b) (tends_refl s)
  · exact tends_refl s

theorem tends_markStation (k : Fin 4) (st : Station) (s : State) : Tends s (s.markStation k st) := by
  unfold State.markStation
  split
  · exact tends_ite (tends_markEvaluation ..) (tends_refl s)
  · exact tends_refl s

end Sys2Proof.Proofs

/-!
PROOF. The numbers of the present records (R28, R29): they are the numbers given last, the latest cut first, so no two are
the same and none is the number to be given next; through the work inside a step and through a head advance they stay so.
-/

namespace Sys2Proof.Proofs

open Sys2Proof Sys2Proof.Machine Sys2Proof.Safety Sys2Proof.Laws

/-! ### The numbers given last (R28) -/

theorem toNat_predecessor {n : Word} (h : n ≠ 0) : predecessor n ≠ 0
    ∧ ((predecessor n).toNat + 1 = n.toNat ∨ (predecessor n).toNat + 1 = n.toNat + 4294967295) := by
  unfold predecessor
  split
  · next one => subst one; decide
  · next one => bv_omega

theorem allOnes_eq : BitVec.allOnes 32 = 4294967295#32 := rfl

theorem predecessor_successor {n : Word} (h : n ≠ 0) : predecessor (successor n) = n := by
  by_cases last : n = BitVec.allOnes 32
  · rw [successor, if_pos last, last]
    rfl
  · have other : n + 1 ≠ 1 := by bv_omega
    rw [successor, if_neg last, predecessor, if_neg other, BitVec.add_sub_cancel]

theorem mem_lastGiven {m n : Word} {count : Nat} (small : count ≤ 64) (h : n ≠ 0) (given : m ∈ lastGiven n count) :
    ∃ i, 1 ≤ i ∧ i ≤ count ∧ (m.toNat + i = n.toNat ∨ m.toNat + i = n.toNat + 4294967295) := by
  induction count generalizing n with
  | zero => cases given
  | succ count ih =>
    obtain ⟨nonzero, step⟩ := toNat_predecessor h
    rcases List.mem_cons.mp given with rfl | given
    · exact ⟨1, le_refl 1, by omega, step⟩
    · obtain ⟨i, low, high, back⟩ := ih (by omega) nonzero given
      exact ⟨i + 1, by omega, by omega, by bv_omega⟩

theorem nodup_lastGiven {n : Word} {count : Nat} (small : count ≤ 64) (h : n ≠ 0) : (lastGiven n count).Nodup := by
  induction count generalizing n with
  | zero => exact List.nodup_nil
  | succ count ih =>
    obtain ⟨nonzero, -⟩ := toNat_predecessor h
    refine List.nodup_cons.mpr ⟨fun again => ?_, ih (by omega) nonzero⟩
    obtain ⟨i, low, high, back⟩ := mem_lastGiven (by omega) nonzero again
    omega

/-- Neither the number to be given next nor the one after it was given lately. -/
theorem not_given {m n : Word} {count : Nat} (small : count ≤ 64) (h : n ≠ 0) (given : m ∈ lastGiven n count) :
    m ≠ n ∧ m ≠ successor n := by
  obtain ⟨i, low, high, back⟩ := mem_lastGiven small h given
  refine ⟨by rintro rfl; omega, ?_⟩
  rintro rfl
  unfold successor at back
  rw [allOnes_eq] at back
  split at back <;> bv_omega

theorem take_lastGiven (n : Word) (count k : Nat) : (lastGiven n count).take k = lastGiven n (min k count) := by
  induction count generalizing n k with
  | zero => simp [lastGiven]
  | succ count ih =>
    cases k with
    | zero => simp [lastGiven]
    | succ k => simp [lastGiven, ih, Nat.add_min_add_right]

theorem length_lastGiven (n : Word) (count : Nat) : (lastGiven n count).length = count := by
  induction count generalizing n with
  | zero => rfl
  | succ count ih => rw [lastGiven, List.length_cons, ih]

theorem eq_lastGiven_of_prefix {n : Word} {count : Nat} {l : List Word} (h : l <+: lastGiven n count) :
    l = lastGiven n l.length := by
  have short : l.length ≤ count := length_lastGiven n count ▸ h.length_le
  have taken := List.prefix_iff_eq_take.mp h
  rwa [take_lastGiven, Nat.min_eq_left short] at taken

/-! ### The numbers of the present records (R29) -/

/-- The number of the record at a position. -/
def seqAt (s : State) (k : Fin 64) : Option Word := (s.ring.at k).map fun b => b.seq

theorem seqAt_some {s : State} {k : Fin 64} {n : Word} : seqAt s k = some n ↔ ∃ b, s.ring.at k = some b ∧ b.seq = n := by
  simp [seqAt]

theorem seqAt_none {s : State} {k : Fin 64} : seqAt s k = none ↔ s.ring.at k = none := by simp [seqAt]

theorem presentSeqs_eq (s : State) : presentSeqs s = (List.finRange 64).filterMap (seqAt s) := rfl

theorem presentSeqs_congr {s t : State} (h : ∀ k, seqAt t k = seqAt s k) : presentSeqs t = presentSeqs s := by
  rw [presentSeqs_eq, presentSeqs_eq, funext h]

/-- A record that joins at position 0 comes first. -/
theorem presentSeqs_cons {s t : State} {n : Word} (gap : seqAt s 0 = none) (joins : seqAt t 0 = some n)
    (rest : ∀ k, k ≠ 0 → seqAt t k = seqAt s k) : presentSeqs t = n :: presentSeqs s := by
  rw [presentSeqs_eq, presentSeqs_eq, List.finRange_succ, List.filterMap_cons_some joins, List.filterMap_cons_none gap,
    List.filterMap_map, List.filterMap_map]
  congr 2
  funext k
  exact rest _ (Fin.succ_ne_zero k)

theorem length_presentSeqs (s : State) : (presentSeqs s).length ≤ 64 := by
  have short := List.length_filterMap_le (seqAt s) (List.finRange 64)
  rwa [List.length_finRange] at short

theorem mem_presentSeqs {s : State} {k : Fin 64} {b : Blank} (placed : s.ring.at k = some b) :
    b.seq ∈ presentSeqs s :=
  List.mem_filterMap.mpr ⟨k, List.mem_finRange k, seqAt_some.mpr ⟨b, placed, rfl⟩⟩

/-- No two records of the ring carry the same number, wherever they stand. -/
def RingDistinct (s : State) : Prop :=
  ∀ (j k : Fin 64) (b b' : Blank), s.ring.at j = some b → s.ring.at k = some b' → b.seq = b'.seq → j = k

theorem ringDistinct_of_cutOrder {s : State} (h : SeqsInCutOrder s) : RingDistinct s := by
  obtain ⟨nonzero, order⟩ := h
  have nodup : (presentSeqs s).Pairwise (· ≠ ·) := order ▸ nodup_lastGiven (length_presentSeqs s) nonzero
  rw [presentSeqs_eq, List.pairwise_filterMap] at nodup
  have apart := @List.Pairwise.forall _ _ _ ⟨fun j k h n hn n' hn' same => h n' hn' n hn same.symm⟩ nodup
  intro j k b b' placed placed' same
  by_contra other
  exact apart (List.mem_finRange j) (List.mem_finRange k) other _ (seqAt_some.mpr ⟨b, placed, rfl⟩) _
    (seqAt_some.mpr ⟨b', placed', rfl⟩) same

theorem seqsDistinct_of_ring {s : State} (h : RingDistinct s) : SeqsDistinct s :=
  fun j k b b' present present' => h j k b b' (presentAt_some.mp present).2 (presentAt_some.mp present').2

/-- A record that carries a number given next or after it is not in the ring. -/
theorem seq_not_given {s : State} (h : SeqsInCutOrder s) {k : Fin 64} {b : Blank} (placed : s.ring.at k = some b) :
    b.seq ≠ s.ring.nextSeq ∧ b.seq ≠ successor s.ring.nextSeq := by
  obtain ⟨nonzero, order⟩ := h
  exact not_given (length_presentSeqs s) nonzero (order ▸ mem_presentSeqs placed)

/-! ### Through the work of a step -/

theorem seqsInCutOrder_of_same {s t : State} (next : t.ring.nextSeq = s.ring.nextSeq)
    (h : ∀ k, seqAt t k = seqAt s k) (order : SeqsInCutOrder s) : SeqsInCutOrder t := by
  rw [SeqsInCutOrder, next, presentSeqs_congr h]
  exact order

/-- Records that keep their places and numbers, and one more at position 0 with the next number, stay in cut order. -/
theorem seqsInCutOrder_of_course {s t : State}
    (records : ∀ k b, s.ring.at k = some b → ∃ b', t.ring.at k = some b' ∧ b'.seq = b.seq)
    (gaps : ∀ k, k ≠ 0 → s.ring.at k = none → t.ring.at k = none)
    (creation : t.ring.nextSeq = s.ring.nextSeq ∧ (s.ring.at 0 = none → t.ring.at 0 = none)
      ∨ s.ring.at 0 = none ∧ t.ring.nextSeq = successor s.ring.nextSeq
        ∧ ∃ b, t.ring.at 0 = some b ∧ b.seq = s.ring.nextSeq)
    (order : SeqsInCutOrder s) : SeqsInCutOrder t := by
  have same (k : Fin 64) (stays : s.ring.at k = none → t.ring.at k = none) : seqAt t k = seqAt s k := by
    cases at' : s.ring.at k with
    | none => rw [seqAt_none.mpr at', seqAt_none.mpr (stays at')]
    | some b =>
      obtain ⟨b', placed, seq⟩ := records k b at'
      rw [seqAt_some.mpr ⟨b, at', rfl⟩, seqAt_some.mpr ⟨b', placed, seq⟩]
  rcases creation with ⟨next, gap⟩ | ⟨gap, next, b, placed, seq⟩
  · refine seqsInCutOrder_of_same next (fun k => same k ?_) order
    by_cases zero : k = 0
    · exact zero ▸ gap
    · exact gaps k zero
  · obtain ⟨nonzero, order⟩ := order
    have cons : presentSeqs t = s.ring.nextSeq :: presentSeqs s :=
      presentSeqs_cons (seqAt_none.mpr gap) (seqAt_some.mpr ⟨b, placed, seq⟩) fun k zero => same k (gaps k zero)
    refine ⟨next ▸ successor_ne_zero, ?_⟩
    rw [cons, next, List.length_cons, lastGiven, predecessor_successor nonzero, ← order]

theorem seqsInCutOrder_of_flows {s t : State} (h : Flows s t) (order : SeqsInCutOrder s) : SeqsInCutOrder t := by
  refine seqsInCutOrder_of_course (fun k b placed => ?_) h.gaps ?_ order
  · obtain ⟨b', placed', evolved⟩ := h.records k b placed
    exact ⟨b', placed', evolved.seq⟩
  · rcases h.creation with same | ⟨gap, next, -, b, placed, seq, -⟩
    · exact .inl same
    · exact .inr ⟨gap, next, b, placed, seq⟩

/-! ### Through a head advance (R24) -/

/-- The entries at a head advance: each one position further, but the one at P−1, which leaves. -/
theorem headAdvance_at {s : State} (h1 : 1 ≤ s.lineLength) (h64 : s.lineLength ≤ 64) :
    s.headAdvance.ring.at 0 = none
    ∧ ∀ k : Fin 63, s.headAdvance.ring.at k.succ = if k.val + 1 = s.lineLength then none else s.ring.at k.castSucc := by
  constructor
  · simp only [Ring.at, headAdvance_ring, ringAdvance_ring, fin_getElem_setAt_self]
  · intro k
    have shifted : s.ring.head - 1 + k.succ = s.ring.head + k.castSucc := by
      ext
      simp only [Fin.val_add, Fin.val_sub, Fin.val_succ, Fin.val_castSucc, Fin.val_one]
      omega
    have notFirst : s.ring.head - 1 + 0 ≠ s.ring.head + k.castSucc := fun h => by
      have := congrArg Fin.val h
      simp only [Fin.val_add, Fin.val_sub, Fin.val_castSucc, Fin.val_one, Fin.val_zero] at this
      omega
    simp only [Ring.at, headAdvance_ring, ringAdvance_ring, shifted, fin_getElem_setAt_of_ne _ _ notFirst,
      fin_getElem_setAt]
    have last : s.ring.head + Fin.ofNat 64 (s.lineLength - 1) = s.ring.head + k.castSucc ↔ k.val + 1 = s.lineLength := by
      rw [add_right_inj, Fin.ext_iff, Fin.val_ofNat, Fin.val_castSucc, Nat.mod_eq_of_lt (by omega)]
      omega
    simp only [last]

/-- The number at a place counted in natural numbers, none beyond the ring. -/
def seqAtNat (s : State) (n : Nat) : Option Word := if h : n < 64 then seqAt s ⟨n, h⟩ else none

theorem presentSeqs_range (s : State) : presentSeqs s = (List.range 64).filterMap (seqAtNat s) := by
  rw [presentSeqs_eq, ← List.map_coe_finRange_eq_range, List.filterMap_map]
  congr 1
  funext k
  simp [seqAtNat]

/-- Two lists of numbers that agree up to a place, from which the second has none. -/
theorem filterMap_range_prefix {f g : Nat → Option Word} {m n : Nat} (within : m ≤ n) (same : ∀ i < m, g i = f i)
    (beyond : ∀ i, m ≤ i → g i = none) : (List.range n).filterMap g <+: (List.range n).filterMap f := by
  obtain ⟨d, rfl⟩ := Nat.exists_eq_add_of_le within
  have first : (List.range m).filterMap g = (List.range m).filterMap f :=
    List.filterMap_congr fun i hi => same i (List.mem_range.mp hi)
  have none' : ((List.range d).map (m + ·)).filterMap g = [] := by
    rw [List.filterMap_eq_nil_iff]
    intro i hi
    obtain ⟨j, -, rfl⟩ := List.mem_map.mp hi
    exact beyond _ (Nat.le_add_right m j)
  rw [List.range_add, List.filterMap_append, List.filterMap_append, first, none', List.append_nil]
  exact List.prefix_append _ _

theorem presentSeqs_headAdvance {s : State} (h1 : 1 ≤ s.lineLength) (h64 : s.lineLength ≤ 64)
    (outside : OutsideLineGaps s) : presentSeqs s.headAdvance <+: presentSeqs s := by
  obtain ⟨first, next⟩ := headAdvance_at h1 h64
  have zero : seqAtNat s.headAdvance 0 = none := by
    simp only [seqAtNat]
    exact seqAt_none.mpr first
  have after (i : Nat) : seqAtNat s.headAdvance (i + 1) = if i + 1 < s.lineLength then seqAtNat s i else none := by
    unfold seqAtNat
    by_cases small : i < 63
    · rw [dif_pos (by omega : i + 1 < 64), dif_pos (by omega : i < 64)]
      have here := next ⟨i, small⟩
      split
      · unfold seqAt
        rw [show (⟨i + 1, _⟩ : Fin 64) = (⟨i, small⟩ : Fin 63).succ from rfl, here, if_neg (by simp; omega)]
        rfl
      · refine seqAt_none.mpr (here.trans ?_)
        split
        · rfl
        · next long => exact outside _ (by simp at long ⊢; omega)
    · rw [dif_neg (by omega), if_neg (by omega)]
  have shifted : presentSeqs s.headAdvance
      = (List.range 63).filterMap fun i => seqAtNat s.headAdvance (i + 1) := by
    rw [presentSeqs_range, List.range_succ_eq_map, List.filterMap_cons_none zero, List.filterMap_map]
    rfl
  have whole : (List.range 63).filterMap (seqAtNat s) <+: presentSeqs s := by
    have split64 : List.range 64 = List.range 63 ++ [63] := List.range_succ
    rw [presentSeqs_range, split64, List.filterMap_append]
    exact List.prefix_append _ _
  rw [shifted]
  exact (filterMap_range_prefix (m := s.lineLength - 1) (by omega) (fun i hi => by rw [after, if_pos (by omega)])
    fun i hi => by rw [after, if_neg (by omega)]).trans whole

theorem headAdvance_nextSeq (s : State) : s.headAdvance.ring.nextSeq = s.ring.nextSeq := by
  rw [headAdvance_ring, ringAdvance_ring]

theorem seqsInCutOrder_headAdvance {s : State} (h1 : 1 ≤ s.lineLength) (h64 : s.lineLength ≤ 64)
    (outside : OutsideLineGaps s) (order : SeqsInCutOrder s) : SeqsInCutOrder s.headAdvance := by
  obtain ⟨nonzero, order⟩ := order
  have shorter := presentSeqs_headAdvance h1 h64 outside
  rw [order] at shorter
  exact ⟨by rw [headAdvance_nextSeq]; exact nonzero, by rw [headAdvance_nextSeq]; exact eq_lastGiven_of_prefix shorter⟩

end Sys2Proof.Proofs

/-!
PROOF. The crossings of a step: a record created, windows opened and closed, and the on-crossing of an INSPECT station
with the notice it hands over (R101). The queue of notices stays lawful through them (R100).
-/

namespace Sys2Proof.Proofs

open Sys2Proof Sys2Proof.Machine Sys2Proof.Safety Sys2Proof.Laws

/-! ### A creation -/

theorem tends_creation {s : State} {b : Blank} (gap : s.ring.at 0 = none) (mode : s.line.mode ≠ .offline)
    (seq : b.seq = s.ring.nextSeq) (clean : Clean b) (used : s.inUse b.fmt = true) :
    Tends s { s.putAt 0 (some b) with
      ring := { (s.putAt 0 (some b)).ring with nextSeq := successor s.ring.nextSeq } } where
  flows := flows_creation gap mode seq clean used
  marks _ _ _ mark := mark
  log := id
  numbers := id
  total := totalGoes_of_eq rfl
  notices := List.Sublist.refl _
  waits k c c' placed placed' _ waits := by
    replace placed' : (s.putAt 0 (some b)).ring.at k = some c' := placed'
    rw [at_putAt] at placed'
    split at placed'
    · next same => subst same; cases gap.symm.trans placed
    · cases placed.symm.trans placed'; exact waits
  gum := gumGoes_of_eq rfl (lineGoes_refl _)

theorem tends_cymCreation (s : State) : Tends s s.cymCreation :=
  tends_of_parts (flows_cymCreation s) (fun _ _ _ mark => mark) rfl rfl rfl rfl (gumGoes_of_eq rfl (lineGoes_refl _))

theorem tends_createRecord {k : Fin 4} (theta : Nat) {s : State} (gap : s.ring.at 0 = none)
    (mode : s.line.mode ≠ .offline) (active : s.active = some k) : Tends s (s.createRecord k theta) := by
  unfold State.createRecord
  extract_lets fmt s1 inspected b s2 r s3 s4
  obtain ⟨tends, next, used⟩ : Tends s s1 ∧ s1.ring.nextSeq = s.ring.nextSeq ∧ s1.inUse fmt = true := by
    unfold s1 fmt
    cases pending : s.pendingSlot with
    | none => exact ⟨tends_refl s, rfl, inUse_iff.mpr (.inl active)⟩
    | some n =>
      refine ⟨tends_makeActive theta (inUse_iff.mpr (.inr (.inl pending))), makeActive_nextSeq .., ?_⟩
      obtain ⟨_, _, _, _, whole⟩ := makeActive_spec n theta s
      dsimp only [Option.getD]
      rw [whole]
      exact inUse_iff.mpr (.inl rfl)
  have created : Tends s s3 := tends.trans (tends_creation (tends.flows.gap_zero next gap)
    (fun offline => mode (tends.flows.mode.mp offline)) (fresh_seq ..) (clean_fresh _ _ _ _)
    (by rw [fresh_fmt]; exact used))
  have off : Tends s s4 := tends_ite created (created.trans (tends_registration (totalGoes_enterOff s3)))
  exact off.trans (tends_cymCreation s4)

theorem tends_feedEvaluation (k : Fin 4) (st : Station) (theta : Nat) (s : State) :
    Tends s (s.feedEvaluation k st theta) := by
  unfold State.feedEvaluation
  split
  · next h =>
    simp only [Bool.and_eq_true, decide_eq_true_eq, Option.isNone_iff_eq_none] at h
    obtain ⟨⟨⟨active, -⟩, mode⟩, gap⟩ := h
    exact tends_createRecord theta gap mode active
  · exact tends_refl s

/-! ### Windows -/

theorem tends_closingAction (k : Fin 4) (i : Fin 16) (e : Entry) (st : Station) (theta : Nat) (s : State) :
    Tends s (s.closingAction k i e st theta) := by
  unfold State.closingAction
  split
  · exact tends_sendOperation ..
  · split
    · split
      · exact tends_feedEvaluation ..
      · exact tends_markStation ..
      · exact tends_patchCheck ..
      · exact tends_foldCheck ..
      · exact tends_countStation ..
      · exact tends_refl s
    · exact tends_refl s

theorem tends_closeWindow (k : Fin 4) (i : Fin 16) (e : Entry) (theta : Nat) (s : State) :
    Tends s (s.closeWindow k i e theta) :=
  (tends_closingAction ..).trans (tends_updStation (fun h => by cases h) fun _ mark => mark)

/-- Whatever a station becomes that keeps its on-mark, in a slot that was in use. -/
theorem tends_open {s t : State} {k : Fin 4} (h : Tends s t) (used : s.inUse k = true) (i : Fin 16)
    {f : Station → Station} (marks : ∀ st, st.onMark = true → (f st).onMark = true) : Tends s (t.updStation k i f) where
  flows := flows_open h.flows used i f
  marks k' i' carried mark := by
    rw [station_updStation]
    split
    · next same => obtain ⟨rfl, rfl⟩ := same; exact marks _ (h.marks _ _ carried mark)
    · exact h.marks _ _ carried mark
  log := h.log
  numbers := h.numbers
  total := TotalGoes.trans (updStation_slots ..) h.total (totalGoes_of_eq (updStation_registration ..))
  notices := h.notices
  waits := h.waits
  gum := h.gum.trans (gumGoes_of_eq (updStation_gum ..) (lineGoes_refl _))

/-- An on-crossing up to the opened window (R46). -/
def State.crossedOn (k : Fin 4) (i : Fin 16) (e : Entry) (theta : Nat) (s : State) : State :=
  let s1 := s.updStation k i fun st => { st with onMark := true }
  let s2 := if (s1.station k i).windowOpen then s1.closeWindow k i e theta else s1
  s2.updStation k i (Station.opened e (s2.presentAt e.position))

theorem onCrossing_eq (k : Fin 4) (i : Fin 16) (e : Entry) (theta : Nat) (s : State) :
    s.onCrossing k i e theta
      = if e.kind.isOutput && e.enabled then
          (State.crossedOn k i e theta s).outputAction k i e
            (((State.crossedOn k i e theta s).presentAt e.position).filter fun b => b.fmt = k)
        else State.crossedOn k i e theta s := rfl

theorem tends_crossedOn {k : Fin 4} (i : Fin 16) (e : Entry) (theta : Nat) {s : State} (used : s.inUse k = true) :
    Tends s (State.crossedOn k i e theta s) := by
  have marked : Tends s (s.updStation k i fun st => { st with onMark := true }) :=
    tends_updStation (fun h => .inl h) fun _ _ => rfl
  exact tends_open (tends_ite (marked.trans (tends_closeWindow ..)) marked) used i fun _ mark => mark

theorem tends_offCrossing (k : Fin 4) (i : Fin 16) (e : Entry) (theta : Nat) (s : State) :
    Tends s (s.offCrossing k i e theta) := by
  have marked : Tends s (s.updStation k i fun st => { st with offMark := true }) :=
    tends_updStation (fun h => .inl h) fun _ mark => mark
  exact tends_ite (marked.trans (tends_closeWindow ..)) marked

/-! ### The stores through a crossing -/

/-- What a crossing keeps: the laws of the ring, the room of the log and of the queue, the numbers of the batches, the
bounds of the trim total, and the gum circuit's course. -/
structure Keeps (s t : State) : Prop where
  flows : Flows s t
  log : s.batch.log.length ≤ logRoom → t.batch.log.length ≤ logRoom
  room : s.notices.length ≤ noticeRoom → t.notices.length ≤ noticeRoom
  numbers : BatchNumbersSuccessive s → BatchNumbersSuccessive t
  total : TotalGoes s t
  gum : GumGoes s t

theorem Tends.keeps {s t : State} (h : Tends s t) : Keeps s t :=
  ⟨h.flows, h.log, fun room => h.notices.length_le.trans room, h.numbers, h.total, h.gum⟩

theorem Keeps.trans {s t u : State} (h : Keeps s t) (g : Keeps t u) : Keeps s u :=
  ⟨h.flows.trans g.flows, fun l => g.log (h.log l), fun l => g.room (h.room l), fun l => g.numbers (h.numbers l),
    h.total.trans g.flows.slots g.total, h.gum.trans g.gum⟩

theorem keeps_ite {c : Prop} [Decidable c] {s t u : State} (h : Keeps s t) (g : Keeps s u) :
    Keeps s (if c then t else u) := by split <;> assumption

theorem keeps_update {s : State} (seq : Word) (f : Blank → Blank) (h : ∀ b, s.record seq = some b → Evolves b (f b)) :
    Keeps s (s.update seq f) := by
  have flows := flows_update seq f h
  obtain ⟨entries, whole⟩ := update_eq s seq f
  rw [whole] at flows ⊢
  exact ⟨flows, id, id, id, totalGoes_of_eq rfl, gumGoes_of_eq rfl (lineGoes_refl _)⟩

/-- A notice put into the queue in cut order, for a record at a position (R101). -/
def State.withNotice (n : Notice) (position : Fin 64) (s : State) : State :=
  { s with notices :=
      s.notices.takeWhile (s.standsBefore position) ++ n :: s.notices.dropWhile (s.standsBefore position) }

theorem handNotice_room {b : Blank} {position : Fin 64} {s : State} (room : s.notices.length < noticeRoom) :
    s.handNotice b position
      = State.withNotice { seq := b.seq, fmt := b.fmt, stamp := s.angle.cycle.setWidth 16 } position s := if_pos room

theorem handNotice_full {b : Blank} {position : Fin 64} {s : State} (full : ¬ s.notices.length < noticeRoom) :
    s.handNotice b position = s.update b.seq fun b => (b.addFault .noticeLost).skipVerdict := if_neg full

theorem keeps_handNotice (b : Blank) (position : Fin 64) {s : State} (mode : s.line.mode ≠ .offline) :
    Keeps s (s.handNotice b position) := by
  have flows := flows_handNotice b position mode
  by_cases room : s.notices.length < noticeRoom
  · rw [handNotice_room room] at flows ⊢
    refine ⟨flows, id, fun _ => ?_, id, totalGoes_of_eq rfl, gumGoes_of_eq rfl (lineGoes_refl _)⟩
    have parts := congrArg List.length (List.takeWhile_append_dropWhile (p := s.standsBefore position) (l := s.notices))
    simp only [State.withNotice, List.length_append, List.length_cons] at parts ⊢
    omega
  · rw [handNotice_full room]
    exact keeps_update _ _ fun b _ => (evolves_addFault _ b).trans (evolves_skipVerdict _)

theorem keeps_outputAction (k : Fin 4) (i : Fin 16) (e : Entry) (b : Option Blank) (s : State) :
    Keeps s (s.outputAction k i e b) := by
  by_cases inspect : e.kind = .inspect
  · have fired := tends_fire k i e s
    unfold State.outputAction
    split
    case h_6 b mode _ =>
      have armed : (s.fire k i e).line.mode ≠ .offline := fun offline => by
        have := fired.flows.mode.mp offline
        rw [mode] at this
        cases this
      exact keeps_ite (keeps_ite (fired.keeps.trans (keeps_handNotice b e.position armed)) fired.keeps)
        (keeps_ite (keeps_update _ _ fun b _ => evolves_skipVerdict b) (tends_refl s).keeps)
    case h_9 => exact (tends_refl s).keeps
    all_goals simp_all
  · exact (tends_outputAction k i inspect b s).keeps

/-! ### The laws of the queue -/

/-- What the laws of the queue rest on. -/
structure Lawful (s : State) : Prop where
  order : SeqsInCutOrder s
  inUse : InUseValid s
  inspect : SingleInspect s
  notices : NoticesLawful s

theorem inUseValid_of_flows {s t : State} (h : Flows s t) (valid : InUseValid s) : InUseValid t := fun k used => by
  rw [h.slots]
  exact valid k (h.inUse k used)

theorem singleInspect_of_slots {s t : State} (h : t.slots = s.slots) (single : SingleInspect s) : SingleInspect t := by
  intro k i j e e'
  simp only [State.entry, h]
  exact single k i j e e'

/-- The record of a notice stands where it stood. -/
theorem noticed_stays {s t : State}
    (records : ∀ k b, s.ring.at k = some b → ∃ b', t.ring.at k = some b' ∧ Evolves b b') (distinct : RingDistinct t)
    (lawful : NoticesLawful s) {n : Notice} (queued : n ∈ s.notices) {p : Fin 64} {b : Blank}
    (present : t.presentAt p = some b) (seq : b.seq = n.seq) :
    ∃ b0, s.presentAt p = some b0 ∧ b0.seq = n.seq ∧ Evolves b0 b := by
  obtain ⟨q, b0, stood, seq0, -⟩ := lawful.present n queued
  obtain ⟨within, placed0⟩ := presentAt_some.mp stood
  obtain ⟨b', placed', evolved⟩ := records q b0 placed0
  obtain ⟨-, placed⟩ := presentAt_some.mp present
  obtain rfl := distinct q p b' b placed' placed (by rw [evolved.seq, seq0, seq])
  cases placed.symm.trans placed'
  exact ⟨b0, stood, seq0, evolved⟩

/-- Records that evolve at their places, notices that only leave, each for a record that still waits, and entries and marks
that stay in the slots that carry records keep the queue lawful. -/
theorem noticesLawful_of {s t : State} (constants : t.constants = s.constants)
    (entries : ∀ k i, s.carried k = true → t.entry k i = s.entry k i)
    (records : ∀ k b, s.ring.at k = some b → ∃ b', t.ring.at k = some b' ∧ Evolves b b')
    (marks : ∀ k i, s.carried k = true → (s.station k i).onMark = true → (t.station k i).onMark = true)
    (notices : t.notices.Sublist s.notices)
    (waits : ∀ n ∈ t.notices, ∀ p b b', s.presentAt p = some b → b.seq = n.seq → t.ring.at p = some b' → Waits b → Waits b')
    (distinct : RingDistinct t) (lawful : NoticesLawful s) : NoticesLawful t where
  present n queued := by
    obtain ⟨p, b, stood, seq, fmt, awaits⟩ := lawful.present n (notices.subset queued)
    obtain ⟨within, placed⟩ := presentAt_some.mp stood
    obtain ⟨b', placed', evolved⟩ := records p b placed
    have length : t.lineLength = s.lineLength := by simp only [State.lineLength, constants]
    exact ⟨p, b', presentAt_some.mpr ⟨length ▸ within, placed'⟩, evolved.seq.trans seq,
      evolved.fmt.trans fmt, waits n queued p b b' stood seq placed' awaits⟩
  cutOrder := by
    refine (lawful.cutOrder.sublist notices).imp_of_mem fun {m n} hm hn order p q b b' hp seq hq seq' => ?_
    obtain ⟨c, stood, was, -⟩ := noticed_stays records distinct lawful (notices.subset hm) hp seq
    obtain ⟨c', stood', was', -⟩ := noticed_stays records distinct lawful (notices.subset hn) hq seq'
    exact order p q c c' stood was stood' was'
  inspected n queued p b present seq i e entry kind := by
    have before := notices.subset queued
    obtain ⟨b0, stood, was, evolved⟩ := noticed_stays records distinct lawful before present seq
    have carried : s.carried b0.fmt = true := carried_iff.mpr ⟨p, b0, stood, rfl⟩
    rw [evolved.fmt, entries _ _ carried] at entry
    refine (lawful.inspected n before p b0 stood was i e entry kind).imp_right fun ⟨here, mark⟩ => ⟨here, ?_⟩
    rw [evolved.fmt]
    exact marks _ _ carried mark

theorem noticesLawful_of_tends {s t : State} (h : Tends s t) (distinct : RingDistinct t) (lawful : NoticesLawful s) :
    NoticesLawful t :=
  noticesLawful_of h.flows.constants (fun k i _ => h.flows.toWorks.entry k i) h.flows.records h.marks h.notices
    (fun n queued p b b' stood seq placed' =>
      h.waits p b b' (presentAt_some.mp stood).2 placed' ⟨n, queued, seq.symm⟩) distinct lawful

theorem lawful_of_flows {s t : State} (h : Flows s t) (notices : NoticesLawful t) (lawful : Lawful s) : Lawful t :=
  ⟨seqsInCutOrder_of_flows h lawful.order, inUseValid_of_flows h lawful.inUse,
    singleInspect_of_slots h.slots lawful.inspect, notices⟩

theorem lawful_of_tends {s t : State} (h : Tends s t) (lawful : Lawful s) : Lawful t :=
  lawful_of_flows h.flows (noticesLawful_of_tends h
    (ringDistinct_of_cutOrder (seqsInCutOrder_of_flows h.flows lawful.order)) lawful.notices) lawful

/-! ### A notice handed over (R101) -/

theorem standsBefore_iff {s : State} (distinct : RingDistinct s) {n : Notice} {q : Fin 64} {b : Blank}
    (present : s.presentAt q = some b) (seq : b.seq = n.seq) (position : Fin 64) :
    s.standsBefore position n = true ↔ position < q := by
  have found : s.positionOf n.seq = some q :=
    positionOf_eq_some present seq fun j b' h h' => seqsDistinct_of_ring distinct j q b' b h present (h'.trans seq.symm)
  simp [State.standsBefore, found]

/-- Once a test fails along a list that is ordered for it, it goes on failing. -/
theorem dropWhile_fails {α : Type} {R : α → α → Prop} {p : α → Bool} {l : List α} (ordered : l.Pairwise R)
    (anti : ∀ a ∈ l, ∀ b ∈ l, R a b → p b = true → p a = true) : ∀ x ∈ l.dropWhile p, p x = false := by
  induction l with
  | nil => simp
  | cons a l ih =>
    obtain ⟨first, rest⟩ := List.pairwise_cons.mp ordered
    rw [List.dropWhile_cons]
    split
    · exact ih rest fun a ha b hb => anti a (.tail _ ha) b (.tail _ hb)
    · next fails =>
      intro x hx
      rcases List.mem_cons.mp hx with rfl | hx
      · simpa using fails
      · by_contra passes
        exact fails (anti a (.head _) x (.tail _ hx) (first x hx) (by simpa using passes))

/-- The record at an INSPECT station whose on-crossing has been taken and that no notice is for yet. -/
structure AtInspect (s : State) (i : Fin 16) (e : Entry) (b : Blank) : Prop where
  present : s.presentAt e.position = some b
  entry : s.entry b.fmt i = some e
  kind : e.kind = .inspect
  mark : (s.station b.fmt i).onMark = true
  unheard : ∀ n ∈ s.notices, n.seq ≠ b.seq

theorem noticesLawful_handed {s : State} {i : Fin 16} {e : Entry} {b : Blank} (lawful : Lawful s)
    (here : AtInspect s i e b) (waits : Waits b) (stamp : Half) :
    NoticesLawful (State.withNotice { seq := b.seq, fmt := b.fmt, stamp := stamp } e.position s) := by
  have distinct := ringDistinct_of_cutOrder lawful.order
  have seqs := seqsDistinct_of_ring distinct
  have parts := List.takeWhile_append_dropWhile (p := s.standsBefore e.position) (l := s.notices)
  have cases' {n : Notice}
      (queued : n ∈ (State.withNotice { seq := b.seq, fmt := b.fmt, stamp := stamp } e.position s).notices) :
      n ∈ s.notices ∨ n = { seq := b.seq, fmt := b.fmt, stamp := stamp } := by
    rcases List.mem_append.mp queued with first | last
    · exact .inl (List.takeWhile_subset _ first)
    · rcases List.mem_cons.mp last with new | last
      · exact .inr new
      · exact .inl (List.dropWhile_subset _ last)
  have valid : s.slots[b.fmt].state = .valid :=
    lawful.inUse b.fmt (inUse_iff.mpr (.inr (.inr (.inl (carried_iff.mpr ⟨_, b, here.present, rfl⟩)))))
  refine ⟨fun n queued => ?_, ?_, fun n queued p c present seq j e' entry kind => ?_⟩
  · rcases cases' queued with old | rfl
    · exact lawful.notices.present n old
    · exact ⟨e.position, b, here.present, rfl, rfl, waits⟩
  · have stands {n : Notice} (queued : n ∈ s.notices) {q : Fin 64} {c : Blank} (present : s.presentAt q = some c)
        (seq : c.seq = n.seq) := standsBefore_iff distinct present seq e.position
    have fails := dropWhile_fails (p := s.standsBefore e.position) lawful.notices.cutOrder fun m hm n hn order before => by
      obtain ⟨p, c, present, seq, -⟩ := lawful.notices.present m hm
      obtain ⟨q, c', present', seq', -⟩ := lawful.notices.present n hn
      exact (stands hm present seq).mpr (lt_trans ((stands hn present' seq').mp before)
        (order p q c c' present seq present' seq'))
    have ordered := lawful.notices.cutOrder
    rw [← parts, List.pairwise_append] at ordered
    obtain ⟨front, back, across⟩ := ordered
    refine List.pairwise_append.mpr ⟨front, List.pairwise_cons.mpr ⟨fun n queued p q c c' hp seq hq seq' => ?_, back⟩,
      fun m hm n hn => ?_⟩
    · obtain rfl := seqs p e.position c b hp here.present seq
      have old := List.dropWhile_subset _ queued
      have behind : ¬ e.position < q := fun before =>
        Bool.eq_false_iff.mp (fails n queued) ((stands old hq seq').mpr before)
      have apart : q ≠ e.position := by
        rintro rfl
        cases hq.symm.trans here.present
        exact here.unheard n old seq'.symm
      exact lt_of_le_of_ne (not_lt.mp behind) apart
    · rcases List.mem_cons.mp hn with rfl | hn
      · intro p q c c' hp seq hq seq'
        obtain rfl := seqs q e.position c' b hq here.present seq'
        exact (stands (List.takeWhile_subset _ hm) hp seq).mp (List.mem_takeWhile_imp hm)
      · exact across m hm n hn
  · rcases cases' queued with old | rfl
    · exact lawful.notices.inspected n old p c present seq j e' entry kind
    · obtain rfl := seqs p e.position c b present here.present seq
      cases present.symm.trans here.present
      obtain rfl := lawful.inspect b.fmt j i e' e valid entry here.entry kind here.kind
      cases entry.symm.trans here.entry
      exact .inr ⟨rfl, here.mark⟩

theorem noticesLawful_handNotice {s : State} {i : Fin 16} {e : Entry} {b : Blank} (lawful : Lawful s)
    (here : AtInspect s i e b) (waits : Waits b) : NoticesLawful (s.handNotice b e.position) := by
  by_cases room : s.notices.length < noticeRoom
  · rw [handNotice_room room]
    exact noticesLawful_handed lawful here waits _
  · rw [handNotice_full room]
    exact (lawful_of_tends (tends_unheard here.unheard fun b _ =>
      (evolves_addFault _ b).trans (evolves_skipVerdict _)) lawful).notices

/-- An output station that closes its window changes no other station, and keeps its own on-mark. -/
theorem closeWindow_onMark {k : Fin 4} {i : Fin 16} {e : Entry} (output : e.kind.isOutput = true) (theta : Nat)
    {s : State} (mark : (s.station k i).onMark = true) : ((s.closeWindow k i e theta).station k i).onMark = true := by
  have sent : s.closingAction k i e (s.station k i) theta = s.sendOperation e (s.station k i) := by
    unfold State.closingAction
    rw [if_pos output]
  have stays : (s.sendOperation e (s.station k i)).station k i = s.station k i := by
    simp only [State.station, (settles_sendOperation e _ s).2]
  rw [State.closeWindow, sent, station_updStation, if_pos ⟨rfl, rfl⟩, stays]
  exact mark

theorem crossedOn_onMark {k : Fin 4} {i : Fin 16} {e : Entry} (output : e.kind.isOutput = true) (theta : Nat)
    (s : State) : ((State.crossedOn k i e theta s).station k i).onMark = true := by
  have marked : ((s.updStation k i fun st => { st with onMark := true }).station k i).onMark = true := by
    rw [station_updStation, if_pos ⟨rfl, rfl⟩]
  unfold State.crossedOn
  extract_lets s1 s2
  have closed : (s2.station k i).onMark = true := by
    unfold s2
    split
    · exact closeWindow_onMark output theta marked
    · exact marked
  rw [station_updStation, if_pos ⟨rfl, rfl⟩]
  exact closed

/-- At the on-crossing of an INSPECT station the record there has no notice yet. -/
theorem atInspect_crossedOn {k : Fin 4} {i : Fin 16} {e : Entry} {theta : Nat} {s : State} {b : Blank}
    (lawful : Lawful s) (used : s.inUse k = true) (entry : s.entry k i = some e) (kind : e.kind = .inspect)
    (clear : (s.station k i).onMark = false) (present : (State.crossedOn k i e theta s).presentAt e.position = some b)
    (ofSlot : b.fmt = k) : AtInspect (State.crossedOn k i e theta s) i e b where
  present := present
  entry := by rw [(tends_crossedOn i e theta used).flows.toWorks.entry, ofSlot]; exact entry
  kind := kind
  mark := by rw [ofSlot]; exact crossedOn_onMark (by rw [kind]; rfl) theta s
  unheard n queued ofBlank := by
    have tends := tends_crossedOn i e theta used
    have before := tends.notices.subset queued
    have distinct := ringDistinct_of_cutOrder (seqsInCutOrder_of_flows tends.flows lawful.order)
    obtain ⟨b0, stood, seq, evolved⟩ := noticed_stays tends.flows.records distinct lawful.notices before present ofBlank.symm
    have fmt : b0.fmt = k := evolved.fmt.symm.trans ofSlot
    rcases lawful.notices.inspected n before e.position b0 stood seq i e (fmt ▸ entry) kind with past | ⟨-, mark⟩
    · exact absurd past (lt_irrefl _)
    · rw [fmt, clear] at mark
      cases mark

theorem lawful_inspects {s : State} {k : Fin 4} {i : Fin 16} {e : Entry} (lawful : Lawful s) (kind : e.kind = .inspect)
    {b : Option Blank} (here : ∀ c, b = some c → AtInspect s i e c) : NoticesLawful (s.outputAction k i e b) := by
  have fired := tends_fire k i e s
  have lawful' := lawful_of_tends fired lawful
  unfold State.outputAction
  split
  case h_6 c mode _ =>
    have at' := here c rfl
    have at'' : AtInspect (s.fire k i e) i e c := by
      have marks := fired.marks c.fmt i (carried_iff.mpr ⟨_, c, at'.present, rfl⟩) at'.mark
      obtain ⟨_, whole⟩ := fire_eq k i e s
      rw [whole] at marks ⊢
      exact ⟨at'.present, at'.entry, kind, marks, at'.unheard⟩
    split
    · next inLine =>
      dsimp only
      split
      · next awaiting => exact noticesLawful_handNotice lawful' at'' ⟨awaiting, by simp [inLine], by simp [inLine]⟩
      · exact lawful'.notices
    · split
      · exact (lawful_of_tends (tends_unheard at'.unheard fun b _ => evolves_skipVerdict b) lawful).notices
      · exact lawful.notices
  case h_9 => exact lawful.notices
  all_goals simp_all

/-! ### The crossings of a step -/

/-- What the crossings of a step do: they keep the stores, and the queue lawful. -/
structure Goes (s t : State) : Prop where
  keeps : Keeps s t
  notices : Lawful s → NoticesLawful t

theorem Tends.goes {s t : State} (h : Tends s t) : Goes s t := ⟨h.keeps, fun lawful => (lawful_of_tends h lawful).notices⟩

theorem Goes.lawful {s t : State} (h : Goes s t) (lawful : Lawful s) : Lawful t :=
  lawful_of_flows h.keeps.flows (h.notices lawful) lawful

theorem Goes.trans {s t u : State} (h : Goes s t) (g : Goes t u) : Goes s u :=
  ⟨h.keeps.trans g.keeps, fun lawful => g.notices (h.lawful lawful)⟩

theorem goes_onCrossing {k : Fin 4} {i : Fin 16} {e : Entry} (theta : Nat) {s : State} (used : s.inUse k = true)
    (entry : s.entry k i = some e) (clear : (s.station k i).onMark = false) : Goes s (s.onCrossing k i e theta) := by
  have crossed := tends_crossedOn i e theta used
  rw [onCrossing_eq]
  split
  · refine ⟨crossed.keeps.trans (keeps_outputAction ..), fun lawful => ?_⟩
    by_cases kind : e.kind = .inspect
    · refine lawful_inspects (lawful_of_tends crossed lawful) kind fun c found => ?_
      obtain ⟨present, ofSlot⟩ := Option.filter_eq_some_iff.mp found
      exact atInspect_crossedOn lawful used entry kind clear present (by simpa using ofSlot)
    · exact (lawful_of_tends (crossed.trans (tends_outputAction k i kind _ _)) lawful).notices
  · exact crossed.goes

/-- A crossing that is still to be taken: its slot is evaluated, and its mark is clear. -/
theorem crossing_spec {s : State} {low high : Nat} {c : Crossing} (h : c ∈ s.crossings low high) :
    s.evaluated c.slot = true ∧ (c.isOn = true → (s.station c.slot c.index).onMark = false) := by
  refine ⟨crossings_evaluated h, fun on => ?_⟩
  simp only [State.crossings, List.mem_flatMap, List.mem_finRange, true_and] at h
  obtain ⟨k, h⟩ := h
  split at h
  · simp only [List.mem_flatMap, List.mem_finRange, true_and] at h
    obtain ⟨i, h⟩ := h
    split at h
    · simp only [crossingsOf, List.mem_append] at h
      rcases h with h | h <;> split at h <;> simp_all
    · cases h
  · cases h

theorem goes_takeCrossing {c : Crossing} {low high : Nat} {s : State} (h : c ∈ s.crossings low high) :
    Goes s (s.takeCrossing c) := by
  obtain ⟨evaluated, clear⟩ := crossing_spec h
  unfold State.takeCrossing
  split
  · exact (tends_refl s).goes
  · next e entry =>
    refine Goes.trans ?_ (tends_prune _).goes
    split
    · next on => exact goes_onCrossing c.angle (inUse_of_evaluated evaluated) entry (clear on)
    · exact (tends_offCrossing ..).goes

theorem goes_takeCrossings (use high fuel low : Nat) (s : State) :
    Goes s (State.takeCrossings use high fuel low s) := by
  induction fuel generalizing low s with
  | zero => exact (tends_refl s).goes
  | succ fuel ih =>
    unfold State.takeCrossings
    split
    · exact (tends_refl s).goes
    · next c first => exact (goes_takeCrossing (firstCrossing_mem first)).trans (ih ..)

theorem goes_passAngles (low high : Nat) (s : State) : Goes s (s.passAngles low high) := by
  unfold State.passAngles
  split
  · exact (tends_refl s).goes
  · exact (tends_choice s (s.choice + 1)).goes.trans (goes_takeCrossings ..)

end Sys2Proof.Proofs

/-!
PROOF. Every step keeps the stores in their ranges (R67, R77, R100, R119, R131, R142): first the happenings, a head
advance and the counts, then the commands on the locks and the batch log, then a pass over all commands.
-/

namespace Sys2Proof.Proofs

open Sys2Proof Sys2Proof.Machine Sys2Proof.Safety Sys2Proof.Laws

/-! ### The happenings -/

/-- What a happening does to the stores. -/
structure Stores (s t : State) : Prop where
  slots : t.slots = s.slots
  locks : t.locks = s.locks
  log : s.batch.log.length ≤ logRoom → t.batch.log.length ≤ logRoom
  room : s.notices.length ≤ noticeRoom → t.notices.length ≤ noticeRoom
  numbers : BatchNumbersSuccessive s → BatchNumbersSuccessive t
  total : TotalGoes s t

theorem Stores.trans {s t u : State} (h : Stores s t) (g : Stores t u) : Stores s u :=
  ⟨g.slots.trans h.slots, g.locks.trans h.locks, fun l => g.log (h.log l), fun l => g.room (h.room l),
    fun l => g.numbers (h.numbers l), h.total.trans g.slots g.total⟩

theorem stores_of_same {s t : State} (slots : t.slots = s.slots) (locks : t.locks = s.locks) (batch : t.batch = s.batch)
    (notices : t.notices.length ≤ s.notices.length) (registration : t.registration = s.registration) : Stores s t :=
  ⟨slots, locks, fun room => batch ▸ room, fun room => notices.trans room,
    batchNumbers_of_same (by rw [batch]) (by rw [batch]) (by rw [batch]), totalGoes_of_eq registration⟩

theorem stores_refl (s : State) : Stores s s := stores_of_same rfl rfl rfl le_rfl rfl

theorem stores_ite {c : Prop} [Decidable c] {s t u : State} (h : Stores s t) (g : Stores s u) :
    Stores s (if c then t else u) := by split <;> assumption

theorem Keeps.stores {s t : State} (h : Keeps s t) : Stores s t :=
  ⟨h.flows.slots, h.flows.locks, h.log, h.room, h.numbers, h.total⟩

theorem Tends.stores {s t : State} (h : Tends s t) : Stores s t := h.keeps.stores

theorem stores_passAngles (low high : Nat) (s : State) : Stores s (s.passAngles low high) :=
  (goes_passAngles low high s).keeps.stores

theorem headAdvance_batch (s : State) : s.headAdvance.batch = s.batch := by
  have ring : s.ringAdvance.batch = s.batch := by
    unfold State.ringAdvance
    dsimp only
    split <;> rfl
  exact ring

theorem headAdvance_registration (s : State) : s.headAdvance.registration = s.registration.headAdvance := by
  have ring : s.ringAdvance.registration = s.registration := by
    unfold State.ringAdvance
    dsimp only
    split <;> rfl
  exact congrArg Registration.headAdvance ring

theorem headAdvance_notices (s : State) : s.headAdvance.notices = s.notices.filter fun n =>
    (s.ring.at (Fin.ofNat 64 (s.lineLength - 1))).all fun b => n.seq ≠ b.seq := ringAdvance_notices s

theorem stores_headAdvance (s : State) : Stores s s.headAdvance where
  slots := (headAdvance_spec s).1.slots
  locks := (headAdvance_spec s).1.locks
  log room := by rw [headAdvance_batch]; exact room
  room room := by rw [headAdvance_notices]; exact (List.length_filter_le ..).trans room
  numbers := batchNumbers_of_same (by rw [headAdvance_batch]) (by rw [headAdvance_batch]) (by rw [headAdvance_batch])
  total := by
    have unit : s.headAdvance.registration.total = s.registration.total
        ∧ s.headAdvance.registration.lastSlot = s.registration.lastSlot
        ∧ s.headAdvance.registration.heldAmax = s.registration.heldAmax := by
      rw [headAdvance_registration, Registration.headAdvance]
      split <;> exact ⟨rfl, rfl, rfl⟩
    obtain ⟨total, lastSlot, heldAmax⟩ := unit
    exact .inl ⟨total, lastSlot, .inl heldAmax⟩

theorem stores_setP (p : Nat) (s : State) : Stores s (s.setP p) := stores_of_same rfl rfl rfl le_rfl rfl

theorem stores_stepForward (p : Nat) (s : State) : Stores s (s.stepForward p) :=
  (stores_setP p s).trans (stores_passAngles ..)

theorem stores_wrap (p : Nat) (s : State) : Stores s (s.wrap p) :=
  ((stores_passAngles ..).trans (stores_headAdvance _)).trans ((stores_setP p _).trans (stores_passAngles ..))

theorem stores_angle (s : State) (a : AngleUnit) : Stores s { s with angle := a } := stores_of_same rfl rfl rfl le_rfl rfl

theorem stores_forwardWork (c : Constants) (s : State) : Stores s (s.forwardWork c) :=
  stores_ite (stores_angle s _) (stores_ite (stores_stepForward ..) (stores_wrap ..))

theorem stores_eitherOrder {a b : State → State} {matters : Bool} (ha : ∀ s, Stores s (a s)) (hb : ∀ s, Stores s (b s))
    (s : State) : Stores s (eitherOrder matters a b s) := by
  obtain ⟨n, h | h⟩ := eitherOrder_eq matters a b s
  · exact h ▸ (tends_choice s n).stores.trans ((ha _).trans (hb _))
  · exact h ▸ (tends_choice s n).stores.trans ((hb _).trans (ha _))

theorem stores_loseAll (s : State) : Stores s s.loseAll := by
  obtain ⟨_, whole⟩ := updateAll_eq s (Blank.lose .trackLost)
  unfold State.loseAll
  rw [whole]
  exact stores_of_same rfl rfl rfl (List.length_filter_le ..) rfl

theorem stores_backwardWork (c : Constants) (s : State) : Stores s (s.backwardWork c) :=
  stores_ite (stores_setP _ s) (stores_ite
    ((stores_angle s _).trans (stores_eitherOrder stores_loseAll (fun s => (tends_raiseCause _ s).stores) _))
    (stores_angle s _))

theorem stores_correctIndex (c : Constants) (z0 : Nat) (s : State) : Stores s (s.correctIndex c z0) :=
  stores_ite (stores_refl s) (stores_ite (stores_ite (stores_stepForward ..) (stores_wrap ..))
    (stores_ite (stores_setP z0 s) (stores_angle s _)))

theorem stores_takeCount {work : State → State} (h : ∀ s, Stores s (work s)) (sense : CountSense) (s : State) :
    Stores s (s.takeCount sense work) := by
  have counted : Stores s (s.counted sense) := stores_angle s _
  exact stores_ite (counted.trans (stores_eitherOrder (fun s => (tends_gumLeavesHalt s).stores) h _))
    (counted.trans (h _))

theorem stores_primeCompletes (s : State) : Stores s s.primeCompletes := by
  refine Stores.trans ?_ ((tends_gumTo_after .ready false s).trans (tends_setEvent _ .primeDone)).stores
  exact stores_of_same rfl rfl rfl le_rfl rfl

/-- Also where the slot was not in use, as in OFFLINE. -/
theorem stores_makeActive (n : Fin 4) (theta : Nat) (s : State) : Stores s (s.makeActive n theta) := by
  rw [makeActive_eq]
  refine Stores.trans ?_ ((tends_gumChangeover n _).trans (tends_prune _)).stores
  obtain ⟨_, whole⟩ := activated_eq n theta s
  rw [whole]
  exact stores_of_same rfl rfl rfl le_rfl rfl

theorem stores_standbyExpires {s : State} (ready : s.gum.state = .ready) : Stores s s.standbyExpires :=
  (tends_standbyExpires (by rw [ready]; decide)).stores

theorem stores_takeChord (s : State) : Stores s s.takeChord := by
  unfold State.takeChord
  dsimp only
  split <;> exact stores_of_same rfl rfl rfl le_rfl rfl

/-- Cells change, and what the stations have seen. -/
theorem stores_cells {s t : State} (h : ∃ cells, t = { s with cells := cells }
    ∨ ∃ i angle, t = State.handEdge i angle { s with cells := cells }) : Stores s t := by
  obtain ⟨cells, rfl | ⟨i, angle, rfl⟩⟩ := h <;> exact stores_of_same rfl rfl rfl le_rfl rfl

theorem stores_qualify (cell : Fin 16) (s : State) : Stores s (s.qualify cell) := by
  obtain ⟨cells, h | ⟨angle, h⟩⟩ := qualify_state s cell
  · exact stores_cells ⟨cells, .inl h⟩
  · exact stores_cells ⟨cells, .inr ⟨cell, angle, h⟩⟩

theorem stores_foldl {α : Type} {f : State → α → State} (h : ∀ s x, Stores s (f s x)) (l : List α) (s : State) :
    Stores s (l.foldl f s) := by
  induction l generalizing s with
  | nil => exact stores_refl s
  | cons x l ih => exact (h s x).trans (ih _)

theorem stores_takeExpiries (s : State) : Stores s s.takeExpiries := by
  unfold State.takeExpiries
  extract_lets s1 s2 s3
  have filters : Stores s s1 := stores_foldl (fun s i => stores_ite (stores_qualify i s) (stores_refl s)) _ s
  have standby : Stores s s2 := by
    unfold s2
    split
    · exact filters.trans (stores_standbyExpires (standbyDue_ready ‹_›))
    · exact filters
  have prime : Stores s s3 := stores_ite (standby.trans (stores_primeCompletes _)) standby
  exact stores_ite (prime.trans (stores_takeChord _)) prime

theorem stores_tick (s : State) : Stores s s.tick :=
  stores_ite (stores_refl s) ((stores_of_same rfl rfl rfl le_rfl rfl : Stores s s.advanceTimers).trans
    (stores_takeExpiries _))

/-! ### Commands -/

/-- A step keeps the buffers in their room, the locks legal and the batch numbers successive, and leaves a trim total that
it changes in its bound. -/
structure KeepsStores (s t : State) : Prop where
  buffers : BuffersInRoom s → BuffersInRoom t
  total : t.registration.total = s.registration.total
    ∨ t.registration.total.natAbs ≤ t.registration.heldAmax
  locks : LocksLegal s → LocksLegal t
  batches : BatchNumbersSuccessive s → BatchNumbersSuccessive t

theorem Stores.kept {s t : State} (h : Stores s t) : KeepsStores s t where
  buffers := fun ⟨log, room⟩ => ⟨h.log log, h.room room⟩
  total := h.total.imp TotalKept.total And.left
  locks legal i := by rw [h.locks]; exact legal i
  batches := h.numbers

theorem keepsStores_of_same {s t : State} (locks : t.locks = s.locks) (batch : t.batch = s.batch)
    (notices : t.notices.length ≤ s.notices.length) (registration : t.registration = s.registration) :
    KeepsStores s t where
  buffers := fun ⟨log, room⟩ => ⟨batch ▸ log, notices.trans room⟩
  total := .inl (by rw [registration])
  locks legal i := by rw [locks]; exact legal i
  batches := batchNumbers_of_same (by rw [batch]) (by rw [batch]) (by rw [batch])

theorem keepsStores_answerable : Answerable KeepsStores where
  refl _ := keepsStores_of_same rfl rfl le_rfl rfl
  respond _ _ h :=
    { buffers := h.buffers, total := h.total, locks := h.locks, batches := h.batches }

/-- Only the locks change. -/
theorem keepsStores_locks {s : State} {locks : Vector Lock 8}
    (legal : LocksLegal s → ∀ i : Fin 8, LockLegal i locks[i]) : KeepsStores s { s with locks := locks } where
  buffers := id
  total := .inl rfl
  locks := legal
  batches := id

theorem keepsStores_putLock {s : State} {i : Fin 8} {l : Lock} (legal : LockLegal i s.locks[i] → LockLegal i l) :
    KeepsStores s (s.putLock i l) := by
  refine keepsStores_locks fun all j => ?_
  rw [fin_getElem_setAt]
  split
  · next same => exact same ▸ legal (all i)
  · exact all j

theorem lockLegal_free {i : Fin 8} (unbound : isBound i = false) (allocated : Bool) :
    LockLegal i { allocated := allocated, held := false, holder := none } :=
  ⟨fun held => (by cases held), fun bound => (by rw [unbound] at bound; cases bound)⟩

theorem lockLegal_return {i : Fin 8} {l : Lock} (legal : LockLegal i l) : LockLegal i (returnLock i l).1 := by
  unfold returnLock
  split
  · exact legal
  · split
    · exact legal
    · exact lockLegal_free (by simpa using ‹¬ isBound i = true›) false

theorem lockLegal_take (p : Port) {i : Fin 8} {l : Lock} (legal : LockLegal i l) : LockLegal i (takeLock p i l).1 := by
  unfold takeLock
  split
  · exact legal
  · split
    · exact legal
    · exact ⟨fun _ => ⟨by simpa using ‹¬ (!l.allocated) = true›, rfl⟩, legal.2⟩

theorem lockLegal_unheld {i : Fin 8} {l : Lock} (legal : LockLegal i l) : LockLegal i { l with held := false } :=
  ⟨fun held => (by cases held), legal.2⟩

theorem lockLegal_release (p : Port) {i : Fin 8} {l : Lock} (legal : LockLegal i l) :
    LockLegal i (releaseLock p i l).1 := by
  unfold releaseLock
  split
  · exact legal
  · split
    · exact lockLegal_unheld legal
    · exact legal

theorem keepsStores_lockCommand {s : State} (number : Byte) {f : Fin 8 → Lock → Lock × Status}
    (legal : ∀ i l, LockLegal i l → LockLegal i (f i l).1) : KeepsStores s (s.lockCommand number f).1 := by
  rcases lockCommand_state s number f with ⟨i, -, h⟩ | ⟨n, h⟩
  · exact h ▸ keepsStores_putLock (legal i s.locks[i])
  · exact h ▸ (tends_choice s n).stores.kept

theorem keepsStores_lockNew (s : State) : KeepsStores s s.lockNew.1 := by
  rcases lockNew_state s with ⟨i, lowest, h⟩ | ⟨n, h⟩
  · have free := List.find?_some lowest
    exact h ▸ keepsStores_putLock fun _ => lockLegal_free (by simp at free; exact free.1) true
  · exact h ▸ (tends_choice s n).stores.kept

theorem releaseLocksOf_legal (p : Port) (s : State) (legal : LocksLegal s) : LocksLegal (s.releaseLocksOf p) := by
  intro i
  unfold State.releaseLocksOf
  dsimp only
  rw [fin_getElem_mapTable]
  split
  · exact lockLegal_unheld (legal i)
  · exact legal i

theorem keepsStores_portReset (p : Port) (s : State) : KeepsStores s (s.portReset p) := by
  have legal := releaseLocksOf_legal p s
  unfold State.portReset
  dsimp only
  split
  · exact ⟨fun ⟨log, _⟩ => ⟨log, Nat.zero_le _⟩, .inl rfl, legal, id⟩
  · exact ⟨id, .inl rfl, legal, id⟩

theorem resetLocks_legal (i : Fin 8) : LockLegal i resetLocks[i] := by
  unfold LockLegal
  revert i
  decide

theorem keepsStores_softReset (s : State) : KeepsStores s s.softReset := by
  obtain ⟨stations, whole⟩ := softReset_eq s
  rw [commonReset_eq] at whole
  rw [whole]
  exact ⟨fun ⟨log, _⟩ => ⟨log, Nat.zero_le _⟩, .inr (Nat.zero_le _), fun _ => resetLocks_legal,
    batchNumbers_of_same rfl rfl rfl⟩

theorem keepsStores_rstnReset (s : State) : KeepsStores s s.rstnReset := by
  rw [rstnReset_eq, commonReset_eq]
  exact ⟨fun _ => ⟨Nat.zero_le _, Nat.zero_le _⟩, .inr (Nat.zero_le _), fun _ => resetLocks_legal, fun _ => rfl⟩

theorem keepsStores_powerOn (low : Bool) (s : State) : KeepsStores s (s.powerOn low) :=
  ⟨fun _ => ⟨Nat.zero_le _, Nat.zero_le _⟩, .inr (Nat.zero_le _), fun _ => resetLocks_legal, fun _ => rfl⟩

/-- A batch counter that keeps its room and its numbers. -/
theorem keepsStores_batch {s : State} {b : BatchCounter} (log : s.batch.log.length ≤ logRoom → b.log.length ≤ logRoom)
    (numbers : BatchNumbersSuccessive s → BatchNumbersSuccessive { s with batch := b }) :
    KeepsStores s { s with batch := b } :=
  ⟨fun ⟨old, room⟩ => ⟨log old, room⟩, .inl rfl, id, numbers⟩

theorem keepsStores_takeBatch {s : State} {r : BatchRecord} {rest : List BatchRecord} (taken : s.batch.log = r :: rest) :
    KeepsStores s { s with batch := { s.batch with log := rest } } := by
  refine keepsStores_batch (fun room => ?_) fun successive => ?_
  · rw [taken] at room
    exact (Nat.le_succ _).trans room
  · cases opened : s.batch.openBatch with
    | none =>
      rw [batchNumbers_none opened, taken] at successive
      cases successive
    | some o =>
      rw [batchNumbers_some opened, taken] at successive
      exact (batchNumbers_some (s := { s with batch := { s.batch with log := rest } }) opened).mpr
        (successive_tail successive)

theorem keepsStores_arm (k : Fin 4) (s : State) : KeepsStores s ((s.enterMode .armed).openBatchAtArm k) := by
  cases opened : s.batch.openBatch with
  | none =>
    have opens : (s.enterMode .armed).openBatchAtArm k = (s.enterMode .armed).openBatchFor k := by
      rw [State.openBatchAtArm, show (s.enterMode .armed).batch.openBatch = none from opened]
    rw [opens]
    refine ⟨id, .inl rfl, id, fun empty => ?_⟩
    have log : s.batch.log = [] := (batchNumbers_none opened).mp empty
    refine (batchNumbers_some (s := (s.enterMode .armed).openBatchFor k) rfl).mpr ?_
    show Successive _ (s.batch.log.map _ ++ [s.batch.nextNumber])
    rw [log]
    exact rfl
  | some o =>
    have stays : (s.enterMode .armed).openBatchAtArm k = s.enterMode .armed := by
      rw [State.openBatchAtArm, show (s.enterMode .armed).batch.openBatch = some o from opened]
    rw [stays]
    exact keepsStores_of_same rfl rfl le_rfl rfl

theorem keepsStores_disarmed (s : State) : KeepsStores s s.disarmed := by
  have aborted := (tends_abortPrime (.inl rfl : GumState.standby = .standby ∨ _) s).stores
  exact ⟨fun ⟨log, _⟩ => ⟨aborted.log log, Nat.zero_le _⟩, .inr (Nat.zero_le _),
    fun legal i => (congrArg (fun locks : Vector Lock 8 => LockLegal i locks[i]) aborted.locks).mpr (legal i),
    fun successive => batchNumbers_of_same (s := s.abortPrime .standby) rfl rfl rfl (aborted.numbers successive)⟩

theorem keepsStores_installConstants (c : Constants) (s : State) : KeepsStores s (s.installConstants c) :=
  ⟨id, .inr (Nat.zero_le _), id, id⟩

theorem stores_update (seq : Word) (f : Blank → Blank) (s : State) : Stores s (s.update seq f) := by
  obtain ⟨_, whole⟩ := update_eq s seq f
  rw [whole]
  exact stores_of_same rfl rfl rfl le_rfl rfl

theorem keepsStores_takeTrim (s : State) : KeepsStores s s.takeTrim.1 := by
  unfold State.takeTrim
  dsimp only
  split
  · exact ⟨id, .inl rfl, id, id⟩
  · exact (stores_refl s).kept

/-- Every command keeps the stores. -/
theorem keepsStores_exec {s t : State} {i : Instr} (next : exec i s = .next t) : KeepsStores s t := by
  have answers := keepsStores_answerable
  have same {u : State} (locks : u.locks = s.locks) (batch : u.batch = s.batch) (notices : u.notices = s.notices)
      (registration : u.registration = s.registration) : KeepsStores s u :=
    keepsStores_of_same locks batch (by rw [notices]) registration
  cases i with
  | nop | status | readMotion | shortFrame | unknownCommand | notOnPort | parameterLengthMismatch =>
    exact answers.frame_same (f := fun s => (s, _)) next rfl
  | statusWithAcknowledge => exact answers.frame next (same rfl rfl rfl rfl)
  | setWindow p first last =>
    rcases setWindow_state s p first last with h | ⟨-, -, h⟩
    · exact answers.frame_same next h
    · exact answers.frame next (h ▸ same rfl rfl rfl rfl)
  | readNext p => exact answers.frame next (same rfl rfl rfl rfl)
  | readSeq p seq => exact answers.frame_same next (readSeq_state s seq)
  | peekCell p cell => exact answers.frame_same next (peekCell_state s cell)
  | takeCell cell =>
    obtain ⟨_, h⟩ := takeCell_state s cell
    exact answers.frame next (h ▸ same rfl rfl rfl rfl)
  | stop port =>
    exact answers.frame (f := fun s => (s.raiseCause (stopCause port), .bare .ok)) next
      (tends_raiseCause _ s).stores.kept
  | lockNew => exact answers.frame next (keepsStores_lockNew s)
  | lockReturn p n => exact answers.frame next (keepsStores_lockCommand n fun _ _ => lockLegal_return)
  | lockTake p n => exact answers.frame next (keepsStores_lockCommand n fun _ _ => lockLegal_take p)
  | lockRelease p n => exact answers.frame next (keepsStores_lockCommand n fun _ _ => lockLegal_release p)
  | lockQuery p n => exact answers.frame next (keepsStores_lockCommand n fun _ _ => id)
  | writeFormat p slot g =>
    rcases writeFormat_state s p slot g with h | ⟨_, _, -, -, h⟩
    · exact answers.frame_same next h
    · exact answers.frame next (h ▸ same rfl rfl rfl rfl)
  | readFormat p slot group => exact answers.frame_same next (readFormat_state s slot group)
  | commitFormat p slot =>
    rcases commitFormat_state s p slot with h | ⟨_, -, h⟩
    · exact answers.frame_same next h
    · exact answers.frame next (h ▸ same rfl rfl rfl rfl)
  | arm =>
    rcases arms_state s with h | ⟨k, -, -, h⟩
    · exact answers.frame_same next h
    · exact answers.frame next (h ▸ keepsStores_arm k s)
  | disarm =>
    rcases disarm_state s with h | ⟨-, -, h⟩
    · exact answers.frame_same next h
    · exact answers.frame next (h ▸ keepsStores_disarmed s)
  | clear =>
    rcases clear_state s with h | ⟨-, h⟩
    · exact answers.frame_same next h
    · exact answers.frame next (h ▸ same rfl rfl rfl rfl)
  | softReset => exact answers.softReset next fun _ => keepsStores_softReset s
  | setConstants r =>
    rcases setConstants_state s r with h | ⟨c, -, -, h⟩
    · exact answers.frame_same next h
    · exact answers.frame next (h ▸ keepsStores_installConstants c s)
  | setCell r =>
    obtain ⟨_, h⟩ := setCell_state s r
    exact answers.frame next (h ▸ same rfl rfl rfl rfl)
  | changeover slot =>
    rcases changeover_state s slot with h | h | ⟨n, -, -, ⟨-, h⟩ | ⟨-, h⟩⟩
    · exact answers.frame_same next h
    · exact answers.frame next (h ▸ same rfl rfl rfl rfl)
    · exact answers.frame next (h ▸ (stores_makeActive n _ s).kept)
    · exact answers.frame next (h ▸ same rfl rfl rfl rfl)
  | takeBatch =>
    rcases takeBatch_state s with h | ⟨_, _, taken, h⟩
    · exact answers.frame_same next h
    · exact answers.frame next (h ▸ keepsStores_takeBatch taken)
  | peekBatch => exact answers.frame_same next (peekBatch_state s)
  | closeBatch =>
    rcases closeBatch_state s with h | ⟨_, _, opened, room, h⟩
    · exact answers.frame_same next h
    · exact answers.frame next (h ▸ (tends_closeOpenBatch opened room _ _).stores.kept)
  | markReject seq =>
    rcases markReject_state s seq with h | h
    · exact answers.frame_same next h
    · exact answers.frame next (h ▸ (tends_update seq _ fun b _ => mild_addFault _ b).stores.kept)
  | primeGum =>
    obtain ⟨_, h⟩ := primeGum_state s
    exact answers.frame next (h ▸ same rfl rfl rfl rfl)
  | nudge v =>
    rcases nudge_state s v with h | h
    · exact answers.frame_same next h
    · have bound := applyCorrection_total v.toInt s
      refine answers.frame next (h ▸ ?_)
      rcases applyCorrection_events v.toInt s with whole | whole <;> rw [whole] <;>
        exact ⟨id, .inr bound, id, id⟩
  | setCym mode =>
    obtain ⟨_, h⟩ := setCym_state s mode
    exact answers.frame next (h ▸ same rfl rfl rfl rfl)
  | takeNotice =>
    rcases takeNotice_state s with h | ⟨_, _, queued, h⟩
    · exact answers.frame_same next h
    · exact answers.frame next (h ▸ keepsStores_of_same rfl rfl (by rw [queued]; exact Nat.le_succ _) rfl)
  | verdict seq outcome code =>
    rcases takeVerdict_state s seq outcome code with h | ⟨_, o, -, -, -, h⟩
    · exact answers.frame_same next h
    · have update := (stores_update seq (Blank.judge o code) s).trans (tends_withdraw _ seq).stores
      exact answers.frame next (h ▸ update.kept)
  | takeTrim => exact answers.frame next (keepsStores_takeTrim s)
  | forwardCount =>
    exact answers.count next (fun _ => same rfl rfl rfl rfl) fun c _ =>
      ((stores_angle s _).trans (stores_takeCount (stores_forwardWork c) .forward _)).kept
  | backwardCount =>
    exact answers.count next (fun _ => same rfl rfl rfl rfl) fun c _ =>
      ((stores_angle s _).trans (stores_takeCount (stores_backwardWork c) .backward _)).kept
  | indexCorrection =>
    exact answers.indexCorrection next (fun c z0 _ _ _ => (stores_correctIndex c z0 s).kept) fun c z0 n _ _ _ =>
      ⟨(((tends_choice s n).trans (tends_raiseCause .indexSlip _)).stores.trans (stores_correctIndex c z0 _)).kept,
        (((tends_choice s n).stores.trans (stores_correctIndex c z0 _)).trans (tends_raiseCause .indexSlip _).stores).kept⟩
  | discardedSample | haltTimerExpiry | crawlThreshold =>
    exact answers.event (f := fun s => { s with angle := _ }) next (same rfl rfl rfl rfl)
  | cymPulseEnd => exact answers.event next (same rfl rfl rfl rfl)
  | pulseEnd cell => exact answers.event (f := fun s => s.updCell cell _) next (same rfl rfl rfl rfl)
  | filterExpiry cell =>
    exact answers.event_if (c := fun s => s.cells[cell].filterTimer.isSome) next fun _ => (stores_qualify cell s).kept
  | standbyExpiry =>
    exact answers.event_if (c := fun s => s.standbyRuns) next fun runs =>
      (stores_standbyExpires (by simp [State.standbyRuns] at runs; exact runs.1)).kept
  | primeComplete =>
    exact answers.event_if (c := fun s => s.gum.state = .priming) next fun _ => (stores_primeCompletes s).kept
  | chordTaken =>
    exact answers.event_if (c := fun s => s.line.chordTimer.isSome) next fun _ => (stores_takeChord s).kept
  | pinChange cell high | levelInputChange cell high =>
    obtain ⟨_, h | ⟨angle, h⟩⟩ := pinGoes_state s cell high <;> exact Answerable.next next (h ▸ same rfl rfl rfl rfl)
  | operatorLineChange a b =>
    obtain ⟨_, _, _, -, h⟩ := operatorLines_state s a b
    exact Answerable.next next (h ▸ same rfl rfl rfl rfl)
  | portReset p => exact Answerable.next next (keepsStores_portReset p s)
  | rstnReset => exact Answerable.next next (keepsStores_rstnReset s)
  | powerOn rstnLow => exact Answerable.next next (keepsStores_powerOn rstnLow s)
  | emptyFrame | rstnRelease | portResetRelease => exact Answerable.next next (same rfl rfl rfl rfl)

theorem keepsStores_step {s t : State} (next : step s = .next t) : KeepsStores s t := by
  unfold step at next
  split at next
  · cases next
    exact (stores_tick s).kept
  · next rest _ =>
    have kept := keepsStores_exec next
    exact ⟨kept.buffers, kept.total, kept.locks, kept.batches⟩

/-! ### The registration unit's ranges (R67) -/

/-- The ranges of the registration unit's values. -/
def UnitInRange (r : Registration) : Prop :=
  r.missCount ≤ 255 ∧ r.residue.natAbs < 65536 ∧ r.trim.natAbs ≤ 32767 ∧ r.contributions ≤ 255 ∧ r.age ≤ 255

/-- What is left of a division with the quotient truncated toward zero. -/
theorem residue_lt (x : Int) : (x - x.tdiv 65536 * 65536).natAbs < 65536 := by
  have left : x - x.tdiv 65536 * 65536 = x.tmod 65536 := by rw [Int.tmod_def, Int.mul_comm]
  rw [left, Int.natAbs_tmod]
  exact Nat.mod_lt _ (by decide)

theorem zero_residue : (0 : Int).natAbs < 65536 := by decide

theorem zero_trim : (0 : Int).natAbs ≤ 32767 := by decide

theorem unitInRange_of_change {r r' : Registration} (h : RegistrationChange r r') (range : UnitInRange r) :
    UnitInRange r' := by
  obtain ⟨miss, residue, trim, contributions, age⟩ := range
  cases h with
  | enterOff => exact ⟨Nat.zero_le _, zero_residue, trim, contributions, age⟩
  | formatCheck k h =>
    unfold Registration.formatCheck
    dsimp only
    split
    · exact ⟨miss, residue, trim, contributions, age⟩
    · exact ⟨Nat.zero_le _, zero_residue, trim, contributions, age⟩
  | miss => exact ⟨Nat.min_le_left .., residue, trim, contributions, age⟩
  | mark => exact ⟨Nat.zero_le _, residue, trim, contributions, age⟩
  | correct e v => exact ⟨miss, residue_lt _, natAbs_clampTo .., Nat.min_le_left .., age⟩
  | headAdvance =>
    unfold Registration.headAdvance
    split
    · exact ⟨miss, residue, trim, contributions, Nat.min_le_left ..⟩
    · exact ⟨miss, residue, trim, contributions, age⟩
  | newConstants => exact ⟨Nat.zero_le _, zero_residue, zero_trim, Nat.zero_le _, Nat.zero_le _⟩
  | takeTrim => exact ⟨miss, residue, zero_trim, Nat.zero_le _, Nat.zero_le _⟩
  | reset => exact ⟨Nat.zero_le _, zero_residue, zero_trim, Nat.zero_le _, Nat.zero_le _⟩

theorem unitInRange_of_moves {s t : State} (h : RegistrationMoves s t) (range : UnitInRange s.registration) :
    UnitInRange t.registration := by
  unfold RegistrationMoves at h
  generalize t.registration = r at h ⊢
  induction h with
  | refl => exact range
  | tail _ change ih => exact unitInRange_of_change change ih

/-- Settles O56, by `keepsStores_step` and the moves of the registration unit, each of which keeps its ranges. -/
theorem stepKeepsStoresInRange : Obligations.StepKeepsStoresInRange := fun _ _ next =>
  have kept := keepsStores_step next
  ⟨kept.buffers, unitInRange_of_moves (moves_step next), kept.total, kept.locks, kept.batches⟩

end Sys2Proof.Proofs

/-!
PROOF. The prime (R93 to R97): it starts, it completes, and a count on the halted machine ends it, whatever else the
count's own work brings.
-/

namespace Sys2Proof.Proofs

open Sys2Proof Sys2Proof.Machine Sys2Proof.Safety Sys2Proof.Laws

/-! ### The gum circuit through a count's own work -/

theorem gumGoes_ite {c : Prop} [Decidable c] {s t u : State} (h : GumGoes s t) (g : GumGoes s u) :
    GumGoes s (if c then t else u) := by split <;> assumption

theorem gumGoes_angle (s : State) (a : AngleUnit) : GumGoes s { s with angle := a } := gumGoes_of_eq rfl (lineGoes_refl _)

theorem gumGoes_passAngles (low high : Nat) (s : State) : GumGoes s (s.passAngles low high) :=
  (goes_passAngles low high s).keeps.gum

theorem gumGoes_headAdvance (s : State) : GumGoes s s.headAdvance := by
  have ring : s.ringAdvance.gum = s.gum ∧ s.ringAdvance.line = s.line := by
    unfold State.ringAdvance
    dsimp only
    split <;> exact ⟨rfl, rfl⟩
  obtain ⟨gum, line⟩ := ring
  exact gumGoes_of_eq (t := s.headAdvance) gum (lineGoes_of_eq line)

theorem gumGoes_stepForward (p : Nat) (s : State) : GumGoes s (s.stepForward p) :=
  (gumGoes_angle s _).trans (gumGoes_passAngles ..)

theorem gumGoes_wrap (p : Nat) (s : State) : GumGoes s (s.wrap p) :=
  ((gumGoes_passAngles ..).trans (gumGoes_headAdvance _)).trans ((gumGoes_angle _ _).trans (gumGoes_passAngles ..))

theorem gumGoes_forwardWork (c : Constants) (s : State) : GumGoes s (s.forwardWork c) :=
  gumGoes_ite (gumGoes_angle s _) (gumGoes_ite (gumGoes_stepForward ..) (gumGoes_wrap ..))

theorem gumGoes_loseAll (s : State) : GumGoes s s.loseAll := by
  obtain ⟨_, whole⟩ := updateAll_eq s (Blank.lose .trackLost)
  unfold State.loseAll
  rw [whole]
  exact gumGoes_of_eq rfl (lineGoes_refl _)

theorem gumGoes_eitherOrder {a b : State → State} {matters : Bool} (ha : ∀ s, GumGoes s (a s))
    (hb : ∀ s, GumGoes s (b s)) (s : State) : GumGoes s (eitherOrder matters a b s) := by
  obtain ⟨n, h | h⟩ := eitherOrder_eq matters a b s
  · exact h ▸ (tends_choice s n).gum.trans ((ha _).trans (hb _))
  · exact h ▸ (tends_choice s n).gum.trans ((hb _).trans (ha _))

theorem gumGoes_backwardWork (c : Constants) (s : State) : GumGoes s (s.backwardWork c) :=
  gumGoes_ite (gumGoes_angle s _) (gumGoes_ite
    ((gumGoes_angle s _).trans (gumGoes_eitherOrder gumGoes_loseAll (fun s => (tends_raiseCause _ s).gum) _))
    (gumGoes_angle s _))

/-- A count on the halted machine ends a prime, whichever of its two effects comes first (R96, log 5). -/
theorem takeCount_ends_prime {work : State → State} (h : ∀ s, GumGoes s (work s)) (sense : CountSense) {s : State}
    (halted : s.motion = .halted) (priming : s.gum.state = .priming) :
    Rested (s.takeCount sense work).gum
    ∧ hasBit (s.takeCount sense work).line.events LineEvent.primeAborted.bit = true := by
  rw [State.takeCount, if_pos halted]
  obtain ⟨n, order | order⟩ := eitherOrder_eq (decide (s.gum.state = .priming) && !s.firedGum.isEmpty)
    State.gumLeavesHalt work (s.counted sense)
  · rw [order]
    obtain ⟨rested, aborted⟩ := gumLeavesHalt_ends (s := { s.counted sense with choice := n }) (.inl priming)
      fun other => absurd priming other
    exact ⟨(h _).rested rested, (h _).line.events _ aborted⟩
  · rw [order]
    rcases (h { s.counted sense with choice := n }).priming priming with still | ⟨rested, aborted⟩
    · exact gumLeavesHalt_ends (.inl still) fun other => absurd still other
    · exact gumLeavesHalt_ends (.inr rested) fun _ => aborted

/-! ### PRIME GUM and its end -/

section
variable {s : State}

theorem exec_primeGum (takes : Takes s .line) :
    exec .primeGum s = .next (s.primeGum.1.respond .line s.primeGum.2) := takeFrame_of_takes takes State.primeGum

theorem primeGum_wrongMode (mode : s.line.mode ≠ .armed) : s.primeGum = (s, .bare .wrongMode) := if_pos mode

theorem primeGum_noFormat (mode : s.line.mode = .armed) (off : s.gum.state = .off) :
    s.primeGum = (s, .bare .noFormat) := by
  rw [State.primeGum, if_neg (not_not.mpr mode), if_pos off]

theorem primeGum_notHalted (mode : s.line.mode = .armed) (on : s.gum.state ≠ .off) (turns : s.motion ≠ .halted) :
    s.primeGum = (s, .bare .notHalted) := by
  rw [State.primeGum, if_neg (not_not.mpr mode), if_neg on, if_pos turns]

theorem primeGum_accepted (mode : s.line.mode = .armed) (on : s.gum.state ≠ .off) (halted : s.motion = .halted)
    {k : Fin 4} (active : s.active = some k) :
    s.primeGum = ({ s with gum := { state := .priming, standbyTimer := 0
                                    primeTimer := some (s.slots[k].header.primeTime * 100000) } }, .bare .ok) := by
  have micros : s.primeMicros = s.slots[k].header.primeTime * 100000 := by simp only [State.primeMicros, active]
  rw [State.primeGum, if_neg (not_not.mpr mode), if_neg on, if_neg (not_not.mpr halted), micros]

theorem primeCompletes_eq (s : State) : s.primeCompletes
    = { s with
        gum := { state := .ready, standbyTimer := 0, primeTimer := none }
        line := { s.line with events := addBit s.line.events LineEvent.primeDone.bit } } := by
  have stays : s.gumTo .ready false
      = { s with gum := { state := .ready, standbyTimer := 0, primeTimer := none } } := by
    unfold State.gumTo
    exact if_neg (by simp)
  rw [State.primeCompletes, stays]
  rfl

end

/-- Settles O33, by the tests of R93 in order; a count on the halted machine ends the prime before its work. -/
theorem primeStartsAndCompletes : Obligations.PrimeStartsAndCompletes := by
  refine ⟨fun s takes => ⟨fun mode => ?_, fun mode off => ?_, fun mode on turns => ?_,
    fun mode on halted k active => ?_⟩, fun s running priming => ?_, fun s running written halted priming i counts => ?_⟩
  · rw [exec_primeGum takes, primeGum_wrongMode mode]; rfl
  · rw [exec_primeGum takes, primeGum_noFormat mode off]; rfl
  · rw [exec_primeGum takes, primeGum_notHalted mode on turns]; rfl
  · rw [exec_primeGum takes, primeGum_accepted mode on halted active]; rfl
  · change execPrimeComplete s = _
    rw [execPrimeComplete, takeEvent_running running, if_pos priming, primeCompletes_eq]
  · obtain ⟨c, written⟩ := Option.ne_none_iff_exists'.mp written
    have ends (sense : CountSense) {work : State → State} (h : ∀ s, GumGoes s (work s)) :=
      takeCount_ends_prime h sense (s := s.transition sense) halted priming
    simp only [List.mem_cons, List.not_mem_nil, or_false] at counts
    rcases counts with rfl | rfl
    · obtain ⟨⟨state, standby, prime⟩, aborted⟩ := ends .forward (gumGoes_forwardWork c)
      refine ⟨_, ?_, state, standby, prime, aborted⟩
      change execForwardCount s = _
      rw [execForwardCount, takeEvent_running running]
      simp only [written]
    · obtain ⟨⟨state, standby, prime⟩, aborted⟩ := ends .backward (gumGoes_backwardWork c)
      refine ⟨_, ?_, state, standby, prime, aborted⟩
      change execBackwardCount s = _
      rw [execBackwardCount, takeEvent_running running]
      simp only [written]

end Sys2Proof.Proofs

/-!
PROOF. The laws of the ring through a step (R23, R29, R40, R100, R137, R152). What a step does that neither moves the
ring's head nor empties it nor writes a format is one relation, `Course`; a head advance is the other thing a step's own
work does.
-/

namespace Sys2Proof.Proofs

open Sys2Proof Sys2Proof.Machine Sys2Proof.Safety Sys2Proof.Laws

/-! ### The course of the ring -/

/-- Each record stays at its place and evolves, at most one is created, no format is written, and the queue stays
lawful. -/
structure Course (s t : State) : Prop where
  constants : t.constants = s.constants
  slots : t.slots = s.slots
  records : ∀ k b, s.ring.at k = some b → ∃ b', t.ring.at k = some b' ∧ Evolves b b'
  gaps : ∀ k, k ≠ 0 → s.ring.at k = none → t.ring.at k = none
  creation : t.ring.nextSeq = s.ring.nextSeq ∧ (s.ring.at 0 = none → t.ring.at 0 = none)
    ∨ s.ring.at 0 = none ∧ t.ring.nextSeq = successor s.ring.nextSeq ∧ t.line.mode ≠ .offline
      ∧ ∃ b, t.ring.at 0 = some b ∧ b.seq = s.ring.nextSeq ∧ Clean b
  mode : t.line.mode = .offline → s.line.mode = .offline
  emptied : t.line.mode = .offline → s.notices = [] → t.notices = []
  /-- A slot that comes into use is VALID (R137, R146). -/
  inUse : ∀ k, t.inUse k = true → s.inUse k = true ∨ s.slots[k].state = .valid
  notices : Lawful s → NoticesLawful t

section
variable {s t u : State}

theorem Course.lineLength (h : Course s t) : t.lineLength = s.lineLength := by
  simp only [State.lineLength, h.constants]

theorem Course.order (h : Course s t) (order : SeqsInCutOrder s) : SeqsInCutOrder t := by
  refine seqsInCutOrder_of_course (fun k b placed => ?_) h.gaps ?_ order
  · obtain ⟨b', placed', evolved⟩ := h.records k b placed
    exact ⟨b', placed', evolved.seq⟩
  · rcases h.creation with same | ⟨gap, next, -, b, placed, seq, -⟩
    · exact .inl same
    · exact .inr ⟨gap, next, b, placed, seq⟩

theorem Course.inUseValid (h : Course s t) (valid : InUseValid s) : InUseValid t := fun k used => by
  rw [h.slots]
  exact (h.inUse k used).elim (valid k) id

theorem Course.lawful (h : Course s t) (lawful : Lawful s) : Lawful t :=
  ⟨h.order lawful.order, h.inUseValid lawful.inUse, singleInspect_of_slots h.slots lawful.inspect, h.notices lawful⟩

theorem Course.trans (h : Course s t) (g : Course t u) : Course s u where
  constants := g.constants.trans h.constants
  slots := g.slots.trans h.slots
  records k b placed := by
    obtain ⟨b', placed', evolved⟩ := h.records k b placed
    obtain ⟨b'', placed'', evolved'⟩ := g.records k b' placed'
    exact ⟨b'', placed'', evolved.trans evolved'⟩
  gaps k zero gap := g.gaps k zero (h.gaps k zero gap)
  creation := by
    rcases h.creation with ⟨next, stays⟩ | ⟨gap, next, on, b, placed, seq, clean⟩
    · rcases g.creation with ⟨next', stays'⟩ | ⟨gap, next', on, b, placed, seq, clean⟩
      · exact .inl ⟨next'.trans next, fun gap => stays' (stays gap)⟩
      · refine .inr ⟨?_, next ▸ next', on, b, placed, next ▸ seq, clean⟩
        by_contra filled
        obtain ⟨b0, placed0⟩ := Option.ne_none_iff_exists'.mp filled
        obtain ⟨b', placed', -⟩ := h.records 0 b0 placed0
        rw [gap] at placed'
        cases placed'
    · obtain ⟨b', placed', evolved⟩ := g.records 0 b placed
      rcases g.creation with ⟨next', -⟩ | ⟨gap', -⟩
      · exact .inr ⟨gap, next'.trans next, fun off => on (g.mode off), b', placed', evolved.seq.trans seq,
          evolved.clean clean⟩
      · rw [placed] at gap'
        cases gap'
  mode off := h.mode (g.mode off)
  emptied off empty := g.emptied off (h.emptied (g.mode off) empty)
  inUse k used := by
    rcases g.inUse k used with used | valid
    · exact h.inUse k used
    · rw [h.slots] at valid
      exact .inr valid
  notices lawful := g.notices (h.lawful lawful)

theorem course_of_flows (h : Flows s t) (notices : Lawful s → NoticesLawful t) : Course s t where
  constants := h.constants
  slots := h.slots
  records := h.records
  gaps := h.gaps
  creation := h.creation.imp_right fun ⟨gap, next, on, created⟩ => ⟨gap, next, fun off => on (h.mode.mp off), created⟩
  mode := h.mode.mp
  emptied off empty := h.notices (h.mode.mp off) empty
  inUse k used := .inl (h.inUse k used)
  notices := notices

theorem Goes.course (h : Goes s t) : Course s t := course_of_flows h.keeps.flows h.notices

theorem Tends.course (h : Tends s t) : Course s t := h.goes.course

/-- The ring, and the queue but for notices that leave, stay as they are. -/
theorem course_of_same (constants : t.constants = s.constants) (slots : t.slots = s.slots)
    (ring : ∀ k, t.ring.at k = s.ring.at k) (nextSeq : t.ring.nextSeq = s.ring.nextSeq)
    (mode : t.line.mode = .offline → s.line.mode = .offline) (notices : t.notices.Sublist s.notices)
    (marks : ∀ k i, s.carried k = true → (s.station k i).onMark = true → (t.station k i).onMark = true)
    (inUse : ∀ k, t.inUse k = true → s.inUse k = true ∨ s.slots[k].state = .valid) : Course s t := by
  have records (k : Fin 64) (b : Blank) (placed : s.ring.at k = some b) :
      ∃ b', t.ring.at k = some b' ∧ Evolves b b' := ⟨b, (ring k).trans placed, evolves_refl b⟩
  have gaps (k : Fin 64) (gap : s.ring.at k = none) : t.ring.at k = none := (ring k).trans gap
  refine ⟨constants, slots, records, fun k _ => gaps k, .inl ⟨nextSeq, gaps 0⟩, mode, fun _ empty => ?_, inUse,
    fun lawful => noticesLawful_of constants (fun k i _ => by rw [State.entry, slots]; rfl) records marks
      notices (fun n _ p b b' stood _ placed' waits => ?_) ?_
      lawful.notices⟩
  · rw [empty] at notices
    exact List.sublist_nil.mp notices
  · rw [ring p, (presentAt_some.mp stood).2] at placed'
    cases placed'
    exact waits
  · intro j k b b' placed placed'
    rw [ring j] at placed
    rw [ring k] at placed'
    exact ringDistinct_of_cutOrder lawful.order j k b b' placed placed'

/-- The states differ in nothing that a slot's use rests on. -/
theorem inUse_of_same (constants : t.constants = s.constants) (ring : ∀ k, t.ring.at k = s.ring.at k)
    (active : t.active = s.active) (pendingSlot : t.pendingSlot = s.pendingSlot)
    (opened : ∀ k i, (t.station k i).windowOpen = true → (s.station k i).windowOpen = true) {k : Fin 4}
    (used : t.inUse k = true) : s.inUse k = true := by
  have length : t.lineLength = s.lineLength := by simp only [State.lineLength, constants]
  have present (j : Fin 64) : t.presentAt j = s.presentAt j := by
    rw [State.presentAt, State.presentAt, length, ring j]
  rw [inUse_iff] at used ⊢
  rw [active, pendingSlot] at used
  rcases used with used | used | used | used
  · exact .inl used
  · exact .inr (.inl used)
  · obtain ⟨j, b, stood, fmt⟩ := carried_iff.mp used
    exact .inr (.inr (.inl (carried_iff.mpr ⟨j, b, present j ▸ stood, fmt⟩)))
  · obtain ⟨i, open'⟩ := anyOpen_iff.mp used
    exact .inr (.inr (.inr (anyOpen_iff.mpr ⟨i, opened k i open'⟩)))

/-- Ring entries, queue, stations and changeover stay. -/
theorem course_of_quiet (constants : t.constants = s.constants) (slots : t.slots = s.slots)
    (ring : ∀ k, t.ring.at k = s.ring.at k) (nextSeq : t.ring.nextSeq = s.ring.nextSeq)
    (mode : t.line.mode = .offline → s.line.mode = .offline) (notices : t.notices.Sublist s.notices)
    (stations : t.stations = s.stations) (active : t.active = s.active) (pendingSlot : t.pendingSlot = s.pendingSlot) :
    Course s t :=
  course_of_same constants slots ring nextSeq mode notices
    (fun k i _ mark => by rw [State.station, stations]; exact mark)
    fun _ used => .inl (inUse_of_same constants ring active pendingSlot
      (fun k i open' => by rw [State.station, stations] at open'; exact open') used)

end

theorem course_refl (s : State) : Course s s := (tends_refl s).course

theorem course_ite {c : Prop} [Decidable c] {s t u : State} (h : Course s t) (g : Course s u) :
    Course s (if c then t else u) := by split <;> assumption

theorem course_angle (s : State) (a : AngleUnit) : Course s { s with angle := a } :=
  course_of_quiet rfl rfl (fun _ => rfl) rfl id (List.Sublist.refl _) rfl rfl rfl

theorem course_choice (s : State) (n : Nat) : Course s { s with choice := n } := (tends_choice s n).course

theorem course_setP (p : Nat) (s : State) : Course s (s.setP p) := course_angle s _

theorem course_eitherOrder {a b : State → State} {matters : Bool} (ha : ∀ s, Course s (a s)) (hb : ∀ s, Course s (b s))
    (s : State) : Course s (eitherOrder matters a b s) := by
  obtain ⟨n, h | h⟩ := eitherOrder_eq matters a b s
  · exact h ▸ (course_choice s n).trans ((ha _).trans (hb _))
  · exact h ▸ (course_choice s n).trans ((hb _).trans (ha _))

/-! ### All records lost (R33) -/

theorem course_loseAll (s : State) : Course s s.loseAll := by
  have flows : Flows s (s.updateAll (Blank.lose .trackLost)) := flows_updateAll s _ (evolves_lose _)
  have each := at_updateAll s (Blank.lose .trackLost)
  obtain ⟨entries, whole⟩ := updateAll_eq s (Blank.lose .trackLost)
  have lost : s.loseAll = { s with
      ring := { s.ring with entries := entries }
      notices := s.notices.filter fun n => !(s.record n.seq).any fun b => !b.disposition.final } := by
    rw [State.loseAll, whole]
  rw [whole] at flows each
  rw [lost]
  refine course_of_flows (flows.trans (flows_of_parts (works_notices _ _) rfl rfl rfl rfl Iff.rfl
    fun _ empty => ?_)) fun lawful => ?_
  · rw [show s.notices = [] from empty]
    rfl
  · have distinct := ringDistinct_of_cutOrder (seqsInCutOrder_of_flows flows lawful.order)
    refine noticesLawful_of ?_ ?_ flows.records (fun _ _ _ mark => mark) List.filter_sublist
      (fun n queued p b b' stood seq placed' waits => ?_) distinct lawful.notices
    · rfl
    · exact fun _ _ _ => rfl
    obtain ⟨within, placed⟩ := presentAt_some.mp stood
    have found : s.record n.seq = some b := by
      rw [record_of_positionOf (positionOf_eq_some stood seq fun j c h h' =>
        ringDistinct_of_cutOrder lawful.order j p c b (presentAt_some.mp h).2 placed (h'.trans seq.symm)), stood]
    have final : b.disposition.final = true := by simpa [found] using (List.mem_filter.mp queued).2
    have at' := (each p).symm.trans placed'
    rw [if_pos within, placed, Option.map_some, lose_final final] at at'
    cases at'
    exact waits

theorem course_trackLost (s : State) : Course s s.trackLost :=
  course_eitherOrder course_loseAll (fun s => (tends_raiseCause _ s).course) s

theorem course_backwardWork (c : Constants) (s : State) : Course s (s.backwardWork c) :=
  course_ite (course_setP _ s) (course_ite ((course_angle s _).trans (course_trackLost _)) (course_angle s _))

/-! ### With a head advance -/

/-- What the own work of a count or an index correction does: a course, with at most one head advance within it. -/
def Advances (s t : State) : Prop := Course s t ∨ ∃ u, Course s u ∧ Course u.headAdvance t

section
variable {s t u : State}

theorem Course.advances (h : Course s t) : Advances s t := .inl h

theorem Advances.after (h : Course s t) (g : Advances t u) : Advances s u :=
  g.imp h.trans fun ⟨v, before, after⟩ => ⟨v, h.trans before, after⟩

theorem Advances.before (h : Advances s t) (g : Course t u) : Advances s u :=
  h.imp (fun h => h.trans g) fun ⟨v, before, after⟩ => ⟨v, before, after.trans g⟩

end

theorem advances_ite {c : Prop} [Decidable c] {s t u : State} (h : Advances s t) (g : Advances s u) :
    Advances s (if c then t else u) := by split <;> assumption

theorem course_passAngles (low high : Nat) (s : State) : Course s (s.passAngles low high) :=
  (goes_passAngles low high s).course

theorem course_stepForward (p : Nat) (s : State) : Course s (s.stepForward p) :=
  (course_setP p s).trans (course_passAngles ..)

theorem advances_wrap (p : Nat) (s : State) : Advances s (s.wrap p) :=
  .inr ⟨_, course_passAngles .., (course_setP p _).trans (course_passAngles ..)⟩

theorem advances_forwardWork (c : Constants) (s : State) : Advances s (s.forwardWork c) :=
  advances_ite (course_angle s _).advances (advances_ite (course_stepForward ..).advances (advances_wrap ..))

theorem advances_correctIndex (c : Constants) (z0 : Nat) (s : State) : Advances s (s.correctIndex c z0) :=
  advances_ite (course_refl s).advances
    (advances_ite (advances_ite (course_stepForward ..).advances (advances_wrap ..))
      (advances_ite (course_setP z0 s).advances (course_angle s _).advances))

theorem advances_takeCount {work : State → State} (h : ∀ s, Advances s (work s)) (sense : CountSense) (s : State) :
    Advances s (s.takeCount sense work) := by
  have counted : Course s (s.counted sense) := course_angle s _
  unfold State.takeCount
  split
  · obtain ⟨n, order | order⟩ := eitherOrder_eq (decide (s.gum.state = .priming) && !s.firedGum.isEmpty)
      State.gumLeavesHalt work (s.counted sense)
    · rw [order]
      exact .after ((counted.trans (course_choice _ n)).trans (tends_gumLeavesHalt _).course) (h _)
    · rw [order]
      exact (Advances.after (counted.trans (course_choice _ n)) (h _)).before (tends_gumLeavesHalt _).course
  · exact .after counted (h _)

/-! ### What a head advance keeps -/

section
variable {s : State}

theorem lineLength_range (range : ConstantsInRange s) : 4 ≤ s.lineLength ∧ s.lineLength ≤ 64 := by
  unfold State.lineLength
  split
  · next c written =>
    obtain ⟨-, -, low, high, -⟩ := range c written
    exact ⟨low, high⟩
  · decide

theorem headAdvance_constants (s : State) : s.headAdvance.constants = s.constants := (headAdvance_spec s).1.constants

theorem headAdvance_slots (s : State) : s.headAdvance.slots = s.slots := (headAdvance_spec s).1.slots

theorem headAdvance_lineLength (s : State) : s.headAdvance.lineLength = s.lineLength := by
  simp only [State.lineLength, headAdvance_constants]

theorem headAdvance_mode (s : State) : s.headAdvance.line.mode = s.line.mode := by
  have ring : s.ringAdvance.line = s.line := by
    unfold State.ringAdvance
    dsimp only
    split <;> rfl
  exact congrArg LineControl.mode ring

theorem headAdvance_changeover (s : State) :
    s.headAdvance.active = s.active ∧ s.headAdvance.pendingSlot = s.pendingSlot := by
  have ring : s.ringAdvance.active = s.active ∧ s.ringAdvance.pendingSlot = s.pendingSlot := by
    unfold State.ringAdvance
    dsimp only
    split <;> exact ⟨rfl, rfl⟩
  exact ring

theorem headAdvance_windowOpen {k : Fin 4} {i : Fin 16} (open' : (s.headAdvance.station k i).windowOpen = true) :
    (s.station k i).windowOpen = true := by
  have ring : s.ringAdvance.stations = s.stations := by
    unfold State.ringAdvance
    dsimp only
    split <;> rfl
  have pruned {u : State} {k : Fin 4} {i : Fin 16} (open' : (u.prune.station k i).windowOpen = true) :
      (u.station k i).windowOpen = true := by
    rw [prune_station] at open'
    split at open'
    · exact open'
    · cases open'
  have advanced {u : State} {k : Fin 4} {i : Fin 16} (open' : (u.stationsAdvance.station k i).windowOpen = true) :
      (u.station k i).windowOpen = true := by
    unfold State.stationsAdvance at open'
    simp only [State.station, mapSlots_stations, fin_getElem_mapTable] at open'
    split at open'
    · rw [fin_getElem_mapTable] at open'
      exact open'
    · exact open'
  have before := pruned (advanced open')
  simp only [State.station] at before ⊢
  exact (congrArg (fun st : Vector (Vector Station 16) 4 => st[k][i].windowOpen) ring).symm.trans before

/-- A record that is present after a head advance stood one position before it. -/
theorem headAdvance_present (h1 : 1 ≤ s.lineLength) (h64 : s.lineLength ≤ 64) {q : Fin 64} {b : Blank}
    (present : s.headAdvance.presentAt q = some b) :
    ∃ p : Fin 64, p.val + 1 < s.lineLength ∧ q.val = p.val + 1 ∧ s.presentAt p = some b := by
  obtain ⟨within, placed⟩ := presentAt_some.mp present
  obtain ⟨first, next⟩ := headAdvance_at h1 h64
  rw [headAdvance_lineLength] at within
  cases q using Fin.cases with
  | zero => cases first.symm.trans placed
  | succ k =>
    rw [next k] at placed
    split at placed
    · cases placed
    · rw [Fin.val_succ] at within
      exact ⟨k.castSucc, by simpa using within, by simp, presentAt_some.mpr ⟨by simp; omega, placed⟩⟩

theorem headAdvance_entry_at (h1 : 1 ≤ s.lineLength) (h64 : s.lineLength ≤ 64) {q : Fin 64} {b : Blank}
    (placed : s.headAdvance.ring.at q = some b) : ∃ p : Fin 64, s.ring.at p = some b := by
  obtain ⟨first, next⟩ := headAdvance_at h1 h64
  cases q using Fin.cases with
  | zero => cases first.symm.trans placed
  | succ k =>
    rw [next k] at placed
    split at placed
    · cases placed
    · exact ⟨_, placed⟩

theorem outsideLineGaps_headAdvance (h1 : 1 ≤ s.lineLength) (h64 : s.lineLength ≤ 64) (outside : OutsideLineGaps s) :
    OutsideLineGaps s.headAdvance := by
  intro q beyond
  rw [headAdvance_lineLength] at beyond
  obtain ⟨first, next⟩ := headAdvance_at h1 h64
  cases q using Fin.cases with
  | zero => exact first
  | succ k =>
    rw [next k]
    split
    · rfl
    · rw [Fin.val_succ] at beyond
      exact outside _ (by simp; omega)

theorem offlineEmpty_headAdvance (h1 : 1 ≤ s.lineLength) (h64 : s.lineLength ≤ 64) (empty : OfflineEmpty s) :
    OfflineEmpty s.headAdvance := by
  intro off
  rw [headAdvance_mode] at off
  obtain ⟨ring, notices⟩ := empty off
  refine ⟨fun q => ?_, by rw [headAdvance_notices, notices]; rfl⟩
  cases at' : s.headAdvance.ring.at q with
  | none => rfl
  | some b =>
    obtain ⟨p, placed⟩ := headAdvance_entry_at h1 h64 at'
    cases (ring p).symm.trans placed

theorem recordsClean_headAdvance (h1 : 1 ≤ s.lineLength) (h64 : s.lineLength ≤ 64) (clean : RecordsClean s) :
    RecordsClean s.headAdvance := fun _ b placed =>
  have ⟨p, placed'⟩ := headAdvance_entry_at h1 h64 placed
  clean p b placed'

theorem inUse_headAdvance (h1 : 1 ≤ s.lineLength) (h64 : s.lineLength ≤ 64) {k : Fin 4}
    (used : s.headAdvance.inUse k = true) : s.inUse k = true := by
  obtain ⟨active, pendingSlot⟩ := headAdvance_changeover s
  rw [inUse_iff] at used ⊢
  rw [active, pendingSlot] at used
  rcases used with used | used | used | used
  · exact .inl used
  · exact .inr (.inl used)
  · obtain ⟨q, b, present, fmt⟩ := carried_iff.mp used
    obtain ⟨p, -, -, stood⟩ := headAdvance_present h1 h64 present
    exact .inr (.inr (.inl (carried_iff.mpr ⟨p, b, stood, fmt⟩)))
  · obtain ⟨i, open'⟩ := anyOpen_iff.mp used
    exact .inr (.inr (.inr (anyOpen_iff.mpr ⟨i, headAdvance_windowOpen open'⟩)))

theorem noticesLawful_headAdvance (h1 : 1 ≤ s.lineLength) (h64 : s.lineLength ≤ 64) (lawful : NoticesLawful s) :
    NoticesLawful s.headAdvance := by
  have queued {n : Notice} (h : n ∈ s.headAdvance.notices) : n ∈ s.notices ∧
      ∀ b, s.ring.at (Fin.ofNat 64 (s.lineLength - 1)) = some b → n.seq ≠ b.seq := by
    rw [headAdvance_notices] at h
    obtain ⟨old, other⟩ := List.mem_filter.mp h
    exact ⟨old, fun b placed => by rw [placed] at other; simpa using other⟩
  refine ⟨fun n h => ?_, ?_, fun n h q b present seq i e entry kind => ?_⟩
  · obtain ⟨old, other⟩ := queued h
    obtain ⟨p, b, stood, seq, rest⟩ := lawful.present n old
    obtain ⟨within, placed⟩ := presentAt_some.mp stood
    have further : p.val + 1 < s.lineLength := by
      by_contra last
      refine other b ?_ seq.symm
      rwa [show (Fin.ofNat 64 (s.lineLength - 1)) = p from Fin.ext (by simp [Fin.ofNat]; omega)]
    obtain ⟨-, shifts⟩ := headAdvance_presentAt h1 h64
    exact ⟨p + 1, b, (shifts p further).trans stood, seq, rest⟩
  · rw [headAdvance_notices]
    refine (lawful.cutOrder.sublist List.filter_sublist).imp fun {m n} order p q b b' hp seq hq seq' => ?_
    obtain ⟨p', -, shiftP, stood⟩ := headAdvance_present h1 h64 hp
    obtain ⟨q', -, shiftQ, stood'⟩ := headAdvance_present h1 h64 hq
    have before := order p' q' b b' stood seq stood' seq'
    exact Fin.lt_def.mpr (by have := Fin.lt_def.mp before; omega)
  · obtain ⟨old, -⟩ := queued h
    obtain ⟨p, -, shift, stood⟩ := headAdvance_present h1 h64 present
    rw [State.entry, headAdvance_slots] at entry
    refine .inl (Fin.lt_def.mpr ?_)
    rcases lawful.inspected n old p b stood seq i e entry kind with past | ⟨here, -⟩
    · have := Fin.lt_def.mp past
      omega
    · rw [here]
      omega

end

end Sys2Proof.Proofs

/-!
PROOF. COMMIT FORMAT and its nine checks (R140): each check says of the format's table what its row does.
-/

namespace Sys2Proof.Proofs

open Sys2Proof Sys2Proof.Machine Sys2Proof.Safety Sys2Proof.Laws

/-! ### The entries of a format -/

section
variable {f : Format} {kind : Kind}

theorem entries_eq_finRange (f : Format) :
    f.entries = (List.finRange 16).filterMap fun i => f.table[i] := by
  have list : f.table.toList = (List.finRange 16).map fun i => f.table[i] := by
    refine List.ext_getElem (by simp) fun n h _ => ?_
    simp
  rw [Format.entries, list, List.filterMap_map]
  rfl

theorem mem_ofKind {e : Entry} : e ∈ f.ofKind kind ↔ (∃ i : Fin 16, f.table[i] = some e) ∧ e.kind = kind := by
  rw [Format.ofKind, List.mem_filter, mem_entries, decide_eq_true_eq]

theorem ofKind_eq_finRange (f : Format) (kind : Kind) :
    f.ofKind kind = (List.finRange 16).filterMap fun i => f.table[i].filter fun e => e.kind = kind := by
  rw [Format.ofKind, entries_eq_finRange, List.filter_filterMap]

/-- At most one entry of a kind. -/
def SingleOf (f : Format) (kind : Kind) : Prop :=
  ∀ (i j : Fin 16) (a b : Entry), f.table[i] = some a → f.table[j] = some b → a.kind = kind → b.kind = kind → i = j

theorem length_filterMap_le_one {α β : Type} {g : α → Option β} {l : List α} (nodup : l.Nodup) :
    (l.filterMap g).length ≤ 1 ↔ ∀ i ∈ l, ∀ j ∈ l, (g i).isSome = true → (g j).isSome = true → i = j := by
  induction l with
  | nil => simp
  | cons a l ih =>
    obtain ⟨fresh, rest⟩ := List.nodup_cons.mp nodup
    cases first : g a with
    | none =>
      rw [List.filterMap_cons_none first, ih rest]
      simp [first]
    | some x =>
      rw [List.filterMap_cons_some first, List.length_cons]
      constructor
      · intro short
        have none' : ∀ j ∈ l, g j = none := by
          rw [← List.filterMap_eq_nil_iff, ← List.length_eq_zero_iff]
          omega
        have here {j : α} (hj : j ∈ a :: l) (present : (g j).isSome = true) : j = a := by
          rcases List.mem_cons.mp hj with rfl | hj
          · rfl
          · simp [none' j hj] at present
        exact fun i hi j hj pi pj => (here hi pi).trans (here hj pj).symm
      · intro alone
        have none' : l.filterMap g = [] := by
          rw [List.filterMap_eq_nil_iff]
          intro j hj
          by_contra present
          have same := alone a (.head _) j (.tail _ hj) (by simp [first]) (Option.isSome_iff_ne_none.mpr present)
          exact fresh (same ▸ hj)
        rw [none']
        exact le_refl 1

theorem length_ofKind_le_one : (f.ofKind kind).length ≤ 1 ↔ SingleOf f kind := by
  rw [ofKind_eq_finRange, length_filterMap_le_one (List.nodup_finRange 16)]
  constructor
  · intro alone i j a b hi hj ka kb
    exact alone i (List.mem_finRange i) j (List.mem_finRange j) (by simp [hi, ka]) (by simp [hj, kb])
  · intro single i _ j _ hi hj
    obtain ⟨a, ha⟩ := Option.isSome_iff_exists.mp hi
    obtain ⟨b, hb⟩ := Option.isSome_iff_exists.mp hj
    obtain ⟨ea, ka⟩ := Option.filter_eq_some_iff.mp ha
    obtain ⟨eb, kb⟩ := Option.filter_eq_some_iff.mp hb
    exact single i j a b ea eb (by simpa using ka) (by simpa using kb)

theorem length_ofKind_eq_one :
    (f.ofKind kind).length = 1 ↔ SingleOf f kind ∧ ∃ i e, f.table[(i : Fin 16)] = some e ∧ e.kind = kind := by
  rw [← length_ofKind_le_one]
  constructor
  · intro one
    obtain ⟨e, only⟩ := List.length_eq_one_iff.mp one
    obtain ⟨⟨i, entry⟩, ofKind⟩ := mem_ofKind.mp (only ▸ List.mem_singleton_self e : e ∈ f.ofKind kind)
    exact ⟨one.le, i, e, entry, ofKind⟩
  · rintro ⟨short, i, e, entry, ofKind⟩
    have some' := List.length_pos_of_mem (mem_ofKind.mpr ⟨⟨i, entry⟩, ofKind⟩)
    omega

theorem ofKind_all {p : Entry → Bool} :
    (f.ofKind kind).all p = true ↔ ∀ i e, f.table[(i : Fin 16)] = some e → e.kind = kind → p e = true := by
  simp only [List.all_eq_true, mem_ofKind, and_imp, forall_exists_index]
  exact ⟨fun h i e entry => h e i entry, fun h e i entry => h i e entry⟩

theorem ofKind_isEmpty :
    (f.ofKind kind).isEmpty = false ↔ ∃ i e, f.table[(i : Fin 16)] = some e ∧ e.kind = kind := by
  rw [← Bool.not_eq_true, List.isEmpty_iff, List.eq_nil_iff_forall_not_mem]
  simp only [mem_ofKind, not_forall, not_not]
  exact ⟨fun ⟨e, ⟨i, entry⟩, ofKind⟩ => ⟨i, e, entry, ofKind⟩, fun ⟨i, e, entry, ofKind⟩ => ⟨e, ⟨i, entry⟩, ofKind⟩⟩

/-! ### The checks -/

theorem check1_iff : f.check1 = true
    ↔ SingleOf f .feed ∧ ∃ i e, f.table[(i : Fin 16)] = some e ∧ e.kind = .feed ∧ e.position = 0 := by
  rw [Format.check1, Bool.and_eq_true, decide_eq_true_eq, length_ofKind_eq_one, ofKind_all]
  constructor
  · rintro ⟨⟨single, i, e, entry, feed⟩, first⟩
    exact ⟨single, i, e, entry, feed, Fin.ext (by simpa using first i e entry feed)⟩
  · rintro ⟨single, i, e, entry, feed, first⟩
    refine ⟨⟨single, i, e, entry, feed⟩, fun j e' entry' feed' => ?_⟩
    obtain rfl := single i j e e' entry entry' feed feed'
    cases entry.symm.trans entry'
    simp [first]

theorem check2_iff : f.check2 = true ↔ SingleOf f .mark
    ∧ (f.header.regOn = true ↔ ∃ i e, f.table[(i : Fin 16)] = some e ∧ e.kind = .mark)
    ∧ ∀ i e, f.table[(i : Fin 16)] = some e → e.kind = .mark → e.position = 0 := by
  have first : ((f.ofKind .mark).all fun e => decide (e.position.val = 0)) = true
      ↔ ∀ i e, f.table[(i : Fin 16)] = some e → e.kind = .mark → e.position = 0 := by
    rw [ofKind_all]
    simp only [decide_eq_true_eq, Fin.ext_iff, Fin.val_zero]
  have count : (f.ofKind .mark).length = (if f.header.regOn then 1 else 0) ↔ SingleOf f .mark
      ∧ (f.header.regOn = true ↔ ∃ i e, f.table[(i : Fin 16)] = some e ∧ e.kind = .mark) := by
    cases f.header.regOn with
    | true => simp only [if_true, length_ofKind_eq_one, true_iff]
    | false =>
      simp only [Bool.false_eq_true, if_false, false_iff, ← ofKind_isEmpty, Bool.not_eq_false, List.isEmpty_iff,
        ← length_ofKind_le_one, List.length_eq_zero_iff]
      exact ⟨fun none' => ⟨by simp [none'], none'⟩, And.right⟩
  rw [Format.check2, Bool.and_eq_true, decide_eq_true_eq, count, first, and_assoc]

theorem check3_iff : f.check3 = true
    ↔ (∀ i e, f.table[(i : Fin 16)] = some e → e.kind = .feed ∨ e.kind = .mark → e.onAngle.toNat < e.offAngle.toNat)
      ∧ ∀ i j a b, f.table[(i : Fin 16)] = some a → f.table[(j : Fin 16)] = some b → a.kind = .feed → b.kind = .mark →
        a.offAngle.toNat ≤ b.offAngle.toNat := by
  simp only [Format.check3, Bool.and_eq_true, ofKind_all, decide_eq_true_eq]
  constructor
  · rintro ⟨feed, mark⟩
    exact ⟨fun i e entry kind => kind.elim (feed i e entry) fun k => (mark i e entry k).1,
      fun i j a b ha hb ka kb => (mark j b hb kb).2 i a ha ka⟩
  · rintro ⟨windows, order⟩
    exact ⟨fun i e entry kind => windows i e entry (.inl kind),
      fun j b hb kb => ⟨windows j b hb (.inr kb), fun i a ha ka => order i j a b ha hb ka kb⟩⟩

theorem check4_iff : f.check4 = true ↔ SingleOf f .inspect ∧ SingleOf f .reject ∧ SingleOf f .count ∧ SingleOf f .kick
    ∧ SingleOf f .box ∧ (f.ofKind .gum).length ≤ 4 := by
  simp only [Format.check4, Bool.and_eq_true, List.all_cons, List.all_nil, decide_eq_true_eq, length_ofKind_le_one,
    and_true, and_assoc]

theorem ordered_iff {a b : Kind} {rel : Nat → Nat → Bool} : f.ordered a b rel = true
    ↔ ∀ i j x y, f.table[(i : Fin 16)] = some x → f.table[(j : Fin 16)] = some y → x.kind = a → y.kind = b →
      rel x.position.val y.position.val = true := by
  simp only [Format.ordered, ofKind_all]
  exact ⟨fun h i j x y hx hy kx ky => h i x hx kx j y hy ky, fun h i x hx kx j y hy ky => h i j x y hx hy kx ky⟩

theorem check5_iff : f.check5 = true
    ↔ ∀ i j a b, f.table[(i : Fin 16)] = some a → f.table[(j : Fin 16)] = some b →
      (a.kind = .inspect → b.kind = .reject → a.position < b.position)
      ∧ (a.kind = .reject → b.kind = .count → a.position < b.position)
      ∧ (a.kind = .count → b.kind = .kick → a.position ≤ b.position)
      ∧ (a.kind = .count → b.kind = .box → a.position ≤ b.position) := by
  simp only [Format.check5, Bool.and_eq_true, ordered_iff, decide_eq_true_eq, Fin.lt_def, Fin.le_def]
  constructor
  · rintro ⟨⟨⟨inspect, reject⟩, kick⟩, box⟩ i j a b ha hb
    exact ⟨inspect i j a b ha hb, reject i j a b ha hb, kick i j a b ha hb, box i j a b ha hb⟩
  · intro h
    exact ⟨⟨⟨fun i j a b ha hb => (h i j a b ha hb).1, fun i j a b ha hb => (h i j a b ha hb).2.1⟩,
      fun i j a b ha hb => (h i j a b ha hb).2.2.1⟩, fun i j a b ha hb => (h i j a b ha hb).2.2.2⟩

theorem check6_iff : f.check6 = true
    ↔ ((∃ i e, f.table[(i : Fin 16)] = some e ∧ e.kind = .inspect)
      → ∃ i e, f.table[(i : Fin 16)] = some e ∧ e.kind = .reject) := by
  rw [← ofKind_isEmpty, ← ofKind_isEmpty, Format.check6]
  cases (f.ofKind .inspect).isEmpty <;> cases (f.ofKind .reject).isEmpty <;> simp

theorem serves_iff {m : CellMode} : m.serves kind = true
    ↔ if kind.isOutput then m = .windowOut ∨ m = .pulseOut else m = .edgeIn := by
  unfold CellMode.serves
  split
  · cases m <;> simp [CellMode.isOutput]
  · exact decide_eq_true_iff

theorem check7_iff {s : State} : s.check7 f = true ↔ ∃ c, s.constants = some c ∧ ∀ i e, f.table[(i : Fin 16)] = some e →
    e.position.val < c.p
    ∧ (if e.kind.isOutput then s.cells[e.cell].config.mode = .windowOut ∨ s.cells[e.cell].config.mode = .pulseOut
       else s.cells[e.cell].config.mode = .edgeIn) := by
  cases written : s.constants with
  | none => simp [State.check7, written]
  | some c =>
    simp only [State.check7, written, List.all_eq_true, mem_entries, Bool.and_eq_true, decide_eq_true_eq, serves_iff,
      Option.some.injEq, exists_eq_left', forall_exists_index]
    exact ⟨fun h i e entry => h e i entry, fun h e i entry => h i e entry⟩

theorem check8_iff : f.check8 = true
    ↔ ∀ i j a b, f.table[(i : Fin 16)] = some a → f.table[(j : Fin 16)] = some b → a.cell = b.cell → i = j := by
  rw [Format.check8, decide_eq_true_eq, entries_eq_finRange, List.Nodup, List.pairwise_map, List.pairwise_filterMap]
  constructor
  · intro apart i j a b ha hb same
    by_contra other
    have symm := @List.Pairwise.forall _ _ _ ⟨fun i j h a ha b hb same => h b hb a ha same.symm⟩ apart
    exact symm (List.mem_finRange i) (List.mem_finRange j) other a ha b hb same
  · intro h
    exact (List.nodup_finRange 16).pairwise_of_forall_ne fun i _ j _ other a ha b hb same =>
      other (h i j a b ha hb same)

theorem check9_iff : f.check9 = true ↔ ∃ i e, f.table[(i : Fin 16)] = some e ∧ e.enabled = true := by
  simp only [Format.check9, List.any_eq_true, mem_entries]
  exact ⟨fun ⟨e, ⟨i, entry⟩, on⟩ => ⟨i, e, entry, on⟩, fun ⟨i, e, entry, on⟩ => ⟨e, ⟨i, entry⟩, on⟩⟩

end

/-! ### The command -/

section
variable {s : State} {p : Port} {slot : Byte} {k : Fin 4}

theorem exec_commitFormat (takes : Takes s p) :
    exec (.commitFormat p slot) s = .next ((s.commitFormat p slot).1.respond p (s.commitFormat p slot).2) :=
  takeFrame_of_takes takes (State.commitFormat p slot)

theorem commitFormat_of_le (h : 4 ≤ slot.toNat) : s.commitFormat p slot = (s, .bare .range) := by
  rw [State.commitFormat, indexOf_of_le h]

theorem commitFormat_notHolder (named : indexOf 4 slot = some k) (other : s.locks[boundLock k].heldBy p = false) :
    s.commitFormat p slot = (s, .bare .notHolder) := by
  simp only [State.commitFormat, named, other, Bool.not_false, if_true]

theorem commitFormat_fails (named : indexOf 4 slot = some k) (holds : s.locks[boundLock k].heldBy p = true) {n : Byte}
    (fails : s.firstFailure s.slots[k] = some n) :
    s.commitFormat p slot = (s, { status := .formatError, payload := [n] }) := by
  simp only [State.commitFormat, named, holds, fails, Bool.not_true, Bool.false_eq_true, if_false]

theorem commitFormat_passes (named : indexOf 4 slot = some k) (holds : s.locks[boundLock k].heldBy p = true)
    (passes : s.firstFailure s.slots[k] = none) :
    s.commitFormat p slot = (s.putSlot k { s.slots[k] with state := .valid }, .bare .ok) := by
  simp only [State.commitFormat, named, holds, passes, Bool.not_true, Bool.false_eq_true, if_false]

/-- The checks of a format by their place in the table, without their numbers. -/
def State.checkResults (s : State) (f : Format) : List Bool :=
  [f.check1, f.check2, f.check3, f.check4, f.check5, f.check6, s.check7 f, f.check8, f.check9]

theorem commitChecks_eq (s : State) (f : Format) : s.commitChecks f
    = (State.checkResults s f).zipIdx.map fun c => (BitVec.ofNat 8 (c.2 + 1), c.1) := rfl

theorem firstFailure_none_iff {f : Format} :
    s.firstFailure f = none ↔ ∀ m < 9, (State.checkResults s f)[m]? = some true := by
  have length : (State.checkResults s f).length = 9 := rfl
  rw [State.firstFailure, Option.map_eq_none_iff, List.find?_eq_none, commitChecks_eq]
  constructor
  · intro h m hm
    have there : (State.checkResults s f)[m]? = some (State.checkResults s f)[m] := List.getElem?_eq_getElem _
    have listed : ((State.checkResults s f)[m], m) ∈ (State.checkResults s f).zipIdx :=
      List.mem_zipIdx_iff_getElem?.mpr there
    have passes := h _ (List.mem_map.mpr ⟨_, listed, rfl⟩)
    rw [there]
    simpa using passes
  · intro h c hc
    obtain ⟨⟨x, m⟩, hx, rfl⟩ := List.mem_map.mp hc
    have there := List.mem_zipIdx_iff_getElem?.mp hx
    obtain ⟨short, -⟩ := List.getElem?_eq_some_iff.mp there
    rw [h m (length ▸ short)] at there
    cases there
    simp

theorem firstFailure_some {f : Format} {n : Nat} (fails : (State.checkResults s f)[n]? = some false)
    (before : ∀ m < n, (State.checkResults s f)[m]? = some true) :
    s.firstFailure f = some (BitVec.ofNat 8 (n + 1)) := by
  obtain ⟨short, at'⟩ := List.getElem?_eq_some_iff.mp fails
  have first : ((State.checkResults s f).zipIdx.map fun c => (BitVec.ofNat 8 (c.2 + 1), c.1)).find? (fun c => !c.2)
      = some (BitVec.ofNat 8 (n + 1), false) := by
    rw [List.find?_eq_some_iff_getElem]
    refine ⟨rfl, n, by simpa using short, by simp [at'], fun m hm => ?_⟩
    have passes := before m hm
    rw [List.getElem?_eq_getElem (hm.trans short)] at passes
    simpa using Option.some.inj passes
  rw [State.firstFailure, commitChecks_eq, first]
  rfl

end

/-- Settles O41, by the first failing check; each check is tied to its row by `check1_iff` to `check9_iff`. -/
theorem commitFormatChecks : Obligations.CommitFormatChecks := by
  refine ⟨fun p slot s takes => ⟨fun none' => ?_, fun h => ?_⟩, fun f s => ?_⟩
  · rw [exec_commitFormat takes, commitFormat_of_le none']; rfl
  · have named : indexOf 4 slot = some ⟨slot.toNat, h⟩ := indexOf_of_lt h
    intro k f holds checks
    refine ⟨fun other => ?_, fun held n fails before => ?_, fun held passes => ?_⟩
    · have free : s.locks[boundLock k].heldBy p = false := by
        rw [← Bool.not_eq_true]
        exact mt heldBy_iff.mp other
      rw [exec_commitFormat takes, commitFormat_notHolder named free]; rfl
    · rw [exec_commitFormat takes, commitFormat_fails named (heldBy_iff.mpr held) (firstFailure_some fails before)]
    · rw [exec_commitFormat takes, commitFormat_passes named (heldBy_iff.mpr held) (firstFailure_none_iff.mpr passes)]
      rfl
  · exact ⟨check1_iff, check2_iff, check3_iff, check4_iff, check5_iff, check6_iff, check7_iff, check8_iff, check9_iff⟩

end Sys2Proof.Proofs

/-!
PROOF. The laws of the ring through every step (R23, R29, R31, R40, R100, R137, R152): a step runs on with at most one head
advance, empties the ring, or writes a format that is not in use; each of the three keeps the laws.
-/

namespace Sys2Proof.Proofs

open Sys2Proof Sys2Proof.Machine Sys2Proof.Safety Sys2Proof.Laws

/-! ### What a command does to the ring -/

/-- The ring and the queue are emptied, and no slot comes into use. -/
structure Empties (s t : State) : Prop where
  ring : OfflineEmpty s → ∀ k, t.ring.at k = none
  notices : OfflineEmpty s → t.notices = []
  nextSeq : s.ring.nextSeq ≠ 0 → t.ring.nextSeq ≠ 0
  inUse : OutsideLineGaps s → ∀ k, t.inUse k = true → s.inUse k = true ∧ t.slots[k] = s.slots[k]
  slots : ∀ k : Fin 4, t.slots[k] = s.slots[k] ∨ t.slots[k].state ≠ .valid

/-- One slot is written that is not in use, or made VALID with its table as it stands; a VALID one has a single INSPECT
entry. -/
structure Rewrites (n : Fin 4) (s t : State) : Prop where
  constants : t.constants = s.constants
  ring : ∀ k, t.ring.at k = s.ring.at k
  nextSeq : t.ring.nextSeq = s.ring.nextSeq
  stations : t.stations = s.stations
  active : t.active = s.active
  pendingSlot : t.pendingSlot = s.pendingSlot
  mode : t.line.mode = s.line.mode
  notices : t.notices = s.notices
  others : ∀ k, k ≠ n → t.slots[k] = s.slots[k]
  written : s.inUse n = false ∨ t.slots[n].state = .valid ∧ t.slots[n].table = s.slots[n].table
  single : t.slots[n].state = .valid → SingleOf t.slots[n] .inspect

/-- What a step does to the ring. -/
inductive Act (s t : State) : Prop
  | advances (h : Advances s t)
  | empties (h : Empties s t)
  | rewrites (n : Fin 4) (h : Rewrites n s t)

theorem Course.act {s t : State} (h : Course s t) : Act s t := .advances h.advances

theorem course_of_eq {s t : State} (h : t = s) : Course s t := h ▸ course_refl t

theorem course_respond {s t : State} (h : Course s t) (p : Port) (r : Response) : Course s (t.respond p r) :=
  h.trans (course_of_quiet rfl rfl (fun _ => rfl) rfl id (List.Sublist.refl _) rfl rfl rfl)

theorem act_answerable : Answerable Act where
  refl s := (course_refl s).act
  respond p r
    | .advances h => .advances (h.before (course_respond (course_refl _) p r))
    | .empties h => .empties ⟨h.ring, h.notices, h.nextSeq, h.inUse, h.slots⟩
    | .rewrites n h => .rewrites n ⟨h.constants, h.ring, h.nextSeq, h.stations, h.active, h.pendingSlot, h.mode,
        h.notices, h.others, h.written, h.single⟩

/-! ### Commands that empty the ring -/

section
variable {s : State}

theorem replicate_at (t : State) (h : t.ring.entries = Vector.replicate 64 none) (k : Fin 64) : t.ring.at k = none := by
  rw [Ring.at, h]
  simp

/-- Without a record and an open window only the changeover keeps a slot in use. -/
theorem inUse_of_empty {t : State} (ring : ∀ k, t.ring.at k = none)
    (closed : ∀ k i, (t.station k i).windowOpen = false) {k : Fin 4} (used : t.inUse k = true) :
    t.active = some k ∨ t.pendingSlot = some k := by
  rcases inUse_iff.mp used with used | used | used | used
  · exact .inl used
  · exact .inr used
  · obtain ⟨j, b, present, -⟩ := carried_iff.mp used
    cases (ring j).symm.trans (presentAt_some.mp present).2
  · obtain ⟨i, open'⟩ := anyOpen_iff.mp used
    cases (closed k i).symm.trans open'

theorem empties_disarmed (s : State) : Empties s s.disarmed := by
  obtain ⟨-, -, slots, active, pendingSlot, -⟩ := disarmed_keeps s
  have closed (k : Fin 4) (i : Fin 16) := (disarmed_shut s k i).1
  obtain ⟨stations, whole⟩ := disarmed_eq s
  have entries : s.disarmed.ring.entries = Vector.replicate 64 none := by rw [whole]
  have next : s.disarmed.ring.nextSeq = s.ring.nextSeq := by rw [whole]
  have notices : s.disarmed.notices = [] := by rw [whole]
  have ring := replicate_at s.disarmed entries
  refine ⟨fun _ => ring, fun _ => notices, fun h => next ▸ h, fun _ k used => ⟨?_, by rw [slots]⟩,
    fun k => .inl (by rw [slots])⟩
  rcases inUse_of_empty ring closed used with used | used
  · exact inUse_iff.mpr (.inl (active ▸ used))
  · exact inUse_iff.mpr (.inr (.inl (pendingSlot ▸ used)))

theorem empties_softReset (s : State) : Empties s s.softReset := by
  have closed (k : Fin 4) (i : Fin 16) : (s.softReset.station k i).windowOpen = false :=
    (softReset_quiet s k i).1
  obtain ⟨stations, whole⟩ := softReset_eq s
  rw [commonReset_eq] at whole
  have entries : s.softReset.ring.entries = Vector.replicate 64 none := by rw [whole]
  have next : s.softReset.ring.nextSeq = s.ring.nextSeq := by rw [whole]
  have notices : s.softReset.notices = [] := by rw [whole]
  have slots : s.softReset.slots = s.slots := by rw [whole]
  have changeover : s.softReset.active = s.active ∧ s.softReset.pendingSlot = none := by rw [whole]; exact ⟨rfl, rfl⟩
  obtain ⟨active, pendingSlot⟩ := changeover
  have ring := replicate_at s.softReset entries
  refine ⟨fun _ => ring, fun _ => notices, fun h => next ▸ h, fun _ k used => ⟨?_, by rw [slots]⟩,
    fun k => .inl (by rw [slots])⟩
  rcases inUse_of_empty ring closed used with used | used
  · exact inUse_iff.mpr (.inl (active ▸ used))
  · rw [pendingSlot] at used
    cases used

theorem cleared_windowOpen {t : State} (h : t.stations = Vector.replicate 4 (Vector.replicate 16 Station.cleared))
    (k : Fin 4) (i : Fin 16) : (t.station k i).windowOpen = false := by
  rw [State.station, h]
  simp [Station.cleared]

theorem empties_rstnReset (s : State) : Empties s s.rstnReset := by
  have whole := rstnReset_eq s
  rw [commonReset_eq] at whole
  have entries : s.rstnReset.ring.entries = Vector.replicate 64 none := by rw [whole]
  have next : s.rstnReset.ring.nextSeq = 1 := by rw [whole]
  have notices : s.rstnReset.notices = [] := by rw [whole]
  have slots : s.rstnReset.slots = s.slots := by rw [whole]
  have changeover : s.rstnReset.active = s.active ∧ s.rstnReset.pendingSlot = none := by rw [whole]; exact ⟨rfl, rfl⟩
  have stations : s.rstnReset.stations = Vector.replicate 4 (Vector.replicate 16 Station.cleared) := by rw [whole]
  obtain ⟨active, pendingSlot⟩ := changeover
  have ring := replicate_at s.rstnReset entries
  refine ⟨fun _ => ring, fun _ => notices, fun _ => next ▸ by decide, fun _ k used => ⟨?_, by rw [slots]⟩,
    fun k => .inl (by rw [slots])⟩
  rcases inUse_of_empty ring (cleared_windowOpen stations) used with used | used
  · exact inUse_iff.mpr (.inl (active ▸ used))
  · rw [pendingSlot] at used
    cases used

theorem powerOn_slots (low : Bool) (s : State) (k : Fin 4) : (s.powerOn low).slots[k].state ≠ .valid := by
  have slots : (s.powerOn low).slots = Vector.replicate 4 Format.reset := rfl
  rw [slots]
  simp [Format.reset]

theorem empties_powerOn (low : Bool) (s : State) : Empties s (s.powerOn low) := by
  have ring := replicate_at (s.powerOn low) rfl
  refine ⟨fun _ => ring, fun _ => rfl, fun _ => by show (1 : Word) ≠ 0; decide, fun _ k used => ?_,
    fun k => .inr (powerOn_slots low s k)⟩
  rcases inUse_of_empty ring (cleared_windowOpen rfl) used with used | used <;> cases used

theorem installConstants_closed (c : Constants) (s : State) (k : Fin 4) (i : Fin 16) :
    ((s.installConstants c).station k i).windowOpen = false := by
  have cleared : (s.installConstants c).station k i = Station.cleared := by
    simp only [State.installConstants, State.station, State.resetWindows, mapStations_stations, fin_getElem_mapTable]
  rw [cleared]
  rfl

/-- SET CONSTANTS is taken in OFFLINE alone, where the ring is empty. -/
theorem empties_installConstants {c : Constants} (offline : s.line.mode = .offline) :
    Empties s (s.installConstants c) := by
  refine ⟨fun empty => (empty offline).1, fun empty => (empty offline).2, id, fun outside k used => ⟨?_, rfl⟩,
    fun _ => .inl rfl⟩
  rcases inUse_iff.mp used with used | used | used | used
  · exact inUse_iff.mpr (.inl used)
  · exact inUse_iff.mpr (.inr (.inl used))
  · obtain ⟨j, b, present, fmt⟩ := carried_iff.mp used
    have placed : s.ring.at j = some b := (presentAt_some.mp present).2
    have within : j.val < s.lineLength := by
      by_contra beyond
      cases (outside j (not_lt.mp beyond)).symm.trans placed
    exact inUse_iff.mpr (.inr (.inr (.inl (carried_iff.mpr ⟨j, b, presentAt_some.mpr ⟨within, placed⟩, fmt⟩))))
  · obtain ⟨i, open'⟩ := anyOpen_iff.mp used
    cases (installConstants_closed c s k i).symm.trans open'

/-! ### Commands that write formats -/

theorem rewrites_putSlot {n : Fin 4} {f : Format}
    (written : s.inUse n = false ∨ f.state = .valid ∧ f.table = s.slots[n].table)
    (single : f.state = .valid → SingleOf f .inspect) : Rewrites n s (s.putSlot n f) := by
  have here : (s.putSlot n f).slots[n] = f := fin_getElem_setAt_self ..
  exact ⟨rfl, fun _ => rfl, rfl, rfl, rfl, rfl, rfl, rfl,
    fun k other => fin_getElem_setAt_of_ne _ _ other.symm, by rw [here]; exact written, by rw [here]; exact single⟩

theorem act_writeFormat (p : Port) (slot : Byte) (g : FormatGroup) (s : State) : Act s (s.writeFormat p slot g).1 := by
  rcases writeFormat_state s p slot g with h | ⟨k, f, unused, draft, h⟩
  · exact (course_of_eq h).act
  · exact h ▸ .rewrites k (rewrites_putSlot (.inl unused) fun valid => by rw [draft] at valid; cases valid)

/-- A format whose checks all pass has a single INSPECT entry (check 4 of R140). -/
theorem act_commitFormat (p : Port) (slot : Byte) (s : State) : Act s (s.commitFormat p slot).1 := by
  rcases commitFormat_state s p slot with h | ⟨k, passes, h⟩
  · exact (course_of_eq h).act
  · have check4 : s.slots[k].check4 = true := by simpa [State.checkResults] using firstFailure_none_iff.mp passes 3
    obtain ⟨single, -⟩ := check4_iff.mp check4
    exact h ▸ .rewrites k (rewrites_putSlot (.inr ⟨rfl, rfl⟩) fun _ => single)

/-! ### Commands on the records -/

theorem evolves_judge (o : VerdictOutcome) (code : Byte) {b : Blank} (open' : b.disposition.final = false) :
    Evolves b (b.judge o code) := by
  cases o with
  | pass => exact evolves_verdict open' .pass
  | fail =>
    exact (evolves_addFault .verdictFail b).trans
      (evolves_of_open (addFault_open _ open') rfl rfl (leadsTo_refl _) id (fun _ h => h) fun _ h => h)

theorem course_takeVerdict (seq : Word) (outcome code : Byte) (s : State) :
    Course s (s.takeVerdict seq outcome code).1 := by
  rcases takeVerdict_state s seq outcome code with h | ⟨b, o, found, open', -, h⟩
  · exact course_of_eq h
  · exact h ▸ (tends_settled seq (Blank.judge o code) fun b' found' => by
      cases found.symm.trans found'
      exact evolves_judge o code open').course

/-! ### The changeover -/

theorem course_pending {n : Option (Fin 4)} (valid : ∀ k, n = some k → s.slots[k].state = .valid) :
    Course s { s with pendingSlot := n } :=
  course_of_same rfl rfl (fun _ => rfl) rfl id (List.Sublist.refl _) (fun _ _ _ mark => mark) fun k used => by
    rw [inUse_iff] at used
    rcases used with used | used | used | used
    · exact .inl (inUse_iff.mpr (.inl used))
    · exact .inr (valid k used)
    · exact .inl (inUse_iff.mpr (.inr (.inr (.inl used))))
    · exact .inl (inUse_iff.mpr (.inr (.inr (.inr used))))

theorem course_makeActive {n : Fin 4} (valid : s.slots[n].state = .valid) (theta : Nat) :
    Course s (s.makeActive n theta) := by
  rw [makeActive_eq]
  refine Course.trans ?_ ((tends_gumChangeover n _).trans (tends_prune _)).course
  have marks := activated_marks n theta s
  have opened := activated_windowOpen n theta s
  obtain ⟨stations, whole⟩ := activated_eq n theta s
  rw [whole] at marks opened ⊢
  refine course_of_same rfl rfl (fun _ => rfl) rfl id (List.Sublist.refl _) marks fun k used => ?_
  rw [inUse_iff] at used
  rcases used with used | used | used | used
  · cases used
    exact .inr valid
  · cases used
  · exact .inl (inUse_iff.mpr (.inr (.inr (.inl used))))
  · obtain ⟨i, open'⟩ := anyOpen_iff.mp used
    have before : (s.station k i).windowOpen = true := by
      rcases opened k i with same | ⟨closed, -⟩
      · exact same ▸ open'
      · cases closed.symm.trans open'
    exact .inl (inUse_iff.mpr (.inr (.inr (.inr (anyOpen_iff.mpr ⟨i, before⟩)))))

theorem course_changeover (slot : Byte) (s : State) : Course s (s.changeover slot).1 := by
  rcases changeover_state s slot with h | h | ⟨n, valid, -, ⟨-, h⟩ | ⟨-, h⟩⟩
  · exact course_of_eq h
  · exact h ▸ course_pending fun k named => by cases named
  · exact h ▸ course_makeActive valid _
  · exact h ▸ course_pending fun k named => by cases named; exact valid

/-! ### Time and the cells -/

theorem course_cells (cells : Vector Cell 16) (s : State) : Course s { s with cells := cells } :=
  course_of_quiet rfl rfl (fun _ => rfl) rfl id (List.Sublist.refl _) rfl rfl rfl

theorem tends_handEdge (cell : Fin 16) (angle : Half) (s : State) : Tends s (s.handEdge cell angle) := by
  refine tends_of_parts (flows_handEdge cell angle s) (fun k i _ mark => ?_) rfl rfl rfl rfl
    (gumGoes_of_eq rfl (lineGoes_refl _))
  unfold State.handEdge
  simp only [State.station, mapSlots_stations, fin_getElem_mapTable]
  split
  · rw [fin_getElem_mapTable]
    split
    · split <;> exact mark
    · exact mark
  · exact mark

theorem course_qualify (cell : Fin 16) (s : State) : Course s (s.qualify cell) := by
  obtain ⟨cells, h | ⟨angle, h⟩⟩ := qualify_state s cell
  · exact h ▸ course_cells cells s
  · exact h ▸ (course_cells cells s).trans (tends_handEdge ..).course

theorem course_pinGoes (cell : Fin 16) (high : Bool) (s : State) : Course s (s.pinGoes cell high) := by
  obtain ⟨cells, h | ⟨angle, h⟩⟩ := pinGoes_state s cell high
  · exact h ▸ course_cells cells s
  · exact h ▸ (course_cells cells s).trans (tends_handEdge ..).course

theorem course_gum (g : Gum) (s : State) : Course s { s with gum := g } :=
  course_of_quiet rfl rfl (fun _ => rfl) rfl id (List.Sublist.refl _) rfl rfl rfl

theorem course_line {l : LineControl} (mode : l.mode = .offline → s.line.mode = .offline) :
    Course s { s with line := l } :=
  course_of_quiet rfl rfl (fun _ => rfl) rfl mode (List.Sublist.refl _) rfl rfl rfl

theorem course_primeCompletes (s : State) : Course s s.primeCompletes :=
  (course_gum _ s).trans ((tends_gumTo_after .ready false s).trans (tends_setEvent _ .primeDone)).course

theorem course_standbyExpires (ready : s.gum.state = .ready) : Course s s.standbyExpires :=
  (tends_standbyExpires (by rw [ready]; decide)).course

theorem course_takeChord (s : State) : Course s s.takeChord := by
  unfold State.takeChord
  dsimp only
  split
  · exact course_line fun off => by cases off
  · exact course_line id

theorem course_foldl {α : Type} {f : State → α → State} (h : ∀ s x, Course s (f s x)) (l : List α) (s : State) :
    Course s (l.foldl f s) := by
  induction l generalizing s with
  | nil => exact course_refl s
  | cons x l ih => exact (h s x).trans (ih _)

theorem course_takeExpiries (s : State) : Course s s.takeExpiries := by
  unfold State.takeExpiries
  extract_lets s1 s2 s3
  have filters : Course s s1 := course_foldl (fun s i => course_ite (course_qualify i s) (course_refl s)) _ s
  have standby : Course s s2 := by
    unfold s2
    split
    · exact filters.trans (course_standbyExpires (standbyDue_ready ‹_›))
    · exact filters
  have prime : Course s s3 := course_ite (standby.trans (course_primeCompletes _)) standby
  exact course_ite (prime.trans (course_takeChord _)) prime

theorem course_tick (s : State) : Course s s.tick := by
  refine course_ite (course_refl s) (Course.trans ?_ (course_takeExpiries _))
  exact course_of_quiet rfl rfl (fun _ => rfl) rfl id (List.Sublist.refl _) rfl rfl rfl

theorem course_portReset (p : Port) (s : State) : Course s (s.portReset p) := by
  unfold State.portReset
  dsimp only
  split
  · exact course_of_quiet rfl rfl (fun _ => rfl) rfl id (List.nil_sublist _) rfl rfl rfl
  · exact course_of_quiet rfl rfl (fun _ => rfl) rfl id (List.Sublist.refl _) rfl rfl rfl

theorem course_arm (s : State) : Course s s.arm.1 := by
  rcases arms_state s with h | ⟨k, -, -, h⟩
  · exact course_of_eq h
  · have entered : Course s (s.enterMode .armed) := course_line fun off => by cases off
    refine h ▸ entered.trans ?_
    unfold State.openBatchAtArm
    split
    · exact course_refl _
    · exact course_of_quiet rfl rfl (fun _ => rfl) rfl id (List.Sublist.refl _) rfl rfl rfl

theorem course_applyCorrection (v : Int) (s : State) : Course s (s.applyCorrection v) := by
  have unit (r : Registration) : Course s { s with registration := r } :=
    course_of_quiet rfl rfl (fun _ => rfl) rfl id (List.Sublist.refl _) rfl rfl rfl
  rcases applyCorrection_events v s with whole | whole
  · rw [whole]; exact unit _
  · rw [whole]; exact (unit _).trans (tends_setEvent ..).course

end

/-! ### Every command -/

theorem act_exec {s t : State} {i : Instr} (next : exec i s = .next t) : Act s t := by
  have answers := act_answerable
  have quiet {u : State} (constants : u.constants = s.constants) (slots : u.slots = s.slots)
      (ring : ∀ k, u.ring.at k = s.ring.at k) (nextSeq : u.ring.nextSeq = s.ring.nextSeq) (mode : u.line.mode = s.line.mode)
      (notices : u.notices = s.notices) (stations : u.stations = s.stations) (active : u.active = s.active)
      (pendingSlot : u.pendingSlot = s.pendingSlot) : Act s u :=
    (course_of_quiet constants slots ring nextSeq (fun off => mode ▸ off) (by rw [notices]) stations active
      pendingSlot).act
  cases i with
  | nop | status | readMotion | shortFrame | unknownCommand | notOnPort | parameterLengthMismatch =>
    exact answers.frame_same (f := fun s => (s, _)) next rfl
  | statusWithAcknowledge => exact answers.frame next (quiet rfl rfl (fun _ => rfl) rfl rfl rfl rfl rfl rfl)
  | setWindow p first last =>
    rcases setWindow_state s p first last with h | ⟨-, -, h⟩
    · exact answers.frame_same next h
    · exact answers.frame next (h ▸ quiet rfl rfl (fun _ => rfl) rfl rfl rfl rfl rfl rfl)
  | readNext p => exact answers.frame next (quiet rfl rfl (fun _ => rfl) rfl rfl rfl rfl rfl rfl)
  | readSeq p seq => exact answers.frame_same next (readSeq_state s seq)
  | peekCell p cell => exact answers.frame_same next (peekCell_state s cell)
  | takeCell cell =>
    obtain ⟨cells, h⟩ := takeCell_state s cell
    exact answers.frame next (h ▸ (course_cells cells s).act)
  | stop port =>
    exact answers.frame (f := fun s => (s.raiseCause (stopCause port), .bare .ok)) next
      (tends_raiseCause _ s).course.act
  | lockNew =>
    rcases lockNew_state s with ⟨_, -, h⟩ | ⟨_, h⟩ <;>
      exact answers.frame next (h ▸ quiet rfl rfl (fun _ => rfl) rfl rfl rfl rfl rfl rfl)
  | lockReturn p n | lockTake p n | lockRelease p n | lockQuery p n =>
    rcases lockCommand_state s n _ with ⟨_, -, h⟩ | ⟨_, h⟩ <;>
      exact answers.frame next (h ▸ quiet rfl rfl (fun _ => rfl) rfl rfl rfl rfl rfl rfl)
  | writeFormat p slot g => exact answers.frame next (act_writeFormat p slot g s)
  | readFormat p slot group => exact answers.frame_same next (readFormat_state s slot group)
  | commitFormat p slot => exact answers.frame next (act_commitFormat p slot s)
  | arm => exact answers.frame next (course_arm s).act
  | disarm =>
    rcases disarm_state s with h | ⟨-, -, h⟩
    · exact answers.frame_same next h
    · exact answers.frame next (h ▸ .empties (empties_disarmed s))
  | clear =>
    rcases clear_state s with h | ⟨-, h⟩
    · exact answers.frame_same next h
    · have entered : Course s (s.enterMode .armed) := course_line fun off => by cases off
      exact answers.frame next (h ▸ entered.act)
  | softReset => exact answers.softReset next fun _ => .empties (empties_softReset s)
  | setConstants r =>
    rcases setConstants_state s r with h | ⟨c, offline, -, h⟩
    · exact answers.frame_same next h
    · exact answers.frame next (h ▸ .empties (empties_installConstants offline))
  | setCell r =>
    obtain ⟨cells, h⟩ := setCell_state s r
    exact answers.frame next (h ▸ (course_cells cells s).act)
  | changeover slot => exact answers.frame next (course_changeover slot s).act
  | takeBatch =>
    rcases takeBatch_state s with h | ⟨_, _, -, h⟩
    · exact answers.frame_same next h
    · exact answers.frame next (h ▸ quiet rfl rfl (fun _ => rfl) rfl rfl rfl rfl rfl rfl)
  | peekBatch => exact answers.frame_same next (peekBatch_state s)
  | closeBatch =>
    rcases closeBatch_state s with h | ⟨_, _, opened, room, h⟩
    · exact answers.frame_same next h
    · exact answers.frame next (h ▸ (tends_closeOpenBatch opened room _ _).course.act)
  | markReject seq =>
    rcases markReject_state s seq with h | h
    · exact answers.frame_same next h
    · exact answers.frame next (h ▸ (tends_update seq _ fun b _ => mild_addFault _ b).course.act)
  | primeGum =>
    obtain ⟨g, h⟩ := primeGum_state s
    exact answers.frame next (h ▸ (course_gum g s).act)
  | nudge v =>
    rcases nudge_state s v with h | h
    · exact answers.frame_same next h
    · exact answers.frame next (h ▸ (course_applyCorrection _ s).act)
  | setCym mode =>
    obtain ⟨_, h⟩ := setCym_state s mode
    exact answers.frame next (h ▸ quiet rfl rfl (fun _ => rfl) rfl rfl rfl rfl rfl rfl)
  | takeNotice =>
    rcases takeNotice_state s with h | ⟨n, rest, queued, h⟩
    · exact answers.frame_same next h
    · have taken : rest.Sublist s.notices := queued ▸ List.sublist_cons_self n rest
      have takes : Course s { s with notices := rest } :=
        course_of_quiet rfl rfl (fun _ => rfl) rfl id taken rfl rfl rfl
      exact answers.frame next (h ▸ takes.act)
  | verdict seq outcome code => exact answers.frame next (course_takeVerdict seq outcome code s).act
  | takeTrim =>
    obtain ⟨_, h⟩ := takeTrim_state s
    exact answers.frame next (h ▸ quiet rfl rfl (fun _ => rfl) rfl rfl rfl rfl rfl rfl)
  | forwardCount =>
    exact answers.count next (fun _ => (course_angle s _).act) fun c _ =>
      .advances (.after (course_angle s _) (advances_takeCount (advances_forwardWork c) .forward _))
  | backwardCount =>
    exact answers.count next (fun _ => (course_angle s _).act) fun c _ =>
      .advances (.after (course_angle s _)
        (advances_takeCount (fun s => (course_backwardWork c s).advances) .backward _))
  | indexCorrection =>
    exact answers.indexCorrection next (fun c z0 _ _ _ => .advances (advances_correctIndex c z0 s))
      fun c z0 n _ _ _ =>
        ⟨.advances (.after ((course_choice s n).trans (tends_raiseCause .indexSlip _).course)
            (advances_correctIndex c z0 _)),
          .advances ((Advances.after (course_choice s n) (advances_correctIndex c z0 _)).before
            (tends_raiseCause .indexSlip _).course)⟩
  | discardedSample | haltTimerExpiry | crawlThreshold =>
    exact answers.event (f := fun s => { s with angle := _ }) next (course_angle s _).act
  | cymPulseEnd => exact answers.event next (quiet rfl rfl (fun _ => rfl) rfl rfl rfl rfl rfl rfl)
  | pulseEnd cell => exact answers.event (f := fun s => s.updCell cell _) next (course_cells _ s).act
  | filterExpiry cell =>
    exact answers.event_if (c := fun s => s.cells[cell].filterTimer.isSome) next fun _ => (course_qualify cell s).act
  | standbyExpiry =>
    exact answers.event_if (c := fun s => s.standbyRuns) next fun runs =>
      (course_standbyExpires (by simp [State.standbyRuns] at runs; exact runs.1)).act
  | primeComplete =>
    exact answers.event_if (c := fun s => s.gum.state = .priming) next fun _ => (course_primeCompletes s).act
  | chordTaken =>
    exact answers.event_if (c := fun s => s.line.chordTimer.isSome) next fun _ => (course_takeChord s).act
  | pinChange cell high | levelInputChange cell high => exact Answerable.next next (course_pinGoes cell high s).act
  | operatorLineChange a b =>
    obtain ⟨_, _, _, mode, h⟩ := operatorLines_state s a b
    exact Answerable.next next (h ▸ quiet rfl rfl (fun _ => rfl) rfl mode rfl rfl rfl rfl)
  | portReset p => exact Answerable.next next (course_portReset p s).act
  | rstnReset => exact Answerable.next next (.empties (empties_rstnReset s))
  | powerOn rstnLow => exact Answerable.next next (.empties (empties_powerOn rstnLow s))
  | emptyFrame | rstnRelease | portResetRelease =>
    exact Answerable.next next (quiet rfl rfl (fun _ => rfl) rfl rfl rfl rfl rfl rfl)

theorem act_step {s t : State} (next : step s = .next t) : Act s t := by
  unfold step at next
  split at next
  · cases next
    exact (course_tick s).act
  · next rest _ =>
    rcases act_exec next with advances | empties | ⟨n, rewrites⟩
    · refine .advances (.after (t := { s with pending := rest }) ?_ advances)
      exact course_of_quiet rfl rfl (fun _ => rfl) rfl id (List.Sublist.refl _) rfl rfl rfl
    · exact .empties ⟨empties.ring, empties.notices, empties.nextSeq, empties.inUse, empties.slots⟩
    · exact .rewrites n ⟨rewrites.constants, rewrites.ring, rewrites.nextSeq, rewrites.stations, rewrites.active,
        rewrites.pendingSlot, rewrites.mode, rewrites.notices, rewrites.others, rewrites.written, rewrites.single⟩

end Sys2Proof.Proofs

/-!
PROOF. What every step keeps of the ring, the slots in use and the queue of notices, and of each record its fate (R23,
R27, R29, R31, R40, R100, R137, R152).
-/

namespace Sys2Proof.Proofs

open Sys2Proof Sys2Proof.Machine Sys2Proof.Safety Sys2Proof.Laws

/-! ### The laws of the ring -/

/-- The laws that the other ones rest on. -/
structure RingLaws (s : State) : Prop where
  range : ConstantsInRange s
  empty : OfflineEmpty s
  outside : OutsideLineGaps s
  order : SeqsInCutOrder s

section
variable {s t : State}

theorem constantsInRange_of_eq (h : t.constants = s.constants) (range : ConstantsInRange s) : ConstantsInRange t := by
  rw [ConstantsInRange, h]
  exact range

theorem Course.empty (h : Course s t) (empty : OfflineEmpty s) : OfflineEmpty t := by
  intro off
  obtain ⟨ring, notices⟩ := empty (h.mode off)
  refine ⟨fun k => ?_, h.emptied off notices⟩
  by_cases zero : k = 0
  · subst zero
    rcases h.creation with ⟨-, gap⟩ | ⟨-, -, on, -⟩
    · exact gap (ring 0)
    · exact absurd off on
  · exact h.gaps k zero (ring k)

theorem Course.outside (h : Course s t) (range : ConstantsInRange s) (outside : OutsideLineGaps s) :
    OutsideLineGaps t := by
  intro k beyond
  rw [h.lineLength] at beyond
  refine h.gaps k ?_ (outside k beyond)
  rintro rfl
  have := lineLength_range range
  simp at beyond
  omega

theorem Course.laws (h : Course s t) (laws : RingLaws s) : RingLaws t :=
  ⟨constantsInRange_of_eq h.constants laws.range, h.empty laws.empty, h.outside laws.range laws.outside,
    h.order laws.order⟩

theorem Course.clean (h : Course s t) (clean : RecordsClean s) : RecordsClean t := by
  intro k b' placed
  cases before : s.ring.at k with
  | some b =>
    obtain ⟨b'', placed'', evolved⟩ := h.records k b before
    cases placed.symm.trans placed''
    exact evolved.clean (clean k b before)
  | none =>
    by_cases zero : k = 0
    · subst zero
      rcases h.creation with ⟨-, gap⟩ | ⟨-, -, -, c, placed'', -, clean'⟩
      · cases placed.symm.trans (gap before)
      · cases placed.symm.trans placed''
        exact clean'
    · cases placed.symm.trans (h.gaps k zero before)

/-! A head advance -/

theorem ringLaws_headAdvance (laws : RingLaws s) : RingLaws s.headAdvance := by
  obtain ⟨low, high⟩ := lineLength_range laws.range
  have h1 : 1 ≤ s.lineLength := by omega
  exact ⟨constantsInRange_of_eq (headAdvance_constants s) laws.range, offlineEmpty_headAdvance h1 high laws.empty,
    outsideLineGaps_headAdvance h1 high laws.outside, seqsInCutOrder_headAdvance h1 high laws.outside laws.order⟩

theorem inUseValid_headAdvance (range : ConstantsInRange s) (valid : InUseValid s) : InUseValid s.headAdvance := by
  obtain ⟨low, high⟩ := lineLength_range range
  intro k used
  rw [headAdvance_slots]
  exact valid k (inUse_headAdvance (by omega) high used)

theorem clean_headAdvance (range : ConstantsInRange s) (clean : RecordsClean s) : RecordsClean s.headAdvance := by
  obtain ⟨low, high⟩ := lineLength_range range
  exact recordsClean_headAdvance (by omega) high clean

theorem lawful_headAdvance (laws : RingLaws s) (lawful : Lawful s) : Lawful s.headAdvance := by
  obtain ⟨low, high⟩ := lineLength_range laws.range
  exact ⟨(ringLaws_headAdvance laws).order, inUseValid_headAdvance laws.range lawful.inUse,
    singleInspect_of_slots (headAdvance_slots s) lawful.inspect,
    noticesLawful_headAdvance (by omega) high lawful.notices⟩

/-! What a step's own work keeps -/

theorem Advances.laws (h : Advances s t) (laws : RingLaws s) : RingLaws t := by
  rcases h with h | ⟨u, before, after⟩
  · exact h.laws laws
  · exact after.laws (ringLaws_headAdvance (before.laws laws))

theorem Advances.clean (h : Advances s t) (range : ConstantsInRange s) (clean : RecordsClean s) : RecordsClean t := by
  rcases h with h | ⟨u, before, after⟩
  · exact h.clean clean
  · exact after.clean (clean_headAdvance (constantsInRange_of_eq before.constants range) (before.clean clean))

theorem Advances.slots (h : Advances s t) : t.slots = s.slots := by
  rcases h with h | ⟨u, before, after⟩
  · exact h.slots
  · exact after.slots.trans ((headAdvance_slots u).trans before.slots)

theorem Advances.inUseValid (h : Advances s t) (range : ConstantsInRange s) (valid : InUseValid s) : InUseValid t := by
  rcases h with h | ⟨u, before, after⟩
  · exact h.inUseValid valid
  · exact after.inUseValid
      (inUseValid_headAdvance (constantsInRange_of_eq before.constants range) (before.inUseValid valid))

theorem Advances.notices (h : Advances s t) (laws : RingLaws s) (lawful : Lawful s) : NoticesLawful t := by
  rcases h with h | ⟨u, before, after⟩
  · exact h.notices lawful
  · exact after.notices (lawful_headAdvance (before.laws laws) (before.lawful lawful))

/-! What an emptied ring keeps -/

theorem Empties.seqs (h : Empties s t) (laws : RingLaws s) : SeqsInCutOrder t := by
  obtain ⟨nonzero, -⟩ := laws.order
  have none' : presentSeqs t = [] := by
    rw [presentSeqs_eq, List.filterMap_eq_nil_iff]
    exact fun k _ => seqAt_none.mpr (h.ring laws.empty k)
  exact ⟨h.nextSeq nonzero, by rw [none']; rfl⟩

theorem Empties.single (h : Empties s t) (single : SingleInspect s) : SingleInspect t := by
  intro k i j e e' valid
  rcases h.slots k with same | invalid
  · rw [same] at valid
    simp only [State.entry, same]
    exact single k i j e e' valid
  · exact absurd valid invalid

theorem noticesLawful_of_empty (h : t.notices = []) : NoticesLawful t :=
  ⟨fun n queued => (by rw [h] at queued; cases queued), (by rw [h]; exact List.Pairwise.nil),
    fun n queued => (by rw [h] at queued; cases queued)⟩

/-! What a written format keeps -/

variable {n : Fin 4}

theorem Rewrites.presentAt (h : Rewrites n s t) (k : Fin 64) : t.presentAt k = s.presentAt k := by
  have length : t.lineLength = s.lineLength := by simp only [State.lineLength, h.constants]
  rw [State.presentAt, State.presentAt, length, h.ring k]

theorem Rewrites.used (h : Rewrites n s t) {k : Fin 4} (used : t.inUse k = true) : s.inUse k = true :=
  inUse_of_same h.constants h.ring h.active h.pendingSlot
    (fun k i open' => by rw [State.station, h.stations] at open'; exact open') used

theorem Rewrites.inUseValid (h : Rewrites n s t) (valid : InUseValid s) : InUseValid t := by
  intro k used
  by_cases same : k = n
  · subst same
    rcases h.written with unused | ⟨valid', -⟩
    · rw [h.used used] at unused
      cases unused
    · exact valid'
  · rw [h.others k same]
    exact valid k (h.used used)

theorem Rewrites.singleInspect (h : Rewrites n s t) (single : SingleInspect s) : SingleInspect t := by
  intro k i j e e' valid
  by_cases same : k = n
  · subst same
    exact fun hi hj ki kj => h.single valid i j e e' hi hj ki kj
  · rw [h.others k same] at valid
    simp only [State.entry, h.others k same]
    exact single k i j e e' valid

/-- A slot that carries a record is in use, so its entries stand. -/
theorem Rewrites.entries (h : Rewrites n s t) (k : Fin 4) (i : Fin 16) (carried : s.carried k = true) :
    t.entry k i = s.entry k i := by
  by_cases same : k = n
  · subst same
    rcases h.written with unused | ⟨-, table⟩
    · rw [inUse_iff.mpr (.inr (.inr (.inl carried)))] at unused
      cases unused
    · rw [State.entry, table]
      rfl
  · rw [State.entry, h.others k same]
    rfl

theorem Rewrites.seqs (h : Rewrites n s t) (order : SeqsInCutOrder s) : SeqsInCutOrder t :=
  seqsInCutOrder_of_same h.nextSeq (fun k => by rw [seqAt, h.ring k]; rfl) order

theorem Rewrites.noticesLawful (h : Rewrites n s t) (order : SeqsInCutOrder s) (lawful : NoticesLawful s) :
    NoticesLawful t := by
  refine noticesLawful_of h.constants h.entries (fun k b placed => ⟨b, (h.ring k).trans placed, evolves_refl b⟩)
    (fun k i _ mark => by rw [State.station, h.stations]; exact mark) (by rw [h.notices])
    (fun m _ p b b' stood _ placed waits => ?_) (ringDistinct_of_cutOrder (h.seqs order)) lawful
  rw [h.ring p, (presentAt_some.mp stood).2] at placed
  cases placed
  exact waits

end

/-- Settles O58, from what one step may do to the ring, `Act`. -/
theorem stepKeepsRingLaws : Obligations.StepKeepsRingLaws := by
  intro s t range empty outside order next
  have laws : RingLaws s := ⟨range, empty, outside, order⟩
  rcases act_step next with h | h | ⟨n, h⟩
  · obtain ⟨-, empty', outside', order'⟩ := h.laws laws
    exact ⟨empty', outside', order', h.clean range, singleInspect_of_slots h.slots,
      fun valid single notices => h.notices laws ⟨order, valid, single, notices⟩⟩
  · have ring := h.ring empty
    exact ⟨fun _ => ⟨ring, h.notices empty⟩, fun k _ => ring k, h.seqs laws,
      fun _ k b placed => (by cases (ring k).symm.trans placed), h.single,
      fun _ _ _ => noticesLawful_of_empty (h.notices empty)⟩
  · refine ⟨fun off => ?_, fun k beyond => ?_, h.seqs order, fun clean k b placed => ?_, h.singleInspect,
      fun _ _ notices => h.noticesLawful order notices⟩
    · obtain ⟨ring, notices⟩ := empty (h.mode ▸ off)
      exact ⟨fun k => (h.ring k).trans (ring k), h.notices.trans notices⟩
    · have length : t.lineLength = s.lineLength := by simp only [State.lineLength, h.constants]
      exact (h.ring k).trans (outside k (length ▸ beyond))
    · exact clean k b ((h.ring k).symm.trans placed)

/-- Settles O59, from what one step may do to the ring and the slots, `Act`. -/
theorem stepKeepsUsedSlotsValid : Obligations.StepKeepsUsedSlotsValid := by
  intro s t range outside valid next
  rcases act_step next with h | h | ⟨n, h⟩
  · exact h.inUseValid range valid
  · intro k used
    obtain ⟨used, same⟩ := h.inUse outside k used
    rw [same]
    exact valid k used
  · exact h.inUseValid valid

/-! ### The fate of a record (R27, R40) -/

/-- A record comes from one that was there, or carries the next number. -/
theorem Course.origin {s t : State} (h : Course s t) {k : Fin 64} {b' : Blank} (placed : t.ring.at k = some b') :
    (∃ j b, s.ring.at j = some b ∧ Evolves b b') ∨ b'.seq = s.ring.nextSeq := by
  cases before : s.ring.at k with
  | some b =>
    obtain ⟨b'', placed'', evolved⟩ := h.records k b before
    cases placed.symm.trans placed''
    exact .inl ⟨k, b, before, evolved⟩
  | none =>
    by_cases zero : k = 0
    · subst zero
      rcases h.creation with ⟨-, gap⟩ | ⟨-, -, -, c, placed'', seq, -⟩
      · cases placed.symm.trans (gap before)
      · cases placed.symm.trans placed''
        exact .inr seq
    · cases placed.symm.trans (h.gaps k zero before)

theorem Course.nextSeq {s t : State} (h : Course s t) :
    t.ring.nextSeq = s.ring.nextSeq ∨ t.ring.nextSeq = successor s.ring.nextSeq :=
  h.creation.imp And.left fun ⟨_, next, _⟩ => next

theorem Advances.origin {s t : State} (h : Advances s t) (range : ConstantsInRange s) {k : Fin 64} {b' : Blank}
    (placed : t.ring.at k = some b') : (∃ j b, s.ring.at j = some b ∧ Evolves b b') ∨ b'.seq = s.ring.nextSeq
      ∨ b'.seq = successor s.ring.nextSeq := by
  rcases h with h | ⟨u, before, after⟩
  · exact (h.origin placed).imp_right .inl
  · obtain ⟨low, high⟩ := lineLength_range (constantsInRange_of_eq before.constants range)
    rcases after.origin placed with ⟨j, c, placed', evolved⟩ | new
    · obtain ⟨p, stood⟩ := headAdvance_entry_at (by omega) high placed'
      rcases before.origin stood with ⟨j', b, placed'', evolved'⟩ | new
      · exact .inl ⟨j', b, placed'', evolved'.trans evolved⟩
      · exact .inr (.inl (evolved.seq.trans new))
    · rw [headAdvance_nextSeq] at new
      exact .inr (before.nextSeq.imp new.trans new.trans)

/-- Through a step a record goes on as one that evolved from it. -/
theorem evolves_step {s t : State} {j k : Fin 64} {b b' : Blank} (laws : RingLaws s) (present : s.presentAt j = some b)
    (next : step s = .next t) (present' : t.presentAt k = some b') (seq : b'.seq = b.seq) : Evolves b b' := by
  have placed := (presentAt_some.mp present).2
  have placed' := (presentAt_some.mp present').2
  have same {i : Fin 64} {c : Blank} (there : s.ring.at i = some c) (seq' : c.seq = b.seq) : c = b := by
    obtain rfl := ringDistinct_of_cutOrder laws.order i j c b there placed seq'
    exact Option.some.inj (there.symm.trans placed)
  obtain ⟨older, older'⟩ := seq_not_given laws.order placed
  rcases act_step next with h | h | ⟨n, h⟩
  · rcases h.origin laws.range placed' with ⟨i, c, there, evolved⟩ | new | new
    · exact same there (evolved.seq.symm.trans seq) ▸ evolved
    · exact absurd (seq.symm.trans new) older
    · exact absurd (seq.symm.trans new) older'
  · cases (h.ring laws.empty k).symm.trans placed'
  · rw [h.ring k] at placed'
    exact same placed' seq ▸ evolves_refl b'

/-- Settles O60, from the course a record takes through one step, `Act`. -/
theorem recordsKeepTheirFate : Obligations.RecordsKeepTheirFate := by
  intro s t j k b b' range empty outside order present next present' seq
  have evolved := evolves_step ⟨range, empty, outside, order⟩ present next present' seq
  exact ⟨evolved.fmt, fun f => evolved.faults f.bit, fun o => evolved.ops o.bit, evolved.moves, evolved.final⟩

end Sys2Proof.Proofs

/-!
PROOF. The line cells (section 1.4): SET CELL stores what its parameters spell or refuses it, a change of a pin runs the
filter, and each cell shows the level its mode and the line mode call for.
-/

namespace Sys2Proof.Proofs

open Sys2Proof Sys2Proof.Machine Sys2Proof.Safety Sys2Proof.Laws

/-! ### The values of SET CELL -/

section
variable {b : Byte}

/-- The cell mode a byte up to 4 spells (section 10.3). -/
def spelledMode (b : Byte) : CellMode :=
  if b = 0 then .off else if b = 1 then .edgeIn else if b = 2 then .levelIn else if b = 3 then .windowOut else .pulseOut

theorem spelledMode_off : spelledMode b = .off ↔ b = 0 := by
  unfold spelledMode
  split_ifs <;> simp_all

theorem spelledMode_edgeIn : spelledMode b = .edgeIn ↔ b = 1 := by
  unfold spelledMode
  split_ifs <;> simp_all

theorem spelledMode_output (h : b.toNat ≤ 4) : (spelledMode b = .windowOut ↔ b = 3) ∧ (spelledMode b = .pulseOut ↔ b = 4) := by
  unfold spelledMode
  split_ifs <;> simp_all
  bv_omega

theorem cellModeOf_eq : cellModeOf b = if b.toNat ≤ 4 then
    some (spelledMode b) else none := by
  unfold cellModeOf
  split
  · next zero => rw [BitVec.eq_of_toNat_eq (y := 0#8) zero]; rfl
  · next one => rw [BitVec.eq_of_toNat_eq (y := 1#8) one]; rfl
  · next two => rw [BitVec.eq_of_toNat_eq (y := 2#8) two]; rfl
  · next three => rw [BitVec.eq_of_toNat_eq (y := 3#8) three]; rfl
  · next four => rw [BitVec.eq_of_toNat_eq (y := 4#8) four]; rfl
  · next n0 n1 n2 n3 n4 =>
    have : b.toNat ≠ 0 ∧ b.toNat ≠ 1 ∧ b.toNat ≠ 2 ∧ b.toNat ≠ 3 ∧ b.toNat ≠ 4 := ⟨n0, n1, n2, n3, n4⟩
    rw [if_neg (by omega)]

theorem polarityOf_eq :
    polarityOf b = if b.toNat ≤ 1 then some (if b = 1 then .activeLow else .activeHigh) else none := by
  unfold polarityOf
  split
  · next zero => rw [BitVec.eq_of_toNat_eq (y := 0#8) zero]; rfl
  · next one => rw [BitVec.eq_of_toNat_eq (y := 1#8) one]; rfl
  · next n0 n1 =>
    have : b.toNat ≠ 0 ∧ b.toNat ≠ 1 := ⟨n0, n1⟩
    rw [if_neg (by omega)]

theorem edgeSelectOf_eq : edgeSelectOf b = if b.toNat ≤ 2 then
    some (if b = 1 then .falling else if b = 2 then .both else .rising) else none := by
  unfold edgeSelectOf
  split
  · next zero => rw [BitVec.eq_of_toNat_eq (y := 0#8) zero]; rfl
  · next one => rw [BitVec.eq_of_toNat_eq (y := 1#8) one]; rfl
  · next two => rw [BitVec.eq_of_toNat_eq (y := 2#8) two]; rfl
  · next n0 n1 n2 =>
    have : b.toNat ≠ 0 ∧ b.toNat ≠ 1 ∧ b.toNat ≠ 2 := ⟨n0, n1, n2⟩
    rw [if_neg (by omega)]

theorem safeLevelOf_eq : safeLevelOf b = if b.toNat ≤ 1 then some (if b = 1 then .active else .inactive) else none := by
  unfold safeLevelOf
  split
  · next zero => rw [BitVec.eq_of_toNat_eq (y := 0#8) zero]; rfl
  · next one => rw [BitVec.eq_of_toNat_eq (y := 1#8) one]; rfl
  · next n0 n1 =>
    have : b.toNat ≠ 0 ∧ b.toNat ≠ 1 := ⟨n0, n1⟩
    rw [if_neg (by omega)]

end

section
variable {r : RawCell} {config : CellConfig}

/-- Parameters that SET CELL refuses: a field that applies to the mode outside its range (R15). -/
def OutsideCell (r : RawCell) : Prop :=
  4 < r.mode.toNat ∨ (r.mode.toNat = 1 ∧ 1000 < r.filter.toNat)
    ∨ (r.mode.toNat ≠ 0 ∧ 1 < r.polarity.toNat) ∨ (r.mode.toNat = 1 ∧ 2 < r.edgeSelect.toNat)
    ∨ (r.mode.toNat = 4 ∧ (r.width.toNat < 50 ∨ 50000 < r.width.toNat))
    ∨ (3 ≤ r.mode.toNat ∧ 1 < r.safeLevel.toNat)

/-- The configuration that the fields of parameters spell (section 1.4, section 10.3). -/
def spelledCell (r : RawCell) : CellConfig where
  mode := spelledMode r.mode
  polarity := if r.mode ≠ 0 then if r.polarity = 1 then .activeLow else .activeHigh else .activeHigh
  edgeSelect :=
    if r.mode = 1 then if r.edgeSelect = 1 then .falling else if r.edgeSelect = 2 then .both else .rising else .rising
  filter := if r.mode = 1 then r.filter.toNat else 0
  width := if r.mode = 4 then r.width.toNat else 0
  safeLevel := if r.mode = 3 ∨ r.mode = 4 then if r.safeLevel = 1 then .active else .inactive else .inactive

/-- A field that applies to some modes: it is stored where it applies and inside its range, and its rest value is stored
where it does not apply. -/
theorem field_eq_some {α : Type} {applies inside : Prop} [Decidable applies] [Decidable inside] {value rest x : α} :
    (if applies then (if inside then some value else none) else some rest) = some x
      ↔ (applies → inside) ∧ x = if applies then value else rest := by
  split_ifs <;> simp_all [eq_comm]

/-- The fields of a configuration are spelled one after another (section 1.4). -/
theorem cellConfigOf_eq_bind (r : RawCell) : cellConfigOf r = (cellModeOf r.mode).bind fun mode =>
    (if mode ≠ .off then polarityOf r.polarity else some .activeHigh).bind fun polarity =>
    (if mode = .edgeIn then edgeSelectOf r.edgeSelect else some .rising).bind fun edgeSelect =>
    (if mode = .edgeIn then (if inRange 0 1000 r.filter.toNat then some r.filter.toNat else none) else some 0).bind
      fun filter =>
    (if mode = .pulseOut then (if inRange 50 50000 r.width.toNat then some r.width.toNat else none) else some 0).bind
      fun width =>
    (if mode = .windowOut ∨ mode = .pulseOut then safeLevelOf r.safeLevel else some .inactive).bind fun safeLevel =>
      some { mode, polarity, edgeSelect, filter, width, safeLevel } := by
  rw [cellConfigOf, Option.bind_eq_bind]
  congr 1
  funext mode
  cases mode <;> rfl

theorem cellConfigOf_eq_some : cellConfigOf r = some config ↔ ¬ OutsideCell r ∧ config = spelledCell r := by
  rw [cellConfigOf_eq_bind]
  simp only [Option.bind_eq_some_iff, cellModeOf_eq, Option.ite_none_right_eq_some, Option.some.injEq, and_assoc,
    exists_and_left, exists_eq_left']
  by_cases small : r.mode.toNat ≤ 4
  · obtain ⟨window, pulse⟩ := spelledMode_output small
    simp only [polarityOf_eq, edgeSelectOf_eq, safeLevelOf_eq, ne_eq, spelledMode_off, spelledMode_edgeIn, window, pulse,
      field_eq_some, inRange_iff, and_assoc, exists_and_left, exists_eq_left]
    have inside : ¬ OutsideCell r ↔ r.mode.toNat ≤ 4 ∧ (¬r.mode = 0 → r.polarity.toNat ≤ 1)
        ∧ (r.mode = 1 → r.edgeSelect.toNat ≤ 2) ∧ (r.mode = 1 → 0 ≤ r.filter.toNat ∧ r.filter.toNat ≤ 1000)
        ∧ (r.mode = 4 → 50 ≤ r.width.toNat ∧ r.width.toNat ≤ 50000)
        ∧ (r.mode = 3 ∨ r.mode = 4 → r.safeLevel.toNat ≤ 1) := by
      simp only [OutsideCell, BitVec.toNat_eq, BitVec.toNat_ofNat, BitVec.ofNat_eq_ofNat]
      omega
    rw [inside, and_assoc, and_assoc, and_assoc, and_assoc, and_assoc, eq_comm (a := config)]
    rfl
  · exact iff_of_false (fun h => small h.1) fun h => h.1 (.inl (by omega))

theorem cellServed_iff {s : State} {cell : Fin 16} {m : CellMode} : s.cellServed cell m = true
    ↔ ∀ (k : Fin 4) (j : Fin 16) (e : Entry), s.slots[k].state = .valid → s.slots[k].table[j] = some e →
      e.cell = cell → m.serves e.kind = true := by
  simp only [State.cellServed, List.all_eq_true, List.mem_finRange, forall_const, Bool.or_eq_true, decide_eq_true_eq,
    mem_entries, ne_eq, ← imp_iff_not_or]
  exact ⟨fun h k j e valid entry => h k valid e ⟨j, entry⟩, fun h k valid e ⟨j, entry⟩ => h k j e valid entry⟩

end

section
variable {r : RawCell} {s : State}

theorem exec_setCell (takes : Takes s .line) (r : RawCell) :
    exec (.setCell r) s = .next ((s.setCell r).1.respond .line (s.setCell r).2) := takeFrame_of_takes takes _

theorem setCell_refused (off : s.line.mode = .offline)
    (refused : ∀ i config, indexOf 16 r.cell = some i → cellConfigOf r = some config → s.cellServed i config.mode = false) :
    s.setCell r = (s, .bare .range) := by
  rw [State.setCell, if_neg (not_not.mpr off)]
  cases cell : indexOf 16 r.cell with
  | none => rfl
  | some i =>
    cases spelt : cellConfigOf r with
    | none => rfl
    | some config => exact if_neg (by rw [refused i config cell spelt]; decide)

theorem setCell_accepted {config : CellConfig} (off : s.line.mode = .offline) (h : r.cell.toNat < 16)
    (spelt : cellConfigOf r = some config) (served : s.cellServed ⟨r.cell.toNat, h⟩ config.mode = true) :
    s.setCell r = (s.updCell ⟨r.cell.toNat, h⟩ (Cell.configure config), .bare .ok) := by
  rw [State.setCell, if_neg (not_not.mpr off), indexOf_of_lt h, spelt]
  exact if_pos served

/-- Settles O14, by the tests of R15 in order; the configuration is read off field by field. -/
theorem setCellConfigures : Obligations.SetCellConfigures := by
  intro r s takes outside
  have spelt {config : CellConfig} : cellConfigOf r = some config ↔ ¬ outside ∧ config = spelledCell r :=
    cellConfigOf_eq_some
  refine ⟨fun on => ?wrongMode, fun off refused => ?range, fun off h config named => ⟨?unserved, ?accepted⟩,
    ⟨fun inside => ⟨_, spelt.mpr ⟨inside, rfl⟩⟩, fun ⟨config, named⟩ => (spelt.mp named).1⟩, fun config named => ?fields⟩
  case wrongMode => rw [exec_setCell takes, State.setCell, if_pos on, Response.bare]
  case range =>
    rw [exec_setCell takes, setCell_refused off, Response.bare]
    intro i config cell named
    rcases refused with high | out
    · rw [indexOf_of_le high] at cell
      cases cell
    · exact absurd out (spelt.mp named).1
  case unserved =>
    rintro ⟨k, j, e, valid, entry, here, unserved⟩
    rw [exec_setCell takes, setCell_refused off, Response.bare]
    intro i other cell again
    obtain rfl := Option.some.inj (named.symm.trans again)
    obtain rfl := Option.some.inj ((indexOf_of_lt h).symm.trans cell)
    rw [← Bool.not_eq_true, cellServed_iff]
    intro served
    exact absurd (served k j e valid entry here) (by rw [unserved]; decide)
  case accepted =>
    intro served
    rw [exec_setCell takes, setCell_accepted off h named (cellServed_iff.mpr served)]
    rfl
  case fields =>
    obtain ⟨-, rfl⟩ := spelt.mp named
    refine ⟨rfl, ?_, ?_, rfl, rfl, ?_⟩
    · simp only [spelledCell, ite_and]
    · simp only [spelledCell]
      split_ifs <;> simp_all
    · simp only [spelledCell, ite_and]

end

/-! ### Edges on the cells -/

section
variable {s t : State} {i : Fin 16} {k : Fin 4} {j : Fin 16}

/-- A qualifying edge shows the input station of an open window that it is there (R57, R59). -/
theorem handEdge_sees {e : Entry} (angle : Half) (evaluated : s.evaluated k = true) (shown : (s.station k j).windowOpen = true)
    (entry : s.entry k j = some e) (input : e.kind.isOutput = false) (bound : e.cell = i) :
    (s.handEdge i angle).station k j = (s.station k j).see e.kind angle := by
  have shown : s.stations[k][j].windowOpen = true := shown
  simp only [State.handEdge, State.station, mapSlots_stations, fin_getElem_mapTable, if_pos evaluated, entry, input, bound,
    shown, Bool.not_false, Bool.true_and, decide_true, if_true]

/-- No other station sees a qualifying edge (R57). -/
theorem handEdge_passes (angle : Half) (h : s.evaluated k = false ∨ (s.station k j).windowOpen = false
      ∨ ∀ e, s.entry k j = some e → e.kind.isOutput = true ∨ e.cell ≠ i) :
    (s.handEdge i angle).station k j = s.station k j := by
  simp only [State.handEdge, State.station, mapSlots_stations, fin_getElem_mapTable]
  split
  · next evaluated =>
    rw [fin_getElem_mapTable]
    split
    · next e entry =>
      refine if_neg fun sees => ?_
      simp only [Bool.and_eq_true, Bool.not_eq_true', decide_eq_true_eq] at sees
      obtain ⟨⟨input, bound⟩, shown⟩ := sees
      rcases h with out | shut | other
      · exact absurd evaluated (by rw [out]; decide)
      · exact absurd shown (Bool.eq_false_iff.mp shut)
      · rcases other e entry with output | elsewhere
        · exact absurd output (by rw [input]; decide)
        · exact elsewhere bound
    · rfl
  · rfl

/-- Whether the change to the level of its pin is one that a cell's edge select takes (R16). -/
def takesEdge (c : Cell) : Bool := c.config.edgeSelect.takes c.pinLevel

/-- A cell as the change to the level of its pin qualifies (R16). -/
def qualifiedCell (z : Capture) (c : Cell) : Cell :=
  { c with
    level := c.pinLevel, filterTimer := none
    z := if takesEdge c then z else c.z
    event := if takesEdge c then true else c.event
    overrun := if takesEdge c then c.overrun || c.event else c.overrun }

/-- A change on a cell qualifies: the cell takes it, and an edge that its edge select takes is handed to the input
stations of open windows (R16, R57, R59). -/
structure Qualifies (i : Fin 16) (s t : State) : Prop where
  whole : t = { s with cells := setAt s.cells i (qualifiedCell s.captureNow s.cells[i]), stations := t.stations }
  sees : ∀ (k : Fin 4) (j : Fin 16) (e : Entry), takesEdge s.cells[i] = true → s.evaluated k = true →
    (s.station k j).windowOpen = true → s.entry k j = some e → e.kind.isOutput = false → e.cell = i →
    t.station k j = (s.station k j).see e.kind (BitVec.ofNat 16 s.theta)
  passes : ∀ (k : Fin 4) (j : Fin 16), takesEdge s.cells[i] = false ∨ s.evaluated k = false
      ∨ (s.station k j).windowOpen = false ∨ (∀ e, s.entry k j = some e → e.kind.isOutput = true ∨ e.cell ≠ i) →
    t.station k j = s.station k j

theorem qualify_of_taken (taken : takesEdge s.cells[i] = true) : s.qualify i
    = State.handEdge i (BitVec.ofNat 16 s.theta) { s with
        cells := setAt s.cells i (qualifiedCell s.captureNow s.cells[i]) } := by
  have cell : Cell.capture s.captureNow { s.cells[i] with level := s.cells[i].pinLevel, filterTimer := none }
      = qualifiedCell s.captureNow s.cells[i] := by
    simp only [qualifiedCell, taken, if_true, Cell.capture]
  have edge : s.cells[i].config.edgeSelect.takes s.cells[i].pinLevel = true := taken
  rw [State.qualify, if_pos edge, ← cell]
  simp only [State.updCell, fin_getElem_setAt_self, setAt_setAt]
  rfl

theorem qualify_of_untaken (untaken : takesEdge s.cells[i] = false) : s.qualify i
    = { s with cells := setAt s.cells i (qualifiedCell s.captureNow s.cells[i]) } := by
  have stays : ¬ s.cells[i].config.edgeSelect.takes s.cells[i].pinLevel = true := Bool.eq_false_iff.mp untaken
  rw [State.qualify, if_neg stays]
  have cell : qualifiedCell s.captureNow s.cells[i] = { s.cells[i] with level := s.cells[i].pinLevel, filterTimer := none } := by
    simp only [qualifiedCell, untaken, Bool.false_eq_true, if_false]
  rw [cell]
  rfl

theorem qualifies_qualify (i : Fin 16) (s : State) : Qualifies i s (s.qualify i) := by
  cases taken : takesEdge s.cells[i] with
  | true =>
    rw [qualify_of_taken taken]
    refine ⟨rfl, fun k j e _ evaluated shown entry input bound => handEdge_sees _ evaluated shown entry input bound,
      fun k j h => handEdge_passes _ (h.resolve_left (by rw [taken]; decide))⟩
  | false =>
    rw [qualify_of_untaken taken]
    exact ⟨rfl, fun _ _ _ h => absurd h (by rw [taken]; decide), fun _ _ _ => rfl⟩

theorem pinGoes_of_change {high : Bool} (running : s.heldInReset = false) (edgeIn : s.cells[i].config.mode = .edgeIn)
    (change : s.cells[i].pinHigh ≠ high) : s.pinGoes i high
      = if s.cells[i].config.polarity.logical high = s.cells[i].level then
          { s with cells := setAt s.cells i { s.cells[i] with pinHigh := high, filterTimer := none } }
        else if s.cells[i].config.filter = 0 then (s.updCell i fun c => { c with pinHigh := high }).qualify i
        else { s with cells := setAt s.cells i { s.cells[i] with pinHigh := high, filterTimer := some 0 } } := by
  rw [State.pinGoes, if_neg change]
  simp only [State.updCell, fin_getElem_setAt_self, setAt_setAt, edgeIn, running, ne_eq, not_true_eq_false, if_false,
    Bool.false_eq_true, Cell.pinLevel]

/-- Settles O15, by whether the pin is back at the level and the filter is 0; `Qualifies` says what a qualified change does. -/
theorem edgesQualify : Obligations.EdgesQualify := by
  intro i s running edgeIn c active qualified seen handed
  have seen_iff (high : Bool) : seen high ↔ takesEdge { c with pinHigh := high } = true := by
    cases select : s.cells[i].config.edgeSelect <;>
      simp only [seen, c, active, takesEdge, EdgeSelect.takes, Cell.pinLevel, select, Bool.not_eq_true']
  have cell (high : Bool) : qualified high = qualifiedCell s.captureNow { c with pinHigh := high } := by
    cases select : s.cells[i].config.edgeSelect <;>
      simp only [qualified, c, active, qualifiedCell, takesEdge, EdgeSelect.takes, Cell.pinLevel, State.captureNow, select]
  have qualifies (high : Bool) : ∃ t, (s.updCell i fun c => { c with pinHigh := high }).qualify i = t ∧ handed high t
      ∧ t = { s with cells := setAt s.cells i (qualified high), stations := t.stations } := by
    obtain ⟨whole, sees, passes⟩ := qualifies_qualify i (s.updCell i fun c => { c with pinHigh := high })
    have here : (s.updCell i fun c => { c with pinHigh := high }).cells[i] = { c with pinHigh := high } :=
      fin_getElem_setAt_self ..
    rw [here] at whole sees passes
    refine ⟨_, rfl, fun k j => ⟨fun edge evaluated shown e => sees k j e ((seen_iff high).mp edge) evaluated shown,
      fun h => passes k j (h.imp_left fun unseen => ?_)⟩, ?_⟩
    · rwa [seen_iff, Bool.not_eq_true] at unseen
    · rw [cell]
      refine whole.trans ?_
      simp only [State.updCell, setAt_setAt]
      rfl
  refine ⟨fun high change => ⟨fun off unfiltered => ?_, fun back => ?_, fun off filtered => ?_⟩, fun runs => ?_⟩
  · change (.next (s.pinGoes i high) : Result) = _
    rw [pinGoes_of_change running edgeIn change, if_neg off, if_neg unfiltered]
  · change (.next (s.pinGoes i high) : Result) = _
    rw [pinGoes_of_change running edgeIn change, if_pos back]
  · obtain ⟨t, next, rest⟩ := qualifies high
    refine ⟨t, ?_, rest⟩
    change (.next (s.pinGoes i high) : Result) = _
    rw [pinGoes_of_change running edgeIn change, if_neg off, if_pos filtered, next]
  · obtain ⟨t, next, rest⟩ := qualifies c.pinHigh
    have same : (s.updCell i fun d => { d with pinHigh := c.pinHigh }) = s := by
      change { s with cells := setAt s.cells i s.cells[i.val] } = s
      rw [setAt_getElem_self]
    rw [same] at next
    refine ⟨t, ?_, rest⟩
    change execFilterExpiry i s = _
    rw [execFilterExpiry, takeEvent_running running, if_pos runs, next]

end

/-! ### What the cells show -/

section
variable {s : State} {i : Fin 16}

theorem windowReported_iff : s.windowReported i = true ↔ s.angle.debt = 0 ∧ ∃ (k : Fin 4) (j : Fin 16) (e : Entry),
    s.evaluated k = true ∧ s.entry k j = some e ∧ e.kind.isOutput = true ∧ e.cell = i
      ∧ (s.station k j).windowOpen = true ∧ (s.station k j).fired = true := by
  simp only [State.windowReported, Bool.and_eq_true, decide_eq_true_eq, List.any_eq_true, List.mem_finRange, true_and,
    Option.any_eq_true]
  refine and_congr_right fun _ => exists_congr fun k => ⟨?_, ?_⟩
  · rintro ⟨evaluated, j, ⟨⟨e, entry, output, bound⟩, shown⟩, fired⟩
    exact ⟨j, e, evaluated, entry, output, bound, shown, fired⟩
  · rintro ⟨j, e, evaluated, entry, output, bound, shown, fired⟩
    exact ⟨evaluated, j, ⟨⟨e, entry, output, bound⟩, shown⟩, fired⟩

theorem primeDrives_iff : s.primeDrives i = true ↔ s.gum.state = .priming
    ∧ ((∃ c, s.constants = some c ∧ c.purgeCell = some i)
      ∨ ∃ (k : Fin 4) (j : Fin 16) (e : Entry), s.active = some k ∧ s.entry k j = some e ∧ e.kind = .gum ∧ e.cell = i) := by
  simp only [State.primeDrives, Bool.and_eq_true, Bool.or_eq_true, decide_eq_true_eq, Option.any_eq_true, List.any_eq_true,
    mem_ofKind]
  refine and_congr_right fun _ => or_congr_right (exists_congr fun k => ⟨?_, ?_⟩)
  · rintro ⟨active, e, ⟨⟨j, entry⟩, gum⟩, bound⟩
    exact ⟨j, e, active, entry, gum, bound⟩
  · rintro ⟨j, e, active, entry, gum, bound⟩
    exact ⟨active, e, ⟨⟨j, entry⟩, gum⟩, bound⟩

theorem cellLevel_windowOut (mode : s.cells[i].config.mode = .windowOut) : s.cellLevel i
    = if s.line.mode = .armed then s.windowReported i || s.primeDrives i else s.cells[i].config.safe := by
  simp only [State.cellLevel, mode]

theorem cellLevel_pulseOut (mode : s.cells[i].config.mode = .pulseOut) : s.cellLevel i
    = if s.line.mode = .armed then (s.cells[i].pulseTimer.isSome && decide (s.angle.debt = 0)) || s.primeDrives i
      else s.cells[i].config.safe := by
  simp only [State.cellLevel, mode]

theorem cellLevel_levelIn (mode : s.cells[i].config.mode = .levelIn) : s.cellLevel i = s.cells[i].pinLevel := by
  simp only [State.cellLevel, mode]

theorem cellZ_levelIn (mode : s.cells[i].config.mode = .levelIn) :
    s.cellZ i = { stamp := 0, angle := if s.cells[i].pinLevel then 1 else 0 } := by
  simp only [State.cellZ, mode]

theorem cellLevel_unarmed (unarmed : s.line.mode ≠ .armed)
    (output : s.cells[i].config.mode = .windowOut ∨ s.cells[i].config.mode = .pulseOut) :
    s.cellLevel i = s.cells[i].config.safe := by
  rcases output with mode | mode
  · rw [cellLevel_windowOut mode, if_neg unarmed]
  · rw [cellLevel_pulseOut mode, if_neg unarmed]

theorem pinDrive_output (output : s.cells[i].config.mode = .windowOut ∨ s.cells[i].config.mode = .pulseOut) :
    s.pinDrive i = some (s.cells[i].config.polarity.logical (s.cellLevel i)) := by
  rcases output with mode | mode <;> exact if_pos (by rw [mode]; rfl)

theorem pinDrive_other (window : s.cells[i].config.mode ≠ .windowOut) (pulse : s.cells[i].config.mode ≠ .pulseOut) :
    s.pinDrive i = none := by
  have other : ¬ s.cells[i].config.mode.isOutput = true := by
    cases mode : s.cells[i].config.mode with
    | windowOut => exact absurd mode window
    | pulseOut => exact absurd mode pulse
    | off | edgeIn | levelIn => exact Bool.false_ne_true
  exact if_neg other

/-- A pin of a cell that is no edge input only moves (R17, log 20). -/
theorem pinGoes_of_level (high : Bool) (mode : s.cells[i].config.mode ≠ .edgeIn) :
    s.pinGoes i high = { s with cells := setAt s.cells i { s.cells[i] with pinHigh := high } } := by
  unfold State.pinGoes
  split
  · next same =>
    rw [← same]
    change s = { s with cells := setAt s.cells i s.cells[i.val] }
    rw [setAt_getElem_self]
  · refine if_pos ?_
    rw [updCell_cells, fin_getElem_setAt_self]
    exact mode

/-- Settles O16, by the cell's mode, the line mode and, for the prime, the gum state. -/
theorem levelInputsPulseEndsAndSafeOutputs : Obligations.LevelInputsPulseEndsAndSafeOutputs := by
  refine ⟨fun i high s mode => ⟨s.pinGoes i high, rfl, ?_⟩, fun i s running =>
      takeEvent_running running fun u : State => u.updCell i fun c => { c with pulseTimer := none },
    fun i s unarmed output => ⟨cellLevel_unarmed unarmed output, ?_⟩, fun i s armed => ⟨fun mode => ?_, fun mode => ?_⟩,
    fun i s => ⟨fun output => ?_, pinDrive_other, fun mode => ?_⟩⟩
  · have here : (s.pinGoes i high).cells[i] = { s.cells[i] with pinHigh := high } := by
      rw [pinGoes_of_level high (by rw [mode]; decide)]
      exact fin_getElem_setAt_self ..
    have stays : (s.pinGoes i high).cells[i].config.mode = .levelIn := by rw [here]; exact mode
    refine ⟨pinGoes_of_level high (by rw [mode]; decide), ?_, ?_⟩
    · rw [cellLevel_levelIn stays, here]
      rfl
    · rw [cellZ_levelIn stays, here]
      rfl
  · rw [pinDrive_output output, cellLevel_unarmed unarmed output]
    rfl
  · rw [cellLevel_windowOut mode, if_pos armed, Bool.or_eq_true, windowReported_iff, primeDrives_iff]
  · rw [cellLevel_pulseOut mode, if_pos armed, Bool.or_eq_true, primeDrives_iff, Bool.and_eq_true, decide_eq_true_eq,
      and_comm (b := s.angle.debt = 0)]
  · rw [pinDrive_output output]
    cases s.cells[i].config.polarity <;> rfl
  · simp only [State.cellLevel, mode]

end

end Sys2Proof.Proofs

/-!
PROOF. The counts and the index correction (R4 to R8, R24, R44): what a count does around its own effect, and where it
takes p, the debt and the ring.
-/

namespace Sys2Proof.Proofs

open Sys2Proof Sys2Proof.Machine Sys2Proof.Safety Sys2Proof.Laws

/-! ### The sampled levels and the motion -/

section
variable {s : State} {c : Constants}

/-- The direction in which QA leads QB as the count goes a way (R4). -/
def leadingUnder : CountSense → CountDirection
  | .forward => .normal
  | .backward => .inverted

theorem quadratureNext_eq (qa qb : Bool) : quadratureNext (qa, qb) = (!qb, qa) := by
  cases qa <;> cases qb <;> rfl

theorem quadraturePrevious_eq (qa qb : Bool) : quadraturePrevious (qa, qb) = (qb, !qa) := by
  cases qa <;> cases qb <;> rfl

/-- The state as a count is taken, before its own effect (R4, R7). -/
def State.countedAs (sense : CountSense) (c : Constants) (s : State) : State := { s with
  angle := { s.angle with
    qa := (levelsAfter (decide (c.direction = leadingUnder sense)) s.angle.qa s.angle.qb).1
    qb := (levelsAfter (decide (c.direction = leadingUnder sense)) s.angle.qa s.angle.qb).2
    haltTimer := 0, lastCount := some sense } }

theorem transition_written (sense : CountSense) (written : s.constants = some c) :
    (s.transition sense).counted sense = State.countedAs sense c s := by
  cases sense <;> cases direction : c.direction <;>
    simp only [State.transition, State.direction, written, direction, quadratureNext_eq, quadraturePrevious_eq,
      State.counted, State.countedAs, levelsAfter, leadingUnder, decide_true, if_true, reduceCtorEq, decide_false,
      Bool.false_eq_true, if_false]

theorem transition_unwritten (unwritten : s.constants = none) :
    s.transition .forward = { s with angle := { s.angle with qa := !s.angle.qb, qb := s.angle.qa } }
    ∧ s.transition .backward = { s with angle := { s.angle with qa := s.angle.qb, qb := !s.angle.qa } } := by
  simp only [State.transition, State.direction, unwritten, quadratureNext_eq, quadraturePrevious_eq, and_self]

theorem exec_forwardCount (running : s.heldInReset = false) (written : s.constants = some c) :
    exec .forwardCount s = .next ((s.transition .forward).takeCount .forward (State.forwardWork c)) := by
  change execForwardCount s = _
  rw [execForwardCount, takeEvent_running running, written]

theorem exec_backwardCount (running : s.heldInReset = false) (written : s.constants = some c) :
    exec .backwardCount s = .next ((s.transition .backward).takeCount .backward (State.backwardWork c)) := by
  change execBackwardCount s = _
  rw [execBackwardCount, takeEvent_running running, written]

theorem exec_forwardCount_unwritten (running : s.heldInReset = false) (unwritten : s.constants = none) :
    exec .forwardCount s = .next (s.transition .forward) := by
  change execForwardCount s = _
  rw [execForwardCount, takeEvent_running running, unwritten]

theorem exec_backwardCount_unwritten (running : s.heldInReset = false) (unwritten : s.constants = none) :
    exec .backwardCount s = .next (s.transition .backward) := by
  change execBackwardCount s = _
  rw [execBackwardCount, takeEvent_running running, unwritten]

end

/-! ### A count around its own effect (R89, R96, log 5, log 22) -/

section
variable {s : State} {c : Constants} {sense : CountSense} {work : State → State}

theorem takeCount_turning (written : s.constants = some c) (turns : s.motion ≠ .halted) :
    (s.transition sense).takeCount sense work = work (State.countedAs sense c s) := by
  rw [← transition_written sense written]
  exact if_neg turns

theorem takeCount_halted (written : s.constants = some c) (halted : s.motion = .halted)
    (alone : s.gum.state ≠ .priming ∨ s.firedGum = []) :
    (s.transition sense).takeCount sense work = work (State.countedAs sense c s).gumLeavesHalt := by
  have settled : ¬ (decide ((s.transition sense).gum.state = .priming) && !(s.transition sense).firedGum.isEmpty) = true := by
    change ¬ (decide (s.gum.state = .priming) && !s.firedGum.isEmpty) = true
    rcases alone with idle | shut
    · simp [idle]
    · simp [shut]
  rw [← transition_written sense written]
  refine (if_pos halted).trans ?_
  rw [eitherOrder, if_neg settled]

theorem takeCount_halted_open (written : s.constants = some c) (halted : s.motion = .halted)
    (priming : s.gum.state = .priming) (window : s.firedGum ≠ []) :
    let v : State := { State.countedAs sense c s with choice := s.choice + 1 }
    (s.transition sense).takeCount sense work = work v.gumLeavesHalt
      ∨ (s.transition sense).takeCount sense work = (work v).gumLeavesHalt := by
  have matters : (decide ((s.transition sense).gum.state = .priming) && !(s.transition sense).firedGum.isEmpty) = true := by
    change (decide (s.gum.state = .priming) && !s.firedGum.isEmpty) = true
    simp [priming, window]
  have order : (s.transition sense).takeCount sense work = eitherOrder true State.gumLeavesHalt work (State.countedAs sense c s) := by
    rw [← transition_written sense written, ← matters]
    exact if_pos halted
  intro v
  rw [order, eitherOrder, if_pos rfl]
  dsimp only
  split
  · exact .inr rfl
  · exact .inl rfl

theorem gumLeavesHalt_idle (idle : s.gum.state ≠ .priming) :
    s.gumLeavesHalt = { s with gum := { s.gum with standbyTimer := 0 } } := if_neg idle

/-- A prime that a count ends with no fired GUM window open (R96). -/
theorem gumLeavesHalt_priming (priming : s.gum.state = .priming) (shut : s.firedGum = []) : s.gumLeavesHalt
    = { State.prune { s with gum := { state := .standby, standbyTimer := 0, primeTimer := none } } with
        line := { s.line with events := addBit s.line.events LineEvent.primeAborted.bit } } := by
  have shut' : State.firedGum { s with gum := { s.gum with standbyTimer := 0 } } = [] := shut
  have runs : (decide (s.gum.state = .ready) || decide (s.gum.state = .priming)) = true := by simp [priming]
  rw [State.gumLeavesHalt, State.abortPrime, if_pos priming, State.gumTo]
  simp only [shut', runs, List.foldl_nil]
  rfl

end

/-! ### The backward count -/

section
variable {s : State} {c : Constants}

/-- A backward count that does not lose track touches the angle unit alone (R6, R45). -/
theorem backwardWork_keeps (kept : (s.angle.debt = 0 ∧ 0 < s.angle.p) ∨ s.angle.debt + 1 ≤ c.e) :
    ∃ a, s.backwardWork c = { s with angle := a } := by
  unfold State.backwardWork
  split
  · exact ⟨_, rfl⟩
  · next stuck =>
    have within : ¬ c.e < s.angle.debt + 1 := by
      simp only [Bool.and_eq_true, decide_eq_true_eq] at stuck
      omega
    exact ⟨_, if_neg within⟩

theorem takeCount_setup {sense : CountSense} {work : State → State} (setup : ∀ u, SameSetup u (work u))
    (written : s.constants = some c) :
    SameSetup s ((s.transition sense).takeCount sense work) := by
  obtain ⟨u, before, after⟩ := takeCount_spec sense work (s.transition sense)
  rw [transition_written sense written] at before
  exact sameSetup_trans (sameSetup_trans (sameSetup_angle s _) before.toSameSetup)
    (sameSetup_trans (setup u) after.toSameSetup)

/-- Settles O18, by p = 0 and the debt; only a loss of track reaches beyond the angle unit. -/
theorem backwardCountMovesAngle : Obligations.BackwardCountMovesAngle := by
  intro s running
  obtain unwritten | ⟨c, written⟩ := Option.eq_none_or_eq_some s.constants
  · refine ⟨_, exec_backwardCount_unwritten running unwritten, sameSetup_angle s _, rfl, ?_⟩
    rw [(transition_unwritten unwritten).2, unwritten]
  · obtain ⟨u, before, after⟩ := takeCount_spec .backward (State.backwardWork c) (s.transition .backward)
    rw [transition_written .backward written] at before
    obtain ⟨-, head, angle⟩ := backwardWork_spec c u
    rw [before.angle] at angle
    have head := after.head.trans (head.trans before.head)
    have angle := after.angle.trans angle
    refine ⟨_, exec_backwardCount running written, takeCount_setup (fun v => (backwardWork_spec c v).1) written, head, ?_⟩
    split
    · next other => cases written.symm.trans other
    next c' other =>
    obtain rfl := Option.some.inj (written.symm.trans other)
    refine ⟨?_, fun kept => ⟨fun turns => ?_, fun halted idle => ?_, fun halted priming shut => ?_⟩⟩
    · split_ifs with back within
      · exact angle.trans (if_pos back)
      · exact angle.trans ((if_neg back).trans (if_pos within))
      · exact angle.trans ((if_neg back).trans (if_neg within))
    · rw [takeCount_turning written turns]
      obtain ⟨a, whole⟩ := backwardWork_keeps (c := c) (s := State.countedAs .backward c s) kept
      rw [whole]
      rfl
    · rw [takeCount_halted written halted (.inl idle), gumLeavesHalt_idle (s := State.countedAs .backward c s) idle]
      obtain ⟨a, whole⟩ := backwardWork_keeps (c := c) (s := { State.countedAs .backward c s with
        gum := { s.gum with standbyTimer := 0 } }) kept
      exact whole ▸ rfl
    · rw [takeCount_halted written halted (.inr shut),
        gumLeavesHalt_priming (s := State.countedAs .backward c s) priming shut]
      generalize pruned : State.prune { State.countedAs .backward c s with
        gum := { state := .standby, standbyTimer := 0, primeTimer := none } } = v
      have same : v.angle = (State.countedAs .backward c s).angle := by rw [← pruned]; rfl
      obtain ⟨a, whole⟩ := backwardWork_keeps (c := c) (s := { v with
        line := { s.line with events := addBit s.line.events LineEvent.primeAborted.bit } }) (by rw [same]; exact kept)
      have left : (State.countedAs .backward c s).line = s.line := rfl
      rw [left, whole, ← pruned]
      exact ⟨rfl, fun k i evaluated => (prune_station _ k i).trans (if_pos evaluated)⟩

end

end Sys2Proof.Proofs

/-!
PROOF. The index correction (R7): where it takes p, the debt and the ring by the distance to Z0, and the cause it raises.
-/

namespace Sys2Proof.Proofs

open Sys2Proof Sys2Proof.Machine Sys2Proof.Safety Sys2Proof.Laws

/-! ### The distance -/

/-- The distance is the only number congruent to Z0 − p above −E/2 and not above E/2. -/
theorem indexDistance_unique {e z0 p : Nat} {d : Int} (positive : 0 < e) (congruent : (e : Int) ∣ ((z0 : Int) - p) - d)
    (above : -(e : Int) < 2 * d) (below : 2 * d ≤ e) : indexDistance e z0 p = d := by
  obtain ⟨above', below', m, whole⟩ := indexDistance_spec (z0 := z0) (p := p) positive
  obtain ⟨n, apart⟩ := congruent
  have multiple : indexDistance e z0 p - d = e * (n + m) := by
    rw [whole, mul_add, ← apart]
    ring
  rcases lt_trichotomy (n + m) 0 with less | zero | more
  · nlinarith
  · rw [zero] at multiple
    omega
  · nlinarith

/-- p and the distance end at Z0, at Z0 a cycle further or at Z0 a cycle before. -/
theorem moved_eq {e z0 p : Nat} {d : Int} (z0Below : z0 < e) (pBelow : p < e) (congruent : (e : Int) ∣ ((z0 : Int) - p) - d)
    (above : -(e : Int) < 2 * d) (below : 2 * d ≤ e) : p + d = z0 ∨ p + d = z0 + e ∨ p + d = z0 - e := by
  obtain ⟨n, apart⟩ := congruent
  have least : -2 < n := by nlinarith
  have most : n < 2 := by nlinarith
  have : n = -1 ∨ n = 0 ∨ n = 1 := by omega
  rcases this with rfl | rfl | rfl <;> omega

/-! ### The correction's own effect -/

/-- A state after the correction by a distance, from the θ and the p it began at (R7, R8, R44). -/
def State.movedBy (c : Constants) (z0 : Nat) (d : Int) (theta p : Nat) (u : State) : State :=
  if d = 0 then u
  else if 0 < d then
    if p + d < c.e then State.passAngles (theta + 1) (z0 * 65536 / c.e) { u with angle := { u.angle with p := z0 } }
    else
      let h := (u.passAngles (theta + 1) 65535).headAdvance
      State.passAngles 0 (z0 * 65536 / c.e) { h with angle := { h.angle with p := z0 } }
  else if 0 ≤ p + d then { u with angle := { u.angle with p := z0 } }
  else { u with angle := { u.angle with p := 0, debt := c.e - z0 } }

section
variable {c : Constants} {z0 : Nat} {d : Int} {s u : State}

theorem theta_written (written : s.constants = some c) : s.theta = s.angle.p * 65536 / c.e := by
  rw [State.theta, written]

theorem stepForward_eq (written : s.constants = some c) (p : Nat) : s.stepForward p
    = State.passAngles (s.theta + 1) (p * 65536 / c.e) { s with angle := { s.angle with p := p } } := by
  rw [State.stepForward, theta_written (s := s.setP p) written]
  rfl

theorem wrap_eq (written : s.constants = some c) (p : Nat) : s.wrap p
    = State.passAngles 0 (p * 65536 / c.e) { (s.passAngles (s.theta + 1) 65535).headAdvance with
        angle := { (s.passAngles (s.theta + 1) 65535).headAdvance.angle with p := p } } := by
  have same : (s.passAngles (s.theta + 1) 65535).headAdvance.constants = some c :=
    (headAdvance_constants _).trans ((works_passAngles ..).constants.trans written)
  unfold State.wrap
  generalize (s.passAngles (s.theta + 1) 65535).headAdvance = v at same ⊢
  dsimp only
  rw [theta_written (s := v.setP p) same]
  rfl

theorem correctIndex_eq (written : u.constants = some c) (z0Below : z0 < c.e) (pBelow : u.angle.p < c.e)
    (congruent : (c.e : Int) ∣ ((z0 : Int) - u.angle.p) - d) (above : -(c.e : Int) < 2 * d) (below : 2 * d ≤ c.e) :
    u.correctIndex c z0 = State.movedBy c z0 d u.theta u.angle.p u := by
  have positive : 0 < c.e := Nat.lt_of_le_of_lt (Nat.zero_le _) z0Below
  have ends := moved_eq z0Below pBelow congruent above below
  rw [State.correctIndex, indexDistance_unique positive congruent above below, State.movedBy, stepForward_eq written,
    wrap_eq written]
  split_ifs with zero forward within back
  · rfl
  · rfl
  · rfl
  · rfl
  · have debt : (-((u.angle.p : Int) + d)).toNat = c.e - z0 := by omega
    rw [debt]

theorem gumGoes_correctIndex (c : Constants) (z0 : Nat) (s : State) : GumGoes s (s.correctIndex c z0) :=
  gumGoes_ite (tends_refl s).gum (gumGoes_ite (gumGoes_ite (gumGoes_stepForward ..) (gumGoes_wrap ..))
    (gumGoes_ite (gumGoes_angle s _) (gumGoes_angle s _)))

/-- Work that leaves of the setup, the angle unit and the ring nothing changed but the ring's entries. -/
structure Around (s t : State) : Prop extends Works s t where
  ring : t.ring = { s.ring with entries := t.ring.entries }

theorem around_refl (s : State) : Around s s := ⟨works_refl s, rfl⟩

theorem around_choice (s : State) (n : Nat) : Around s { s with choice := n } := ⟨works_choice s n, rfl⟩

theorem around_raiseCause (cause : Cause) (s : State) : Around s (s.raiseCause cause) := by
  refine ⟨works_raiseCause cause s, ?_⟩
  by_cases armed : s.line.mode = .armed
  · obtain ⟨_, _, _, whole⟩ := raiseCause_of_armed cause armed
    rw [whole]
  · rw [raiseCause_of_not_armed cause armed]

theorem Around.trans {s t u : State} (h : Around s t) (g : Around t u) : Around s u :=
  ⟨h.toWorks.trans g.toWorks, by rw [g.ring, h.ring]⟩

/-- Where the correction takes the angle unit and the ring (R7, R8, R24). -/
structure CorrectsTo (c : Constants) (z0 : Nat) (d : Int) (s t : State) : Prop where
  within : 0 ≤ d → s.angle.p + d < c.e → t.angle = { s.angle with p := z0 } ∧ t.ring.head = s.ring.head
  wraps : (c.e : Int) ≤ s.angle.p + d →
    t.angle = { s.angle with
      p := z0, cycle := s.angle.cycle + 1
      tc := if s.angle.hasReference then s.angle.cycleTimer else s.angle.tc
      cycleTimer := 0, hasReference := true }
    ∧ t.ring.head = s.ring.head - 1
  back : d < 0 → 0 ≤ s.angle.p + d → t.angle = { s.angle with p := z0 } ∧ t.ring = { s.ring with entries := t.ring.entries }
  owes : s.angle.p + d < 0 →
    t.angle = { s.angle with p := 0, debt := c.e - z0 } ∧ t.ring = { s.ring with entries := t.ring.entries }

theorem CorrectsTo.around {s t u v : State} (before : Around s u) (h : CorrectsTo c z0 d u t) (after : Around t v) :
    CorrectsTo c z0 d s v := by
  have entries (h : t.ring = { u.ring with entries := t.ring.entries }) :
      v.ring = { s.ring with entries := v.ring.entries } := by rw [after.ring, h, before.ring]
  obtain ⟨within, wraps, back, owes⟩ := h
  rw [before.angle, before.head] at within wraps
  rw [before.angle] at back owes
  constructor <;> rw [after.angle]
  · rw [after.head]; exact within
  · rw [after.head]; exact wraps
  · exact fun less inside => (back less inside).imp_right entries
  · exact fun outside => (owes outside).imp_right entries

/-- What a correction is measured by: Z0 within the cycle, p within the cycle, and d the distance (R7). -/
structure Measures (c : Constants) (z0 : Nat) (d : Int) (p : Nat) : Prop where
  target : z0 < c.e
  start : p < c.e
  congruent : (c.e : Int) ∣ ((z0 : Int) - p) - d
  above : -(c.e : Int) < 2 * d
  below : 2 * d ≤ c.e

theorem Measures.correctIndex (m : Measures c z0 d u.angle.p) (written : u.constants = some c) :
    u.correctIndex c z0 = State.movedBy c z0 d u.theta u.angle.p u :=
  correctIndex_eq written m.target m.start m.congruent m.above m.below

theorem Measures.correctsTo (m : Measures c z0 d u.angle.p) : CorrectsTo c z0 d u (u.correctIndex c z0) := by
  have positive : 0 < c.e := Nat.lt_of_le_of_lt (Nat.zero_le _) m.target
  have ends := moved_eq m.target m.start m.congruent m.above m.below
  have target := m.target
  have start := m.start
  rw [State.correctIndex, indexDistance_unique positive m.congruent m.above m.below]
  dsimp only
  split_ifs with zero forward within back
  · have here : u.angle.p = z0 := by omega
    exact ⟨fun _ _ => ⟨here ▸ rfl, rfl⟩, fun _ => by omega, fun _ => by omega, fun _ => by omega⟩
  · obtain ⟨-, head, angle⟩ := stepForward_spec z0 u
    exact ⟨fun _ _ => ⟨angle, head⟩, fun _ => by omega, fun _ => by omega, fun _ => by omega⟩
  · obtain ⟨-, head, angle⟩ := wrap_spec z0 u
    exact ⟨fun _ _ => by omega, fun _ => ⟨angle, head⟩, fun _ => by omega, fun _ => by omega⟩
  · exact ⟨fun _ => by omega, fun _ => by omega, fun _ _ => ⟨rfl, rfl⟩, fun _ => by omega⟩
  · have debt : (-((u.angle.p : Int) + d)).toNat = c.e - z0 := by omega
    exact ⟨fun _ => by omega, fun _ => by omega, fun _ _ => by omega, fun _ => ⟨by rw [debt], rfl⟩⟩

theorem exec_indexCorrection (running : s.heldInReset = false) (written : s.constants = some c) (named : c.z0 = some z0)
    (level : s.angle.debt = 0) (forward : s.angle.lastCount = some .forward) (m : Measures c z0 d s.angle.p) :
    exec .indexCorrection s = .next (if slipLimit < d.natAbs then
      eitherOrder (decide (0 < d)) (State.raiseCause .indexSlip) (State.correctIndex c z0) s else s.correctIndex c z0) := by
  change execIndexCorrection s = _
  have positive : 0 < c.e := Nat.lt_of_le_of_lt (Nat.zero_le _) m.target
  rw [execIndexCorrection, takeEvent_running running, written]
  simp only [named, level, forward, decide_true, Bool.and_self, if_true,
    indexDistance_unique positive m.congruent m.above m.below]

/-- A correction beyond 8 counts raises its cause, before its own effect or after it (R7, log 7). -/
theorem slips_eq (written : s.constants = some c) (m : Measures c z0 d s.angle.p) {t : State}
    (slips : t = eitherOrder (decide (0 < d)) (State.raiseCause .indexSlip) (State.correctIndex c z0) s) :
    hasBit t.line.causes Cause.indexSlip.bit = true ∧ t.line.mode ≠ .armed
    ∧ SameSetup s t ∧ CorrectsTo c z0 d s t
    ∧ ∃ n, let u : State := { s with choice := n }
      t = State.movedBy c z0 d s.theta s.angle.p (u.raiseCause .indexSlip)
        ∨ t = (State.movedBy c z0 d s.theta s.angle.p u).raiseCause .indexSlip := by
  have raised (u : State) : hasBit (u.raiseCause .indexSlip).line.causes Cause.indexSlip.bit = true
      ∧ (u.raiseCause .indexSlip).line.mode ≠ .armed := by
    rw [raiseCause_causes, raiseCause_mode]
    exact ⟨by simp, by split <;> simp_all⟩
  obtain ⟨n, order⟩ := eitherOrder_eq (decide (0 < d)) (State.raiseCause .indexSlip) (State.correctIndex c z0) s
  rw [← slips] at order
  rcases order with rfl | rfl
  · have before := (around_choice s n).trans (around_raiseCause .indexSlip _)
    have line := (gumGoes_correctIndex c z0 (State.raiseCause .indexSlip { s with choice := n })).line
    obtain ⟨causes, unarmed⟩ := raised { s with choice := n }
    have measures : Measures c z0 d (State.raiseCause .indexSlip { s with choice := n }).angle.p := by
      rw [before.angle]; exact m
    have moved := measures.correctIndex (before.constants.trans written)
    refine ⟨line.causes _ causes, line.unarmed unarmed, sameSetup_trans before.toSameSetup (sameSetup_correctIndex ..),
      measures.correctsTo.around before (around_refl _), n, .inl ?_⟩
    rw [theta_written (before.constants.trans written), before.angle, ← theta_written written] at moved
    exact moved
  · obtain ⟨causes, unarmed⟩ := raised (State.correctIndex c z0 { s with choice := n })
    have after := around_raiseCause .indexSlip (State.correctIndex c z0 { s with choice := n })
    have measures : Measures c z0 d ({ s with choice := n } : State).angle.p := m
    refine ⟨causes, unarmed, sameSetup_trans (sameSetup_trans (around_choice s n).toSameSetup
      (sameSetup_correctIndex ..)) after.toSameSetup, measures.correctsTo.around (around_choice s n) after, n, .inr ?_⟩
    rw [measures.correctIndex written]
    rfl

theorem exec_indexCorrection_ignored (ignored : s.constants = none
      ∨ (∀ c, s.constants = some c → c.z0 = none) ∨ s.angle.debt ≠ 0 ∨ s.angle.lastCount ≠ some .forward) :
    exec .indexCorrection s = .next s := by
  change execIndexCorrection s = _
  cases held : s.heldInReset with
  | true => exact takeEvent_held held _
  | false =>
    rw [execIndexCorrection, takeEvent_running held]
    congr 1
    split
    · rfl
    next c written =>
    split
    · rfl
    next z0 named =>
    refine if_neg fun qualifies => ?_
    simp only [Bool.and_eq_true, decide_eq_true_eq] at qualifies
    obtain ⟨level, forward⟩ := qualifies
    rcases ignored with unwritten | unnamed | owes | other
    · cases written.symm.trans unwritten
    · cases named.symm.trans (unnamed c written)
    · exact owes level
    · exact other forward

/-- Settles O20, by whether the shorter way leads across the wrap (`Around`). -/
theorem indexCorrectionMovesAngle : Obligations.IndexCorrectionMovesAngle := by
  refine ⟨fun c z0 d s running written named target start level forward congruent above below => ?_,
    fun s => exec_indexCorrection_ignored⟩
  have m : Measures c z0 d s.angle.p := ⟨target, start, congruent, above, below⟩
  have next := exec_indexCorrection running written named level forward m
  by_cases slips : slipLimit < d.natAbs
  · rw [if_pos slips] at next
    obtain ⟨causes, unarmed, setup, to', order⟩ := slips_eq written m rfl
    exact ⟨_, next, setup, fun _ => ⟨causes, unarmed⟩, to'.within, to'.wraps, to'.back, to'.owes,
      fun near => absurd slips (Nat.not_lt.mpr near), fun _ => order⟩
  · rw [if_neg slips] at next
    have to' := m.correctsTo
    exact ⟨_, next, sameSetup_correctIndex .., fun far => absurd far slips, to'.within, to'.wraps, to'.back, to'.owes,
      fun _ => m.correctIndex written, fun far => absurd far slips⟩

end

end Sys2Proof.Proofs

/-!
PROOF. The forward count (R4, R5, R8, R24, R43, R44): debt paid off, p moved on, or the wrap, and what the head advance
does to the ring and to the stations.
-/

namespace Sys2Proof.Proofs

open Sys2Proof Sys2Proof.Machine Sys2Proof.Safety Sys2Proof.Laws

/-! ### A forward count's own effect -/

/-- A state after a forward count without debt, from the θ and the p it began at (R5, R8, R44). -/
def State.advancedBy (c : Constants) (theta p : Nat) (u : State) : State :=
  if p + 1 < c.e then State.passAngles (theta + 1) ((p + 1) * 65536 / c.e) { u with angle := { u.angle with p := p + 1 } }
  else
    let h := (u.passAngles (theta + 1) 65535).headAdvance
    State.passAngles 0 0 { h with angle := { h.angle with p := 0 } }

section
variable {c : Constants} {s u : State}

theorem forwardWork_debt (owes : 0 < u.angle.debt) :
    u.forwardWork c = { u with angle := { u.angle with debt := u.angle.debt - 1 } } := if_pos owes

theorem forwardWork_level (written : u.constants = some c) (level : u.angle.debt = 0) :
    u.forwardWork c = State.advancedBy c u.theta u.angle.p u := by
  rw [State.forwardWork, if_neg (by omega), stepForward_eq written, wrap_eq written, Nat.zero_mul, Nat.zero_div]
  rfl

/-- A count finds the state that `advancedBy` is measured from wherever the angle unit and the constants are. -/
theorem forwardWork_from (written : s.constants = some c) (level : s.angle.debt = 0) (constants : u.constants = s.constants)
    (p : u.angle.p = s.angle.p) (debt : u.angle.debt = s.angle.debt) :
    u.forwardWork c = State.advancedBy c s.theta s.angle.p u := by
  rw [forwardWork_level (constants.trans written) (debt.trans level), theta_written (constants.trans written), p,
    ← theta_written written]

end

/-! ### The stations at a head advance -/

section
variable {s : State} {k : Fin 4} {i : Fin 16}

theorem stationsAdvance_station (s : State) (k : Fin 4) (i : Fin 16) : s.stationsAdvance.station k i
    = if s.evaluated k then { s.station k i with
        onMark := false, offMark := false
        lead := (s.entry k i).elim 0 fun e => e.leadUnder s.leadScale }
      else s.station k i := by
  simp only [State.station, State.stationsAdvance, mapSlots_stations, fin_getElem_mapTable]
  split
  · rw [fin_getElem_mapTable]
    cases s.entry k i <;> rfl
  · rfl

theorem stationsAdvance_evaluated (s : State) (k : Fin 4) : s.stationsAdvance.evaluated k = s.evaluated k := by
  have shown : s.stationsAdvance.anyOpen k = s.anyOpen k := by
    simp only [State.anyOpen]
    congr 1
    funext i
    rw [stationsAdvance_station]
    split <;> rfl
  simp only [State.evaluated, shown]
  rfl

/-- The state of a head advance before its stations follow: the ring, the angle unit, the registration unit and CYM. -/
def State.advancing (s : State) : State := { s.ringAdvance with
  angle := s.ringAdvance.angle.headAdvance
  registration := s.ringAdvance.registration.headAdvance
  cym := s.ringAdvance.cym.headAdvance }

theorem advancing_keeps (s : State) : (State.advancing s).active = s.active ∧ (State.advancing s).stations = s.stations
    ∧ (State.advancing s).slots = s.slots := by
  rw [State.advancing, ringAdvance_eq]
  exact ⟨rfl, rfl, rfl⟩

/-- The stations of a head advance (R43, R44, R47): in the evaluated set the marks clear and the leads follow the lead
scale, and a slot that leaves the set loses their state. -/
theorem headAdvance_station (evaluated : s.headAdvance.evaluated k = true) :
    s.headAdvance.station k i = { s.station k i with
      onMark := false, offMark := false
      lead := (s.entry k i).elim 0 fun e => e.leadUnder s.headAdvance.leadScale } := by
  obtain ⟨-, stations, slots⟩ := advancing_keeps s
  have same : s.headAdvance = (State.advancing s).prune.stationsAdvance := rfl
  have scale : (State.advancing s).prune.stationsAdvance.leadScale = (State.advancing s).prune.leadScale := rfl
  rw [same, stationsAdvance_evaluated] at evaluated
  rw [same, stationsAdvance_station, if_pos evaluated, prune_station, if_pos (by rwa [prune_evaluated] at evaluated), scale]
  simp only [State.station, State.entry, stations, prune_slots, slots]

theorem leftSetsCleared_headAdvance (s : State) : LeftSetsCleared s.headAdvance := by
  intro k out i
  have same : s.headAdvance = (State.advancing s).prune.stationsAdvance := rfl
  rw [same, stationsAdvance_evaluated] at out
  have left : ¬ (State.advancing s).prune.evaluated k = true := by rw [out]; decide
  rw [same, stationsAdvance_station, if_neg left]
  exact leftSetsCleared_prune _ k out i

theorem headAdvance_active_evaluated (active : s.active = some k) : s.headAdvance.evaluated k = true :=
  evaluated_iff.mpr (.inl ((headAdvance_changeover s).1.trans active))

theorem leadUnder_leadScale (e : Entry) (s : State) : e.leadUnder s.leadScale
    = if e.kind.isOutput = true ∧ s.motion = .running then min 16384 (e.leadUs * 65536 / s.angle.tc) else 0 := by
  unfold Entry.leadUnder State.leadScale leadAngle
  split_ifs with output running still both
  all_goals simp_all

/-- The notices at a head advance: those of the record at the last position are withdrawn (R24). -/
theorem headAdvance_notices_present {c : Constants} (written : s.constants = some c) (least : 4 ≤ c.p) (most : c.p ≤ 64)
    {k : Fin 64} (last : k.val + 1 = c.p) :
    s.headAdvance.notices = s.notices.filter fun n => (s.presentAt k).all fun b => n.seq ≠ b.seq := by
  have length : s.lineLength = c.p := by rw [State.lineLength, written]
  have here : Fin.ofNat 64 (s.lineLength - 1) = k := by
    rw [Fin.ext_iff, Fin.val_ofNat, length, Nat.mod_eq_of_lt (by omega)]
    omega
  rw [headAdvance_notices, here, State.presentAt, if_pos (by omega)]

end

/-! ### The obligation -/

section
variable {s : State} {c : Constants}

/-- The state as a count sets a halted machine with no prime going, before the count's own effect (R89). -/
def State.startedAs (sense : CountSense) (c : Constants) (s : State) : State :=
  { State.countedAs sense c s with gum := { s.gum with standbyTimer := 0 } }

theorem takeCount_starts {sense : CountSense} (work : State → State) (written : s.constants = some c)
    (halted : s.motion = .halted) (idle : s.gum.state ≠ .priming) :
    (s.transition sense).takeCount sense work = work (State.startedAs sense c s) := by
  rw [takeCount_halted written halted (.inl idle), gumLeavesHalt_idle (s := State.countedAs sense c s) idle]
  rfl

/-- The counts of a machine that owes debt, or moves on (R5, R9). -/
theorem forwardCount_angle (running : s.heldInReset = false) (written : s.constants = some c) :
    ∃ t, exec .forwardCount s = .next t ∧ SameSetup s t ∧
      if 0 < s.angle.debt then t.angle = { (State.countedAs .forward c s).angle with debt := s.angle.debt - 1 }
        ∧ t.ring.head = s.ring.head
      else if s.angle.p + 1 < c.e then t.angle = { (State.countedAs .forward c s).angle with p := s.angle.p + 1 }
        ∧ t.ring.head = s.ring.head
      else t.angle = { (State.countedAs .forward c s).angle with
          p := 0, cycle := s.angle.cycle + 1
          tc := if s.angle.hasReference then s.angle.cycleTimer else s.angle.tc
          cycleTimer := 0, hasReference := true }
        ∧ t.ring.head = s.ring.head - 1 := by
  refine ⟨_, exec_forwardCount running written, takeCount_setup (fun v => (forwardWork_spec c v).1) written, ?_⟩
  obtain ⟨u, before, after⟩ := takeCount_spec .forward (State.forwardWork c) (s.transition .forward)
  rw [transition_written .forward written] at before
  obtain ⟨-, work⟩ := forwardWork_spec c u
  rw [after.angle, after.head]
  rw [before.angle, before.head] at work
  exact work

/-- Settles O17, by debt, the last count before the wrap, and the head advance at it. -/
theorem forwardCountMovesAngle : Obligations.ForwardCountMovesAngle := by
  refine ⟨fun s running => ?_, fun c s running written owes idle => ?_, fun c s running written level => ?_,
    fun c s written least most => ?_⟩
  · obtain unwritten | ⟨c, written⟩ := Option.eq_none_or_eq_some s.constants
    · refine ⟨_, exec_forwardCount_unwritten running unwritten, sameSetup_angle s _, ?_⟩
      rw [(transition_unwritten unwritten).1, unwritten]
    · obtain ⟨t, next, setup, moved⟩ := forwardCount_angle running written
      refine ⟨t, next, setup, ?_⟩
      rw [written]
      exact moved
  · have next := exec_forwardCount running written
    by_cases halted : s.motion = .halted
    · rw [takeCount_starts _ written halted idle, forwardWork_debt (u := State.startedAs .forward c s) owes] at next
      refine ⟨_, next, ?_⟩
      rw [if_pos halted]
      rfl
    · rw [takeCount_turning written halted, forwardWork_debt (u := State.countedAs .forward c s) owes] at next
      refine ⟨_, next, ?_⟩
      rw [if_neg halted]
      rfl
  · have next := exec_forwardCount running written
    have work (u : State) (constants : u.constants = s.constants) (p : u.angle.p = s.angle.p)
        (debt : u.angle.debt = s.angle.debt) := forwardWork_from written level constants p debt
    refine ⟨fun turns => ?_, fun halted idle => ?_, fun halted priming shut => ?_, fun halted priming window => ?_⟩
    · rw [next, takeCount_turning written turns, work (State.countedAs .forward c s) rfl rfl rfl]
      rfl
    · rw [next, takeCount_starts _ written halted idle, work (State.startedAs .forward c s) rfl rfl rfl]
      rfl
    · have halts := works_gumLeavesHalt (State.countedAs .forward c s)
      rw [next, takeCount_halted written halted (.inr shut),
        work _ halts.constants (by rw [halts.angle]; rfl) (by rw [halts.angle]; rfl)]
      rfl
    · have halts := works_gumLeavesHalt { State.countedAs .forward c s with choice := s.choice + 1 }
      rw [next]
      rcases takeCount_halted_open (work := State.forwardWork c) (sense := .forward) written halted priming window
        with order | order
      · rw [order, work _ halts.constants (by rw [halts.angle]; rfl) (by rw [halts.angle]; rfl)]
        exact .inl rfl
      · rw [order]
        exact .inr (congrArg (fun u => (Host.Outcome.next (State.gumLeavesHalt u) : Result))
          (work { State.countedAs .forward c s with choice := s.choice + 1 } rfl rfl rfl))
  · have length : s.lineLength = c.p := by rw [State.lineLength, written]
    obtain ⟨gap, moves⟩ := headAdvance_presentAt (s := s) (by omega) (by omega)
    refine ⟨gap, fun k inside => moves k (by omega), fun k last => headAdvance_notices_present written least most last, ?_,
      leftSetsCleared_headAdvance s, fun k i => ⟨headAdvance_active_evaluated, fun evaluated => ?_⟩⟩
    · rw [headAdvance_registration, Registration.headAdvance]
      split <;> rfl
    · rw [headAdvance_station evaluated]
      cases s.entry k i with
      | none => rfl
      | some e =>
        simp only [Option.elim_some, leadUnder_leadScale]

end

end Sys2Proof.Proofs

/-!
PROOF. The creation of a record by a FEED evaluation (R28, R29, R58, R68, R147, R150).
-/

namespace Sys2Proof.Proofs

open Sys2Proof Sys2Proof.Machine Sys2Proof.Safety Sys2Proof.Laws

/-- A record created at position 0 under a slot, once a pending changeover has taken effect (R29, R68, R150). -/
def State.createdUnder (fmt : Fin 4) (u : State) : State :=
  let b := Blank.fresh u.ring.nextSeq fmt (!(u.slots[fmt].ofKind .inspect).isEmpty) (u.line.mode = .armed)
  let placed := u.putAt 0 (some b)
  let numbered : State := { placed with ring := { placed.ring with nextSeq := successor u.ring.nextSeq } }
  let checked : State :=
    if u.slots[fmt].header.regOn then numbered else { numbered with registration := u.registration.enterOff }
  checked.cymCreation

section
variable {k n fmt : Fin 4} {theta : Nat} {s u : State}

theorem createRecord_of_settled (settled : s.pendingSlot = none) : s.createRecord k theta = State.createdUnder k s := by
  unfold State.createRecord
  simp only [settled, Option.getD_none]
  rfl

theorem createRecord_of_pending (pending : s.pendingSlot = some n) :
    s.createRecord k theta = State.createdUnder n (s.makeActive n theta) := by
  unfold State.createRecord
  simp only [pending, Option.getD_some]
  rfl

/-- The record of a creation (R29, R58). -/
def freshUnder (fmt : Fin 4) (s : State) : Blank where
  seq := s.ring.nextSeq
  fmt := fmt
  ops := 0
  faults := if s.line.mode = .armed then 0 else BitVec.twoPow 13 10
  regErr := none
  verdict := if s.slots[fmt].ofKind .inspect = [] then .noneDue else .awaiting
  failCode := none
  disposition := if s.line.mode = .armed then .inLine else .toReject
  batch := none

theorem fresh_eq (fmt : Fin 4) (s : State) :
    Blank.fresh s.ring.nextSeq fmt (!(s.slots[fmt].ofKind .inspect).isEmpty) (s.line.mode = .armed)
      = freshUnder fmt s := by
  have lineFault : addBit (0 : FaultSet) BlankFault.lineFault.bit = BitVec.twoPow 13 10 := by decide
  cases inspect : s.slots[fmt].ofKind .inspect <;> by_cases armed : s.line.mode = .armed <;>
    simp only [Blank.fresh, freshUnder, inspect, armed, decide_true, decide_false, if_true, if_false, List.isEmpty_nil,
      List.isEmpty_cons, Bool.not_true, Bool.not_false, Bool.false_eq_true, reduceCtorEq]
  all_goals simp only [Blank.addFault, Disposition.final, Bool.false_eq_true, if_false, lineFault, Disposition.faulted]

/-- What a creation does to the ring, to CYM and to the registration unit (R28, R29, R68, R150). -/
structure Creates (fmt : Fin 4) (s t : State) : Prop where
  present : t.presentAt 0 = some (freshUnder fmt s)
  nextSeq : t.ring.nextSeq = if s.ring.nextSeq = BitVec.allOnes 32 then 1 else s.ring.nextSeq + 1
  others : ∀ j : Fin 64, j ≠ 0 → t.ring.at j = s.ring.at j
  fresh : t.fresh = false
  cym : t.cym = { s.cym with hold := s.cym.hold || (s.fresh && decide (s.cym.mode = .format)) }
  registration : t.registration = if s.slots[fmt].header.regOn = true then s.registration else { s.registration with
    state := .off, missCount := 0, total := 0, residue := 0, limit := false, lastSlot := none }
  active : t.active = s.active
  pendingSlot : t.pendingSlot = s.pendingSlot

theorem createdUnder_eq (fmt : Fin 4) (s : State) : State.createdUnder fmt s = { s with
    ring := { (s.putAt 0 (some (freshUnder fmt s))).ring with nextSeq := successor s.ring.nextSeq }
    fresh := false
    cym := { s.cym with hold := s.cym.hold || (s.fresh && decide (s.cym.mode = .format)) }
    registration := if s.slots[fmt].header.regOn = true then s.registration else s.registration.enterOff } := by
  have hold : (if s.fresh && decide (s.cym.mode = .format) then { s.cym with hold := true } else s.cym)
      = { s.cym with hold := s.cym.hold || (s.fresh && decide (s.cym.mode = .format)) } := by
    cases (s.fresh && decide (s.cym.mode = .format)) <;> simp
  unfold State.createdUnder
  rw [fresh_eq, ← hold]
  dsimp only
  split <;> rfl

theorem creates_createdUnder (inLine : s.lineLength ≠ 0) : Creates fmt s (State.createdUnder fmt s) := by
  rw [createdUnder_eq]
  refine ⟨?_, rfl, fun j other => ?_, rfl, rfl, rfl, rfl, rfl⟩
  · exact (presentAt_putAt ..).trans ((if_pos rfl).trans (if_pos (Nat.pos_of_ne_zero inLine)))
  · exact (at_putAt ..).trans (if_neg other.symm)

/-- A creation that a pending changeover waits for tells CYM of the new format, and else follows the state it began in
(R147, R150). -/
theorem freshUnder_makeActive (n : Fin 4) (theta : Nat) (s : State) :
    freshUnder fmt (s.makeActive n theta) = freshUnder fmt s := by
  obtain ⟨_, _, _, _, whole⟩ := makeActive_spec n theta s
  rw [whole]
  rfl

/-- Where a FEED evaluation creates a record (R58). -/
def FeedCreates (k : Fin 4) (st : Station) (s : State) : Prop :=
  s.active = some k ∧ st.seen = true ∧ s.line.mode ≠ .offline ∧ s.ring.at 0 = none

theorem feedEvaluation_creates {st : Station} (h : FeedCreates k st s) :
    s.feedEvaluation k st theta = s.createRecord k theta := by
  obtain ⟨active, seen, mode, gap⟩ := h
  exact if_pos (by simp [active, seen, mode, gap])

theorem feedEvaluation_passes {st : Station} (h : s.active ≠ some k ∨ st.seen = false ∨ s.line.mode = .offline
    ∨ s.ring.at 0 ≠ none) : s.feedEvaluation k st theta = s := by
  refine if_neg fun creates => ?_
  simp only [Bool.and_eq_true, decide_eq_true_eq, Option.isNone_iff_eq_none] at creates
  obtain ⟨⟨⟨active, seen⟩, mode⟩, gap⟩ := creates
  rcases h with other | unseen | offline | occupied
  · exact other active
  · rw [unseen] at seen
    cases seen
  · exact mode offline
  · exact occupied gap

/-- Settles O23, by whether a changeover is pending (`createRecord_of_settled`, `createRecord_of_pending`). -/
theorem feedCreatesRecord : Obligations.FeedCreatesRecord := by
  refine ⟨fun k st theta s inLine settled => ⟨fun active seen mode gap => ?_, feedEvaluation_passes⟩,
    fun k n st theta s inLine pending => ⟨fun active seen mode gap => ?_, feedEvaluation_passes⟩⟩
  · have creates : Creates k s (State.createdUnder k s) := creates_createdUnder inLine
    rw [← createRecord_of_settled (theta := theta) settled, ← feedEvaluation_creates ⟨active, seen, mode, gap⟩] at creates
    exact ⟨creates.present, creates.nextSeq, creates.others, creates.fresh, creates.cym, creates.registration⟩
  · obtain ⟨stations, entries, gum, events, whole⟩ := makeActive_spec n theta s
    have sameLength : (s.makeActive n theta).lineLength = s.lineLength := by
      rw [whole]
      rfl
    have creates : Creates n (s.makeActive n theta) (State.createdUnder n (s.makeActive n theta)) :=
      creates_createdUnder (by rw [sameLength]; exact inLine)
    rw [← createRecord_of_pending (k := k) pending, ← feedEvaluation_creates ⟨active, seen, mode, gap⟩] at creates
    obtain ⟨present, nextSeq, -, fresh, cym, registration, nowActive, nowSettled⟩ := creates
    rw [freshUnder_makeActive] at present
    rw [whole] at nextSeq cym registration nowActive nowSettled
    exact ⟨nowActive, nowSettled, fresh, cym, nextSeq, present, registration⟩

end

end Sys2Proof.Proofs

/-!
PROOF. The gate (R54, R65, R108, R109): what an on-crossing does up to the output station's own work, and the decision of
a REJECT station.
-/

namespace Sys2Proof.Proofs

open Sys2Proof Sys2Proof.Machine Sys2Proof.Safety Sys2Proof.Laws

/-! ### A window that opens (R46) -/

section
variable {k : Fin 4} {i : Fin 16} {e : Entry} {theta : Nat} {s : State}

/-- A station as its window opens at its on-crossing (R46). -/
def openedStation (k : Fin 4) (i : Fin 16) (e : Entry) (s : State) : Station :=
  Station.opened e (s.presentAt e.position) { s.station k i with onMark := true }

/-- A closed window opens: the station alone changes. -/
theorem crossedOn_of_shut (shut : (s.station k i).windowOpen = false) : State.crossedOn k i e theta s
    = { s with stations := setAt s.stations k (setAt s.stations[k] i (openedStation k i e s)) } := by
  have stays : ¬ ((s.updStation k i fun st => { st with onMark := true }).station k i).windowOpen = true := by
    rw [station_updStation, if_pos ⟨rfl, rfl⟩]
    exact Bool.eq_false_iff.mp shut
  unfold State.crossedOn
  dsimp only
  rw [if_neg stays]
  simp only [State.updStation, fin_getElem_setAt_self, setAt_setAt]
  rfl

theorem crossedOn_station (shut : (s.station k i).windowOpen = false) (k' : Fin 4) (i' : Fin 16) :
    (State.crossedOn k i e theta s).station k' i' = if k = k' ∧ i = i' then openedStation k i e s else s.station k' i' := by
  rw [crossedOn_of_shut shut]
  exact station_updStation s k k' i i' fun _ => openedStation k i e s

/-- Where no work of an output station is due, an on-crossing is the window that opens (R42, R46). -/
theorem onCrossing_rests (rests : e.kind.isOutput = false ∨ e.enabled = false) :
    s.onCrossing k i e theta = State.crossedOn k i e theta s := by
  rw [onCrossing_eq]
  exact if_neg (by rcases rests with h | h <;> simp [h])

/-- An enabled output station acts on the present record of its own slot at its position (R47). -/
theorem onCrossing_acts (shut : (s.station k i).windowOpen = false) (output : e.kind.isOutput = true)
    (enabled : e.enabled = true) : s.onCrossing k i e theta
      = (State.crossedOn k i e theta s).outputAction k i e ((s.presentAt e.position).filter fun b => b.fmt = k) := by
  have same : (State.crossedOn k i e theta s).presentAt e.position = s.presentAt e.position := by
    rw [crossedOn_of_shut shut]
    rfl
  rw [onCrossing_eq, same]
  exact if_pos (by simp [output, enabled])

theorem fire_station (k k' : Fin 4) (i i' : Fin 16) (e : Entry) (s : State) : (s.fire k i e).station k' i'
    = if k = k' ∧ i = i' then { s.station k i with fired := true } else s.station k' i' := by
  obtain ⟨cells, whole⟩ := fire_eq k i e s
  rw [whole]
  exact station_updStation s k k' i i' fun st => { st with fired := true }

/-- Firing changes the station's flag and the cells (R19, R50). -/
theorem fire_whole (k : Fin 4) (i : Fin 16) (e : Entry) (s : State) :
    s.fire k i e = { s with stations := (s.fire k i e).stations, cells := (s.fire k i e).cells } := by
  obtain ⟨cells, whole⟩ := fire_eq k i e s
  rw [whole]
  rfl

end

/-! ### The verdict and the disposition settled (R65, R108, R109) -/

section
variable {b : Blank} {policy : Policy}

/-- A verdict that a decision finds missing under policy REJECT (R108). -/
abbrev Late (policy : Policy) (b : Blank) : Prop := b.verdict = .awaiting ∧ policy = .reject

/-- The verdict step of a decision on a record that is not final (R108). -/
theorem settleVerdict_open (isOpen : b.disposition.final = false) : b.settleVerdict policy = { b with
    verdict := if b.verdict = .awaiting then .missing else b.verdict
    faults := if Late policy b then addBit b.faults BlankFault.verdictLate.bit else b.faults
    disposition := if Late policy b then b.disposition.faulted else b.disposition } := by
  by_cases awaiting : b.verdict = .awaiting
  · cases policy with
    | reject =>
      have late : Late .reject b := ⟨awaiting, rfl⟩
      simp only [Blank.settleVerdict, isOpen, awaiting, if_true, if_pos late, Bool.false_eq_true, if_false]
      exact addFault_of_open (b := { b with verdict := .missing }) isOpen .verdictLate
    | pass =>
      have punctual : ¬ Late .pass b := fun h => nomatch h.2
      simp only [Blank.settleVerdict, isOpen, awaiting, if_true, if_neg punctual, Bool.false_eq_true, if_false]
  · have punctual : ¬ Late policy b := fun h => awaiting h.1
    simp only [Blank.settleVerdict, isOpen, awaiting, if_neg punctual, Bool.false_eq_true, if_false]

theorem settleVerdict_final (final : b.disposition.final = true) : b.settleVerdict policy = b := if_pos final

theorem decide_eq (b : Blank) : b.decide = { b with
    disposition := if b.disposition = .toReject then .rejected else if b.disposition = .inLine then .cleared
      else b.disposition } := by
  cases b with | mk seq fmt ops faults regErr verdict failCode disposition batch =>
  cases disposition <;> rfl

/-- The disposition of a decision in ARMED, a late verdict adding its fault before it (R30, R109). -/
theorem decided_disposition (late : Prop) [Decidable late] {d : Disposition} (isOpen : d.final = false) :
    (if (if late then d.faulted else d) = .toReject then .rejected
      else if (if late then d.faulted else d) = .inLine then .cleared else if late then d.faulted else d)
    = if d = .toReject ∨ (d = .inLine ∧ late) then .rejected
      else if d = .inLine then .cleared else if d = .cleared ∧ ¬ late then .cleared else Disposition.flagged := by
  by_cases h : late <;> cases d <;> simp_all [Disposition.final, Disposition.faulted]

/-- A decision in ARMED on a record that is not final (R108, R109). -/
theorem decided_open (isOpen : b.disposition.final = false) :
    (b.settleVerdict policy).decide = { b with
      verdict := if b.verdict = .awaiting then .missing else b.verdict
      faults := if Late policy b then addBit b.faults BlankFault.verdictLate.bit else b.faults
      disposition :=
        if b.disposition = .toReject ∨ (b.disposition = .inLine ∧ Late policy b) then .rejected
        else if b.disposition = .inLine then .cleared
        else if b.disposition = .cleared ∧ ¬ Late policy b then .cleared else .flagged } := by
  rw [settleVerdict_open isOpen, decide_eq]
  congr 1
  exact decided_disposition (Late policy b) isOpen

theorem decided_final (final : b.disposition.final = true) : (b.settleVerdict policy).decide = b := by
  have apart : b.disposition ≠ .toReject ∧ b.disposition ≠ .inLine := by
    constructor <;> intro h <;> rw [h] at final <;> cases final
  rw [settleVerdict_final final, decide_eq, if_neg apart.1, if_neg apart.2]

theorem faulted_open {d : Disposition} (isOpen : d.final = false) : d.faulted.final = false := by
  cases d <;> simp_all [Disposition.final, Disposition.faulted]

/-- A decision in FAULTED on a record that is not final (R65). -/
theorem decidedFaulted_open (isOpen : b.disposition.final = false) :
    (b.settleVerdict policy).decideFaulted = { b with
      verdict := if b.verdict = .awaiting then .missing else b.verdict
      faults := if Late policy b then addBit b.faults BlankFault.verdictLate.bit
        else if b.faults = 0 then addBit b.faults BlankFault.lineFault.bit else b.faults
      disposition := .rejected } := by
  have stays : (b.settleVerdict policy).disposition.final = false := by
    rw [settleVerdict_open isOpen]
    dsimp only
    split
    · exact faulted_open isOpen
    · exact isOpen
  have late_nonempty (x : FaultSet) : addBit x BlankFault.verdictLate.bit ≠ 0 := fun zero => by
    have there : hasBit (addBit x BlankFault.verdictLate.bit) BlankFault.verdictLate.bit = true := by simp
    rw [zero] at there
    simp [hasBit] at there
  rw [Blank.decideFaulted, if_neg (by rw [stays]; decide), addFault_of_open stays, settleVerdict_open isOpen]
  dsimp only
  by_cases late : Late policy b
  · simp only [if_pos late, if_neg (late_nonempty b.faults)]
  · simp only [if_neg late]
    split <;> rfl

end

/-! ### The gate -/

section
variable {k : Fin 4} {i : Fin 16} {e : Entry} {theta : Nat} {b : Blank} {p : Fin 64} {s : State}

/-- A record as a decision in ARMED leaves it. -/
def decidedBlank (s : State) (b : Blank) : Blank := (b.settleVerdict s.slots[b.fmt].header.policy).decide

/-- Whether a decision in ARMED rejects a record (R109). -/
def rejectsBlank (s : State) (b : Blank) : Bool :=
  decide ((decidedBlank s b).disposition = .rejected) && !b.disposition.final

theorem rejectDecision_eq (found : s.positionOf b.seq = some p) (present : s.presentAt p = some b) :
    s.rejectDecision b = (if rejectsBlank s b
        then ((s.putAt p (some (decidedBlank s b))).withdraw b.seq).countReject
        else (s.putAt p (some (decidedBlank s b))).withdraw b.seq, rejectsBlank s b) := by
  rw [State.rejectDecision]
  dsimp only
  rw [update_of_some found present]
  rfl

theorem rejectDecisionFaulted_eq (found : s.positionOf b.seq = some p) (present : s.presentAt p = some b)
    (isOpen : b.disposition.final = false) : s.rejectDecisionFaulted b
      = ((s.putAt p (some (b.settleVerdict s.slots[b.fmt].header.policy).decideFaulted)).withdraw b.seq).countReject := by
  rw [State.rejectDecisionFaulted, if_neg (by rw [isOpen]; decide)]
  dsimp only
  rw [update_of_some found present]

theorem outputAction_reject_armed (mode : s.line.mode = .armed) (kind : e.kind = .reject) :
    s.outputAction k i e (some b)
      = if (s.rejectDecision b).2 then (s.rejectDecision b).1.fire k i e else (s.rejectDecision b).1 := by
  simp only [State.outputAction, mode, kind]

theorem outputAction_reject_faulted (mode : s.line.mode = .faulted) (kind : e.kind = .reject) :
    s.outputAction k i e (some b) = s.rejectDecisionFaulted b := by
  simp only [State.outputAction, mode, kind]

/-- What the gate in ARMED does for a record at its position (R54, R108, R109). -/
structure Gates (k : Fin 4) (i : Fin 16) (p : Fin 64) (b : Blank) (s t : State) : Prop where
  notices : ∀ n ∈ t.notices, n.seq ≠ b.seq
  present : t.presentAt p = some (decidedBlank s b)
  station : t.station k i = { s.station k i with fired := (s.station k i).fired || rejectsBlank s b }
  openBatch : t.batch.openBatch = s.batch.openBatch.map fun o =>
    if rejectsBlank s b = true then { o with fields := { o.fields with rejects := increase .rejects o.fields.rejects } }
    else o

theorem gates_armed (mode : s.line.mode = .armed) (kind : e.kind = .reject) (found : s.positionOf b.seq = some p)
    (present : s.presentAt p = some b) : Gates k i p b s (s.outputAction k i e (some b)) := by
  have placed : (s.putAt p (some (decidedBlank s b))).presentAt p = some (decidedBlank s b) := by
    rw [presentAt_putAt, if_pos rfl, if_pos (presentAt_some.mp present).1]
  have withdrawn : ∀ n ∈ s.notices.filter (fun n => n.seq ≠ b.seq), n.seq ≠ b.seq := fun n queued => by
    simpa using (List.mem_filter.mp queued).2
  rw [outputAction_reject_armed mode kind, rejectDecision_eq found present]
  dsimp only
  cases rejects : rejectsBlank s b with
  | true =>
    rw [if_pos rfl, if_pos rfl]
    have fired := fire_station k k i i e ((s.putAt p (some (decidedBlank s b))).withdraw b.seq).countReject
    rw [if_pos ⟨rfl, rfl⟩] at fired
    rw [fire_whole] at fired ⊢
    refine ⟨withdrawn, placed, ?_, ?_⟩
    · rw [fired, rejects, Bool.or_true]
      rfl
    · simp only [rejects, if_true]
      rfl
  | false =>
    refine ⟨withdrawn, placed, ?_, ?_⟩
    · rw [rejects, Bool.or_false]
      rfl
    · simp only [rejects, Bool.false_eq_true, if_false, Option.map_id']
      rfl

/-- What the gate in FAULTED does for a record that is not final (R65). -/
theorem gates_faulted (mode : s.line.mode = .faulted) (kind : e.kind = .reject) (found : s.positionOf b.seq = some p)
    (present : s.presentAt p = some b) (isOpen : b.disposition.final = false) :
    let t := s.outputAction k i e (some b)
    (∀ n ∈ t.notices, n.seq ≠ b.seq) ∧ t.stations = s.stations ∧ t.cells = s.cells
    ∧ t.presentAt p = some (b.settleVerdict s.slots[b.fmt].header.policy).decideFaulted
    ∧ t.batch.openBatch = s.batch.openBatch.map fun o =>
        { o with fields := { o.fields with rejects := increase .rejects o.fields.rejects } } := by
  rw [outputAction_reject_faulted mode kind, rejectDecisionFaulted_eq found present isOpen]
  refine ⟨fun n queued => ?_, rfl, rfl, ?_, rfl⟩
  · simpa using (List.mem_filter.mp queued).2
  · exact (presentAt_putAt ..).trans ((if_pos rfl).trans (if_pos (presentAt_some.mp present).1))

theorem rejectDecisionFaulted_final (final : b.disposition.final = true) : s.rejectDecisionFaulted b = s := if_pos final

theorem rejectsBlank_open (isOpen : b.disposition.final = false) :
    rejectsBlank s b = decide ((decidedBlank s b).disposition = .rejected) := by
  rw [rejectsBlank, isOpen, Bool.not_false, Bool.and_true]

theorem rejectsBlank_final (final : b.disposition.final = true) : rejectsBlank s b = false := by
  rw [rejectsBlank, final, Bool.not_true, Bool.and_false]

/-- Settles O24, by the line mode and whether the record is final (`gates_armed`, `gates_faulted`). -/
theorem gateDecidesInArmed : Obligations.GateDecidesInArmed := by
  intro k i e theta b s kind enabled shut present own found t late counted
  subst own
  let u := State.crossedOn b.fmt i e theta s
  have parts : u = { s with stations := setAt s.stations b.fmt (setAt s.stations[b.fmt] i (openedStation b.fmt i e s)) } :=
    crossedOn_of_shut shut
  have opened : u.station b.fmt i = openedStation b.fmt i e s := (crossedOn_station shut b.fmt i).trans (if_pos ⟨rfl, rfl⟩)
  have acts : t = u.outputAction b.fmt i e (some b) := by
    refine (onCrossing_acts shut (by rw [kind]; rfl) enabled).trans ?_
    rw [present, Option.filter_some, if_pos (by simp)]
  have foundThere : u.positionOf b.seq = some e.position := by rw [parts]; exact found
  have presentThere : u.presentAt e.position = some b := by rw [parts]; exact present
  have policy : u.slots[b.fmt].header.policy = s.slots[b.fmt].header.policy := by rw [parts]
  have batch : u.batch = s.batch := by rw [parts]
  refine ⟨fun armed => ?_, fun faulted => ?_⟩
  · have gates : Gates b.fmt i e.position b u t := by
      rw [acts]
      exact gates_armed (by rw [parts]; exact armed) kind foundThere presentThere
    have station := gates.station
    rw [opened] at station
    refine ⟨gates.notices, by rw [station]; rfl, fun final => ⟨?_, ?_⟩, fun isOpen => ?_⟩
    · exact gates.present.trans (congrArg some (decided_final final))
    · rw [station, rejectsBlank_final final]
      rfl
    · have decided : decidedBlank u b = _ := decided_open isOpen
      rw [policy] at decided
      have openBatch := gates.openBatch
      rw [batch, rejectsBlank_open isOpen] at openBatch
      simp only [decide_eq_true_eq] at openBatch
      refine ⟨decidedBlank u b, gates.present, ?_, ?_, ?_, fun f => ?_, ?_, ?_, openBatch⟩
      · rw [decided]
      · rw [decided]
      · rw [decided]
      · rw [decided, Blank.hasFault]
        dsimp only
        split
        · next isLate => rw [addFault_set_mem, decide_eq_true isLate, Bool.true_and]; rfl
        · next punctual => rw [decide_eq_false punctual, Bool.false_and, Bool.or_false]; rfl
      · rw [decided]
      · rw [station, rejectsBlank_open isOpen]
        rfl
  · have mode : u.line.mode = .faulted := by rw [parts]; exact faulted
    have shown : (openedStation b.fmt i e s).windowOpen = true ∧ (openedStation b.fmt i e s).fired = false := ⟨rfl, rfl⟩
    cases final : b.disposition.final with
    | true =>
      have whole : t = u := by
        rw [acts, outputAction_reject_faulted mode kind, rejectDecisionFaulted_final final]
      rw [whole, opened]
      refine ⟨shown.1, shown.2, by rw [parts], fun _ => ?_, nofun⟩
      rw [parts]
      exact ⟨rfl, rfl, rfl⟩
    | false =>
      obtain ⟨notices, stations, cells, there, openBatch⟩ :=
        gates_faulted (k := b.fmt) (i := i) mode kind foundThere presentThere final
      rw [← acts] at notices stations cells there openBatch
      have station : t.station b.fmt i = openedStation b.fmt i e s := by
        rw [← opened, State.station, State.station, stations]
      rw [station]
      refine ⟨shown.1, shown.2, cells.trans (by rw [parts]), nofun, fun _ => ⟨notices, ?_, _, there, ?_, fun f => ?_⟩⟩
      · rw [openBatch, batch]
        simp only [counted, if_true]
      · rw [decidedFaulted_open final]
      · rw [decidedFaulted_open final, policy, Blank.hasFault]
        by_cases isLate : late
        · rw [decide_eq_true isLate, decide_eq_false (fun h : b.faults = 0 ∧ ¬ late => h.2 isLate), Bool.false_and, Bool.or_false,
            Bool.true_and, if_pos isLate, addFault_set_mem]
          rfl
        · rw [decide_eq_false (p := late) isLate, Bool.false_and, Bool.or_false, if_neg isLate]
          by_cases empty : b.faults = 0
          · rw [if_pos empty, decide_eq_true (p := b.faults = 0 ∧ ¬ late) ⟨empty, isLate⟩, Bool.true_and, addFault_set_mem]
            rfl
          · rw [if_neg empty, decide_eq_false (fun h : b.faults = 0 ∧ ¬ late => empty h.1), Bool.false_and, Bool.or_false]
            rfl

end

end Sys2Proof.Proofs

/-!
PROOF. Output stations at their on-crossing (R19, R42, R50 to R55, R64, R101): what each kind does in each line mode, and
what its firing changes.
-/

namespace Sys2Proof.Proofs

open Sys2Proof Sys2Proof.Machine Sys2Proof.Safety Sys2Proof.Laws

/-! ### Firing -/

section
variable {k : Fin 4} {i : Fin 16} {e : Entry} {theta : Nat} {s t : State}

theorem fire_cells (k : Fin 4) (i : Fin 16) (e : Entry) (s : State) : (s.fire k i e).cells
    = if s.cells[e.cell].config.mode = .pulseOut then
        setAt s.cells e.cell { s.cells[e.cell] with pulseTimer := some s.cells[e.cell].config.width }
      else s.cells := by
  unfold State.fire
  dsimp only
  rw [updStation_cells]
  split <;> rfl

theorem fire_stations (k : Fin 4) (i : Fin 16) (e : Entry) (s : State) :
    (s.fire k i e).stations = (s.updStation k i fun st => { st with fired := true }).stations := by
  obtain ⟨cells, whole⟩ := fire_eq k i e s
  rw [whole]

/-- A station's work on stations and cells: it fires, or it leaves both alone (R50). -/
def ActsBy (k : Fin 4) (i : Fin 16) (e : Entry) (s t : State) (fires : Prop) : Prop :=
  (fires → t.stations = (s.fire k i e).stations ∧ t.cells = (s.fire k i e).cells)
  ∧ (¬ fires → t.stations = s.stations ∧ t.cells = s.cells)

theorem fire_congr (stations : t.stations = s.stations) (cells : t.cells = s.cells) :
    (t.fire k i e).stations = (s.fire k i e).stations ∧ (t.fire k i e).cells = (s.fire k i e).cells := by
  simp only [fire_cells, fire_stations, updStation_stations, stations, cells, and_self]

theorem update_parts (seq : Word) (f : Blank → Blank) (s : State) :
    (s.update seq f).stations = s.stations ∧ (s.update seq f).cells = s.cells := by
  obtain ⟨_, whole⟩ := update_eq s seq f
  rw [whole]
  exact ⟨rfl, rfl⟩

theorem rejectDecision_parts (b : Blank) (s : State) :
    (s.rejectDecision b).1.stations = s.stations ∧ (s.rejectDecision b).1.cells = s.cells := by
  have updated (f : Blank → Blank) := update_parts b.seq f s
  unfold State.rejectDecision
  dsimp only
  split <;> exact updated _

theorem rejectDecisionFaulted_parts (b : Blank) (s : State) :
    (s.rejectDecisionFaulted b).stations = s.stations ∧ (s.rejectDecisionFaulted b).cells = s.cells := by
  unfold State.rejectDecisionFaulted
  split
  · exact ⟨rfl, rfl⟩
  · exact update_parts ..

theorem handNotice_parts (b : Blank) (position : Fin 64) (s : State) :
    (s.handNotice b position).stations = s.stations ∧ (s.handNotice b position).cells = s.cells := by
  unfold State.handNotice
  split
  · exact ⟨rfl, rfl⟩
  · exact update_parts ..

/-- Whatever a station's work, it fires at most. -/
theorem outputAction_acts (b : Option Blank) (s : State) : ∃ fires, ActsBy k i e s (s.outputAction k i e b) fires := by
  have stays {t : State} (h : t.stations = s.stations ∧ t.cells = s.cells) : ∃ fires, ActsBy k i e s t fires :=
    ⟨False, False.elim, fun _ => h⟩
  have fires {t : State} (h : t.stations = (s.fire k i e).stations ∧ t.cells = (s.fire k i e).cells) :
      ∃ fires, ActsBy k i e s t fires := ⟨True, fun _ => h, fun no => absurd trivial no⟩
  have refl : s.stations = s.stations ∧ s.cells = s.cells := ⟨rfl, rfl⟩
  unfold State.outputAction
  split
  case h_1 | h_2 =>
    split
    · exact fires (fire_congr rfl rfl)
    · exact stays refl
  case h_3 | h_4 =>
    split
    · exact fires ⟨rfl, rfl⟩
    · exact stays refl
  case h_5 =>
    split
    · split
      · exact fires ⟨rfl, rfl⟩
      · exact stays (update_parts ..)
    · exact stays refl
  case h_6 =>
    split
    · dsimp only
      split
      · exact fires (handNotice_parts ..)
      · exact fires ⟨rfl, rfl⟩
    · split
      · exact stays (update_parts ..)
      · exact stays refl
  case h_7 =>
    obtain ⟨stations, cells⟩ := rejectDecision_parts ‹Blank› s
    dsimp only
    split
    · exact fires (fire_congr stations cells)
    · exact stays ⟨stations, cells⟩
  case h_8 => exact stays (rejectDecisionFaulted_parts ..)
  case h_9 => exact stays refl

/-- Outside ARMED only REJECT acts, and a station without a record of its own slot only for its request (R54, R55). -/
theorem outputAction_idle {b : Option Blank} (idle : s.line.mode = .offline ∨ (s.line.mode = .faulted ∧ e.kind ≠ .reject)
    ∨ (e.kind ≠ .kick ∧ e.kind ≠ .box ∧ b = none)) : s.outputAction k i e b = s := by
  unfold State.outputAction
  split <;> simp_all

theorem outputAction_kick (mode : s.line.mode = .armed) (kind : e.kind = .kick) (b : Option Blank) :
    s.outputAction k i e b = if s.active = some k && s.batch.kick then
      { s with batch := { s.batch with kick := false } }.fire k i e else s := by
  simp only [State.outputAction, mode, kind]

theorem outputAction_box (mode : s.line.mode = .armed) (kind : e.kind = .box) (b : Option Blank) :
    s.outputAction k i e b = if s.active = some k && s.batch.box then
      { s with batch := { s.batch with box := false } }.fire k i e else s := by
  simp only [State.outputAction, mode, kind]

theorem outputAction_window (mode : s.line.mode = .armed) (kind : e.kind = .window ∨ e.kind = .patch) (b : Blank) :
    s.outputAction k i e (some b) = if b.disposition = .inLine then s.fire k i e else s := by
  rcases kind with kind | kind <;> simp only [State.outputAction, mode, kind]

theorem outputAction_gum (mode : s.line.mode = .armed) (kind : e.kind = .gum) (b : Blank) :
    s.outputAction k i e (some b) = if b.disposition = .inLine then
      if s.gum.state = .ready then s.fire k i e else s.update b.seq (Blank.addFault .gumSkipped) else s := by
  simp only [State.outputAction, mode, kind]

theorem outputAction_inspect (mode : s.line.mode = .armed) (kind : e.kind = .inspect) (b : Blank) :
    s.outputAction k i e (some b) = if b.disposition = .inLine then
        if b.verdict = .awaiting then (s.fire k i e).handNotice b e.position else s.fire k i e
      else if b.disposition = .toReject && b.verdict = .awaiting then s.update b.seq Blank.skipVerdict else s := by
  simp only [State.outputAction, mode, kind]

/-! ### The on-crossing of a closed window -/

theorem crossedOn_fired (shut : (s.station k i).windowOpen = false) :
    ((State.crossedOn k i e theta s).station k i).fired = false := by
  rw [crossedOn_station shut, if_pos ⟨rfl, rfl⟩]
  rfl

theorem station_of_stations {u v : State} (h : u.stations = v.stations) : u.station k i = v.station k i := by
  rw [State.station, State.station, h]

theorem fired_of_fires {u v : State} (h : u.stations = (v.fire k i e).stations) : (u.station k i).fired = true := by
  rw [station_of_stations h, fire_station, if_pos ⟨rfl, rfl⟩]

theorem onCrossing_cells (shut : (s.station k i).windowOpen = false) (output : e.kind.isOutput = true) :
    (s.onCrossing k i e theta).cells
      = if ((s.onCrossing k i e theta).station k i).fired = true ∧ s.cells[e.cell].config.mode = .pulseOut then
          setAt s.cells e.cell { s.cells[e.cell] with pulseTimer := some s.cells[e.cell].config.width }
        else s.cells := by
  have quiet := crossedOn_fired (e := e) (theta := theta) shut
  have cells : (State.crossedOn k i e theta s).cells = s.cells := by rw [crossedOn_of_shut shut]
  cases enabled : e.enabled with
  | false => rw [onCrossing_rests (.inr enabled), quiet, cells, if_neg fun h => nomatch h.1]
  | true =>
    rw [onCrossing_acts shut output enabled]
    obtain ⟨fires, yes, no⟩ := outputAction_acts (k := k) (i := i) (e := e)
      ((s.presentAt e.position).filter fun b => b.fmt = k) (State.crossedOn k i e theta s)
    by_cases h : fires
    · obtain ⟨stations, acted⟩ := yes h
      rw [fired_of_fires stations, acted, fire_cells, cells]
      simp only [true_and]
    · obtain ⟨stations, acted⟩ := no h
      rw [station_of_stations stations, quiet, acted, cells, if_neg fun h => nomatch h.1]

/-- Where no work of the station is due, its window opens and nothing else changes. -/
theorem onCrossing_idle (shut : (s.station k i).windowOpen = false) (output : e.kind.isOutput = true)
    (idle : e.enabled = false ∨ s.line.mode = .offline ∨ (s.line.mode = .faulted ∧ e.kind ≠ .reject)
      ∨ (e.kind ≠ .kick ∧ e.kind ≠ .box ∧ ∀ b, s.presentAt e.position = some b → b.fmt ≠ k)) :
    s.onCrossing k i e theta = State.crossedOn k i e theta s := by
  cases enabled : e.enabled with
  | false => exact onCrossing_rests (.inr enabled)
  | true =>
    rw [onCrossing_acts shut output enabled]
    have mode : (State.crossedOn k i e theta s).line.mode = s.line.mode := by rw [crossedOn_of_shut shut]
    rcases idle with off | offline | faulted | ⟨notKick, notBox, foreign⟩
    · cases enabled.symm.trans off
    · exact outputAction_idle (.inl (mode.trans offline))
    · exact outputAction_idle (.inr (.inl ⟨mode.trans faulted.1, faulted.2⟩))
    · refine outputAction_idle (.inr (.inr ⟨notKick, notBox, ?_⟩))
      rw [Option.filter_eq_none_iff]
      exact fun b present => by simpa using foreign b present

/-- A station that a request fires: it fires where it is asked to and changes the batch counter so (R55). -/
theorem fires_if_asked {u : State} {stations : Vector (Vector Station 16) 4} (parts : u = { s with stations := stations })
    (quiet : (u.station k i).fired = false) (asked : Bool) (answered : BatchCounter) :
    let t := if asked = true then State.fire k i e { u with batch := answered } else u
    t = { s with
      stations := t.stations, cells := t.cells, batch := if asked = true then answered else s.batch }
    ∧ (t.station k i).fired = asked := by
  cases asked with
  | true =>
    have whole := fire_whole k i e { u with batch := answered }
    refine ⟨whole.trans ?_, fired_of_fires (v := { u with batch := answered }) (e := e) rfl⟩
    rw [parts]
    rfl
  | false => exact ⟨parts.trans (by rw [parts]; rfl), quiet⟩

/-- A request of the active slot's station is consumed where it is set (R55). -/
theorem request_consumed (asked : Bool) (active : Option (Fin 4)) (k : Fin 4) :
    (asked && decide (active ≠ some k)) = (if (decide (active = some k) && asked) = true then false else asked) := by
  by_cases h : active = some k <;> cases asked <;> simp [h]

theorem onCrossing_kick (shut : (s.station k i).windowOpen = false) (kind : e.kind = .kick) (enabled : e.enabled = true)
    (armed : s.line.mode = .armed) :
    let t := s.onCrossing k i e theta
    t = { s with
      stations := t.stations, cells := t.cells
      batch := { s.batch with kick := s.batch.kick && decide (s.active ≠ some k) } }
    ∧ (t.station k i).fired = (s.batch.kick && decide (s.active = some k)) := by
  have parts := crossedOn_of_shut (e := e) (theta := theta) shut
  have active : (State.crossedOn k i e theta s).active = s.active := by rw [parts]
  have batch : (State.crossedOn k i e theta s).batch = s.batch := by rw [parts]
  rw [onCrossing_acts shut (by rw [kind]; rfl) enabled, outputAction_kick (by rw [parts]; exact armed) kind,
    request_consumed, Bool.and_comm s.batch.kick, ← active, ← batch]
  obtain ⟨whole, fired⟩ := fires_if_asked (e := e) parts (crossedOn_fired shut)
    (decide ((State.crossedOn k i e theta s).active = some k) && (State.crossedOn k i e theta s).batch.kick)
    { (State.crossedOn k i e theta s).batch with kick := false }
  refine ⟨whole.trans ?_, fired⟩
  rw [← batch]
  congr 1
  · split <;> rfl
  · exact active.symm

theorem onCrossing_box (shut : (s.station k i).windowOpen = false) (kind : e.kind = .box) (enabled : e.enabled = true)
    (armed : s.line.mode = .armed) :
    let t := s.onCrossing k i e theta
    t = { s with
      stations := t.stations, cells := t.cells
      batch := { s.batch with box := s.batch.box && decide (s.active ≠ some k) } }
    ∧ (t.station k i).fired = (s.batch.box && decide (s.active = some k)) := by
  have parts := crossedOn_of_shut (e := e) (theta := theta) shut
  have active : (State.crossedOn k i e theta s).active = s.active := by rw [parts]
  have batch : (State.crossedOn k i e theta s).batch = s.batch := by rw [parts]
  rw [onCrossing_acts shut (by rw [kind]; rfl) enabled, outputAction_box (by rw [parts]; exact armed) kind,
    request_consumed, Bool.and_comm s.batch.box, ← active, ← batch]
  obtain ⟨whole, fired⟩ := fires_if_asked (e := e) parts (crossedOn_fired shut)
    (decide ((State.crossedOn k i e theta s).active = some k) && (State.crossedOn k i e theta s).batch.box)
    { (State.crossedOn k i e theta s).batch with box := false }
  refine ⟨whole.trans ?_, fired⟩
  rw [← batch]
  congr 1
  · split <;> rfl
  · exact active.symm

/-! ### The on-crossing over a record of the station's own slot -/

/-- A state with a record in place of the one at a position. -/
abbrev withRecordAt (p : Fin 64) (b : Blank) (s t : State) : State :=
  { s with
    stations := t.stations, cells := t.cells
    ring := { s.ring with entries := setAt s.ring.entries (s.ring.head + p) (some b) } }

/-- A station that fires where a condition holds, and does nothing else. -/
theorem fires_if {u : State} {stations : Vector (Vector Station 16) 4} (parts : u = { s with stations := stations })
    (quiet : (u.station k i).fired = false) (asked : Prop) [Decidable asked] :
    let t := if asked then u.fire k i e else u
    t = { s with stations := t.stations, cells := t.cells } ∧ (t.station k i).fired = decide asked := by
  by_cases yes : asked
  · have whole := fire_whole k i e u
    have fired := fired_of_fires (u := u.fire k i e) (v := u) (k := k) (i := i) (e := e) rfl
    simp only [yes, if_true, decide_true, fired, and_true]
    refine whole.trans ?_
    rw [parts]
  · simp only [yes, if_false, decide_false, quiet, and_true]
    refine parts.trans ?_
    rw [parts]

section
variable {b : Blank} {p : Fin 64} {u : State} {stations : Vector (Vector Station 16) 4}

/-- A present record updated in place. -/
theorem update_withRecordAt (parts : u = { s with stations := stations }) (found : s.positionOf b.seq = some p)
    (present : s.presentAt p = some b) (f : Blank → Blank) : u.update b.seq f = withRecordAt p (f b) s u := by
  rw [update_of_some (k := p) (by rw [parts]; exact found) (by rw [parts]; exact present), parts]
  rfl

/-- GUM at its on-crossing (R52). -/
theorem gum_acts (parts : u = { s with stations := stations }) (quiet : (u.station k i).fired = false)
    (found : s.positionOf b.seq = some p) (present : s.presentAt p = some b) :
    let t := if b.disposition = .inLine then
      if u.gum.state = .ready then u.fire k i e else u.update b.seq (Blank.addFault .gumSkipped) else u
    (t.station k i).fired = decide (b.disposition = .inLine ∧ s.gum.state = .ready)
    ∧ t = if b.disposition = .inLine ∧ s.gum.state ≠ .ready then withRecordAt p (b.addFault .gumSkipped) s t
      else { s with stations := t.stations, cells := t.cells } := by
  have gum : u.gum.state = s.gum.state := by rw [parts]
  rw [gum]
  by_cases inLine : b.disposition = .inLine
  · by_cases ready : s.gum.state = .ready
    · obtain ⟨whole, fired⟩ := fires_if (e := e) parts quiet True
      simp only [if_true, decide_true] at whole fired
      simp only [inLine, ready, if_true, fired, ne_eq, not_true_eq_false, and_false, and_self, decide_true, if_false,
        true_and]
      exact whole
    · have updated := update_withRecordAt parts found present (Blank.addFault .gumSkipped)
      obtain ⟨same, cells⟩ := update_parts b.seq (Blank.addFault .gumSkipped) u
      simp only [inLine, ready, if_true, if_false, ne_eq, not_false_eq_true, and_false, and_true, decide_false]
      refine ⟨(congrArg Station.fired (station_of_stations same)).trans quiet, ?_⟩
      rw [withRecordAt, same, cells]
      exact updated
  · simp only [inLine, if_false, false_and, decide_false]
    exact ⟨quiet, parts.trans (by rw [parts])⟩

/-- A notice handed over with the queue full (R101). -/
theorem handNotice_full_eq {cells : Vector Cell 16} (parts : u = { s with stations := stations, cells := cells })
    (found : s.positionOf b.seq = some p) (present : s.presentAt p = some b) (isOpen : b.disposition.final = false)
    (full : noticeRoom ≤ s.notices.length) :
    u.handNotice b p = withRecordAt p { b.addFault .noticeLost with verdict := .skipped } s u := by
  have skipped : (b.addFault .noticeLost).skipVerdict = { b.addFault .noticeLost with verdict := .skipped } :=
    if_neg (by rw [addFault_open _ isOpen]; decide)
  rw [handNotice_full (by rw [parts]; exact Nat.not_lt.mpr full),
    update_of_some (k := p) (by rw [parts]; exact found) (by rw [parts]; exact present), skipped, parts]
  rfl

/-- A notice handed over with room in the queue is placed in cut order (R101). -/
theorem handNotice_room_eq {cells : Vector Cell 16} (parts : u = { s with stations := stations, cells := cells })
    (room : s.notices.length < noticeRoom) : ∃ before after : List Notice, s.notices = before ++ after
      ∧ u.handNotice b p = { s with
          stations := stations, cells := cells
          notices := before ++ { seq := b.seq, fmt := b.fmt, stamp := s.angle.cycle.setWidth 16 } :: after }
      ∧ (∀ x ∈ before, ∃ q, s.positionOf x.seq = some q ∧ p < q)
      ∧ ((∀ x ∈ s.notices, (s.positionOf x.seq).isSome = true) →
        s.notices.Pairwise (fun x y => ∀ q r, s.positionOf x.seq = some q → s.positionOf y.seq = some r → r < q) →
        ∀ x ∈ after, ∃ q, s.positionOf x.seq = some q ∧ q ≤ p) := by
  refine ⟨s.notices.takeWhile (s.standsBefore p), s.notices.dropWhile (s.standsBefore p),
    (List.takeWhile_append_dropWhile ..).symm, ?_, fun x stands => ?_, fun placed ordered x late => ?_⟩
  · rw [handNotice_room (by rw [parts]; exact room), parts]
    rfl
  · have before := List.mem_takeWhile_imp stands
    simp only [State.standsBefore, Option.any_eq_true, decide_eq_true_eq] at before
    exact before
  · obtain ⟨q, found⟩ := Option.isSome_iff_exists.mp (placed x (List.dropWhile_subset _ late))
    refine ⟨q, found, ?_⟩
    have fails := dropWhile_fails (p := s.standsBefore p) ordered (fun a ha b hb apart stands => ?_) x late
    · simpa [State.standsBefore, found] using fails
    · obtain ⟨qa, foundA⟩ := Option.isSome_iff_exists.mp (placed a ha)
      obtain ⟨qb, foundB⟩ := Option.isSome_iff_exists.mp (placed b hb)
      have less := apart qa qb foundA foundB
      simp only [State.standsBefore, foundB, Option.any_some, decide_eq_true_eq] at stands
      simp only [State.standsBefore, foundA, Option.any_some, decide_eq_true_eq]
      exact lt_trans stands less

end

end

end Sys2Proof.Proofs

/-!
PROOF. Windows closed at their off-crossing (R46, R50, R58 to R63): what each kind of station does with the record it has
latched.
-/

namespace Sys2Proof.Proofs

open Sys2Proof Sys2Proof.Machine Sys2Proof.Safety Sys2Proof.Laws

section
variable {k : Fin 4} {i : Fin 16} {e : Entry} {theta : Nat} {b : Blank} {p : Fin 64} {st : Station} {s u : State}

/-! ### The off-crossing -/

/-- A state whose station has taken its off-crossing. -/
abbrev State.takenOff (k : Fin 4) (i : Fin 16) (s : State) : State :=
  s.updStation k i fun st => { st with offMark := true }

theorem takenOff_station (k : Fin 4) (i : Fin 16) (s : State) :
    (State.takenOff k i s).station k i = { s.station k i with offMark := true } := by
  rw [station_updStation, if_pos ⟨rfl, rfl⟩]

theorem offCrossing_open (isOpen : (s.station k i).windowOpen = true) : s.offCrossing k i e theta
    = ((State.takenOff k i s).closingAction k i e (s.station k i) theta).updStation k i Station.close := by
  have still : ((State.takenOff k i s).station k i).windowOpen = true := by rw [takenOff_station]; exact isOpen
  rw [State.offCrossing, if_pos still, State.closeWindow, takenOff_station]
  rfl

/-! ### What a closing station does -/

theorem closingAction_output (output : e.kind.isOutput = true) (st : Station) (s : State) :
    s.closingAction k i e st theta = s.sendOperation e st := if_pos output

theorem closingAction_disabled (input : e.kind.isOutput = false) (disabled : e.enabled = false) (st : Station) (s : State) :
    s.closingAction k i e st theta = s := by
  rw [State.closingAction, input, disabled]
  rfl

section
variable (enabled : e.enabled = true) (st : Station) (s : State)
include enabled

theorem closingAction_feed (kind : e.kind = .feed) :
    s.closingAction k i e st theta = s.feedEvaluation k st theta := by
  simp only [State.closingAction, kind, Kind.isOutput, enabled, Bool.false_eq_true, if_false, if_true]

theorem closingAction_mark (kind : e.kind = .mark) : s.closingAction k i e st theta = s.markStation k st := by
  simp only [State.closingAction, kind, Kind.isOutput, enabled, Bool.false_eq_true, if_false, if_true]

theorem closingAction_patchCheck (kind : e.kind = .patchCheck) :
    s.closingAction k i e st theta = s.patchCheck k st := by
  simp only [State.closingAction, kind, Kind.isOutput, enabled, Bool.false_eq_true, if_false, if_true]

theorem closingAction_foldCheck (kind : e.kind = .foldCheck) :
    s.closingAction k i e st theta = s.foldCheck k i st := by
  simp only [State.closingAction, kind, Kind.isOutput, enabled, Bool.false_eq_true, if_false, if_true]

theorem closingAction_count (kind : e.kind = .count) : s.closingAction k i e st theta = s.countStation k st := by
  simp only [State.closingAction, kind, Kind.isOutput, enabled, Bool.false_eq_true, if_false, if_true]

end

theorem sendOperation_sends {o : Op} (operation : e.kind.operation = some o) (latch : st.latch = .blank b.seq) :
    s.sendOperation e st = if st.fired then s.update b.seq (Blank.addOp o) else s := by
  simp only [State.sendOperation, operation, latch]

theorem sendOperation_none (operation : e.kind.operation = none) : s.sendOperation e st = s := by
  simp only [State.sendOperation, operation]

theorem sendOperation_gap (latch : st.latch = .gap) : s.sendOperation e st = s := by
  unfold State.sendOperation
  split
  · next blank => cases latch.symm.trans blank
  · rfl

theorem sendOperation_left {seq : Word} (latch : st.latch = .blank seq) (left : s.record seq = none) :
    s.sendOperation e st = s := by
  have absent : s.positionOf seq = none := positionOf_none.mpr (record_none.mp left)
  cases operation : e.kind.operation with
  | none => exact sendOperation_none operation
  | some o =>
    simp only [State.sendOperation, operation, latch, update_of_none absent]
    exact ite_self s

theorem latched_own {seq : Word} (latch : st.latch = .blank seq) (found : s.record seq = some b) (own : b.fmt = k) :
    s.latched k st = some b := by
  simp only [State.latched, latch, found]
  exact Option.filter_some_pos (by simpa using own)

theorem latched_foreign {seq : Word} (latch : st.latch = .blank seq) (foreign : ∀ b, s.record seq = some b → b.fmt ≠ k) :
    s.latched k st = none := by
  simp only [State.latched, latch]
  exact Option.filter_eq_none_iff.mpr fun b found => by simpa using foreign b found

theorem latched_gap (latch : st.latch = .gap) : s.latched k st = none := by
  simp only [State.latched, latch]

theorem patchCheck_none (unlatched : s.latched k st = none) : s.patchCheck k st = s := by
  simp only [State.patchCheck, unlatched]

theorem patchCheck_own (latched : s.latched k st = some b) : s.patchCheck k st
    = if (b.disposition = .inLine ∨ b.disposition = .cleared) ∧ b.hasOp .patch = true ∧ st.seen = false then
        s.update b.seq (Blank.addFault .patchMissing) else s := by
  simp only [State.patchCheck, latched, Bool.and_eq_true, Bool.or_eq_true, decide_eq_true_eq, Bool.not_eq_true', and_assoc]

theorem foldCheck_none (unlatched : s.latched k st = none) : s.foldCheck k i st = s := by
  simp only [State.foldCheck, unlatched]

/-- A fold seen (R61): the operation is entered for a record that is not final, and the run is 0. -/
theorem foldCheck_seen (latched : s.latched k st = some b) (seen : st.seen = true) : s.foldCheck k i st
    = (if b.disposition.final = true then s else s.update b.seq (Blank.addOp .fold)).updStation k i
        fun st => { st with missRun := 0 } := by
  simp only [State.foldCheck, latched, seen]
  cases disposition : b.disposition <;> rfl

/-- A fold not seen (R61): a miss on a record that is not final, with the fault on one that is good. -/
theorem foldCheck_unseen (latched : s.latched k st = some b) (unseen : st.seen = false) : s.foldCheck k i st
    = if b.disposition.final = true then s
      else (if b.disposition = .inLine ∨ b.disposition = .cleared then s.update b.seq (Blank.addFault .foldMissing)
        else s).foldMiss k i st := by
  simp only [State.foldCheck, latched, unseen]
  cases disposition : b.disposition <;> simp [Disposition.final]

/-! ### What a closed window leaves changed -/

/-- A state with other stations and a record in place of the one at a position. -/
abbrev recordPut (p : Fin 64) (b : Blank) (s : State) (stations : Vector (Vector Station 16) 4) : State :=
  { s with
    stations := stations
    ring := { s.ring with entries := setAt s.ring.entries (s.ring.head + p) (some b) } }

theorem recordPut_same (present : s.presentAt p = some b) (stations : Vector (Vector Station 16) 4) :
    recordPut p b s stations = { s with stations := stations } := by
  have here : s.ring.entries[s.ring.head + p] = some b := (presentAt_some.mp present).2
  have stays : setAt s.ring.entries (s.ring.head + p) (some b) = s.ring.entries := by
    rw [← here]
    exact setAt_getElem_self ..
  rw [recordPut, stays]

theorem update_recordPut {stations : Vector (Vector Station 16) 4} (parts : u = { s with stations := stations })
    (found : s.positionOf b.seq = some p) (present : s.presentAt p = some b) (f : Blank → Blank) :
    u.update b.seq f = recordPut p (f b) s stations := by
  rw [update_of_some (k := p) (by rw [parts]; exact found) (by rw [parts]; exact present), parts]
  rfl

/-- A window closed after other work leaves that work and its station's run. -/
theorem close_missRun (k : Fin 4) (i : Fin 16) (s : State) :
    ((s.updStation k i Station.close).station k i).missRun = (s.station k i).missRun := by
  rw [station_updStation, if_pos ⟨rfl, rfl⟩]
  rfl

theorem close_shut (k : Fin 4) (i : Fin 16) (s : State) :
    ((s.updStation k i Station.close).station k i) = (s.station k i).close := by
  rw [station_updStation, if_pos ⟨rfl, rfl⟩]

theorem close_worked {stations : Vector (Vector Station 16) 4} (parts : u = { s with stations := stations }) :
    u.updStation k i Station.close = { s with stations := (u.updStation k i Station.close).stations } := by
  rw [parts]
  rfl

theorem close_put {stations : Vector (Vector Station 16) 4} (parts : u = recordPut p b s stations) :
    u.updStation k i Station.close = recordPut p b s (u.updStation k i Station.close).stations := by
  rw [parts]
  rfl

/-! ### A second fold miss in a row (R62) -/

theorem raiseCause_ring (c : Cause) (idle : s.gum.state ≠ .priming) : (s.raiseCause c).ring = s.ring := by
  by_cases armed : s.line.mode = .armed
  · rw [raiseCause_eq_leaveArmed c armed]
    exact (leaveArmed_of_no_window (s := State.faultedBy c s) (.inl idle)).1
  · rw [raiseCause_of_not_armed c armed]

/-- A raised cause changes no input station whose window is open (R56). -/
theorem raiseCause_station (c : Cause) (entry : s.entry k i = some e) (input : e.kind.isOutput = false)
    (isOpen : (s.station k i).windowOpen = true) : (s.raiseCause c).station k i = s.station k i := by
  by_cases armed : s.line.mode = .armed
  · rw [raiseCause_eq_leaveArmed c armed]
    refine (closes_leaveArmed (State.faultedBy c s)).staysOpen k i (fun fired => ?_) isOpen
    obtain ⟨⟨e', entry', output⟩, -⟩ := fired
    cases entry.symm.trans entry'
    exact absurd output (by rw [input]; decide)
  · rw [raiseCause_of_not_armed c armed]
    rfl

end

end Sys2Proof.Proofs

/-!
PROOF. The stations act on their records: the on-crossings and off-crossings put together.
-/

namespace Sys2Proof.Proofs

open Sys2Proof Sys2Proof.Machine Sys2Proof.Safety Sys2Proof.Laws

section
variable {k : Fin 4} {i : Fin 16} {e : Entry} {theta : Nat} {b : Blank} {p : Fin 64} {s u : State}

/-! ### Output stations over a record of their own slot -/

/-- INSPECT at its on-crossing (R53, R101). -/
theorem inspect_acts {stations : Vector (Vector Station 16) 4} (parts : u = { s with stations := stations })
    (quiet : (u.station k i).fired = false) (found : s.positionOf b.seq = some p) (present : s.presentAt p = some b)
    {t : State} (acts : t = if b.disposition = .inLine then
        if b.verdict = .awaiting then (u.fire k i e).handNotice b p else u.fire k i e
      else if b.disposition = .toReject && b.verdict = .awaiting then u.update b.seq Blank.skipVerdict else u) :
    (t.station k i).fired = decide (b.disposition = .inLine)
    ∧ (b.verdict ≠ .awaiting ∨ (b.disposition ≠ .inLine ∧ b.disposition ≠ .toReject) →
        t = { s with stations := t.stations, cells := t.cells })
    ∧ (b.verdict = .awaiting → b.disposition = .toReject → t = withRecordAt p { b with verdict := .skipped } s t)
    ∧ (b.verdict = .awaiting → b.disposition = .inLine → noticeRoom ≤ s.notices.length →
        t = withRecordAt p { b.addFault .noticeLost with verdict := .skipped } s t)
    ∧ (b.verdict = .awaiting → b.disposition = .inLine → s.notices.length < noticeRoom →
        ∃ before after : List Notice, s.notices = before ++ after
          ∧ t = { s with
              stations := t.stations, cells := t.cells
              notices := before ++ { seq := b.seq, fmt := b.fmt, stamp := s.angle.cycle.setWidth 16 } :: after }
          ∧ (∀ x ∈ before, ∃ q, s.positionOf x.seq = some q ∧ p < q)
          ∧ ((∀ x ∈ s.notices, (s.positionOf x.seq).isSome = true) →
            s.notices.Pairwise (fun x y => ∀ q r, s.positionOf x.seq = some q → s.positionOf y.seq = some r → r < q) →
            ∀ x ∈ after, ∃ q, s.positionOf x.seq = some q ∧ q ≤ p)) := by
  have fires : u.fire k i e = { s with stations := (u.fire k i e).stations, cells := (u.fire k i e).cells } := by
    refine (fire_whole k i e u).trans ?_
    rw [parts]
  have shot : ((u.fire k i e).station k i).fired = true := fired_of_fires (v := u) (e := e) rfl
  have given := handNotice_parts b p (u.fire k i e)
  by_cases inLine : b.disposition = .inLine
  · rw [if_pos inLine] at acts
    have open' : b.disposition.final = false := by rw [inLine]; rfl
    have notReject : b.disposition ≠ .toReject := by rw [inLine]; decide
    by_cases awaiting : b.verdict = .awaiting
    · rw [if_pos awaiting] at acts
      refine ⟨?_, fun h => ?_, fun _ toReject => absurd toReject notReject, fun _ _ full => ?_, fun _ _ room => ?_⟩
      · rw [acts, station_of_stations given.1, shot, inLine]
        rfl
      · exact h.elim (absurd awaiting) fun h => absurd inLine h.1
      · rw [acts, withRecordAt, given.1, given.2]
        exact handNotice_full_eq fires found present open' full
      · obtain ⟨before, after, parts', whole, stand, late⟩ := handNotice_room_eq (b := b) (p := p) fires room
        refine ⟨before, after, parts', ?_, stand, late⟩
        rw [acts, given.1, given.2]
        exact whole
    · rw [if_neg awaiting] at acts
      refine ⟨by rw [acts, shot, inLine]; rfl, fun _ => ?_, fun h => absurd h awaiting, fun h => absurd h awaiting,
        fun h => absurd h awaiting⟩
      rw [acts]
      exact fires
  · rw [if_neg inLine] at acts
    have skips : b.disposition = .toReject → b.skipVerdict = { b with verdict := .skipped } := fun toReject =>
      if_neg (by rw [toReject]; decide)
    have updated := update_parts b.seq Blank.skipVerdict u
    have stays : u = { s with stations := u.stations, cells := u.cells } := by
      refine parts.trans ?_
      rw [parts]
    by_cases due : b.disposition = .toReject ∧ b.verdict = .awaiting
    · obtain ⟨toReject, awaiting⟩ := due
      rw [if_pos (by simp [toReject, awaiting])] at acts
      refine ⟨?_, fun h => ?_, fun _ _ => ?_, fun _ h => absurd h inLine, fun _ h => absurd h inLine⟩
      · rw [acts, station_of_stations updated.1, quiet, decide_eq_false inLine]
      · exact h.elim (absurd awaiting) fun h => absurd toReject h.2
      · rw [acts, withRecordAt, updated.1, updated.2, ← skips toReject]
        exact update_withRecordAt parts found present Blank.skipVerdict
    · rw [if_neg (by simpa using due)] at acts
      refine ⟨by rw [acts, quiet, decide_eq_false inLine], fun _ => ?_, fun awaiting toReject =>
        absurd ⟨toReject, awaiting⟩ due, fun _ h => absurd h inLine, fun _ h => absurd h inLine⟩
      rw [acts]
      exact stays

/-! ### Windows closed over a record -/

section
variable (isOpen : (s.station k i).windowOpen = true) (latch : (s.station k i).latch = .blank b.seq)
  (found : s.positionOf b.seq = some p) (present : s.presentAt p = some b)

/-- A station that closes without work of its own (R42, R46). -/
theorem offCrossing_rests (isOpen : (s.station k i).windowOpen = true)
    (rests : (State.takenOff k i s).closingAction k i e (s.station k i) theta = State.takenOff k i s) :
    s.offCrossing k i e theta = { s with stations := (s.offCrossing k i e theta).stations }
    ∧ ((s.offCrossing k i e theta).station k i).missRun = (s.station k i).missRun := by
  have whole := offCrossing_open (e := e) (theta := theta) isOpen
  rw [rests] at whole
  rw [whole]
  refine ⟨close_worked rfl, ?_⟩
  rw [close_missRun, takenOff_station]

include isOpen latch found present

/-- A fired window sends its operation for the record it has latched (R50). -/
theorem offCrossing_sends {o : Op} (output : e.kind.isOutput = true) (operation : e.kind.operation = some o) :
    s.offCrossing k i e theta
      = if (s.station k i).fired = true ∧ b.disposition.final = false then
          recordPut p { b with ops := addBit b.ops o.bit } s (s.offCrossing k i e theta).stations
        else { s with stations := (s.offCrossing k i e theta).stations } := by
  have whole := offCrossing_open (e := e) (theta := theta) isOpen
  rw [closingAction_output output, sendOperation_sends operation latch] at whole
  rw [whole]
  have updated := update_recordPut (u := State.takenOff k i s) rfl found present (Blank.addOp o)
  by_cases fired : (s.station k i).fired = true
  · rw [if_pos fired]
    cases final : b.disposition.final with
    | true =>
      rw [if_neg fun h => nomatch h.2]
      rw [show b.addOp o = b from if_pos final, recordPut_same present] at updated
      exact close_worked updated
    | false =>
      rw [if_pos ⟨fired, rfl⟩]
      rw [show b.addOp o = { b with ops := addBit b.ops o.bit } from if_neg (by rw [final]; decide)] at updated
      exact close_put updated
  · rw [if_neg fired, if_neg fun h => fired h.1]
    exact close_worked rfl

theorem offCrossing_patchCheck (kind : e.kind = .patchCheck) (enabled : e.enabled = true) (own : b.fmt = k) :
    s.offCrossing k i e theta
      = if (b.disposition = .inLine ∨ b.disposition = .cleared) ∧ b.hasOp .patch = true ∧ (s.station k i).seen = false then
          recordPut p (b.addFault .patchMissing) s (s.offCrossing k i e theta).stations
        else { s with stations := (s.offCrossing k i e theta).stations } := by
  have whole := offCrossing_open (e := e) (theta := theta) isOpen
  have record : (State.takenOff k i s).record b.seq = some b := (record_of_positionOf found).trans present
  rw [closingAction_patchCheck enabled _ _ kind, patchCheck_own (latched_own latch record own)] at whole
  rw [whole]
  split
  · exact close_put (update_recordPut (u := State.takenOff k i s) rfl found present _)
  · exact close_worked rfl

theorem offCrossing_foldSeen (kind : e.kind = .foldCheck) (enabled : e.enabled = true) (own : b.fmt = k)
    (seen : (s.station k i).seen = true) :
    ((s.offCrossing k i e theta).station k i).missRun = 0
    ∧ s.offCrossing k i e theta
      = if b.disposition.final = true then { s with stations := (s.offCrossing k i e theta).stations }
        else recordPut p { b with ops := addBit b.ops Op.fold.bit } s (s.offCrossing k i e theta).stations := by
  have whole := offCrossing_open (e := e) (theta := theta) isOpen
  have record : (State.takenOff k i s).record b.seq = some b := (record_of_positionOf found).trans present
  rw [closingAction_foldCheck enabled _ _ kind, foldCheck_seen (latched_own latch record own) seen] at whole
  rw [whole]
  refine ⟨?_, ?_⟩
  · rw [close_missRun, station_updStation, if_pos ⟨rfl, rfl⟩]
  · split
    · exact close_worked rfl
    · next isOpen' =>
      have updated := update_recordPut (u := State.takenOff k i s) rfl found present (Blank.addOp .fold)
      rw [show b.addOp .fold = { b with ops := addBit b.ops Op.fold.bit } from if_neg isOpen'] at updated
      rw [updated]
      rfl

/-- The state in which a FOLD_CHECK miss is counted: the fault entered on a record that is good (R61). -/
abbrev State.foldFaulted (k : Fin 4) (i : Fin 16) (b : Blank) (s : State) : State :=
  if b.disposition = .inLine ∨ b.disposition = .cleared then
    (State.takenOff k i s).update b.seq (Blank.addFault .foldMissing)
  else State.takenOff k i s

omit isOpen latch in
theorem foldFaulted_eq : State.foldFaulted k i b s
    = if b.disposition = .inLine ∨ b.disposition = .cleared then
        recordPut p (b.addFault .foldMissing) s (State.takenOff k i s).stations
      else { s with stations := (State.takenOff k i s).stations } := by
  rw [State.foldFaulted, update_recordPut (u := State.takenOff k i s) rfl found present]
  rfl

omit isOpen latch in
theorem foldFaulted_station : (State.foldFaulted k i b s).station k i = (State.takenOff k i s).station k i := by
  rw [foldFaulted_eq found present]
  split <;> rfl

theorem offCrossing_unseen (kind : e.kind = .foldCheck) (enabled : e.enabled = true) (own : b.fmt = k)
    (unseen : (s.station k i).seen = false) (isBlank : b.disposition.final = false) : s.offCrossing k i e theta
      = ((State.foldFaulted k i b s).foldMiss k i (s.station k i)).updStation k i Station.close := by
  have record : (State.takenOff k i s).record b.seq = some b := (record_of_positionOf found).trans present
  rw [offCrossing_open isOpen, closingAction_foldCheck enabled _ _ kind,
    foldCheck_unseen (latched_own latch record own) unseen, if_neg (by rw [isBlank]; decide)]

theorem offCrossing_foldFirst (kind : e.kind = .foldCheck) (enabled : e.enabled = true) (own : b.fmt = k)
    (unseen : (s.station k i).seen = false) (isBlank : b.disposition.final = false) (run : (s.station k i).missRun = 0) :
    ((s.offCrossing k i e theta).station k i).missRun = 1
    ∧ s.offCrossing k i e theta
      = if b.disposition = .inLine ∨ b.disposition = .cleared then
          recordPut p (b.addFault .foldMissing) s (s.offCrossing k i e theta).stations
        else { s with stations := (s.offCrossing k i e theta).stations } := by
  have miss : (State.foldFaulted k i b s).foldMiss k i (s.station k i)
      = (State.foldFaulted k i b s).updStation k i fun st => { st with missRun := st.missRun + 1 } :=
    if_pos (by rw [run]; decide)
  rw [offCrossing_unseen isOpen latch found present kind enabled own unseen isBlank, miss]
  refine ⟨?_, ?_⟩
  · rw [close_missRun, station_updStation, if_pos ⟨rfl, rfl⟩, foldFaulted_station found present, takenOff_station]
    dsimp only
    rw [run]
  · rw [foldFaulted_eq found present]
    split <;> rfl

omit isOpen latch found present in
theorem presentAt_congr {t : State} (length : t.lineLength = s.lineLength) (ring : t.ring = s.ring) :
    t.presentAt p = s.presentAt p := by
  rw [State.presentAt, State.presentAt, length, ring]

/-- The second miss in a row raises JAM_FOLD (R62). -/
theorem offCrossing_foldSecond (kind : e.kind = .foldCheck) (enabled : e.enabled = true) (own : b.fmt = k)
    (entry : s.entry k i = some e) (unseen : (s.station k i).seen = false) (isBlank : b.disposition.final = false)
    (run : (s.station k i).missRun = 1) :
    let t := s.offCrossing k i e theta
    (t.station k i).missRun = 0
    ∧ hasBit t.line.causes Cause.jamFold.bit = true
    ∧ t.line.mode = (if s.line.mode = .armed then .faulted else s.line.mode)
    ∧ (s.gum.state ≠ .priming → t.presentAt p
      = some (if b.disposition = .inLine ∨ b.disposition = .cleared then b.addFault .foldMissing else b)) := by
  have faulted := foldFaulted_eq (k := k) (i := i) found present
  have station := foldFaulted_station (k := k) (i := i) found present
  have miss : (State.foldFaulted k i b s).foldMiss k i (s.station k i)
      = ((State.foldFaulted k i b s).updStation k i fun st => { st with missRun := 0 }).raiseCause .jamFold :=
    if_neg (by rw [run]; decide)
  rw [offCrossing_unseen isOpen latch found present kind enabled own unseen isBlank, miss]
  generalize State.foldFaulted k i b s = v at faulted station
  have parts : v.line = s.line ∧ v.gum = s.gum ∧ v.slots = s.slots := by
    rw [faulted]
    split <;> exact ⟨rfl, rfl, rfl⟩
  obtain ⟨line, gum, slots⟩ := parts
  have reset : (v.updStation k i fun st => { st with missRun := 0 }).station k i = { v.station k i with missRun := 0 } := by
    rw [station_updStation, if_pos ⟨rfl, rfl⟩]
  refine ⟨?_, ?_, ?_, fun idle => ?_⟩
  · have still := raiseCause_station (s := v.updStation k i fun st => { st with missRun := 0 }) (k := k) (i := i) (e := e)
      .jamFold (by rw [State.entry, updStation_slots, slots]; exact entry) (by rw [kind]; rfl)
      (by rw [reset, station, takenOff_station]; exact isOpen)
    rw [close_missRun, still, reset]
  · rw [updStation_line, raiseCause_causes]
    simp
  · rw [updStation_line, raiseCause_mode, updStation_line, line]
  · have ring := raiseCause_ring (s := v.updStation k i fun st => { st with missRun := 0 }) .jamFold
      (by rw [updStation_gum, gum]; exact idle)
    have length := (works_raiseCause .jamFold (v.updStation k i fun st => { st with missRun := 0 })).lineLength
    have stays : v.presentAt p
        = some (if b.disposition = .inLine ∨ b.disposition = .cleared then b.addFault .foldMissing else b) := by
      rw [faulted]
      split
      · exact (presentAt_putAt ..).trans ((if_pos rfl).trans (if_pos (presentAt_some.mp present).1))
      · exact present
    refine Eq.trans (presentAt_congr ?_ ?_) stays
    · exact length
    · exact ring

end

/-! ### Windows closed without work -/

/-- A station without work of its own at a given latch only closes. -/
theorem offCrossing_none (isOpen : (s.station k i).windowOpen = true)
    (rests : (State.takenOff k i s).closingAction k i e (s.station k i) theta = State.takenOff k i s) :
    s.offCrossing k i e theta = (State.takenOff k i s).updStation k i Station.close := by
  rw [offCrossing_open isOpen, rests]

/-- PATCH_CHECK and FOLD_CHECK work on a latched record of their own slot only (R60, R61). -/
theorem closingAction_unlatched {st : Station} (kind : e.kind = .patchCheck ∨ e.kind = .foldCheck)
    (unlatched : s.latched k st = none) : s.closingAction k i e st theta = s := by
  cases enabled : e.enabled with
  | false => exact closingAction_disabled (by rcases kind with kind | kind <;> rw [kind] <;> rfl) enabled _ _
  | true =>
    rcases kind with kind | kind
    · rw [closingAction_patchCheck enabled _ _ kind, patchCheck_none unlatched]
    · rw [closingAction_foldCheck enabled _ _ kind, foldCheck_none unlatched]

/-- What has left the ring brings nothing at a station that works on the record it has latched (log 11). -/
theorem closingAction_left {st : Station} (works : e.kind.isOutput = true ∨ e.kind = .patchCheck ∨ e.kind = .foldCheck)
    (left : st.latch = .gap ∨ ∃ seq, st.latch = .blank seq ∧ s.record seq = none) :
    s.closingAction k i e st theta = s := by
  rcases works with output | check
  · rw [closingAction_output output]
    rcases left with gap | ⟨seq, latch, gone⟩
    · exact sendOperation_gap gap
    · exact sendOperation_left latch gone
  · refine closingAction_unlatched check ?_
    rcases left with gap | ⟨seq, latch, gone⟩
    · exact latched_gap gap
    · exact latched_foreign latch fun b found => by cases gone.symm.trans found

theorem markStation_own {st : Station} (present : s.presentAt 0 = some b) (own : b.fmt = k) :
    s.markStation k st = s.markEvaluation b.seq k st.seen st.firstEdge := by
  simp only [State.markStation, present, own, if_true]

theorem markStation_passes {st : Station} (foreign : ∀ b, s.presentAt 0 = some b → b.fmt ≠ k) :
    s.markStation k st = s := by
  cases present : s.presentAt 0 with
  | none => simp only [State.markStation, present]
  | some b => simp only [State.markStation, present, foreign b present, if_false]

theorem countStation_blank {st : Station} {seq : Word} (latch : st.latch = .blank seq) : s.countStation k st
    = (s.latched k st).elim s fun b => s.countVerification (some b) st.seen := by
  simp only [State.countStation, latch]
  cases s.latched k st <;> rfl

theorem countStation_gap {st : Station} (latch : st.latch = .gap) : s.countStation k st
    = if s.active = some k then s.countVerification none st.seen else s := by
  simp only [State.countStation, latch]

end

section
variable {k : Fin 4} {i : Fin 16} {e : Entry} {theta : Nat} {b : Blank} {p : Fin 64} {s : State}

/-! ### The obligation's parts -/

/-- An output station at its on-crossing over a record of its own slot (R51 to R53, R101). -/
theorem onCrossing_own (shut : (s.station k i).windowOpen = false) (enabled : e.enabled = true)
    (present : s.presentAt e.position = some b) (own : b.fmt = k) (output : e.kind.isOutput = true) :
    s.onCrossing k i e theta = (State.crossedOn k i e theta s).outputAction k i e (some b) := by
  have filtered : (s.presentAt e.position).filter (fun b => b.fmt = k) = some b := by
    rw [present]
    exact Option.filter_some_pos (by simpa using own)
  rw [onCrossing_acts shut output enabled, filtered]

theorem shutStation_works (shut : (s.station k i).windowOpen = false) (enabled : e.enabled = true)
    (armed : s.line.mode = .armed) (present : s.presentAt e.position = some b) (own : b.fmt = k)
    (kind : e.kind = .window ∨ e.kind = .patch) :
    let t := s.onCrossing k i e theta
    t = { s with stations := t.stations, cells := t.cells } ∧ (t.station k i).fired = decide (b.disposition = .inLine) := by
  have parts := crossedOn_of_shut (e := e) (theta := theta) shut
  rw [onCrossing_own shut enabled present own (by rcases kind with kind | kind <;> rw [kind] <;> rfl),
    outputAction_window (by rw [parts]; exact armed) kind]
  exact fires_if parts (crossedOn_fired shut) _

end

/-- Settles O42, by the kind of the station, the on-crossings first and then the off-crossings. -/
theorem stationsActOnTheirRecords : Obligations.StationsActOnTheirRecords := by
  refine ⟨fun k i e theta s entry shut output => ⟨onCrossing_cells shut output, fun idle => ?_, ?_, ?_⟩,
    fun k i e theta b s entry shut enabled armed present own found => ⟨?_, ?_, ?_⟩,
    fun k i e theta b p s entry isOpen latch present found => ⟨?_, ?_, ?_, ?_, ?_⟩,
    fun k i e theta s entry isOpen => ⟨?_, ?_, ?_, ?_, ?_⟩⟩
  -- on-crossings of output stations
  · have whole := onCrossing_idle (theta := theta) shut output idle
    rw [whole]
    exact ⟨(crossedOn_of_shut shut).trans (by rw [crossedOn_of_shut shut]), crossedOn_fired shut⟩
  · exact onCrossing_kick shut
  · exact onCrossing_box shut
  -- on-crossings over a record of the station's own slot
  · exact shutStation_works shut enabled armed present own
  · intro kind
    have parts := crossedOn_of_shut (e := e) (theta := theta) shut
    rw [onCrossing_own shut enabled present own (by rw [kind]; rfl),
      outputAction_gum (by rw [parts]; exact armed) kind]
    exact gum_acts parts (crossedOn_fired shut) found present
  · intro kind
    have parts := crossedOn_of_shut (e := e) (theta := theta) shut
    rw [onCrossing_own shut enabled present own (by rw [kind]; rfl)]
    exact inspect_acts parts (crossedOn_fired shut) found present
      (outputAction_inspect (by rw [parts]; exact armed) kind b)
  -- off-crossings with a latched record
  · refine fun output => ⟨fun o sends => ?_, fun kind => ?_⟩
    · refine offCrossing_sends isOpen latch found present output ?_
      simp only [List.mem_cons, Prod.mk.injEq, List.not_mem_nil, or_false] at sends
      rcases sends with ⟨kind, rfl⟩ | ⟨kind, rfl⟩ | ⟨kind, rfl⟩ | ⟨kind, rfl⟩ <;> rw [kind] <;> rfl
    · refine (offCrossing_rests isOpen ?_).1
      rw [closingAction_output output]
      exact sendOperation_none (by rcases kind with kind | kind | kind <;> rw [kind] <;> rfl)
  · exact fun input disabled => (offCrossing_rests isOpen (closingAction_disabled input disabled _ _)).1
  · refine fun kind foreign => offCrossing_rests isOpen (closingAction_unlatched kind ?_)
    refine latched_foreign latch fun b' found' => ?_
    cases ((record_of_positionOf found).trans present).symm.trans found'
    exact foreign
  · exact fun kind enabled own => offCrossing_patchCheck isOpen latch found present kind enabled own
  · refine fun kind enabled own _ => ⟨fun seen => ?_, fun unseen final => ?_, fun unseen isBlank run => ?_,
      fun unseen isBlank run => ?_⟩
    · exact offCrossing_foldSeen isOpen latch found present kind enabled own seen
    · have record : (State.takenOff k i s).record b.seq = some b := (record_of_positionOf found).trans present
      refine offCrossing_rests isOpen ?_
      rw [closingAction_foldCheck enabled _ _ kind, foldCheck_unseen (latched_own latch record own) unseen, if_pos final]
    · exact offCrossing_foldFirst isOpen latch found present kind enabled own unseen isBlank run
    · exact offCrossing_foldSecond isOpen latch found present kind enabled own entry unseen isBlank run
  -- off-crossings of input stations and of latches without a record
  · exact fun input disabled => (offCrossing_rests isOpen (closingAction_disabled input disabled _ _)).1
  · exact fun works left => offCrossing_none isOpen (closingAction_left works left)
  · intro kind enabled
    have closes : s.offCrossing k i e theta
        = ((State.takenOff k i s).feedEvaluation k (s.station k i) theta).updStation k i Station.close := by
      rw [offCrossing_open isOpen, closingAction_feed enabled _ _ kind]
    refine ⟨closes, fun active seen mode gap => ?_, fun passes => ?_⟩
    · rw [closes, feedEvaluation_creates (s := State.takenOff k i s) ⟨active, seen, mode, gap⟩]
    · refine (offCrossing_rests isOpen ?_).1
      rw [closingAction_feed enabled _ _ kind]
      exact feedEvaluation_passes passes
  · refine fun kind enabled => ⟨fun b present own => ?_, fun foreign => ?_⟩
    · rw [offCrossing_open isOpen, closingAction_mark enabled _ _ kind,
        markStation_own (s := State.takenOff k i s) (b := b) present own]
    · refine (offCrossing_rests isOpen ?_).1
      rw [closingAction_mark enabled _ _ kind]
      exact markStation_passes foreign
  · intro kind enabled
    have counts := closingAction_count (k := k) (i := i) (theta := theta) enabled (s.station k i) (State.takenOff k i s) kind
    refine ⟨fun seq b latch found own => ?_, fun seq latch foreign => ?_, fun gap active => ?_, fun gap other => ?_⟩
    · rw [offCrossing_open isOpen, counts, countStation_blank latch,
        latched_own (s := State.takenOff k i s) (b := b) latch found own]
      rfl
    · refine (offCrossing_rests isOpen ?_).1
      rw [counts, countStation_blank latch,
        latched_foreign (s := State.takenOff k i s) latch foreign]
      rfl
    · rw [offCrossing_open isOpen, counts, countStation_gap gap]
      exact congrArg (fun u => State.updStation u k i Station.close) (if_pos active)
    · refine (offCrossing_rests isOpen ?_).1
      rw [counts, countStation_gap gap]
      exact if_neg other

end Sys2Proof.Proofs

/-!
PROOF. A frame leaves the other ports' responses, lines, windows and held locks alone (R34, R143 to R145, R165).
-/

namespace Sys2Proof.Proofs

open Sys2Proof Sys2Proof.Machine Sys2Proof.Safety Sys2Proof.Laws

/-- What a port keeps to itself, unchanged: its response and line, its read window and the locks it holds. -/
structure Apart (q : Port) (s t : State) : Prop where
  port : t.ports.get q = s.ports.get q
  window : t.ring.windows.get q = s.ring.windows.get q
  locks : ∀ l : Fin 8, s.locks[l].heldBy q = true → t.locks[l] = s.locks[l]

section
variable {p q : Port} {s t : State}

theorem apart_of_eq (ports : t.ports = s.ports) (windows : t.ring.windows = s.ring.windows) (locks : t.locks = s.locks) :
    Apart q s t :=
  ⟨congrArg (PerPort.get · q) ports, congrArg (PerPort.get · q) windows, fun _ _ => by rw [locks]⟩

theorem apart_refl (s : State) : Apart q s s := apart_of_eq rfl rfl rfl

theorem apart_works (works : Works s t) : Apart q s t := apart_of_eq works.ports works.windows works.locks

theorem apart_putWindow (other : q ≠ p) (w : ReadWindow) : Apart q s (s.putWindow p w) :=
  ⟨rfl, perPort_get_set_of_ne _ _ other, fun _ _ => rfl⟩

theorem apart_putLock {i : Fin 8} {l : Lock} (stays : s.locks[i].heldBy q = true → l = s.locks[i]) :
    Apart q s (s.putLock i l) := by
  refine ⟨rfl, rfl, fun j held => ?_⟩
  by_cases same : i = j
  · subst same
    exact (fin_getElem_setAt_self ..).trans (stays held)
  · exact fin_getElem_setAt_of_ne _ _ same

/-! ### Locks that another port holds -/

theorem apart_lockNew (legal : LocksLegal s) : Apart q s s.lockNew.1 := by
  rcases lockNew_state s with ⟨i, lowest, h⟩ | ⟨n, h⟩ <;> rw [h]
  · have free := List.find?_some lowest
    refine apart_putLock fun held => ?_
    have allocated := ((legal i).1 (heldBy_iff.mp held).1).1
    simp only [Bool.and_eq_true, Bool.not_eq_true'] at free
    cases free.2.symm.trans allocated
  · exact apart_of_eq rfl rfl rfl

theorem apart_lockCommand (number : Byte) {f : Fin 8 → Lock → Lock × Status}
    (stays : ∀ i l, l.heldBy q = true → (f i l).1 = l) : Apart q s (s.lockCommand number f).1 := by
  rcases lockCommand_state s number f with ⟨i, -, h⟩ | ⟨n, h⟩ <;> rw [h]
  · exact apart_putLock (stays i _)
  · exact apart_of_eq rfl rfl rfl

/-- A lock that is held is not taken (R144). -/
theorem takeLock_held (i : Fin 8) {l : Lock} (held : l.heldBy q = true) : (takeLock p i l).1 = l := by
  unfold takeLock
  split
  · rfl
  · rw [if_pos (heldBy_iff.mp held).1]

/-- A lock is released by its holder only (R145). -/
theorem releaseLock_foreign (other : q ≠ p) (i : Fin 8) {l : Lock} (held : l.heldBy q = true) :
    (releaseLock p i l).1 = l := by
  have foreign : ¬ l.heldBy p = true := fun mine =>
    other (Option.some.inj ((heldBy_iff.mp held).2.symm.trans (heldBy_iff.mp mine).2))
  unfold releaseLock
  rw [if_neg foreign]
  split <;> rfl

/-! ### Frames -/

/-- A frame answers on its own port. -/
theorem Apart.frame {f : State → State × Response} (next : takeFrame p f s = .next t) (other : q ≠ p)
    (h : Apart q s (f s).1) : Apart q s t := by
  rcases takeFrame_next next with ⟨-, rfl⟩ | ⟨-, rfl⟩
  · exact apart_refl t
  · exact ⟨(perPort_get_set_of_ne _ _ other).trans h.port, h.window, h.locks⟩

theorem apart_frame_same {f : State → State × Response} (next : takeFrame p f s = .next t) (other : q ≠ p)
    (same : (f s).1 = s) : Apart q s t := .frame next other (by rw [same]; exact apart_refl s)

theorem apart_frame_eq {f : State → State × Response} {u : State} (next : takeFrame p f s = .next t) (other : q ≠ p)
    (h : (f s).1 = u) (apart : Apart q s u) : Apart q s t := .frame next other (h ▸ apart)

/-- Every frame but the three exceptions leaves what the other ports keep to themselves. -/
theorem apart_exec {i : Instr} {bytes : List Byte} (legal : LocksLegal s) (spelled : encodeFrame i = some (p, bytes))
    (other : q ≠ p) (notReset : i ≠ .softReset) (notConstants : ∀ v, i ≠ .setConstants v)
    (notReturn : ∀ n, i ≠ .lockReturn p n) (next : exec i s = .next t) : Apart q s t := by
  have same {u : State} (ports : u.ports = s.ports) (windows : u.ring.windows = s.ring.windows) (locks : u.locks = s.locks) :
      Apart q s u := apart_of_eq ports windows locks
  cases i <;> cases spelled
  case nop | status | readMotion | shortFrame | unknownCommand | notOnPort | parameterLengthMismatch =>
    exact apart_frame_same (f := fun s => (s, _)) next other rfl
  case statusWithAcknowledge => exact .frame next other (same rfl rfl rfl)
  case setWindow first last =>
    rcases setWindow_state s p first last with h | ⟨-, -, h⟩
    · exact apart_frame_same next other h
    · exact apart_frame_eq next other h (apart_putWindow other _)
  case readNext => exact .frame next other (apart_putWindow other _)
  case readSeq seq => exact apart_frame_same next other (readSeq_state s seq)
  case peekCell cell => exact apart_frame_same next other (peekCell_state s cell)
  case takeCell cell =>
    obtain ⟨_, h⟩ := takeCell_state s cell
    exact apart_frame_eq next other h (same rfl rfl rfl)
  case stop =>
    exact .frame (f := fun s => (s.raiseCause (stopCause p), .bare .ok)) next other (apart_works (works_raiseCause _ s))
  case lockNew => exact .frame next other (apart_lockNew legal)
  case lockReturn n => exact absurd rfl (notReturn n)
  case lockTake n => exact .frame next other (apart_lockCommand n fun i _ => takeLock_held i)
  case lockRelease n => exact .frame next other (apart_lockCommand n fun i _ => releaseLock_foreign other i)
  case lockQuery n => exact .frame next other (apart_lockCommand n fun _ _ _ => rfl)
  case writeFormat slot g =>
    rcases writeFormat_state s p slot g with h | ⟨_, _, -, -, h⟩
    · exact apart_frame_same next other h
    · exact apart_frame_eq next other h (same rfl rfl rfl)
  case readFormat slot group => exact apart_frame_same next other (readFormat_state s slot group)
  case commitFormat slot =>
    rcases commitFormat_state s p slot with h | ⟨_, -, h⟩
    · exact apart_frame_same next other h
    · exact apart_frame_eq next other h (same rfl rfl rfl)
  case arm =>
    rcases arms_state s with h | ⟨k, -, -, h⟩
    · exact apart_frame_same next other h
    · refine apart_frame_eq next other h ?_
      unfold State.openBatchAtArm
      split <;> exact same rfl rfl rfl
  case disarm =>
    rcases disarm_state s with h | ⟨-, -, h⟩
    · exact apart_frame_same next other h
    · obtain ⟨stations, whole⟩ := disarmed_eq s
      exact apart_frame_eq next other (h.trans whole) (same rfl rfl rfl)
  case clear =>
    rcases clear_state s with h | ⟨-, h⟩
    · exact apart_frame_same next other h
    · exact apart_frame_eq next other h (same rfl rfl rfl)
  case softReset => exact absurd rfl notReset
  case setConstants r => exact absurd rfl (notConstants r)
  case setCell r =>
    obtain ⟨_, h⟩ := setCell_state s r
    exact apart_frame_eq next other h (same rfl rfl rfl)
  case changeover slot =>
    rcases changeover_state s slot with h | h | ⟨n, -, -, ⟨-, h⟩ | ⟨-, h⟩⟩
    · exact apart_frame_same next other h
    · exact apart_frame_eq next other h (same rfl rfl rfl)
    · exact apart_frame_eq next other h (apart_works (works_makeActive n _ s))
    · exact apart_frame_eq next other h (same rfl rfl rfl)
  case takeBatch =>
    rcases takeBatch_state s with h | ⟨_, _, -, h⟩
    · exact apart_frame_same next other h
    · exact apart_frame_eq next other h (same rfl rfl rfl)
  case peekBatch => exact apart_frame_same next other (peekBatch_state s)
  case closeBatch =>
    rcases closeBatch_state s with h | ⟨_, _, -, -, h⟩
    · exact apart_frame_same next other h
    · exact apart_frame_eq next other h (apart_works (works_closeOpenBatch ..))
  case markReject seq =>
    rcases markReject_state s seq with h | h
    · exact apart_frame_same next other h
    · exact apart_frame_eq next other h (apart_works (works_update ..))
  case primeGum =>
    obtain ⟨_, h⟩ := primeGum_state s
    exact apart_frame_eq next other h (same rfl rfl rfl)
  case nudge v =>
    rcases nudge_state s v with h | h
    · exact apart_frame_same next other h
    · exact apart_frame_eq next other h (apart_works (works_applyCorrection _ s))
  case setCym mode =>
    obtain ⟨_, h⟩ := setCym_state s mode
    exact apart_frame_eq next other h (same rfl rfl rfl)
  case takeNotice =>
    rcases takeNotice_state s with h | ⟨_, _, -, h⟩
    · exact apart_frame_same next other h
    · exact apart_frame_eq next other h (same rfl rfl rfl)
  case verdict seq outcome code =>
    rcases takeVerdict_state s seq outcome code with h | ⟨_, _, -, -, -, h⟩
    · exact apart_frame_same next other h
    · exact apart_frame_eq next other h (apart_works ((works_update ..).trans (works_withdraw ..)))
  case takeTrim =>
    obtain ⟨_, h⟩ := takeTrim_state s
    exact apart_frame_eq next other h (same rfl rfl rfl)
  case emptyFrame =>
    cases next
    exact apart_refl s

/-- Settles O10, SET CONSTANTS and LOCK RETURN apart, by `apart_exec`. -/
theorem otherPortsAreUntouched : Obligations.OtherPortsAreUntouched := by
  intro i p q bytes s t legal spelled other notReset next
  by_cases constants : ∃ v, i = .setConstants v
  · obtain ⟨v, rfl⟩ := constants
    cases spelled
    have kept : (s.setConstants v).1.ports = s.ports ∧ (s.setConstants v).1.locks = s.locks := by
      rcases setConstants_state s v with h | ⟨_, -, -, h⟩ <;> rw [h] <;> exact ⟨rfl, rfl⟩
    rcases takeFrame_next next with ⟨-, rfl⟩ | ⟨-, rfl⟩
    · exact ⟨rfl, fun _ => rfl, fun _ _ _ => rfl⟩
    · exact ⟨(perPort_get_set_of_ne _ _ other).trans (congrArg (PerPort.get · q) kept.1), fun h => absurd rfl (h v),
        fun _ l _ => by rw [show ∀ u p r, (State.respond u p r).locks = u.locks from fun _ _ _ => rfl, kept.2]⟩
  · by_cases returns : ∃ n, i = .lockReturn p n
    · obtain ⟨n, rfl⟩ := returns
      have kept : (s.lockCommand n returnLock).1.ports = s.ports
          ∧ (s.lockCommand n returnLock).1.ring = s.ring := by
        rcases lockCommand_state s n returnLock with ⟨_, -, h⟩ | ⟨_, h⟩ <;> rw [h] <;> exact ⟨rfl, rfl⟩
      rcases takeFrame_next next with ⟨-, rfl⟩ | ⟨-, rfl⟩
      · exact ⟨rfl, fun _ => rfl, fun _ _ _ => rfl⟩
      · exact ⟨(perPort_get_set_of_ne _ _ other).trans (congrArg (PerPort.get · q) kept.1),
          fun _ => congrArg (fun r : Ring => PerPort.get r.windows q) kept.2, fun h => absurd rfl (h n)⟩
    · have apart := apart_exec legal spelled other notReset (fun v h => constants ⟨v, h⟩) (fun n h => returns ⟨n, h⟩) next
      exact ⟨apart.port, fun _ => apart.window, fun _ => apart.locks⟩

end

end Sys2Proof.Proofs

/-!
PROOF. One µs on an empty queue (R10, R11, R16, R19, R89 to R95, R149, R158): the timers move and the expiries are taken.
-/

namespace Sys2Proof.Proofs

open Sys2Proof Sys2Proof.Machine Sys2Proof.Safety Sys2Proof.Laws

/-! ### Filter intervals that are over -/

section
variable {c d : Fin 16 → Prop} {s t u : State}

/-- A qualified change ends the filter interval (R16). -/
theorem qualifiedCell_not_due (z : Capture) (cell : Cell) : (qualifiedCell z cell).filterDue = false := rfl

/-- Of the cells `c`, those whose filter interval is over have qualified, each edge handed to the open windows (R16,
R57, R59). -/
structure FiltersTaken (c : Fin 16 → Prop) (s t : State) : Prop where
  whole : t = { s with cells := t.cells, stations := t.stations }
  taken : ∀ i : Fin 16, c i → s.cells[i].filterDue = true → t.cells[i] = qualifiedCell s.captureNow s.cells[i]
  rests : ∀ i : Fin 16, ¬ (c i ∧ s.cells[i].filterDue = true) → t.cells[i] = s.cells[i]
  shown : ∀ k j, (t.station k j).windowOpen = (s.station k j).windowOpen
  keeps : ∀ k j, (s.station k j).seen = true → (t.station k j).seen = true
  sees : ∀ i : Fin 16, c i → s.cells[i].filterDue = true → takesEdge s.cells[i] = true →
    ∀ (k : Fin 4) (j : Fin 16) (e : Entry), s.entry k j = some e → e.kind.isOutput = false → e.cell = i →
      (s.station k j).windowOpen = true → (t.station k j).seen = true

theorem filtersTaken_none (s : State) : FiltersTaken (fun _ => False) s s where
  whole := rfl
  taken _ no := no.elim
  rests _ _ := rfl
  shown _ _ := rfl
  keeps _ _ := id
  sees _ no := no.elim

theorem FiltersTaken.congr (h : FiltersTaken c s t) (same : ∀ i, c i ↔ d i) : FiltersTaken d s t :=
  (funext fun i => propext (same i) : c = d) ▸ h

theorem FiltersTaken.trans (h : FiltersTaken c s t) (g : FiltersTaken d t u) :
    FiltersTaken (fun i => c i ∨ d i) s u := by
  have capture : t.captureNow = s.captureNow := by rw [h.whole]; rfl
  have entries (k : Fin 4) (j : Fin 16) : t.entry k j = s.entry k j := by rw [h.whole]; rfl
  have early {i : Fin 16} (due : t.cells[i].filterDue = true) : ¬ (c i ∧ s.cells[i].filterDue = true) := fun first => by
    rw [h.taken i first.1 first.2, qualifiedCell_not_due] at due
    cases due
  refine ⟨?_, fun i named due => ?_, fun i none => ?_, fun k j => (g.shown k j).trans (h.shown k j),
    fun k j seen => g.keeps k j (h.keeps k j seen),
    fun i named due takes k j e entry input bound shown => ?_⟩
  · rw [g.whole, h.whole]
  · by_cases first : c i
    · rw [g.rests i fun again => early again.2 ⟨first, due⟩, h.taken i first due]
    · have same := h.rests i fun h => first h.1
      rw [g.taken i (named.resolve_left first) (same.symm ▸ due), same, capture]
  · have same := h.rests i fun h => none ⟨.inl h.1, h.2⟩
    rw [g.rests i fun h => none ⟨.inr h.1, same ▸ h.2⟩, same]
  · by_cases first : c i
    · exact g.keeps k j (h.sees i first due takes k j e entry input bound shown)
    · have same := h.rests i fun h => first h.1
      exact g.sees i (named.resolve_left first) (same.symm ▸ due) (same.symm ▸ takes) k j e ((entries k j).trans entry)
        input bound ((h.shown k j).trans shown)

/-- A station that a qualified change reaches has seen an edge, and else is as it was (R57). -/
theorem Qualifies.station {i : Fin 16} (h : Qualifies i s t) (k : Fin 4) (j : Fin 16) :
    t.station k j = s.station k j
      ∨ ∃ kind angle, t.station k j = (s.station k j).see kind angle := by
  by_cases reached : takesEdge s.cells[i] = true ∧ s.evaluated k = true ∧ (s.station k j).windowOpen = true
      ∧ ∃ e, s.entry k j = some e ∧ e.kind.isOutput = false ∧ e.cell = i
  · obtain ⟨takes, evaluated, shown, e, entry, input, bound⟩ := reached
    exact .inr ⟨_, _, h.sees k j e takes evaluated shown entry input bound⟩
  · refine .inl (h.passes k j ?_)
    simp only [not_and_or, not_exists, Bool.not_eq_true, Bool.not_eq_false] at reached
    exact reached.imp_right fun h => h.imp_right fun h => h.imp_right fun none e entry =>
      (none e).resolve_left fun other => other entry

theorem filtersTaken_qualify {i : Fin 16} (due : s.cells[i].filterDue = true) :
    FiltersTaken (fun j => j = i) s (s.qualify i) := by
  have qualifies := qualifies_qualify i s
  have cells := congrArg State.cells qualifies.whole
  refine ⟨?_, ?_, fun j other => ?_, fun k j => ?_, fun k j seen => ?_, ?_⟩
  · rw [qualifies.whole]
  · rintro _ rfl -
    rw [cells, fin_getElem_setAt_self]
  · rw [cells, fin_getElem_setAt_of_ne _ _ fun same => other ⟨same.symm, same ▸ due⟩]
  · rcases qualifies.station k j with same | ⟨_, _, same⟩ <;> rw [same]
    rfl
  · rcases qualifies.station k j with same | ⟨_, _, same⟩ <;> rw [same]
    · exact seen
    · rfl
  · rintro _ rfl - takes k j e entry input bound shown
    rw [qualifies.sees k j e takes (evaluated_of_open shown) shown entry input bound]
    rfl

/-- The filter intervals that are over, cell by cell. -/
def State.filters (s : State) : State :=
  (List.finRange 16).foldl (fun s i => if s.cells[i].filterDue then s.qualify i else s) s

theorem filtersTaken_foldl (l : List (Fin 16)) (s : State) : FiltersTaken (· ∈ l) s
    (l.foldl (fun s i => if s.cells[i].filterDue then s.qualify i else s) s) := by
  induction l generalizing s with
  | nil => exact (filtersTaken_none s).congr fun i => by simp
  | cons i l ih =>
    have first : FiltersTaken (fun j => j = i) s (if s.cells[i].filterDue then s.qualify i else s) := by
      split
      · next due => exact filtersTaken_qualify due
      · next early =>
        refine ⟨rfl, ?_, fun _ _ => rfl, fun _ _ => rfl, fun _ _ => id, ?_⟩
        · rintro _ rfl due
          exact absurd due early
        · rintro _ rfl due
          exact absurd due early
    exact (first.trans (ih _)).congr fun j => by simp

theorem filtersTaken_filters (s : State) : FiltersTaken (fun _ => True) s (State.filters s) :=
  (filtersTaken_foldl _ s).congr fun i => by simp

end

/-! ### The other expiries -/

section
variable {k : Fin 4} {j : Fin 16} {e : Entry} {s : State}

/-- The standby timer's expiry, where it is due (R91). -/
def State.standbyChecked (s : State) : State := if s.standbyDue then s.standbyExpires else s

/-- A prime's completion, where its timer has run out (R95). -/
def State.primeChecked (s : State) : State :=
  if s.gum.state = .priming && s.gum.primeTimer.isNone then s.primeCompletes else s

/-- Whether the clear chord has been held for its time (R158). -/
def State.chordDue (s : State) : Bool := s.line.chordTimer.any fun t => decide (chordHold ≤ t)

/-- The clear chord taken, where it is due (R158). -/
def State.chordChecked (s : State) : State := if State.chordDue s then s.takeChord else s

theorem takeExpiries_eq (s : State) : s.takeExpiries
    = State.chordChecked (State.primeChecked (State.standbyChecked (State.filters s))) := by
  unfold State.takeExpiries
  extract_lets s1 s2 s3
  have filters : s1 = State.filters s := rfl
  have standby : s2 = State.standbyChecked s1 := rfl
  have prime : s3 = State.primeChecked s2 := rfl
  rw [← filters, ← standby, ← prime]
  rfl

theorem standbyChecked_spec (s : State) : ∃ stations entries, State.standbyChecked s
    = { s with
        gum := if s.standbyDue = true then { state := .standby, standbyTimer := 0, primeTimer := none } else s.gum
        line := { s.line with events := if s.standbyDue = true then addBit s.line.events LineEvent.gumStandby.bit
          else s.line.events }
        stations := stations, ring := { s.ring with entries := entries } } := by
  unfold State.standbyChecked
  split
  · obtain ⟨stations, entries, whole⟩ := standbyExpires_spec s
    exact ⟨stations, entries, whole⟩
  · exact ⟨s.stations, s.ring.entries, rfl⟩

/-- The standby expiry closes no input station's window (R92). -/
theorem standbyChecked_station (entry : s.entry k j = some e) (input : e.kind.isOutput = false)
    (isOpen : (s.station k j).windowOpen = true) : (State.standbyChecked s).station k j = s.station k j := by
  unfold State.standbyChecked
  split
  · next due =>
    have same : ((s.updateAll Blank.spoil).station k j) = s.station k j := by
      obtain ⟨_, h⟩ := updateAll_eq s Blank.spoil
      rw [h]
      rfl
    have stays := (standbyExpires_closes (standbyDue_ready due)).staysOpen k j (fun cut => ?_) (same.symm ▸ isOpen)
    · rw [stays, same]
    · obtain ⟨⟨e', entry', kind⟩, -⟩ := mem_firedGum.mp cut
      cases entry.symm.trans entry'
      rw [kind] at input
      cases input
  · rfl

/-- Whether a prime has run out (R95). -/
abbrev State.primeDue (s : State) : Bool := s.gum.state = .priming && s.gum.primeTimer.isNone

theorem primeChecked_eq (s : State) : State.primeChecked s
    = { s with
        gum := if State.primeDue s = true then { state := .ready, standbyTimer := 0, primeTimer := none } else s.gum
        line := { s.line with events := if State.primeDue s = true then addBit s.line.events LineEvent.primeDone.bit
          else s.line.events } } := by
  unfold State.primeChecked
  split
  · rw [primeCompletes_eq]
  · rfl

theorem chordChecked_eq (s : State) : State.chordChecked s
    = { s with line := if State.chordDue s = true then
          { s.line with
            mode := if s.line.mode = .faulted then .armed else s.line.mode
            causes := if s.line.mode = .faulted then 0 else s.line.causes
            chordState := .spent, chordTimer := none }
        else s.line } := by
  unfold State.chordChecked State.takeChord State.enterMode
  split
  · dsimp only
    split <;> rfl
  · rfl

/-- What the expiries of one µs make of a state whose filters are taken. -/
structure Expires (u t : State) : Prop where
  gum : t.gum = if u.standbyDue = true then { state := .standby, standbyTimer := 0, primeTimer := none }
    else if State.primeDue u = true then { state := .ready, standbyTimer := 0, primeTimer := none } else u.gum
  standbyTold : u.standbyDue = true → hasBit t.line.events LineEvent.gumStandby.bit = true
  primeTold : State.primeDue u = true → hasBit t.line.events LineEvent.primeDone.bit = true
  early : State.chordDue u = false → t.line = { u.line with events := t.line.events }
  taken : State.chordDue u = true → t.line = { u.line with
    events := t.line.events, chordTimer := none, chordState := .spent
    mode := if u.line.mode = .faulted then .armed else u.line.mode
    causes := if u.line.mode = .faulted then 0 else u.line.causes }
  others : ∃ stations ring, t = { u with gum := t.gum, line := t.line, stations := stations, ring := ring }

theorem expires_checked (u : State) :
    Expires u (State.chordChecked (State.primeChecked (State.standbyChecked u))) := by
  obtain ⟨stations, entries, standby⟩ := standbyChecked_spec u
  generalize State.standbyChecked u = v at standby ⊢
  have gumV := congrArg State.gum standby
  have lineV := congrArg State.line standby
  have prime := primeChecked_eq v
  generalize State.primeChecked v = w at prime ⊢
  have gumW := congrArg State.gum prime
  have lineW := congrArg State.line prime
  have due : State.primeDue v = (!u.standbyDue && State.primeDue u) := by
    rw [State.primeDue, gumV]
    cases u.standbyDue <;> rfl
  have chord := chordChecked_eq w
  have chordDue : State.chordDue w = State.chordDue u := by
    rw [State.chordDue, lineW, lineV]
    rfl
  generalize State.chordChecked w = t at chord ⊢
  have gumT : t.gum = w.gum := by rw [chord]
  have lineT := congrArg State.line chord
  have events : t.line.events = w.line.events := by rw [lineT]; split <;> rfl
  refine ⟨?_, fun told => ?_, fun told => ?_, fun early => ?_, fun taken => ?_, stations, w.ring, ?_⟩
  · rw [gumT, gumW, due, gumV]
    cases u.standbyDue <;> simp
  · rw [events, lineW, due, lineV, told]
    simp
  · have idle : u.standbyDue = false := standbyDue_of_not_ready fun ready => by simp [State.primeDue, ready] at told
    rw [events, lineW, due, idle, told]
    simp
  · rw [events, lineT, chordDue, early, lineW, lineV]
    rfl
  · rw [events, lineT, chordDue, taken, lineW, lineV]
    rfl
  · rw [chord, prime, standby]

end

/-! ### The timers -/

section
variable {s : State}

theorem motion_halted_iff : s.motion = .halted ↔ s.constants = none ∨ haltExpiry ≤ s.angle.haltTimer := by
  unfold State.motion
  cases s.constants with
  | none => simp
  | some c =>
    by_cases late : haltExpiry ≤ s.angle.haltTimer
    · simp [late]
    · simp only [late, Option.isNone_some, decide_false, Bool.or_self, Bool.false_eq_true, if_false, reduceCtorEq, or_self,
        iff_false]
      split
      · decide
      · split <;> decide

theorem advanceTimers_halted (halted : s.motion = .halted) : s.advanceTimers.motion = .halted := by
  rw [motion_halted_iff] at halted ⊢
  exact halted.imp_right fun late => Nat.le_min.mpr ⟨le_rfl, Nat.le_succ_of_le late⟩

theorem advanceTimers_turns (turns : s.motion ≠ .halted) (early : s.angle.haltTimer + 1 < haltExpiry) :
    s.advanceTimers.motion ≠ .halted := by
  rw [ne_eq, motion_halted_iff, not_or] at turns ⊢
  exact ⟨turns.1, fun late => Nat.not_le.mpr early (Nat.le_min.mp late).2⟩

theorem advanceTimers_cells (i : Fin 16) : s.advanceTimers.cells[i] = s.cells[i].tick :=
  fin_getElem_mapTable ..

theorem setup_advanceTimers (s : State) : SameSetup s s.advanceTimers :=
  { sameSetup_refl s with
    config := fun i => by rw [advanceTimers_cells]; rfl
    pin := fun i => by rw [advanceTimers_cells]; rfl }

/-- The standby timer's count after one µs in READY (R89). -/
theorem advanceTimers_ready (ready : s.gum.state = .ready) : s.advanceTimers.gum.state = .ready
    ∧ s.advanceTimers.gum.standbyTimer
      = if s.motion = .halted then s.gum.standbyTimer + 1 else s.gum.standbyTimer := by
  refine ⟨ready, ?_⟩
  have runs : s.standbyRuns = decide (s.motion = .halted) := by simp [State.standbyRuns, ready]
  change (if s.standbyRuns = true then _ else _) = _
  rw [runs]
  simp

/-- A prime's timer after one µs (R93). -/
theorem advanceTimers_priming (priming : s.gum.state = .priming) :
    s.advanceTimers.gum = { s.gum with primeTimer := countDown s.gum.primeTimer } := by
  have idle : s.standbyRuns = false := by simp [State.standbyRuns, priming]
  change s.gum.tick s.standbyRuns = _
  rw [idle]
  rfl

theorem countDown_two (n : Nat) : countDown (some (n + 2)) = some (n + 1) := by simp [countDown]

theorem countDown_one : countDown (some 1) = none := rfl

/-! ### What a µs does to each block -/

/-- A running part after one µs. -/
abbrev State.microsecond (s : State) : State := s.advanceTimers.takeExpiries

theorem microsecond_expires (s : State) : Expires (State.filters s.advanceTimers) (State.microsecond s) := by
  rw [State.microsecond, takeExpiries_eq]
  exact expires_checked _

/-- The blocks that the timers and their expiries leave, and the cells as the filters leave them. -/
theorem microsecond_whole (s : State) : ∃ stations ring, State.microsecond s
    = { s.advanceTimers with
        cells := (State.filters s.advanceTimers).cells, stations := stations, ring := ring
        gum := (State.microsecond s).gum, line := (State.microsecond s).line } := by
  obtain ⟨stations, ring, whole⟩ := (microsecond_expires s).others
  refine ⟨stations, ring, whole.trans ?_⟩
  rw [(filtersTaken_filters s.advanceTimers).whole]

theorem microsecond_angle (s : State) : (State.microsecond s).angle = s.angle.tick := by
  obtain ⟨_, _, whole⟩ := microsecond_whole s
  generalize State.microsecond s = t at whole ⊢
  rw [whole]
  rfl

theorem microsecond_cym (s : State) : (State.microsecond s).cym.pulse = countDown s.cym.pulse := by
  obtain ⟨_, _, whole⟩ := microsecond_whole s
  generalize State.microsecond s = t at whole ⊢
  rw [whole]
  rfl

theorem filters_cells (s : State) (i : Fin 16) : (State.filters s).cells[i]
    = if s.cells[i].filterDue = true then qualifiedCell s.captureNow s.cells[i] else s.cells[i] := by
  split
  · next due => exact (filtersTaken_filters s).taken i trivial due
  · next early => exact (filtersTaken_filters s).rests i fun h => early h.2

/-- A cell after one µs (R16, R19). -/
theorem microsecond_cell (s : State) (i : Fin 16) : (State.microsecond s).cells[i]
    = if s.cells[i].tick.filterDue = true then qualifiedCell s.captureNow s.cells[i].tick else s.cells[i].tick := by
  obtain ⟨_, _, whole⟩ := microsecond_whole s
  have cells := congrArg State.cells whole
  rw [cells, filters_cells, advanceTimers_cells]
  rfl

theorem microsecond_pulse (s : State) (i : Fin 16) :
    (State.microsecond s).cells[i].pulseTimer = countDown s.cells[i].pulseTimer := by
  rw [microsecond_cell]
  split <;> rfl

theorem filterDue_of_running {c : Cell} {n : Nat} (runs : c.filterTimer = some n) :
    c.tick.filterDue = decide (c.config.filter ≤ n + 1) := by
  simp [Cell.filterDue, Cell.tick, runs]

theorem tick_idle {c : Cell} (idle : c.filterTimer = none) :
    c.tick = { c with pulseTimer := countDown c.pulseTimer } := by
  have stays : c.filterTimer.map (· + 1) = c.filterTimer := by rw [idle]; rfl
  rw [Cell.tick, stays]

theorem filterDue_of_idle {c : Cell} (idle : c.filterTimer = none) : c.tick.filterDue = false := by
  rw [tick_idle idle, Cell.filterDue]
  dsimp only
  rw [idle]
  rfl

theorem microsecond_unfiltered (i : Fin 16) (idle : s.cells[i].filterTimer = none) : (State.microsecond s).cells[i]
    = { s.cells[i] with pulseTimer := (State.microsecond s).cells[i].pulseTimer } := by
  rw [microsecond_pulse, microsecond_cell, filterDue_of_idle idle, if_neg (by decide), tick_idle idle]

theorem microsecond_filtering (i : Fin 16) {n : Nat} (runs : s.cells[i].filterTimer = some n)
    (early : n + 1 < s.cells[i].config.filter) : (State.microsecond s).cells[i]
    = { s.cells[i] with pulseTimer := (State.microsecond s).cells[i].pulseTimer, filterTimer := some (n + 1) } := by
  rw [microsecond_pulse, microsecond_cell, filterDue_of_running runs, if_neg (by simpa using early), Cell.tick, runs]
  rfl

/-- A change whose interval has lasted its filter time (R16). -/
theorem microsecond_qualified (i : Fin 16) {n : Nat} (runs : s.cells[i].filterTimer = some n)
    (late : s.cells[i].config.filter ≤ n + 1) : (State.microsecond s).cells[i]
    = { s.cells[i] with
        pulseTimer := (State.microsecond s).cells[i].pulseTimer, filterTimer := none, level := s.cells[i].pinLevel
        z := if takesEdge s.cells[i] then s.captureNow else s.cells[i].z
        event := s.cells[i].event || takesEdge s.cells[i]
        overrun := s.cells[i].overrun || (s.cells[i].event && takesEdge s.cells[i]) } := by
  have takes : takesEdge s.cells[i].tick = takesEdge s.cells[i] := rfl
  rw [microsecond_pulse, microsecond_cell, filterDue_of_running runs, if_pos (by simpa using late), qualifiedCell, takes]
  cases takesEdge s.cells[i]
  · simp [Cell.tick, Cell.pinLevel]
  · simp [Cell.tick, Cell.pinLevel]

theorem primeChecked_station (s : State) (k : Fin 4) (j : Fin 16) :
    (State.primeChecked s).station k j = s.station k j := by
  rw [primeChecked_eq]
  rfl

theorem chordChecked_station (s : State) (k : Fin 4) (j : Fin 16) :
    (State.chordChecked s).station k j = s.station k j := by
  rw [chordChecked_eq]
  rfl

theorem filters_entry (s : State) (k : Fin 4) (j : Fin 16) : (State.filters s).entry k j = s.entry k j := by
  have whole := (filtersTaken_filters s).whole
  generalize State.filters s = u at whole ⊢
  rw [whole]
  rfl

theorem microsecond_sees (i : Fin 16) {n : Nat} (runs : s.cells[i].filterTimer = some n)
    (late : s.cells[i].config.filter ≤ n + 1) (takes : takesEdge s.cells[i] = true) {k : Fin 4} {j : Fin 16} {e : Entry}
    (entry : s.entry k j = some e) (input : e.kind.isOutput = false) (bound : e.cell = i)
    (shown : (s.station k j).windowOpen = true) : ((State.microsecond s).station k j).seen = true := by
  have filters := filtersTaken_filters s.advanceTimers
  have due : s.advanceTimers.cells[i].filterDue = true := by
    rw [advanceTimers_cells, filterDue_of_running runs]
    simpa using late
  have taken : takesEdge s.advanceTimers.cells[i] = true := by rw [advanceTimers_cells]; exact takes
  have seen := filters.sees i trivial due taken k j e entry input bound shown
  have stays : (State.microsecond s).station k j = (State.filters s.advanceTimers).station k j := by
    rw [State.microsecond, takeExpiries_eq, chordChecked_station, primeChecked_station]
    exact standbyChecked_station ((filters_entry ..).trans entry) input ((filters.shown k j).trans shown)
  rw [stays]
  exact seen

/-- Whether the standby timer expires in a µs (R90, R91). -/
theorem filters_standbyDue (s : State) : (State.filters s).standbyDue = s.standbyDue := by
  have whole := (filtersTaken_filters s).whole
  generalize State.filters s = u at whole ⊢
  rw [whole]
  rfl

theorem microsecond_gum (s : State) : (State.microsecond s).gum
    = if s.advanceTimers.standbyDue = true then { state := .standby, standbyTimer := 0, primeTimer := none }
      else if State.primeDue s.advanceTimers = true then { state := .ready, standbyTimer := 0, primeTimer := none }
      else s.advanceTimers.gum := by
  have gum : (State.filters s.advanceTimers).gum = s.advanceTimers.gum := by
    rw [(filtersTaken_filters s.advanceTimers).whole]
  rw [(microsecond_expires s).gum, filters_standbyDue, State.primeDue, State.primeDue, gum]

theorem microsecond_turning (ready : s.gum.state = .ready) (turns : s.motion ≠ .halted)
    (early : s.angle.haltTimer + 1 < haltExpiry) : (State.microsecond s).gum.state = .ready
      ∧ (State.microsecond s).gum.standbyTimer = s.gum.standbyTimer := by
  have moving := advanceTimers_turns turns early
  obtain ⟨still, count⟩ := advanceTimers_ready ready
  have held : s.advanceTimers.standbyDue = false := by simp [State.standbyDue, State.standbyRuns, moving]
  have unprimed : State.primeDue s.advanceTimers = false := by simp [State.primeDue, still]
  rw [microsecond_gum, held, unprimed, if_neg (by decide), if_neg (by decide), count, if_neg turns]
  exact ⟨still, rfl⟩

theorem advanceTimers_standbyDue (ready : s.gum.state = .ready) (halted : s.motion = .halted) {k : Fin 4}
    (active : s.active = some k) : s.advanceTimers.standbyDue = true
      ↔ standbyTimeout s.slots[k].header.standbyCode ≤ s.gum.standbyTimer + 1 := by
  obtain ⟨still, count⟩ := advanceTimers_ready ready
  rw [standbyDue_iff (s := s.advanceTimers) (n := k) active, count, if_pos halted]
  exact ⟨fun h => h.2.2, fun h => ⟨still, advanceTimers_halted halted, h⟩⟩

theorem microsecond_waiting (ready : s.gum.state = .ready) (halted : s.motion = .halted) {k : Fin 4}
    (active : s.active = some k) (early : s.gum.standbyTimer + 1 < standbyTimeout s.slots[k].header.standbyCode) :
    (State.microsecond s).gum.state = .ready ∧ (State.microsecond s).gum.standbyTimer = s.gum.standbyTimer + 1 := by
  obtain ⟨still, count⟩ := advanceTimers_ready ready
  have unprimed : State.primeDue s.advanceTimers = false := by simp [State.primeDue, still]
  rw [microsecond_gum, if_neg fun due => Nat.not_le.mpr early ((advanceTimers_standbyDue ready halted active).mp due),
    unprimed, if_neg (by decide), count, if_pos halted]
  exact ⟨still, rfl⟩

theorem microsecond_standby (ready : s.gum.state = .ready) (halted : s.motion = .halted) {k : Fin 4}
    (active : s.active = some k) (late : standbyTimeout s.slots[k].header.standbyCode ≤ s.gum.standbyTimer + 1) :
    (State.microsecond s).gum = { state := .standby, standbyTimer := 0, primeTimer := none }
      ∧ hasBit (State.microsecond s).line.events LineEvent.gumStandby.bit = true := by
  have due := (advanceTimers_standbyDue ready halted active).mpr late
  exact ⟨by rw [microsecond_gum, if_pos due], (microsecond_expires s).standbyTold ((filters_standbyDue _).trans due)⟩

theorem microsecond_priming (priming : s.gum.state = .priming) : (State.microsecond s).gum
    = if countDown s.gum.primeTimer = none then { state := .ready, standbyTimer := 0, primeTimer := none }
      else { s.gum with primeTimer := countDown s.gum.primeTimer } := by
  have held : s.advanceTimers.standbyDue = false := standbyDue_of_not_ready (by
    rw [advanceTimers_priming priming]
    simp [priming])
  rw [microsecond_gum, held, if_neg (by decide), State.primeDue, advanceTimers_priming priming]
  simp [priming]

theorem microsecond_primed (priming : s.gum.state = .priming) (last : s.gum.primeTimer = some 1) :
    hasBit (State.microsecond s).line.events LineEvent.primeDone.bit = true := by
  refine (microsecond_expires s).primeTold ?_
  rw [State.primeDue, (filtersTaken_filters s.advanceTimers).whole]
  change (decide (s.advanceTimers.gum.state = .priming) && s.advanceTimers.gum.primeTimer.isNone) = true
  rw [advanceTimers_priming priming, last]
  simp [priming, countDown_one]

theorem filters_line (s : State) : (State.filters s.advanceTimers).line
    = { s.line with chordTimer := s.line.chordTimer.map (· + 1) } := by
  rw [(filtersTaken_filters s.advanceTimers).whole]
  rfl

/-- The line while no chord is taken (R158). -/
theorem microsecond_line (early : ∀ n, s.line.chordTimer = some n → n + 1 < chordHold) : (State.microsecond s).line
    = { s.line with
        events := (State.microsecond s).line.events, chordTimer := s.line.chordTimer.map (· + 1) } := by
  have undue : State.chordDue (State.filters s.advanceTimers) = false := by
    rw [State.chordDue, filters_line]
    cases timer : s.line.chordTimer with
    | none => rfl
    | some n => simpa using early n timer
  have line := (microsecond_expires s).early undue
  rw [filters_line] at line
  exact line

/-- The line as the chord is taken (R158). -/
theorem microsecond_chord {n : Nat} (runs : s.line.chordTimer = some n) (late : chordHold ≤ n + 1) :
    (State.microsecond s).line = { s.line with
      events := (State.microsecond s).line.events, chordTimer := none, chordState := .spent
      mode := if s.line.mode = .faulted then .armed else s.line.mode
      causes := if s.line.mode = .faulted then 0 else s.line.causes } := by
  have due : State.chordDue (State.filters s.advanceTimers) = true := by
    rw [State.chordDue, filters_line, runs]
    simpa using late
  have line := (microsecond_expires s).taken due
  rw [filters_line] at line
  exact line

end

/-- Settles O3, block by block: `advanceTimers` moves the timers, then each expiry is taken where it is due. -/
theorem microsecondMovesTimers : Obligations.MicrosecondMovesTimers := by
  intro s empty
  have steps : step s = .next s.tick := by rw [step, empty]
  refine ⟨fun held => by rw [steps, State.tick, if_pos held], fun running => ⟨State.microsecond s, ?_, ?_, ?_⟩⟩
  · rw [steps, State.tick, if_neg (by rw [running]; decide)]
  · exact sameSetup_trans (setup_advanceTimers s) (works_takeExpiries _).toSameSetup
  obtain ⟨stations, ring, whole⟩ := microsecond_whole s
  refine ⟨microsecond_angle s, fun i n runs => ?_, fun i last => ?_, microsecond_unfiltered, fun i n => microsecond_filtering i,
    fun i n runs late => ⟨?_, fun takes k j e entry input bound _ shown =>
      microsecond_sees i runs late takes entry input bound shown⟩,
    fun n runs => ?_, fun last => ?_, microsecond_turning,
    fun ready halted k active => ⟨microsecond_waiting ready halted active, microsecond_standby ready halted active⟩,
    fun n priming runs => ?_, fun priming last => ⟨?_, microsecond_primed priming last⟩, fun idle => ?_,
    fun n runs early => ?_, fun n => microsecond_chord, ?_⟩
  · rw [microsecond_pulse, runs, countDown_two]
  · rw [microsecond_pulse, last, countDown_one]
  · exact microsecond_qualified i runs late
  · rw [microsecond_cym, runs, countDown_two]
  · rw [microsecond_cym, last, countDown_one]
  · rw [microsecond_priming priming, runs, countDown_two, if_neg (by simp)]
  · rw [microsecond_priming priming, last, countDown_one, if_pos rfl]
  · have line := microsecond_line (s := s) fun n runs => by cases idle.symm.trans runs
    rw [show s.line.chordTimer.map (· + 1) = s.line.chordTimer by rw [idle]; rfl] at line
    exact line
  · have line := microsecond_line (s := s) fun m runs' => by cases runs.symm.trans runs'; exact early
    rw [runs] at line
    exact line
  · rw [whole]
    exact ⟨rfl, rfl, rfl, rfl, rfl, rfl, rfl⟩

end Sys2Proof.Proofs

/-!
PROOF. NOP, STATUS and refused frames (R163, R164, R169), and the status report byte by byte (section 10.5, R171).
-/

namespace Sys2Proof.Proofs

open Sys2Proof Sys2Proof.Machine Sys2Proof.Safety Sys2Proof.Laws

section
variable {p : Port} {s : State}

/-- A refused frame changes nothing but the pending response (R164). -/
theorem refuseFrame_takes (takes : Takes s p) (status : Status) :
    refuseFrame p status s = .next (s.respond p { status := status, payload := [] }) :=
  takeFrame_of_takes takes fun s => (s, .bare status)

/-- The first four bits of a byte, in order from bit 0. -/
theorem flagByte_bits (a b c d : Bool) :
    let flags := flagByte a ||| (flagByte b <<< 1) ||| (flagByte c <<< 2) ||| (flagByte d <<< 3)
    flags.getLsbD 0 = a ∧ flags.getLsbD 1 = b ∧ flags.getLsbD 2 = c ∧ flags.getLsbD 3 = d ∧ flags.toNat < 16 := by
  revert a b c d
  decide

/-- A set of seven members as a byte: bit 7 is 0 (R171). -/
theorem setByte_bits (set : BitVec 7) :
    (set.setWidth 8).getLsbD 7 = false ∧ ∀ n < 7, (set.setWidth 8).getLsbD n = hasBit set n := by
  refine ⟨by simp, fun n small => ?_⟩
  rw [BitVec.getLsbD_setWidth, decide_eq_true (Nat.lt_succ_of_lt small), Bool.true_and, hasBit]

theorem causeBit_lt (c : Cause) : c.bit < 7 := by cases c <;> decide

theorem eventBit_lt (e : LineEvent) : e.bit < 7 := by cases e <;> decide

/-- The open batch's number and count, the last eight bytes of the report (log 35). -/
theorem statusLayout_batch (s : State) : (s.batch.openBatch = none → s.statusLayout.drop 15 = List.replicate 8 0)
    ∧ ∀ o ∈ s.batch.openBatch,
      s.statusLayout.drop 15 = littleEndian o.fields.number 4 ++ littleEndian o.fields.count 4 := by
  have last : s.statusLayout.drop 15
      = littleEndian (match s.batch.openBatch with | some b => b.fields.number | none => 0) 4
        ++ littleEndian (match s.batch.openBatch with | some b => b.fields.count | none => 0) 4 := rfl
  rw [last]
  refine ⟨fun absent => ?_, fun o opened => ?_⟩
  · rw [absent]
    rfl
  · rw [Option.mem_def.mp opened]

end

/-- Settles O7, the report is read off byte by byte. -/
theorem nopStatusAndRefusedFramesAnswer : Obligations.NopStatusAndRefusedFramesAnswer := by
  refine ⟨fun p code bytes s takes => ⟨?_, ?_, refuseFrame_takes takes _, refuseFrame_takes takes _,
    refuseFrame_takes takes _, refuseFrame_takes takes _⟩, fun s takes => takeFrame_of_takes takes State.acknowledge,
    fun p s => rfl, fun s => ?_⟩
  · exact takeFrame_of_takes takes fun s => (s, .bare .ok)
  · exact takeFrame_of_takes takes fun s => (s, { status := .ok, payload := s.statusLayout })
  obtain ⟨unopened, opened⟩ := statusLayout_batch s
  refine ⟨rfl, rfl, rfl, ?_, rfl, ?_, ?_, rfl, rfl, rfl, rfl, rfl, rfl,
    rfl, rfl, unopened, opened, ⟨rfl, ?_⟩, ⟨rfl, ?_⟩, ⟨rfl, ?_⟩, ⟨rfl, ?_⟩, ⟨rfl, ?_⟩, ⟨rfl, ?_⟩, ⟨rfl, ?_⟩⟩
  · intro b there
    cases (show some s.statusFlags = some b from there)
    exact flagByte_bits ..
  · intro b there
    cases (show some (s.line.causes.setWidth 8) = some b from there)
    obtain ⟨unused, members⟩ := setByte_bits s.line.causes
    exact ⟨unused, fun c => members _ (causeBit_lt c)⟩
  · intro b there
    cases (show some (s.line.events.setWidth 8) = some b from there)
    obtain ⟨unused, members⟩ := setByte_bits s.line.events
    exact ⟨unused, fun e => members _ (eventBit_lt e)⟩
  · intro x; cases x <;> decide
  · intro x; cases x <;> decide
  · intro x; rcases x with _ | x
    · decide
    · cases x <;> decide
  · intro x; cases x <;> decide
  · intro x; cases x <;> decide
  · intro x; cases x <;> decide
  · intro x; cases x <;> decide

end Sys2Proof.Proofs

/-!
PROOF. Frames decode to the commands they were made of (R163, R164, R168, section 10.3).
-/

namespace Sys2Proof.Proofs

open Sys2Proof Sys2Proof.Machine Sys2Proof.Safety Sys2Proof.Laws

/-! ### Little-endian fields -/

theorem half_byteOf (v : Half) : half (byteOf v 0) (byteOf v 1) = v := by
  refine BitVec.eq_of_getLsbD_eq fun i small => ?_
  rw [half, BitVec.getLsbD_append]
  by_cases low : i < 8
  · rw [if_pos low, getLsbD_byteOf, decide_eq_true low, Nat.mul_zero, Nat.zero_add, Bool.true_and]
  · have high : i - 8 < 8 := by omega
    have place : 8 * 1 + (i - 8) = i := by omega
    rw [if_neg low, getLsbD_byteOf, decide_eq_true high, place, Bool.true_and]

theorem word_byteOf (v : Word) : word (byteOf v 0) (byteOf v 1) (byteOf v 2) (byteOf v 3) = v := by
  refine BitVec.eq_of_getLsbD_eq fun i small => ?_
  simp only [word, BitVec.getLsbD_append, getLsbD_byteOf]
  split
  · simp [*]
  · split
    · rw [decide_eq_true ‹_ < 8›, Bool.true_and]
      congr 1
      omega
    · split
      · rw [decide_eq_true ‹_ < 8›, Bool.true_and]
        congr 1
        omega
      · rw [decide_eq_true (by omega : i - 8 - 8 - 8 < 8), Bool.true_and]
        congr 1
        omega

/-! ### Frames -/

section
variable {p : Port} {code : Byte} {params : List Byte} {i : Instr}

/-- A frame's bytes decode by its code and its parameters (R163, R164). -/
theorem decodeFrame_frame (fits : params.length + 2 ≤ frameLimit) :
    decodeFrame p (frame code params) = classify p code params := by
  have small : params.length < 256 := lt_of_lt_of_le (Nat.lt_add_of_pos_right (by decide)) (fits.trans (by decide))
  have length : (BitVec.ofNat 8 params.length).toNat = params.length := by
    rw [BitVec.toNat_ofNat, Nat.mod_eq_of_lt small]
  have whole : (frame code params).take frameLimit = code :: BitVec.ofNat 8 params.length :: params :=
    List.take_of_length_le fits
  simp only [decodeFrame, whole, length, Nat.lt_irrefl, if_false, List.take_length]

/-- A catalogued command offered on the port (R164). -/
theorem classify_offered {ports : List Port} (offered : offeredOn code = some ports) (here : p ∈ ports)
    (spells : commandOf p code params = some i) : classify p code params = i := by
  simp only [classify, offered, if_pos here, spells, Option.getD_some]

theorem mem_allPorts (p : Port) : p ∈ [Port.line, .inspection, .drive] := by cases p <;> decide

/-- A command that its frame spells (section 10.3). -/
theorem decodes_to {ports : List Port} (offered : offeredOn code = some ports) (here : p ∈ ports)
    (fits : params.length + 2 ≤ frameLimit) (spells : commandOf p code params = some i) :
    decodeFrame p (frame code params) = i :=
  (decodeFrame_frame fits).trans (classify_offered offered here spells)

theorem headerOfBytes_bytes (h : RawHeader) : headerOfBytes h.bytes = some h := by
  have bytes : headerOfBytes h.bytes = some
    { regEnable := h.regEnable, target := half (byteOf h.target 0) (byteOf h.target 1)
      deadband := half (byteOf h.deadband 0) (byteOf h.deadband 1), gain := half (byteOf h.gain 0) (byteOf h.gain 1)
      cmax := half (byteOf h.cmax 0) (byteOf h.cmax 1), amax := half (byteOf h.amax 0) (byteOf h.amax 1)
      missLimit := h.missLimit
      rejectTolerance := half (byteOf h.rejectTolerance 0) (byteOf h.rejectTolerance 1), policy := h.policy
      standbyCode := h.standbyCode, primeTime := half (byteOf h.primeTime 0) (byteOf h.primeTime 1)
      batchSize := half (byteOf h.batchSize 0) (byteOf h.batchSize 1), perBox := h.perBox } := rfl
  rw [bytes]
  simp only [half_byteOf]

theorem entryOfBytes_bytes (e : RawEntry) : entryOfBytes e.bytes = some e := by
  have bytes : entryOfBytes e.bytes = some
    { kind := e.kind, position := e.position, cell := e.cell
      onAngle := half (byteOf e.onAngle 0) (byteOf e.onAngle 1)
      offAngle := half (byteOf e.offAngle 0) (byteOf e.offAngle 1)
      leadUs := half (byteOf e.leadUs 0) (byteOf e.leadUs 1), enable := e.enable } := rfl
  rw [bytes]
  simp only [half_byteOf]

theorem stationByte (i : Fin 16) : (BitVec.ofNat 8 i.val).toNat = i.val ∧ BitVec.ofNat 8 i.val ≠ (0xFF : Byte) := by
  revert i
  decide

/-- A field group's bytes spell it (section 10.3). -/
theorem groupOfBytes_bytes (g : FormatGroup) (wellFormed : g.wellFormed = true) : groupOfBytes g.bytes = some g := by
  cases g with
  | header h =>
    change (headerOfBytes h.bytes).map FormatGroup.header = _
    rw [headerOfBytes_bytes]
    rfl
  | absentEntry i =>
    obtain ⟨same, notHeader⟩ := stationByte i
    simp only [FormatGroup.bytes, groupOfBytes, if_neg notHeader, same, i.isLt, dif_pos, if_true]
  | presentEntry i e =>
    obtain ⟨same, notHeader⟩ := stationByte i
    simp only [FormatGroup.bytes, groupOfBytes, if_neg notHeader, same, i.isLt, dif_pos, entryOfBytes_bytes]
    rfl
  | unknownGroup g third =>
    simp only [FormatGroup.wellFormed, Bool.and_eq_true, decide_eq_true_eq] at wellFormed
    simp only [FormatGroup.bytes, groupOfBytes, if_neg wellFormed.2, dif_neg (Nat.not_lt.mpr wellFormed.1)]

theorem groupBytes_length (g : FormatGroup) : g.bytes.length ≤ 22 := by
  cases g <;> simp [FormatGroup.bytes, RawHeader.bytes, RawEntry.bytes, littleEndian]

/-- The frame of a short frame's bytes, of which there are fewer than the length byte says (R163, R164). -/
theorem decodeFrame_short {bytes : List Byte} (short : shortBytes bytes = true) :
    decodeFrame p bytes = .shortFrame p bytes := by
  match bytes with
  | [_] => rfl
  | code :: len :: rest =>
    simp only [shortBytes, Bool.and_eq_true, decide_eq_true_eq] at short
    have whole : (code :: len :: rest).take frameLimit = code :: len :: rest := List.take_of_length_le short.2
    simp only [decodeFrame, whole, if_pos short.1]

end

/-- Settles O4, command by command: a catalogued one by `decodes_to`, a refused frame by the test of R164 that refuses it. -/
theorem commandFramesRoundTrip : Obligations.CommandFramesRoundTrip := by
  intro i p bytes wellFormed spelled
  cases i <;> cases spelled
  case readSeq seq =>
    exact decodes_to rfl (mem_allPorts p) (Nat.le_of_ble_eq_true rfl)
      (congrArg (fun v => some (Instr.readSeq p v)) (word_byteOf seq))
  case markReject seq =>
    exact decodes_to rfl (List.mem_singleton.mpr rfl) (Nat.le_of_ble_eq_true rfl)
      (congrArg (fun v => some (Instr.markReject v)) (word_byteOf seq))
  case nudge v =>
    exact decodes_to rfl (List.mem_singleton.mpr rfl) (Nat.le_of_ble_eq_true rfl)
      (congrArg (fun v => some (Instr.nudge v)) (half_byteOf v))
  case verdict seq outcome code =>
    exact decodes_to rfl (List.mem_singleton.mpr rfl) (Nat.le_of_ble_eq_true rfl)
      (congrArg (fun v => some (Instr.verdict v outcome code)) (word_byteOf seq))
  case setConstants c =>
    refine decodes_to rfl (List.mem_singleton.mpr rfl) (Nat.le_of_ble_eq_true rfl) ?_
    change some (Instr.setConstants
      { c with e := half (byteOf c.e 0) (byteOf c.e 1), z0 := half (byteOf c.z0 0) (byteOf c.z0 1) }) = _
    rw [half_byteOf, half_byteOf]
  case setCell c =>
    refine decodes_to rfl (List.mem_singleton.mpr rfl) (Nat.le_of_ble_eq_true rfl) ?_
    change some (Instr.setCell
      { c with
        filter := half (byteOf c.filter 0) (byteOf c.filter 1), width := half (byteOf c.width 0) (byteOf c.width 1) }) = _
    rw [half_byteOf, half_byteOf]
  case writeFormat slot group =>
    refine decodes_to rfl (mem_allPorts p) (Nat.add_le_add_right (Nat.succ_le_succ (groupBytes_length group)) 2 |>.trans
      (by decide)) ?_
    change (groupOfBytes group.bytes).map (Instr.writeFormat p slot) = _
    rw [groupOfBytes_bytes group wellFormed]
    rfl
  case shortFrame => exact decodeFrame_short wellFormed
  case emptyFrame => rfl
  case unknownCommand code params =>
    simp only [Instr.wellFormed, paramsFit, Bool.and_eq_true, decide_eq_true_eq, Option.isNone_iff_eq_none] at wellFormed
    obtain ⟨fits, uncatalogued⟩ := wellFormed
    rw [decodeFrame_frame fits]
    simp only [classify, uncatalogued]
  case notOnPort code params =>
    simp only [Instr.wellFormed, paramsFit, Bool.and_eq_true, decide_eq_true_eq, Option.any_eq_true] at wellFormed
    obtain ⟨fits, ports, offered, elsewhere⟩ := wellFormed
    rw [decodeFrame_frame fits]
    simp only [classify, offered]
    exact if_neg (by simpa using elsewhere)
  case parameterLengthMismatch code params =>
    simp only [Instr.wellFormed, paramsFit, Bool.and_eq_true, decide_eq_true_eq, Option.any_eq_true,
      Option.isNone_iff_eq_none] at wellFormed
    obtain ⟨⟨fits, ports, offered, here⟩, unspelled⟩ := wellFormed
    rw [decodeFrame_frame fits]
    simp only [classify, offered, unspelled, Option.getD_none]
    exact if_pos (by simpa using here)
  case nop | status | readMotion | setWindow | readNext | peekCell | stop | lockNew | lockReturn | lockTake | lockRelease
      | lockQuery | readFormat | commitFormat =>
    exact decodes_to rfl (mem_allPorts p) (Nat.le_of_ble_eq_true rfl) rfl
  all_goals exact decodes_to rfl (List.mem_singleton.mpr rfl) (Nat.le_of_ble_eq_true rfl) rfl

end Sys2Proof.Proofs

/-!
PROOF. Whatever a master clocks, its frame spells a well-formed command of its port (R163, R164), and the framing of the
ports bit by bit (R163, R164, R166, R168).
-/

namespace Sys2Proof.Proofs

open Sys2Proof Sys2Proof.Machine Sys2Proof.Safety Sys2Proof.Laws

/-! ### The command that a frame spells -/

/-- A well-formed command that comes by a frame on a port. -/
def SpelledOn (p : Port) (i : Instr) : Prop := i.wellFormed = true ∧ ∃ canonical, encodeFrame i = some (p, canonical)

section
variable {p : Port} {code : Byte} {params : List Byte} {i j : Instr}

theorem spelledOn_noParams (spelled : SpelledOn p j) (h : noParams j params = some i) : SpelledOn p i := by
  unfold noParams at h
  split at h <;> cases h
  exact spelled

theorem spelledOn_oneByte {f : Byte → Instr} (spelled : ∀ a, SpelledOn p (f a)) (h : oneByte f params = some i) :
    SpelledOn p i := by
  unfold oneByte at h
  split at h <;> cases h
  exact spelled _

theorem spelledOn_twoBytes {f : Byte → Byte → Instr} (spelled : ∀ a b, SpelledOn p (f a b))
    (h : twoBytes f params = some i) : SpelledOn p i := by
  unfold twoBytes at h
  split at h <;> cases h
  exact spelled _ _

theorem spelledOn_oneWord {f : Word → Instr} (spelled : ∀ v, SpelledOn p (f v)) (h : oneWord f params = some i) :
    SpelledOn p i := by
  unfold oneWord at h
  split at h <;> cases h
  exact spelled _

/-- The group that a WRITE FORMAT names is well formed (R164). -/
theorem groupOfBytes_wellFormed {g : FormatGroup} {bytes : List Byte} (h : groupOfBytes bytes = some g) :
    g.wellFormed = true := by
  unfold groupOfBytes at h
  split at h
  · cases h
  · next group rest =>
    split at h
    · obtain ⟨_, -, rfl⟩ := Option.map_eq_some_iff.mp h
      rfl
    · next notHeader =>
      split at h
      · split at h
        · split at h
          · split at h <;> cases h
            rfl
          · split at h
            · obtain ⟨_, -, rfl⟩ := Option.map_eq_some_iff.mp h
              rfl
            · cases h
        · cases h
      · next high =>
        split at h <;> cases h
        simp only [FormatGroup.wellFormed, Bool.and_eq_true, decide_eq_true_eq]
        exact ⟨Nat.le_of_not_lt high, notHeader⟩

theorem spelledOn_writeFormat (h : writeFormatOfBytes p params = some i) : SpelledOn p i := by
  unfold writeFormatOfBytes at h
  split at h
  · obtain ⟨g, group, rfl⟩ := Option.map_eq_some_iff.mp h
    exact ⟨groupOfBytes_wellFormed group, _, rfl⟩
  · cases h

/-- The codes of one port only are offered on that port only (section 10.3). -/
theorem offeredOn_line {ports : List Port} (offered : offeredOn code = some ports) (here : p ∈ ports)
    (low : 0x20 ≤ code.toNat) (high : code.toNat ≤ 0x2F) : p = .line := by
  unfold offeredOn at offered
  rw [if_neg (by omega), if_pos (by simp [low, high])] at offered
  cases offered
  exact List.mem_singleton.mp here

theorem offeredOn_inspection {ports : List Port} (offered : offeredOn code = some ports) (here : p ∈ ports)
    (named : code.toNat = 0x40 ∨ code.toNat = 0x41) : p = .inspection := by
  unfold offeredOn at offered
  rw [if_neg (by omega), if_neg (by simp; omega), if_pos (by simpa using named)] at offered
  cases offered
  exact List.mem_singleton.mp here

theorem offeredOn_drive {ports : List Port} (offered : offeredOn code = some ports) (here : p ∈ ports)
    (named : code.toNat = 0x60) : p = .drive := by
  unfold offeredOn at offered
  rw [if_neg (by omega), if_neg (by simp; omega), if_neg (by simp; omega), if_pos named] at offered
  cases offered
  exact List.mem_singleton.mp here

/-- The command that a code and parameters spell is a command of a port that offers the code (section 10.3). -/
theorem spelledOn_commandOf {ports : List Port} (offered : offeredOn code = some ports) (here : p ∈ ports)
    (h : commandOf p code params = some i) : SpelledOn p i := by
  have line := offeredOn_line offered here
  unfold commandOf at h
  split at h
  case h_1 | h_2 | h_3 | h_5 | h_8 | h_9 => exact spelledOn_noParams ⟨rfl, _, rfl⟩ h
  case h_4 | h_15 => exact spelledOn_twoBytes (fun _ _ => ⟨rfl, _, rfl⟩) h
  case h_6 => exact spelledOn_oneWord (fun _ => ⟨rfl, _, rfl⟩) h
  case h_7 | h_10 | h_11 | h_12 | h_13 | h_16 => exact spelledOn_oneByte (fun _ => ⟨rfl, _, rfl⟩) h
  case h_14 => exact spelledOn_writeFormat h
  case h_17 | h_18 | h_19 | h_20 | h_25 | h_26 | h_27 | h_29 | h_32 =>
    cases line (by omega) (by omega)
    exact spelledOn_noParams ⟨rfl, _, rfl⟩ h
  case h_21 =>
    cases line (by omega) (by omega)
    unfold constantsOfBytes at h
    split at h <;> cases h
    exact ⟨rfl, _, rfl⟩
  case h_22 =>
    cases line (by omega) (by omega)
    unfold cellOfBytes at h
    split at h <;> cases h
    exact ⟨rfl, _, rfl⟩
  case h_23 | h_24 | h_31 =>
    cases line (by omega) (by omega)
    exact spelledOn_oneByte (fun _ => ⟨rfl, _, rfl⟩) h
  case h_28 =>
    cases line (by omega) (by omega)
    exact spelledOn_oneWord (fun _ => ⟨rfl, _, rfl⟩) h
  case h_30 =>
    cases line (by omega) (by omega)
    unfold nudgeOfBytes at h
    split at h <;> cases h
    exact ⟨rfl, _, rfl⟩
  case h_33 =>
    cases offeredOn_inspection offered here (by omega)
    exact spelledOn_noParams ⟨rfl, _, rfl⟩ h
  case h_34 =>
    cases offeredOn_inspection offered here (by omega)
    unfold verdictOfBytes at h
    split at h <;> cases h
    exact ⟨rfl, _, rfl⟩
  case h_35 =>
    cases offeredOn_drive offered here (by omega)
    exact spelledOn_noParams ⟨rfl, _, rfl⟩ h
  case h_36 => cases h

/-- The tests of R164 leave a well-formed command of the port. -/
theorem spelledOn_classify (fits : params.length + 2 ≤ frameLimit) : SpelledOn p (classify p code params) := by
  have fit : paramsFit params = true := decide_eq_true fits
  unfold classify
  split
  · next uncatalogued =>
    refine ⟨?_, _, rfl⟩
    simp only [Instr.wellFormed, fit, uncatalogued, Option.isNone_none, Bool.and_self]
  · next ports offered =>
    split
    · next here =>
      cases spells : commandOf p code params with
      | some i => exact spelledOn_commandOf offered here spells
      | none =>
        refine ⟨?_, _, rfl⟩
        simp [Instr.wellFormed, fit, offered, spells, here]
    · next elsewhere =>
      refine ⟨?_, _, rfl⟩
      simp [Instr.wellFormed, fit, offered, elsewhere]

theorem spelledOn_decodeFrame (p : Port) (bytes : List Byte) : SpelledOn p (decodeFrame p bytes) := by
  have limit : (bytes.take frameLimit).length ≤ frameLimit := List.length_take_le _ _
  unfold decodeFrame
  split
  · exact ⟨rfl, _, rfl⟩
  · exact ⟨rfl, _, rfl⟩
  · next code len rest whole =>
    rw [whole] at limit
    split
    · next short =>
      refine ⟨?_, _, rfl⟩
      simp only [Instr.wellFormed, shortBytes, Bool.and_eq_true, decide_eq_true_eq]
      exact ⟨short, limit⟩
    · refine spelledOn_classify (le_trans (Nat.add_le_add_right ?_ 2) limit)
      exact (List.length_take_le' _ _)

end

/-! ### Bits and bytes -/

section

/-- The low bits of a number complete what is left of it without them. -/
theorem foldl_lowBits (n k : Nat) :
    ((List.range k).reverse.map n.testBit).foldl (fun m b => 2 * m + b.toNat) (n / 2 ^ k) = n := by
  induction k with
  | zero => simp
  | succ k ih =>
    have bit : 2 * (n / 2 ^ (k + 1)) + (n.testBit k).toNat = n / 2 ^ k := by
      rw [Nat.toNat_testBit, Nat.pow_succ, ← Nat.div_div_eq_div_mul]
      exact Nat.div_add_mod ..
    rw [List.range_succ, List.reverse_append, List.reverse_singleton, List.singleton_append, List.map_cons, List.foldl_cons,
      bit]
    exact ih

/-- The eight bits of a byte make it again (R168). -/
theorem byteOfBits_bitsOf (x : Byte) : byteOfBits (bitsOf x) = x := by
  have whole := foldl_lowBits x.toNat 8
  rw [Nat.div_eq_of_lt x.isLt] at whole
  exact (congrArg (BitVec.ofNat 8) whole).trans (by rw [BitVec.ofNat_toNat, BitVec.setWidth_eq])

theorem wholeBytes_cut (cut : List Bool) (short : cut.length < 8) : wholeBytes cut = [] := by
  unfold wholeBytes
  split
  · simp only [List.length_cons] at short
    omega
  · rfl

theorem wholeBytes_bits (bytes : List Byte) (cut : List Bool) (short : cut.length < 8) :
    wholeBytes (bytes.flatMap bitsOf ++ cut) = bytes := by
  induction bytes with
  | nil => exact wholeBytes_cut cut short
  | cons x rest ih =>
    have first : wholeBytes ((x :: rest).flatMap bitsOf ++ cut)
        = byteOfBits (bitsOf x) :: wholeBytes (rest.flatMap bitsOf ++ cut) := by
      rw [List.flatMap_cons, List.append_assoc]
      rfl
    rw [first, byteOfBits_bitsOf, ih]

theorem bitsOf_getElem? (x : Byte) {n : Nat} (small : n < 8) : (bitsOf x)[n]? = some (x.getLsbD (7 - n)) := by
  have place : ∀ n : Fin 8, ([7, 6, 5, 4, 3, 2, 1, 0] : List Nat)[n.val]? = some (7 - n.val) := by decide
  rw [bitsOf, List.getElem?_map, place ⟨n, small⟩]
  rfl

/-- Bit `n` of a run of bytes (R168). -/
theorem flatMap_bitsOf_getElem? (l : List Byte) (n : Nat) :
    (l.flatMap bitsOf)[n]? = (l[n / 8]?).map fun x => x.getLsbD (7 - n % 8) := by
  induction l generalizing n with
  | nil => rfl
  | cons x rest ih =>
    have length : (bitsOf x).length = 8 := rfl
    rw [List.flatMap_cons, List.getElem?_append, length]
    split
    · next small =>
      rw [bitsOf_getElem? x small, Nat.div_eq_of_lt small, Nat.mod_eq_of_lt small]
      rfl
    · next large =>
      have quotient : n / 8 = (n - 8) / 8 + 1 := by omega
      have rest' : n % 8 = (n - 8) % 8 := by omega
      rw [ih, quotient, rest', List.getElem?_cons_succ]

/-- A byte of what the part returns (R163). -/
theorem returned_getElem? (r : Response) (k : Nat) : (r.returned (k + 1))[k]?
    = some (if k < 64 then (r.bytes[k]?).getD 0xFF else 0xFF) := by
  have filled (n : Nat) (within : n ≤ k) : (List.replicate (k + 1) (0xFF : Byte))[n]? = some 0xFF :=
    List.getElem?_replicate_of_lt (Nat.lt_succ_of_le within)
  rw [Response.returned, List.getElem?_take_of_lt (Nat.lt_succ_self k), List.getElem?_append]
  split
  · next inside =>
    obtain ⟨within, sent⟩ := lt_min_iff.mp (List.length_take ▸ inside)
    rw [if_pos (show k < 64 from within), List.getElem?_take_of_lt within, List.getElem?_eq_getElem sent, Option.getD_some]
  · next beyond =>
    rw [filled _ (Nat.sub_le ..)]
    split
    · next within =>
      have past : r.bytes[k]? = none := List.getElem?_eq_none (by
        by_contra less
        exact beyond (List.length_take ▸ lt_min_iff.mpr ⟨within, not_le.mp less⟩))
      rw [past, Option.getD_none]
    · rfl

end

/-! ### A frame on a port -/

section
variable {p : Port} {bits : List Bool} {bit : Bool} {s : State}

/-- A state whose port is in the middle of a frame. -/
abbrev State.clocked (p : Port) (bits : List Bool) (high : Bool) (s : State) : State :=
  { s with frames := s.frames.set p (.clocking bits high) }

theorem chipSelect_takes (takes : Takes s p) : s.chipSelect p = State.clocked p [] false s := by
  have hears : ¬ s.disregards p = true := by
    rw [disregards_iff, takes.1, takes.2]
    decide
  rw [State.chipSelect, if_neg hears]
  rfl

theorem clockRise_clocked : (State.clocked p bits false s).clockRise p bit = State.clocked p (bits ++ [bit]) true s := by
  rw [State.clockRise, State.putFrame, perPort_get_set_self, State.clocked, perPort_set_set]
  rfl

theorem clockFall_clocked : (State.clocked p bits true s).clockFall p = State.clocked p bits false s := by
  rw [State.clockFall, State.putFrame, perPort_get_set_self, State.clocked, perPort_set_set]
  rfl

/-- Bits clocked one after the other (R168). -/
theorem clock_bits (more : List Bool) : more.foldl (fun s bit => (s.clockRise p bit).clockFall p)
    (State.clocked p bits false s) = State.clocked p (bits ++ more) false s := by
  induction more generalizing bits with
  | nil => rw [List.append_nil]; rfl
  | cons bit more ih => rw [List.foldl_cons, clockRise_clocked, clockFall_clocked, ih, List.append_assoc]; rfl

theorem chipDeselect_clocked (high : Bool) : (State.clocked p bits high s).chipDeselect p
    = { s with frames := s.frames.set p .idle, pending := s.pending ++ [decodeFrame p (wholeBytes bits)] } := by
  simp only [State.chipDeselect, perPort_get_set_self, State.putFrame, perPort_set_set]

/-- The bit at the data output after `n` bits (R163, R168). -/
theorem dataOut_clocked {high : Bool} {n : Nat} (index : outIndex bits.length high = n) :
    (State.clocked p bits high s).dataOut p
      = some ((if n / 8 < 64 then ((s.ports.get p).response.bytes[n / 8]?).getD 0xFF else 0xFF : Byte).getLsbD
          (7 - n % 8)) := by
  simp only [State.dataOut, perPort_get_set_self, index, flatMap_bitsOf_getElem?, returned_getElem?,
    Option.map_some]

end

/-- Settles O5, by `spelledOn_decodeFrame` for the command, and bit by bit for the clocking. -/
theorem everyFrameSpellsAWellFormedCommand : Obligations.EveryFrameSpellsAWellFormedCommand := by
  refine ⟨spelledOn_decodeFrame, wholeBytes_bits, fun x n => bitsOf_getElem? x n.isLt, fun p bits s takes => ?_,
    fun p s deaf => ?_, fun p bit s abandoned => ?_, fun r => ?_⟩
  · have clocked := clock_bits (p := p) (bits := []) (s := s) bits
    rw [← chipSelect_takes takes, List.nil_append] at clocked
    rw [clocked]
    refine ⟨rfl, chipDeselect_clocked false, ⟨_, dataOut_clocked rfl, rfl⟩, fun bit => ?_⟩
    rw [clockRise_clocked, chipDeselect_clocked]
    exact ⟨(dataOut_clocked (by simp [outIndex])).trans (dataOut_clocked rfl).symm, rfl⟩
  · have deaf : s.disregards p = true := by
      rw [disregards_iff]
      by_contra hears
      simp only [not_or, Bool.not_eq_true] at hears
      exact deaf hears
    rw [State.chipSelect, if_pos deaf]
    rfl
  · have same (f : Framing) (h : f = .abandoned) : s.putFrame p f = s := by
      rw [h, ← abandoned, State.putFrame, perPort_set_get_self]
    refine ⟨same _ (by rw [abandoned]; rfl), same _ (by rw [abandoned]; rfl), ?_, ?_⟩
    · simp only [State.dataOut, abandoned]
    · simp only [State.chipDeselect, abandoned]
      rfl
  · have coded : ∀ status : Status, (status, status.value) ∈ statusCodes := fun status => by cases status <;> decide
    exact ⟨_, coded r.status, rfl⟩

end Sys2Proof.Proofs

/-!
PROOF. The crossings of a forward step (R43, R44, R46 to R48): which they are, what each does to the marks and windows, and
how slots join and leave the evaluated set.
-/

namespace Sys2Proof.Proofs

open Sys2Proof Sys2Proof.Machine Sys2Proof.Safety Sys2Proof.Laws

/-! ### Effective angles -/

theorem earlier_lt (angle : Half) (lead : Nat) : earlier angle lead < 65536 := Nat.mod_lt _ (by decide)

/-- An angle less its lead, and the lead added again (R43). -/
theorem earlier_add (angle : Half) (lead : Nat) : (earlier angle lead + lead) % 65536 = angle.toNat := by
  have small : angle.toNat < 65536 := angle.isLt
  unfold earlier
  omega

theorem effectiveAngles (e : Entry) (st : Station) :
    (e.kind.isOutput = false → e.effectiveOn st = e.onAngle.toNat ∧ e.effectiveOff st = e.offAngle.toNat)
    ∧ (e.kind.isOutput = true → e.effectiveOn st = earlier e.onAngle st.lead
        ∧ e.effectiveOff st = earlier e.offAngle st.lead) := by
  unfold Entry.effectiveOn Entry.effectiveOff
  cases e.kind.isOutput <;> simp

/-! ### Which crossings a step passes -/

section
variable {k : Fin 4} {i : Fin 16} {e : Entry} {st : Station} {low high : Nat} {x : Crossing} {s : State}

/-- The crossings of one station: its on-crossing and its off-crossing, where the mark is clear and the effective angle is
passed (R44). -/
theorem mem_crossingsOf : x ∈ crossingsOf k i e st low high ↔ x.slot = k ∧ x.index = i ∧ low ≤ x.angle ∧ x.angle ≤ high
    ∧ (if x.isOn = true then st.onMark = false ∧ x.angle = e.effectiveOn st ∧ x.order = 1
      else st.offMark = false ∧ x.angle = e.effectiveOff st ∧ x.order = if e.kind = .feed then 0 else 2) := by
  have single {clear : Bool} {y : Crossing} : x ∈ (if !clear && inRange low high y.angle then [y] else [])
      ↔ x = y ∧ clear = false ∧ low ≤ x.angle ∧ x.angle ≤ high := by
    rw [List.mem_ite_nil_right, List.mem_singleton, Bool.and_eq_true, Bool.not_eq_true', inRange_iff]
    constructor
    · rintro ⟨⟨clear, passed⟩, rfl⟩
      exact ⟨rfl, clear, passed⟩
    · rintro ⟨rfl, clear, passed⟩
      exact ⟨⟨clear, passed⟩, rfl⟩
  refine List.mem_append.trans ((or_congr
    (single (y := ⟨k, i, true, e.effectiveOn st, 1⟩))
    (single (y := ⟨k, i, false, e.effectiveOff st, if e.kind = .feed then 0 else 2⟩))).trans ?_)
  obtain ⟨slot, index, isOn, angle, order⟩ := x
  cases isOn <;> simp only [Crossing.mk.injEq, if_true, if_false, Bool.false_eq_true, reduceCtorEq] <;> tauto

/-- The crossings of a forward step (R43, R44, R47). -/
theorem mem_crossings : x ∈ s.crossings low high ↔ s.evaluated x.slot = true
    ∧ ∃ e, s.entry x.slot x.index = some e ∧ x ∈ crossingsOf x.slot x.index e (s.station x.slot x.index) low high := by
  simp only [State.crossings, List.mem_flatMap, List.mem_finRange, true_and]
  constructor
  · rintro ⟨k, there⟩
    split at there
    · next evaluated =>
      obtain ⟨i, -, there⟩ := List.mem_flatMap.mp there
      split at there
      · next e entry =>
        obtain ⟨rfl, rfl, -⟩ := mem_crossingsOf.mp there
        exact ⟨evaluated, e, entry, there⟩
      · cases there
    · cases there
  · rintro ⟨evaluated, e, entry, there⟩
    refine ⟨x.slot, ?_⟩
    rw [if_pos evaluated, List.mem_flatMap]
    refine ⟨x.index, List.mem_finRange _, ?_⟩
    simp only [entry]
    exact there

/-- A forward step takes its crossings in the order of R44 until none is left. -/
theorem passAngles_passes (low high : Nat) (s : State) : (s.crossings low high = [] → s.passAngles low high = s)
    ∧ (s.crossings low high ≠ [] → Passes high low { s with choice := s.choice + 1 } (s.passAngles low high)) := by
  unfold State.passAngles
  refine ⟨fun empty => ?_, fun some => ?_⟩
  · rw [empty]
    rfl
  · rw [if_neg (by simpa using some)]
    exact passes_takeCrossings low (crossingsLeft_le _)

end

/-! ### Windows at their crossings -/

section
variable {k : Fin 4} {i : Fin 16} {e : Entry} {theta : Nat} {s : State}

/-- Work that only fires a station leaves it but for its flag, and the other stations. -/
theorem station_of_acts {t : State} {fires : Prop} (acts : ActsBy k i e s t fires) :
    t.station k i = { s.station k i with fired := (t.station k i).fired }
      ∧ ∀ (k' : Fin 4) (j : Fin 16), k' ≠ k ∨ j ≠ i → t.station k' j = s.station k' j := by
  by_cases h : fires
  · have fired (k' : Fin 4) (j : Fin 16) := (station_of_stations (acts.1 h).1).trans (fire_station k k' i j e s)
    refine ⟨?_, fun k' j other => ?_⟩
    · rw [fired, if_pos ⟨rfl, rfl⟩]
    · rw [fired, if_neg]
      rintro ⟨rfl, rfl⟩
      exact other.elim (absurd rfl) (absurd rfl)
  · have same (k' : Fin 4) (j : Fin 16) : t.station k' j = s.station k' j := station_of_stations (acts.2 h).1
    exact ⟨by rw [same], fun k' j _ => same k' j⟩

/-- Of the stations, an on-crossing's own work changes at most the fired flag of its own. -/
theorem onCrossing_station (k : Fin 4) (i : Fin 16) (e : Entry) (theta : Nat) (s : State) :
    (s.onCrossing k i e theta).station k i
      = { (State.crossedOn k i e theta s).station k i with fired := ((s.onCrossing k i e theta).station k i).fired }
    ∧ ∀ (k' : Fin 4) (j : Fin 16), k' ≠ k ∨ j ≠ i →
      (s.onCrossing k i e theta).station k' j = (State.crossedOn k i e theta s).station k' j := by
  rw [onCrossing_eq]
  split
  · obtain ⟨fires, acts⟩ := outputAction_acts (k := k) (i := i) (e := e)
      (((State.crossedOn k i e theta s).presentAt e.position).filter fun b => b.fmt = k) (State.crossedOn k i e theta s)
    exact station_of_acts acts
  · exact ⟨rfl, fun _ _ _ => rfl⟩

theorem offCrossing_shut (shut : (s.station k i).windowOpen = false) :
    s.offCrossing k i e theta = State.takenOff k i s := by
  have still : ¬ ((State.takenOff k i s).station k i).windowOpen = true := by
    rw [takenOff_station]
    exact Bool.eq_false_iff.mp shut
  exact if_neg still

theorem updStation_other (f : Station → Station) {k' : Fin 4} {j : Fin 16} (other : k' ≠ k ∨ j ≠ i) :
    (s.updStation k i f).station k' j = s.station k' j := by
  rw [station_updStation, if_neg]
  rintro ⟨rfl, rfl⟩
  exact other.elim (absurd rfl) (absurd rfl)

/-! ### What closes a window keeps its station's marks -/

/-- A changeover keeps the marks of an input station whose window is open (R48). -/
theorem makeActive_marks (n : Fin 4) (theta : Nat) (entry : s.entry k i = some e) (input : e.kind.isOutput = false)
    (isOpen : (s.station k i).windowOpen = true) :
    ((s.makeActive n theta).station k i).onMark = (s.station k i).onMark
      ∧ ((s.makeActive n theta).station k i).offMark = (s.station k i).offMark := by
  have same := (activated_windowOpen n theta s k i).resolve_right fun shut => by rw [isOpen] at shut; cases shut.2
  have settles := (settles_gumChangeover n (State.activated n theta s)).trans (settles_prune _)
  rw [makeActive_eq, ← same]
  refine settles.marks k (evaluated_of_open (i := i) (settles.inputs k i e ?_ input (same ▸ isOpen))) i
  rw [activated_entry]
  exact entry

theorem createRecord_marks (theta : Nat) (entry : s.entry k i = some e) (input : e.kind.isOutput = false)
    (isOpen : (s.station k i).windowOpen = true) :
    ((s.createRecord k theta).station k i).onMark = (s.station k i).onMark
      ∧ ((s.createRecord k theta).station k i).offMark = (s.station k i).offMark := by
  have created (fmt : Fin 4) (u : State) : (State.createdUnder fmt u).station k i = u.station k i := by
    rw [createdUnder_eq]
    rfl
  cases pending : s.pendingSlot with
  | none =>
    rw [createRecord_of_settled pending, created]
    exact ⟨rfl, rfl⟩
  | some n =>
    rw [createRecord_of_pending pending, created]
    exact makeActive_marks n theta entry input isOpen

theorem settles_markStation (k : Fin 4) (st : Station) (s : State) : Settles s (s.markStation k st) := by
  unfold State.markStation
  split
  · exact settles_ite (settles_markEvaluation ..) (settles_refl s)
  · exact settles_refl s

theorem settles_patchCheck (k : Fin 4) (st : Station) (s : State) : Settles s (s.patchCheck k st) := by
  unfold State.patchCheck
  split
  · exact settles_ite (settles_update _ _ fun b _ => evolves_addFault _ b) (settles_refl s)
  · exact settles_refl s

theorem settles_countStation (k : Fin 4) (st : Station) (s : State) : Settles s (s.countStation k st) := by
  unfold State.countStation
  split
  · split
    · exact settles_countVerification ..
    · exact settles_refl s
  · exact settles_ite (settles_countVerification ..) (settles_refl s)
  · exact settles_refl s

/-- What a station does as its window closes keeps its marks (R46). -/
theorem closingAction_marks (theta : Nat) (entry : s.entry k i = some e) (isOpen : (s.station k i).windowOpen = true)
    (st : Station) : ((s.closingAction k i e st theta).station k i).onMark = (s.station k i).onMark
      ∧ ((s.closingAction k i e st theta).station k i).offMark = (s.station k i).offMark := by
  have still := evaluated_of_open (closingAction_open st theta entry isOpen)
  have settled (settles : Settles s (s.closingAction k i e st theta)) := settles.marks k still i
  cases output : e.kind.isOutput with
  | true => exact settled (by rw [closingAction_output output]; exact (settles_sendOperation e st s).1)
  | false =>
    cases enabled : e.enabled with
    | false => exact settled (by rw [closingAction_disabled output enabled]; exact settles_refl s)
    | true =>
      cases kind : e.kind with
      | feed =>
        rw [closingAction_feed enabled st s kind]
        by_cases creates : FeedCreates k st s
        · rw [feedEvaluation_creates creates]
          exact createRecord_marks theta entry output isOpen
        · simp only [FeedCreates, not_and_or, ne_eq, not_not, Bool.not_eq_true] at creates
          rw [feedEvaluation_passes creates]
          exact ⟨rfl, rfl⟩
      | mark => exact settled (by rw [closingAction_mark enabled st s kind]; exact settles_markStation k st s)
      | patchCheck => exact settled (by rw [closingAction_patchCheck enabled st s kind]; exact settles_patchCheck k st s)
      | foldCheck => exact settled (by rw [closingAction_foldCheck enabled st s kind]; exact settles_foldCheck k i st s)
      | count => exact settled (by rw [closingAction_count enabled st s kind]; exact settles_countStation k st s)
      | window | patch | gum | inspect | reject | kick | box => rw [kind] at output; cases output

/-- A window closed at a crossing: its station keeps its marks and is otherwise closed (R46). -/
theorem closeWindow_station (theta : Nat) (entry : s.entry k i = some e) (isOpen : (s.station k i).windowOpen = true) :
    let st := (s.closeWindow k i e theta).station k i
    st.onMark = (s.station k i).onMark ∧ st.offMark = (s.station k i).offMark ∧ st.windowOpen = false
      ∧ st.latch = .empty ∧ st.fired = false := by
  obtain ⟨on, off⟩ := closingAction_marks theta entry isOpen (s.station k i)
  rw [State.closeWindow, close_shut]
  exact ⟨on, off, rfl, rfl, rfl⟩

/-- The on-crossing of a window still open closes it first (R46, log 10). -/
theorem crossedOn_of_open (isOpen : (s.station k i).windowOpen = true) : State.crossedOn k i e theta s
    = (((s.updStation k i fun st => { st with onMark := true }).closeWindow k i e theta).updStation k i
        (Station.opened e (((s.updStation k i fun st => { st with onMark := true }).closeWindow k i e theta).presentAt
          e.position))) := by
  have still : ((s.updStation k i fun st => { st with onMark := true }).station k i).windowOpen = true := by
    rw [station_updStation, if_pos ⟨rfl, rfl⟩]
    exact isOpen
  unfold State.crossedOn
  dsimp only
  rw [if_pos still]

end

/-! ### A slot that joins the evaluated set -/

section
variable {n : Fin 4} {theta : Nat} {s : State}

theorem gumTo_station_of_no_window (noWindow : s.firedGum = []) (active : s.active = some n) (new : GumState)
    (expiry : Bool) (i : Fin 16) : (s.gumTo new expiry).station n i = s.station n i := by
  have evaluated (u : State) (h : u.active = some n) : u.evaluated n = true := evaluated_iff.mpr (.inl h)
  unfold State.gumTo
  dsimp only
  rw [noWindow]
  split
  · exact (prune_station ..).trans (if_pos (evaluated _ active))
  · rfl

theorem standbyExpires_station_of_no_window (noWindow : s.firedGum = []) (active : s.active = some n) (i : Fin 16) :
    s.standbyExpires.station n i = s.station n i := by
  have quiet : (s.updateAll Blank.spoil).firedGum = [] := by rw [firedGum_updateAll, noWindow]
  have same : (s.updateAll Blank.spoil).active = some n := by rw [updateAll_active, active]
  refine Eq.trans (gumTo_station_of_no_window quiet same .standby true i) ?_
  obtain ⟨_, h⟩ := updateAll_eq s Blank.spoil
  rw [h]
  rfl

/-- Where no fired GUM window is open, the gum circuit's answer to a changeover leaves the active slot's stations. -/
theorem gumChangeover_station (noWindow : s.firedGum = []) (active : s.active = some n) (i : Fin 16) :
    (s.gumChangeover n).station n i = s.station n i := by
  have turned := fun new => gumTo_station_of_no_window noWindow active new false i
  cases gum : s.gum.state with
  | priming =>
    rw [gumChangeover_of_priming gum, State.abortPrime, if_pos gum]
    exact turned _
  | off => rw [gumChangeover_of_idle (.inl gum), turned]
  | standby => rw [gumChangeover_of_idle (.inr gum), turned]
  | ready =>
    rcases hasGum_cases (n := n) (s := s) with ⟨has, -⟩ | ⟨has, -⟩
    · rw [gumChangeover_of_ready_gum gum has]
      split
      · exact standbyExpires_station_of_no_window noWindow active i
      · rfl
    · rw [gumChangeover_of_ready_off gum has, turned]

/-- A changeover to a slot outside the evaluated set joins it (R48). -/
theorem makeActive_joins (noWindow : s.firedGum = []) (out : s.evaluated n = false) (i : Fin 16) :
    (s.makeActive n theta).station n i
      = (State.join n theta { s with active := some n, pendingSlot := none, fresh := true }).station n i := by
  have quiet := firedGum_activated (n := n) (theta := theta) noWindow
  have joined : State.activated n theta s
      = State.join n theta { s with active := some n, pendingSlot := none, fresh := true } :=
    if_neg (by rw [out]; decide)
  rw [joined] at quiet
  have active : (State.join n theta { s with active := some n, pendingSlot := none, fresh := true }).active = some n := rfl
  obtain ⟨_, _, _, _, made⟩ := makeActive_spec n theta s
  have evaluated : (s.makeActive n theta).evaluated n = true := evaluated_iff.mpr (.inl (by rw [made]))
  rw [makeActive_eq, joined] at evaluated ⊢
  rw [prune_evaluated] at evaluated
  rw [prune_station, if_pos evaluated, gumChangeover_station quiet active]

/-- The stations of a slot that joins: closed, their marks set at or below the angle, their leads from the lead scale
(R48). -/
theorem join_station_spec (n : Fin 4) (theta : Nat) (s : State) (i : Fin 16) :
    let st := (s.join n theta).station n i
    st = { Station.cleared with onMark := st.onMark, offMark := st.offMark, lead := st.lead }
    ∧ ∀ e, s.entry n i = some e →
      st.onMark = decide (e.effectiveOn st ≤ theta) ∧ st.offMark = decide (e.effectiveOff st ≤ theta)
      ∧ st.lead = e.leadUnder s.leadScale := by
  cases entry : s.entry n i with
  | none =>
    rw [join_station_none entry]
    exact ⟨rfl, nofun⟩
  | some e =>
    rw [join_station_some entry]
    refine ⟨rfl, fun e' same => ?_⟩
    cases same
    exact ⟨rfl, rfl, rfl⟩

end

/-! ### The parts of the obligation -/

section
variable {k : Fin 4} {i : Fin 16} {e : Entry} {theta : Nat} {s : State}

/-- The crossings of a station whose window is closed (R46). -/
theorem crossings_shut (shut : (s.station k i).windowOpen = false) :
    let on := s.onCrossing k i e theta
    let off := s.offCrossing k i e theta
    on.station k i = { openedStation k i e s with fired := (on.station k i).fired }
    ∧ (∀ (k' : Fin 4) (j : Fin 16), k' ≠ k ∨ j ≠ i → on.station k' j = s.station k' j)
    ∧ off = { s with stations := off.stations } ∧ off.station k i = { s.station k i with offMark := true }
    ∧ ∀ (k' : Fin 4) (j : Fin 16), k' ≠ k ∨ j ≠ i → off.station k' j = s.station k' j := by
  obtain ⟨own, others⟩ := onCrossing_station k i e theta s
  rw [crossedOn_station shut, if_pos ⟨rfl, rfl⟩] at own
  refine ⟨own, fun k' j other => ?_, ?_, ?_, fun k' j other => ?_⟩
  · rw [others k' j other, crossedOn_station shut, if_neg]
    rintro ⟨rfl, rfl⟩
    exact other.elim (absurd rfl) (absurd rfl)
  · rw [offCrossing_shut shut]
    rfl
  · rw [offCrossing_shut shut, takenOff_station]
  · rw [offCrossing_shut shut, updStation_other _ other]

/-- The on-crossing of a station whose window is still open, which is closed first (R46, log 10). -/
theorem onCrossing_reopens (entry : s.entry k i = some e) (isOpen : (s.station k i).windowOpen = true) :
    let closed := (s.updStation k i fun st => { st with onMark := true }).closeWindow k i e theta
    let on := s.onCrossing k i e theta
    (closed.station k i).windowOpen = false
    ∧ (on.station k i).onMark = true ∧ (on.station k i).offMark = (s.station k i).offMark
    ∧ (on.station k i).windowOpen = true ∧ (on.station k i).latch = latchOf (closed.presentAt e.position)
    ∧ (e.kind.isOutput = false ∨ e.enabled = false →
      on = { closed with stations := on.stations } ∧ (on.station k i).fired = false
      ∧ ∀ (k' : Fin 4) (j : Fin 16), k' ≠ k ∨ j ≠ i → on.station k' j = closed.station k' j)
    ∧ (e.kind.isOutput = false → (on.station k i).seen = false ∧ (on.station k i).firstEdge = none) := by
  intro closed on
  have marked : (s.updStation k i fun st => { st with onMark := true }).station k i = { s.station k i with onMark := true } := by
    rw [station_updStation, if_pos ⟨rfl, rfl⟩]
  obtain ⟨onMark, offMark, shut, -, -⟩ := closeWindow_station (s := s.updStation k i fun st => { st with onMark := true })
    theta entry (by rw [marked]; exact isOpen)
  rw [marked] at onMark offMark
  have crossed : State.crossedOn k i e theta s = closed.updStation k i (Station.opened e (closed.presentAt e.position)) :=
    crossedOn_of_open isOpen
  have reopened : (State.crossedOn k i e theta s).station k i
      = Station.opened e (closed.presentAt e.position) (closed.station k i) := by
    rw [crossed, station_updStation, if_pos ⟨rfl, rfl⟩]
  obtain ⟨own, -⟩ := onCrossing_station k i e theta s
  rw [reopened] at own
  refine ⟨shut, ?_, ?_, ?_, ?_, fun rests => ?_, fun input => ?_⟩
  · rw [own]
    exact onMark
  · rw [own]
    exact offMark
  · rw [own]
    rfl
  · rw [own]
    rfl
  · have whole : on = closed.updStation k i (Station.opened e (closed.presentAt e.position)) :=
      (onCrossing_rests rests).trans crossed
    rw [whole]
    refine ⟨rfl, ?_, fun k' j other => updStation_other _ other⟩
    rw [station_updStation, if_pos ⟨rfl, rfl⟩]
    rfl
  · rw [own]
    simp only [Station.opened, input, Bool.false_eq_true, if_false, and_self]

/-- The off-crossing of a station whose window is open closes it (R46). -/
theorem offCrossing_closes (entry : s.entry k i = some e) (isOpen : (s.station k i).windowOpen = true) :
    let off := s.offCrossing k i e theta
    off = (s.updStation k i fun st => { st with offMark := true }).closeWindow k i e theta
    ∧ (off.station k i).offMark = true ∧ (off.station k i).windowOpen = false ∧ (off.station k i).latch = .empty
    ∧ (off.station k i).fired = false := by
  have still : ((State.takenOff k i s).station k i).windowOpen = true := by rw [takenOff_station]; exact isOpen
  have whole : s.offCrossing k i e theta = (State.takenOff k i s).closeWindow k i e theta := if_pos still
  obtain ⟨-, offMark, shut, latch, fired⟩ := closeWindow_station (s := State.takenOff k i s) theta entry still
  rw [takenOff_station] at offMark
  rw [whole]
  exact ⟨rfl, offMark, shut, latch, fired⟩

theorem evaluated_spec (k : Fin 4) (s : State) : s.evaluated k = true ↔
    s.active = some k ∨ (∃ (p : Fin 64) (b : Blank), s.presentAt p = some b ∧ b.fmt = k)
      ∨ ∃ i : Fin 16, (s.station k i).windowOpen = true := by
  rw [evaluated_iff, carried_iff, anyOpen_iff]

end

/-- Settles O8, by `mem_crossings`, the walk of `passes_takeCrossings`, and the window a station has at its crossing. -/
theorem crossingsAreTakenInOrder : Obligations.CrossingsAreTakenInOrder := by
  refine ⟨fun e st => ⟨(effectiveAngles e st).1, fun output => ?_⟩, fun low high s x => ?_, passAngles_passes,
    fun k i e theta s entry => ⟨fun shut => ?_, fun isOpen => ?_⟩, fun n theta s noWindow out i => ?_, evaluated_spec,
    fun x e s entry => ?_, fun n theta s => leftSetsCleared_prune _⟩
  · obtain ⟨on, off⟩ := (effectiveAngles e st).2 output
    rw [on, off]
    exact ⟨earlier_lt .., earlier_add .., earlier_lt .., earlier_add ..⟩
  · rw [mem_crossings]
    refine and_congr_right fun _ => ?_
    simp only [mem_crossingsOf, true_and]
    constructor
    · rintro ⟨e, entry, least, most, taken⟩
      exact ⟨least, most, e, entry, taken⟩
    · rintro ⟨least, most, e, entry, taken⟩
      exact ⟨e, entry, least, most, taken⟩
  · obtain ⟨own, others, whole, off, offOthers⟩ := crossings_shut (e := e) (theta := theta) shut
    exact ⟨own, others, whole, off, offOthers⟩
  · obtain ⟨shut, onMark, offMark, reopened, latch, rests, input⟩ := onCrossing_reopens (theta := theta) entry isOpen
    exact ⟨shut, onMark, offMark, reopened, latch, rests, input, offCrossing_closes entry isOpen⟩
  · obtain ⟨cleared, marks⟩ := join_station_spec n theta { s with active := some n, pendingSlot := none, fresh := true } i
    rw [← makeActive_joins noWindow out] at cleared marks
    refine ⟨cleared, fun e entry => ?_⟩
    obtain ⟨on, off, lead⟩ := marks e entry
    exact ⟨on, off, lead.trans (leadUnder_leadScale e s)⟩
  · unfold State.takeCrossing
    simp only [entry]
    exact leftSetsCleared_prune _

end Sys2Proof.Proofs
